-- ==== Sys2Proof/Word.lean ====
section
/-! DEFINITION. The word types: bytes, the 64-bit words of the scalar registers, and the widths of the wide files. -/

namespace Sys2Proof

/-- A byte of memory (R2). -/
abbrev Byte := BitVec 8

/-- A 64-bit scalar register or address (R162, R70). -/
abbrev Word := BitVec 64

/-- A vector register at its widest partition (Table 1.5); a hart of L lanes uses its low L × 64 bits. -/
abbrev VReg := BitVec 2048

/-- A mask or topology register at its widest partition (Table 11.1). -/
abbrev Wide := BitVec 4096

end Sys2Proof
end

