-- ==== Sys2Proof/Config.lean ====
section
/-! DEFINITION. What the part fixes and what the spec leaves open: the free values, constants with no body, so that no
proof can see what they are. Each but fmaNanInvalid, one for the machine, is applied to a value of the counter
State.freeCtr (log 3). -/

namespace Sys2Proof.Config

/-- Whether the check of a sector read under another key than it was written with passes by chance (R89, log 6). -/
opaque freeCheckPasses : Nat → Bool

/-- A byte of a sector deciphered under another key than it was written with (R89, log 6). -/
opaque freeDecipheredByte : Nat → Byte

/-- Whether a block that lost power before it was durable holds its new content (R361, log 4). -/
opaque freeBlockIsNew : Nat → Bool

/-- The activation margin count of a row that resolves more than 255 margins under MROWZ, whose 8-bit field R236 gives no
value (log 13). -/
opaque freeMarginCount : Nat → BitVec 8

/-- Whether a fused multiply-add of zero times infinity with a quiet NaN addend signals an invalid operation: IEEE 754-2019,
to which R194 leaves it, leaves it to the implementation (log 33). -/
opaque fmaNanInvalid : Bool

/-- What an event counter reads whose events the spec leaves to the implementation's timing (R6, R367, log 23). -/
opaque freeEventCount : Nat → BitVec 48

/-- Whether such a counter has wrapped (log 23). -/
opaque freeEventWrap : Nat → Bool

/-- A byte of a frame's body as it stands in its slot: the body's layout is not architectural (R332, log 22). -/
opaque freeFrameByte : Nat → Byte

/-- The populated HBM of each die in bytes (Table 6.7 "per part"; log 10: the whole window of Table 6.1). -/
def populatedBytes : Nat := 144000000000

/-- The FEAT bits of a part as shipped (R169). -/
def featShipped : BitVec 3 := 7

end Sys2Proof.Config
end

