-- ==== Sys2Proof/Syntax.lean ====
section
/-! DEFINITION. Syntax: the streams, the coded fields of Table 3.3, the tail formats of Table 3.2, the steps of the
module's other agents, and Instr with one constructor per row of the opcode table. -/

namespace Sys2Proof

/-- The three streams of a hart (R14). -/
inductive Stream where
  | a | x | c
  deriving DecidableEq, Repr

/-- The six scopes of Table 0.2 (R4). -/
inductive Scope where
  | ln | co | qd | di | pk | pd
  deriving DecidableEq, Repr

/-- The order field of Table 3.3. -/
inductive Order where
  | plain | aq | rl | aqrl
  deriving DecidableEq, Repr

/-- The group field of Table 3.3: none (one register), .G2, .G4, .G8. -/
inductive Group where
  | g1 | g2 | g4 | g8
  deriving DecidableEq, Repr

/-- Registers in a group. -/
def Group.size : Group → Nat
  | .g1 => 1 | .g2 => 2 | .g4 => 4 | .g8 => 8

/-- Rounding modes (Table 3.3, R25). -/
inductive Rm where
  | rne | rtz | rup | rdn | rna
  deriving DecidableEq, Repr

/-- Well states (Table 3.3, R137). -/
inductive WellState where
  | free | filling | full | draining | faulted
  deriving DecidableEq, Repr

/-- The formats of Table 3.4 (R40). -/
inductive Fmt where
  | i8 | i16 | i32 | i64 | n8 | n16 | n32 | n64 | i4
  | fp4 | fp8a | fp8b | fp16 | bf16 | fp32 | cb2 | sc8 | acc80
  deriving DecidableEq, Repr

/-- Element width in bits (Table 3.4). -/
def Fmt.width : Fmt → Nat
  | .i8 => 8 | .i16 => 16 | .i32 => 32 | .i64 => 64 | .n8 => 8 | .n16 => 16 | .n32 => 32 | .n64 => 64 | .i4 => 4
  | .fp4 => 4 | .fp8a => 8 | .fp8b => 8 | .fp16 => 16 | .bf16 => 16 | .fp32 => 32 | .cb2 => 16 | .sc8 => 8 | .acc80 => 80

/-- Tail format HT16R of Table 3.2 (R37): b[14:10] a[9:5] d[4:0]; every other bit is zero. -/
structure HT16R where
  b : Fin 32
  a : Fin 32
  d : Fin 32
  deriving DecidableEq, Repr

/-- Tail format HT16VS of Table 3.2 (R37): v[15:10] s[4:0]; every other bit is zero. -/
structure HT16VS where
  v : Fin 64
  s : Fin 32
  deriving DecidableEq, Repr

/-- Tail format HT16Q of Table 3.2 (R37): qset[15:8] q[7:5] s[4:0]; every other bit is zero. -/
structure HT16Q where
  qset : BitVec 8
  q : Fin 8
  s : Fin 32
  deriving DecidableEq, Repr

/-- Tail format HT16H of Table 3.2 (R37): handle[15:10] state[9:7] s[4:0]; every other bit is zero. -/
structure HT16H where
  handle : Fin 64
  state : WellState
  s : Fin 32
  deriving DecidableEq, Repr

/-- Tail format HT16S of Table 3.2 (R37): scope[15:13] id[12:8] s[4:0]; every other bit is zero. -/
structure HT16S where
  scope : Scope
  id : Fin 32
  s : Fin 32
  deriving DecidableEq, Repr

/-- Tail format HT16K of Table 3.2 (R37): s[15:11] md[8:6] ma[5:3] mb[2:0]; every other bit is zero. -/
structure HT16K where
  s : Fin 32
  md : Fin 8
  ma : Fin 8
  mb : Fin 8
  deriving DecidableEq, Repr

/-- Tail format HT32I of Table 3.2 (R37): imm[31:16] a[9:5] d[4:0]; every other bit is zero. -/
structure HT32I where
  imm : BitVec 16
  a : Fin 32
  d : Fin 32
  deriving DecidableEq, Repr

/-- Tail format HT32M of Table 3.2 (R37): disp[31:16] scope[15:13] order[12:11] base[9:5] d[4:0]; every other bit is zero. -/
structure HT32M where
  disp : BitVec 16
  scope : Scope
  order : Order
  base : Fin 32
  d : Fin 32
  deriving DecidableEq, Repr

/-- Tail format HT32B of Table 3.2 (R37): off[31:21] head[20:16] b[9:5] a[4:0]; every other bit is zero. -/
structure HT32B where
  off : BitVec 11
  head : Fin 32
  b : Fin 32
  a : Fin 32
  deriving DecidableEq, Repr

/-- Tail format HT32V of Table 3.2 (R37): d[31:26] a[25:20] b[19:14] cha[13:13] chb[12:12] mask[11:9] group[8:7] fmt[6:2] var[1:0]; every other bit is zero. -/
structure HT32V where
  d : Fin 64
  a : Fin 64
  b : Fin 64
  cha : Bool
  chb : Bool
  mask : Fin 8
  group : Group
  fmt : Fmt
  var : Fin 4
  deriving DecidableEq, Repr

/-- Tail format HT48I of Table 3.2 (R37): imm[47:16] d[4:0]; every other bit is zero. -/
structure HT48I where
  imm : BitVec 32
  d : Fin 32
  deriving DecidableEq, Repr

/-- Tail format HT48J of Table 3.2 (R37): off[47:21] head[20:16] d[4:0]; every other bit is zero. -/
structure HT48J where
  off : BitVec 27
  head : Fin 32
  d : Fin 32
  deriving DecidableEq, Repr

/-- Tail format HT48V of Table 3.2 (R37): d[47:42] a[41:36] b[35:30] c[29:24] cha[23:23] chb[22:22] chc[21:21] mask[20:18] group[17:16] fd[15:11] fs[10:6] rm[5:3] sat[2:2] var[1:0]; every other bit is zero. -/
structure HT48V where
  d : Fin 64
  a : Fin 64
  b : Fin 64
  c : Fin 64
  cha : Bool
  chb : Bool
  chc : Bool
  mask : Fin 8
  group : Group
  fd : Fmt
  fs : Fmt
  rm : Rm
  sat : Bool
  var : Fin 4
  deriving DecidableEq, Repr

/-- Tail format HT48VM of Table 3.2 (R37): v[47:42] base[41:37] s[36:32] disp[31:16] fmt[15:11] mask[10:8] group[7:6] order[5:4] scope[3:1] chv[0:0]; every other bit is zero. -/
structure HT48VM where
  v : Fin 64
  base : Fin 32
  s : Fin 32
  disp : BitVec 16
  fmt : Fmt
  mask : Fin 8
  group : Group
  order : Order
  scope : Scope
  chv : Bool
  deriving DecidableEq, Repr

/-- Tail format HT48VX of Table 3.2 (R37): v[47:42] base[41:37] x[36:31] chx[30:30] disp[29:16] fmt[15:11] mask[10:8] group[7:6] order[5:4] scope[3:1] chv[0:0]; every other bit is zero. -/
structure HT48VX where
  v : Fin 64
  base : Fin 32
  x : Fin 64
  chx : Bool
  disp : BitVec 14
  fmt : Fmt
  mask : Fin 8
  group : Group
  order : Order
  scope : Scope
  chv : Bool
  deriving DecidableEq, Repr

/-- Tail format HT48T of Table 3.2 (R37): d[47:42] a[41:36] t[35:32] u[31:28] cha[27:27] mask[26:24] group[23:22] fmt[21:17] op[16:13] s[12:8] imm[7:0]; every other bit is zero. -/
structure HT48T where
  d : Fin 64
  a : Fin 64
  t : Fin 16
  u : Fin 16
  cha : Bool
  mask : Fin 8
  group : Group
  fmt : Fmt
  op : Fin 16
  s : Fin 32
  imm : BitVec 8
  deriving DecidableEq, Repr

/-- Tail format HT48MX of Table 3.2 (R37): row[47:41] v[40:35] chv[34:34] mask[33:31] group[30:29] fa[28:24] fd[23:19] rm[18:16] sat[15:15] count[14:8] s[7:3]; every other bit is zero. -/
structure HT48MX where
  row : Fin 128
  v : Fin 64
  chv : Bool
  mask : Fin 8
  group : Group
  fa : Fmt
  fd : Fmt
  rm : Rm
  sat : Bool
  count : Fin 128
  s : Fin 32
  deriving DecidableEq, Repr

/-- Tail format HT48L of Table 3.2 (R37): level[47:45] count[44:30] stra[29:15] strb[14:0]; every other bit is zero. -/
structure HT48L where
  level : Fin 8
  count : BitVec 15
  stra : BitVec 15
  strb : BitVec 15
  deriving DecidableEq, Repr

/-- A hart of the module (R13). -/
structure HartId where
  die  : Fin 4
  core : Fin 96
  hart : Fin 8
  deriving DecidableEq, Repr

/-- A core of the module (R8). -/
structure CoreId where
  die  : Fin 4
  core : Fin 96
  deriving DecidableEq, Repr

/-- What an access asks of a translation (R76). -/
inductive AccessKind where
  | read | write | fetch
  deriving DecidableEq, Repr

/-- An inbound text frame (R55, R56): delivered over ROD or RUD, its 32-byte header as one 256-bit value, its payload. -/
structure TextFrame where
  rod     : Bool
  header  : BitVec 256
  payload : List (BitVec 8)
  deriving DecidableEq, Repr

/-- What a member module sends ROOT in one pod-barrier message (R304): arrivals, credited bytes, and the operand of a
BAREXP (none when the message carries no expectation). -/
structure PodArrival where
  member   : Fin 512
  arrivals : BitVec 48
  bytes    : BitVec 48
  expect   : Option (BitVec 64)
  deriving DecidableEq, Repr

/-- What ROOT sends a member (R298, R304): the new PHASE, or a disable message. -/
inductive PodPhase where
  | phase (p : BitVec 32)
  | disable
  deriving DecidableEq, Repr

/-- A pod message as the receive engine lands it (R363): the posted buffer it goes to, sender, tag, payload, whether
a sector of it failed its check on entry, and the flow on which it came. -/
structure PodMessage where
  buffer    : Nat
  src       : Fin 512
  tag       : BitVec 64
  payload   : List (BitVec 8)
  integrity : Bool
  flow      : Nat := 0
  deriving DecidableEq, Repr

/-- What the management microcontroller records for the next reset (Table 29.1): an L2 slice of a die that a spare replaces, a
supervisor core that a spare replaces, a pseudo-channel of a stack that is retired. -/
inductive Repair where
  | slice (die : Fin 4) (k : Fin 128)
  | supervisor (k : Fin 32)
  | channel (stack : Fin 12) (pch : Fin 64)
  deriving DecidableEq, Repr

/-- A lane that retraining replaces (Table 29.1). -/
inductive LaneId where
  | serdes (portGroup : Fin 4) (lane : Fin 16)
  | dieLink (link : Fin 8) (lane : Nat)
  deriving DecidableEq, Repr

/-- An event counter (R367). -/
inductive CounterId where
  | hart (h : HartId) (k : Fin 8)
  | die (d : Fin 4) (k : Fin 32)
  | hub (k : Fin 32)
  deriving DecidableEq, Repr

/-- What a promotion names (R91): the leaf's address space and virtual address, the leaf value expected, the free frame,
the flash blocks that hold the page, the well, the deadline word's physical address and the layer number. -/
structure Promotion where
  asid     : BitVec 16
  leafVa   : BitVec 64
  expected : BitVec 64
  frame    : BitVec 64
  lba      : BitVec 33
  core     : CoreId
  handle   : Fin 64
  deadline : BitVec 64
  layer    : BitVec 64
  record   : BitVec 64
  deriving DecidableEq, Repr

/-- The accesses of a supervisor core to device memory (R316): n is the access size in bytes. -/
inductive SupervisorOp where
  | load (n : Fin 9) (pa : BitVec 64)
  | store (n : Fin 9) (pa : BitVec 64) (v : BitVec 64)
  | swap (n : Fin 9) (pa : BitVec 64) (v : BitVec 64)
  | add (n : Fin 9) (pa : BitVec 64) (v : BitVec 64)
  | cas (n : Fin 9) (pa : BitVec 64) (old new : BitVec 64)
  | fence
  /-- The network server posts receive buffer `buffer` (R363), and the supervisor programs an HDM decoder of a link (R353):
  interfaces whose layout the spec leaves to UET and CXL. -/
  | post (buffer pa size record : Nat) (barrier : Option (Fin 486 × Fin 32))
  | decoder (link : Fin 2) (k : Fin 4) (host size pa : Nat)
  /-- The network server posts a message for another module (R362): its flow, the module, the buffer there, its tag, and where its
  payload lies. -/
  | send (flow : Nat) (dest : Fin 512) (buffer : Nat) (tag : BitVec 64) (pa size : Nat)
  deriving DecidableEq, Repr

/-- Where a soft error arises (R369): in HBM or L2, by physical address, or in a scratchpad, by offset. -/
inductive ErrorSite where
  | memory (pa : BitVec 64)
  | scratchpad (core : CoreId) (off : Fin 524288)
  deriving DecidableEq, Repr

/-- What the agent that makes a step of another agent presents with it. Every such step reads the fields that its
docstring names and no other. (Instr's constructors for these steps carry no operand of their own: Lean's runtime allows
at most 244 constructors with fields.) -/
structure Request where
  die      : Fin 4 := 0
  core     : CoreId := ⟨0, 0⟩
  hart     : HartId := ⟨0, 0, 0⟩
  stream   : Stream := .a
  /-- A vector register that a stream is bound to. -/
  reg      : Fin 64 := 0
  /-- A well handle. -/
  handle   : Fin 64 := 0
  /-- A ligature engine. -/
  engine   : Fin 16 := 0
  /-- A blotter ring. -/
  ring     : Fin 8192 := 0
  /-- A flash ring, and a completion tag. -/
  fring    : Fin 256 := 0
  tag      : BitVec 32 := 0
  /-- A key slot. -/
  key      : Fin 128 := 0
  /-- An invalidation port. -/
  port     : Fin 8 := 0
  /-- A barrier network instance (Table 21.2) and identifier. -/
  network  : Fin 486 := 0
  barrier  : Fin 32 := 0
  /-- A stencil context. -/
  ctx      : Fin 4096 := 0
  /-- A pipeline slot, a stage, a launch priority. -/
  slot     : Fin 32 := 0
  stage    : Fin 16 := 0
  priority : Fin 4 := 0
  /-- A supervisor core. -/
  supCore  : Fin 32 := 0
  asid     : BitVec 16 := 0
  kind     : AccessKind := .read
  cause    : BitVec 16 := 0
  addr     : BitVec 64 := 0
  value    : BitVec 64 := 0
  /-- The register block of a ring (Table 19.1), 64 bytes. -/
  block    : BitVec 512 := 0
  bytes    : List (BitVec 8) := []
  len      : Fin 65 := 0
  link     : Fin 2 := 0
  caches   : Bool := false
  /-- A host writes its own memory, at an address of the host window. -/
  atHost   : Bool := false
  frame    : TextFrame := ⟨true, 0, []⟩
  arrival  : PodArrival := ⟨0, 0, 0, none⟩
  phase    : PodPhase := .disable
  message  : PodMessage := ⟨0, 0, 0, [], false, 0⟩
  lane     : LaneId := .serdes 0 0
  counter  : CounterId := .hub 0
  /-- Milliwatts drawn by the module and by the cores (R371). -/
  power    : Nat := 0
  corePower : Nat := 0
  promotion : Promotion := ⟨0, 0, 0, 0, 0, ⟨0, 0⟩, 0, 0, 0, 0⟩
  op       : SupervisorOp := .fence
  /-- The ordering bits of a supervisor access (R316). -/
  aq       : Bool := false
  rl       : Bool := false
  /-- The blocks of the flash that the media cannot deliver while a request runs (Table 28.3). -/
  media    : List Nat := []
  /-- What the microcontroller has recorded since the last reset, and the populated sizes it finds (R82, R370). -/
  repairs  : List Repair := []
  sizes    : List (BitVec 38) := []
  /-- A feature bit (Table 11.8). -/
  feature  : Fin 3 := 0
  site     : ErrorSite := .memory 0
  corrected : Bool := true
  deriving DecidableEq, Repr

/-- One constructor per row of the opcode table: the instructions of the three streams (Table 4.2, R54) with the
fields of their tail format, then the steps of the module's other agents. -/
inductive Instr where
  /-- BARARR (R300). -/
  | bararr (o : HT16S)
  /-- BAREXP (R300). -/
  | barexp (o : HT16S)
  /-- BARWAIT (R300). -/
  | barwait (o : HT16S)
  /-- BAR (R300). -/
  | bar (o : HT16S)
  /-- QPUT (R281). -/
  | qput (o : HT16Q)
  /-- QGET (R281). -/
  | qget (o : HT16Q)
  /-- QDRAIN_A (R282). -/
  | qdrainA (o : HT16Q)
  /-- QDRAIN_X (R282). -/
  | qdrainX (o : HT16Q)
  /-- BQPUT (R281). -/
  | bqput (o : HT16Q)
  /-- FORK (R284). -/
  | fork (o : HT16Q)
  /-- WSET (R143). -/
  | wset (o : HT16H)
  /-- WWAIT (R143). -/
  | wwait (o : HT16H)
  /-- WGET (R143). -/
  | wget (o : HT16H)
  /-- WFREE (R143). -/
  | wfree (o : HT16H)
  /-- COPY (R143). -/
  | copy (o : HT16H)
  /-- COPYRES (R143). -/
  | copyres (o : HT16H)
  /-- COPYCAN (R143). -/
  | copycan (o : HT16H)
  /-- ADD (R286). -/
  | add (o : HT16R)
  /-- SUB (R286). -/
  | sub (o : HT16R)
  /-- AND (R286). -/
  | and (o : HT16R)
  /-- OR (R286). -/
  | or (o : HT16R)
  /-- XOR (R286). -/
  | xor (o : HT16R)
  /-- SLL (R286). -/
  | sll (o : HT16R)
  /-- SRL (R286). -/
  | srl (o : HT16R)
  /-- SRA (R286). -/
  | sra (o : HT16R)
  /-- MUL (R286). -/
  | mul (o : HT16R)
  /-- MULH (R286). -/
  | mulh (o : HT16R)
  /-- MULHN (R286). -/
  | mulhn (o : HT16R)
  /-- DIV (R286). -/
  | div (o : HT16R)
  /-- DIVN (R286). -/
  | divn (o : HT16R)
  /-- REM (R286). -/
  | rem (o : HT16R)
  /-- REMN (R286). -/
  | remn (o : HT16R)
  /-- MIN (R286). -/
  | min (o : HT16R)
  /-- MAX (R286). -/
  | max (o : HT16R)
  /-- MINN (R286). -/
  | minn (o : HT16R)
  /-- MAXN (R286). -/
  | maxn (o : HT16R)
  /-- SLT (R286). -/
  | slt (o : HT16R)
  /-- SLTN (R286). -/
  | sltn (o : HT16R)
  /-- MOV (R286). -/
  | mov (o : HT16R)
  /-- CLZ (R286). -/
  | clz (o : HT16R)
  /-- POPC (R286). -/
  | popc (o : HT16R)
  /-- JR (R290). -/
  | jr (o : HT16R)
  /-- ADDI (R287). -/
  | addi (o : HT32I)
  /-- ANDI (R287). -/
  | andi (o : HT32I)
  /-- ORI (R287). -/
  | ori (o : HT32I)
  /-- XORI (R287). -/
  | xori (o : HT32I)
  /-- SLLI (R287). -/
  | slli (o : HT32I)
  /-- SRLI (R287). -/
  | srli (o : HT32I)
  /-- SRAI (R287). -/
  | srai (o : HT32I)
  /-- CTLR (R293). -/
  | ctlr (o : HT32I)
  /-- CTLW (R293). -/
  | ctlw (o : HT32I)
  /-- SVCALL (R294). -/
  | svcall (o : HT32I)
  /-- TRAP (R294). -/
  | trap (o : HT32I)
  /-- FEATQ (R294). -/
  | featq (o : HT32I)
  /-- LIMM (R287). -/
  | limm (o : HT48I)
  /-- JMP (R289). -/
  | jmp (o : HT48J)
  /-- JAL (R289). -/
  | jal (o : HT48J)
  /-- LOOP (R289). -/
  | loop (o : HT48J)
  /-- BEQ (R288). -/
  | beq (o : HT32B)
  /-- BNE (R288). -/
  | bne (o : HT32B)
  /-- BLT (R288). -/
  | blt (o : HT32B)
  /-- BGE (R288). -/
  | bge (o : HT32B)
  /-- BLTN (R288). -/
  | bltn (o : HT32B)
  /-- BGEN (R288). -/
  | bgen (o : HT32B)
  /-- BQ (R288). -/
  | bq (o : HT32B)
  /-- LDB (R291). -/
  | ldb (o : HT32M)
  /-- LDH (R291). -/
  | ldh (o : HT32M)
  /-- LDW (R291). -/
  | ldw (o : HT32M)
  /-- LDD (R291). -/
  | ldd (o : HT32M)
  /-- LDBN (R291). -/
  | ldbn (o : HT32M)
  /-- LDHN (R291). -/
  | ldhn (o : HT32M)
  /-- LDWN (R291). -/
  | ldwn (o : HT32M)
  /-- STB (R291). -/
  | stb (o : HT32M)
  /-- STH (R291). -/
  | sth (o : HT32M)
  /-- STW (R291). -/
  | stw (o : HT32M)
  /-- STD (R291). -/
  | std (o : HT32M)
  /-- WAITEQ (R305). -/
  | waiteq (o : HT32M)
  /-- WAITNE (R305). -/
  | waitne (o : HT32M)
  /-- AMOADD (R256). -/
  | amoadd (o : HT48VM)
  /-- AMOMIN (R256). -/
  | amomin (o : HT48VM)
  /-- AMOMAX (R256). -/
  | amomax (o : HT48VM)
  /-- AMOAND (R256). -/
  | amoand (o : HT48VM)
  /-- AMOOR (R256). -/
  | amoor (o : HT48VM)
  /-- AMOSWP (R256). -/
  | amoswp (o : HT48VM)
  /-- AMOCAS (R256). -/
  | amocas (o : HT48VM)
  /-- SBIND (R161). -/
  | sbind (o : HT16VS)
  /-- SFREE (R150). -/
  | sfree (o : HT16VS)
  /-- SSKIP (R161). -/
  | sskip (o : HT16VS)
  /-- SSTAT (R161). -/
  | sstat (o : HT16VS)
  /-- COPYQ (R146). -/
  | copyq (o : HT16VS)
  /-- RULE (R142). -/
  | rule (o : HT48L)
  /-- RBASE (R142). -/
  | rbase (o : HT16R)
  /-- SPMAP (R127). -/
  | spmap (o : HT16R)
  /-- SPUNMAP (R128). -/
  | spunmap (o : HT16R)
  /-- SPFLUSH (R129). -/
  | spflush (o : HT16R)
  /-- SPINV (R130). -/
  | spinv (o : HT16R)
  /-- QJOIN (R145). -/
  | qjoin (o : HT16R)
  /-- QLEAVE (R145). -/
  | qleave (o : HT16R)
  /-- MAND (R209). -/
  | mand (o : HT16K)
  /-- MOR (R209). -/
  | mor (o : HT16K)
  /-- MXOR (R209). -/
  | mxor (o : HT16K)
  /-- MNOT (R209). -/
  | mnot (o : HT16K)
  /-- MPOPC (R209). -/
  | mpopc (o : HT16K)
  /-- MFIRST (R209). -/
  | mfirst (o : HT16K)
  /-- MSET (R209). -/
  | mset (o : HT16K)
  /-- VADD (R192). -/
  | vadd (o : HT32V)
  /-- VSUB (R192). -/
  | vsub (o : HT32V)
  /-- VMUL (R192). -/
  | vmul (o : HT32V)
  /-- VMULH (R192). -/
  | vmulh (o : HT32V)
  /-- VMACC (R192). -/
  | vmacc (o : HT32V)
  /-- VADDS (R192). -/
  | vadds (o : HT32V)
  /-- VSUBS (R192). -/
  | vsubs (o : HT32V)
  /-- VAVG (R192). -/
  | vavg (o : HT32V)
  /-- VABS (R192). -/
  | vabs (o : HT32V)
  /-- VNEG (R192). -/
  | vneg (o : HT32V)
  /-- VMIN (R192). -/
  | vmin (o : HT32V)
  /-- VMAX (R192). -/
  | vmax (o : HT32V)
  /-- VAND (R192). -/
  | vand (o : HT32V)
  /-- VOR (R192). -/
  | vor (o : HT32V)
  /-- VXOR (R192). -/
  | vxor (o : HT32V)
  /-- VNOT (R192). -/
  | vnot (o : HT32V)
  /-- VSLL (R192). -/
  | vsll (o : HT32V)
  /-- VSRL (R192). -/
  | vsrl (o : HT32V)
  /-- VSRA (R192). -/
  | vsra (o : HT32V)
  /-- VROT (R192). -/
  | vrot (o : HT32V)
  /-- VCMP_EQ_INT (R193). -/
  | vcmpEqInt (o : HT32V)
  /-- VCMP_NE_INT (R193). -/
  | vcmpNeInt (o : HT32V)
  /-- VCMP_LT_INT (R193). -/
  | vcmpLtInt (o : HT32V)
  /-- VCMP_GE_INT (R193). -/
  | vcmpGeInt (o : HT32V)
  /-- VSEL (R193). -/
  | vsel (o : HT32V)
  /-- VFADD (R194). -/
  | vfadd (o : HT48V)
  /-- VFSUB (R194). -/
  | vfsub (o : HT48V)
  /-- VFMUL (R194). -/
  | vfmul (o : HT48V)
  /-- VFMA (R194). -/
  | vfma (o : HT48V)
  /-- VFMS (R194). -/
  | vfms (o : HT48V)
  /-- VFNMA (R194). -/
  | vfnma (o : HT48V)
  /-- VFDIV (R194). -/
  | vfdiv (o : HT48V)
  /-- VFSQRT (R194). -/
  | vfsqrt (o : HT48V)
  /-- VFRCP (R195). -/
  | vfrcp (o : HT48V)
  /-- VFRSQ (R195). -/
  | vfrsq (o : HT48V)
  /-- VFEXP2 (R195). -/
  | vfexp2 (o : HT48V)
  /-- VFLOG2 (R195). -/
  | vflog2 (o : HT48V)
  /-- VFMIN (R195). -/
  | vfmin (o : HT48V)
  /-- VFMAX (R195). -/
  | vfmax (o : HT48V)
  /-- VFABS (R195). -/
  | vfabs (o : HT48V)
  /-- VFNEG (R195). -/
  | vfneg (o : HT48V)
  /-- VFCLASS (R196). -/
  | vfclass (o : HT48V)
  /-- VCMP_EQ_FP (R195). -/
  | vcmpEqFp (o : HT48V)
  /-- VCMP_NE_FP (R195). -/
  | vcmpNeFp (o : HT48V)
  /-- VCMP_LT_FP (R195). -/
  | vcmpLtFp (o : HT48V)
  /-- VCMP_GE_FP (R195). -/
  | vcmpGeFp (o : HT48V)
  /-- VCVT (R197). -/
  | vcvt (o : HT48V)
  /-- VQMARG (R200). -/
  | vqmarg (o : HT48V)
  /-- VQMARG_CLAMP (R200). -/
  | vqmargClamp (o : HT48V)
  /-- VDQ (R202). -/
  | vdq (o : HT48V)
  /-- VSCALE (R199). -/
  | vscale (o : HT48V)
  /-- VRED_ADD (R204). -/
  | vredAdd (o : HT32V)
  /-- VRED_MIN (R204). -/
  | vredMin (o : HT32V)
  /-- VRED_MAX (R204). -/
  | vredMax (o : HT32V)
  /-- VRED_AND (R204). -/
  | vredAnd (o : HT32V)
  /-- VRED_OR (R204). -/
  | vredOr (o : HT32V)
  /-- VRED_XOR (R204). -/
  | vredXor (o : HT32V)
  /-- VSCAN_ADD (R204). -/
  | vscanAdd (o : HT32V)
  /-- VSCAN_MIN (R204). -/
  | vscanMin (o : HT32V)
  /-- VSCAN_MAX (R204). -/
  | vscanMax (o : HT32V)
  /-- VSCAN_AND (R204). -/
  | vscanAnd (o : HT32V)
  /-- VSCAN_OR (R204). -/
  | vscanOr (o : HT32V)
  /-- VSCAN_XOR (R204). -/
  | vscanXor (o : HT32V)
  /-- VPERM (R203). -/
  | vperm (o : HT32V)
  /-- VPERMW (R205). -/
  | vpermw (o : HT32V)
  /-- VSLIDE_UP (R206). -/
  | vslideUp (o : HT32V)
  /-- VSLIDE_DOWN (R206). -/
  | vslideDown (o : HT32V)
  /-- VCOMP (R206). -/
  | vcomp (o : HT32V)
  /-- VEXPD (R206). -/
  | vexpd (o : HT32V)
  /-- VID (R203). -/
  | vid (o : HT32V)
  /-- VSPLAT (R203). -/
  | vsplat (o : HT32V)
  /-- VMV (R203). -/
  | vmv (o : HT32V)
  /-- VMVS_TO_SCALAR (R207). -/
  | vmvsToScalar (o : HT32V)
  /-- VMVS_TO_VECTOR (R207). -/
  | vmvsToVector (o : HT32V)
  /-- VCLMUL (R203). -/
  | vclmul (o : HT32V)
  /-- VCLMULH (R203). -/
  | vclmulh (o : HT32V)
  /-- VPOPC (R203). -/
  | vpopc (o : HT32V)
  /-- VFIRST (R203). -/
  | vfirst (o : HT32V)
  /-- VRAND (R208). -/
  | vrand (o : HT32V)
  /-- TFROM (R217). -/
  | tfrom (o : HT48T)
  /-- TTO (R217). -/
  | tto (o : HT48T)
  /-- TUP (R218). -/
  | tup (o : HT48T)
  /-- TDOWN (R218). -/
  | tdown (o : HT48T)
  /-- TBCAST (R219). -/
  | tbcast (o : HT48T)
  /-- TBCAST_ROOT (R219). -/
  | tbcastRoot (o : HT48T)
  /-- TDEPTH (R220). -/
  | tdepth (o : HT48T)
  /-- TANC (R221). -/
  | tanc (o : HT48T)
  /-- TANC_ISA (R221). -/
  | tancIsa (o : HT48T)
  /-- TROOT (R220). -/
  | troot (o : HT48T)
  /-- TCONTR (R222). -/
  | tcontr (o : HT48T)
  /-- TCHK (R223). -/
  | tchk (o : HT48T)
  /-- MROW (R236). -/
  | mrow (o : HT48MX)
  /-- MROWZ (R236). -/
  | mrowz (o : HT48MX)
  /-- MDRAIN (R240). -/
  | mdrain (o : HT48MX)
  /-- MCLR (R241). -/
  | mclr (o : HT48MX)
  /-- MSTAT (R241). -/
  | mstat (o : HT48MX)
  /-- MRLDFF (R239). -/
  | mrldff (o : HT48MX)
  /-- MTLOAD (R233). -/
  | mtload (o : HT48VM)
  /-- MTLOADQ (R234). -/
  | mtloadq (o : HT48VM)
  /-- CBLOAD (R235). -/
  | cbload (o : HT48VM)
  /-- VLDP (R160). -/
  | vldp (o : HT48VM)
  /-- VSTP (R250). -/
  | vstp (o : HT48VM)
  /-- VLD (R155). -/
  | vld (o : HT48VM)
  /-- VLDS (R155). -/
  | vlds (o : HT48VM)
  /-- VLDFF (R156). -/
  | vldff (o : HT48VM)
  /-- VLDW (R157). -/
  | vldw (o : HT48VM)
  /-- VLDCH (R158). -/
  | vldch (o : HT48VM)
  /-- VLDX (R159). -/
  | vldx (o : HT48VX)
  /-- VLDT (R159). -/
  | vldt (o : HT48VX)
  /-- VSTX (R251). -/
  | vstx (o : HT48VX)
  /-- VAACC (R254). -/
  | vaacc (o : HT48VX)
  /-- VST (R250). -/
  | vst (o : HT48VM)
  /-- VSTS (R250). -/
  | vsts (o : HT48VM)
  /-- AWIN (R253). -/
  | awin (o : HT48VM)
  /-- VWAITF (R306). -/
  | vwaitf (o : HT48VM)
  /-- KINS (R257). -/
  | kins (o : HT32V)
  /-- KLOOK (R257). -/
  | klook (o : HT32V)
  /-- KACC (R257). -/
  | kacc (o : HT32V)
  /-- KDRAIN (R258). -/
  | kdrain (o : HT32V)
  /-- GMMASK (R276). -/
  | gmmask (o : HT32V)
  /-- KVMAP (R101). -/
  | kvmap (o : HT16R)
  /-- KVXL (R102). -/
  | kvxl (o : HT16R)
  /-- KVAPP (R103). -/
  | kvapp (o : HT16R)
  /-- KVTRUNC (R104). -/
  | kvtrunc (o : HT16R)
  /-- FPOP (R105). -/
  | fpop (o : HT16R)
  /-- FPUSH (R105). -/
  | fpush (o : HT16R)
  /-- FPCNT (R105). -/
  | fpcnt (o : HT16R)
  /-- SQPUSH (R64). -/
  | sqpush (o : HT16R)
  /-- SQPOP (R64). -/
  | sqpop (o : HT16R)
  /-- SQCNT (R64). -/
  | sqcnt (o : HT16R)
  /-- VOCSWAP (R68). -/
  | vocswap (o : HT16R)
  /-- BLAPP (R264). -/
  | blapp (o : HT16R)
  /-- BLREAD (R265). -/
  | blread (o : HT16R)
  /-- BLREL (R266). -/
  | blrel (o : HT16R)
  /-- BLVETO (R267). -/
  | blveto (o : HT16R)
  /-- GMSTEP (R275). -/
  | gmstep (o : HT16R)
  /-- GMRESET (R277). -/
  | gmreset (o : HT16R)
  /-- FLPOST (R359). -/
  | flpost (o : HT16R)
  /-- FLPOLL (R359). -/
  | flpoll (o : HT16R)
  /-- NOP (R294). -/
  | nop
  /-- HALT (R285). -/
  | halt
  /-- RDV (R283). -/
  | rdv
  /-- BRK (R294). -/
  | brk
  /-- YIELD (R294). -/
  | yield
  /-- FENCE (R307). -/
  | fence
  /-- HINT (R51). -/
  | hint
  /-- HINT_MAJOR_3E (R51). -/
  | hintMajor3E
  /-- AMERGE (R255). -/
  | amerge
  /-- KCLR (R257). -/
  | kclr
  /-- TEXT_FRAME_REQUEST (R57): An inbound request frame is checked and either refused or opened on the least-loaded ligature engine. -/
  | textFrameRequest
  /-- TEXT_FRAME_CONTINUATION (R57): An inbound continuation frame is checked and its payload passed to the request's engine. -/
  | textFrameContinuation
  /-- TEXT_FRAME_CANCEL (R60): An inbound cancel frame stops tokenising and leads to a cancel entry for the open or closed request. -/
  | textFrameCancel
  /-- LIGATURE_PUSH (R60): The ligature engine pushes a token, end or cancel entry into the ingress queue once it has room. -/
  | ligaturePush
  /-- SCRIBE_EMIT (R271): The scribe renders released positions to UTF-8 and sends reply frames, advancing EMIT. -/
  | scribeEmit
  /-- PAGE_WALK (R76): The walk unit walks the four table levels for a missed translation. -/
  | pageWalk
  /-- INVALIDATION (R81): A write of INVCTL starts an invalidation of cached translations across all dies. -/
  | invalidation
  /-- INVALIDATION_DONE (R81): DONE becomes 1 once no old translation, walk or element under it remains. -/
  | invalidationDone
  /-- KEY_SLOT_LOAD (R84): Writing KCTL.LD = 1 loads the key slot from its key words. -/
  | keySlotLoad
  /-- KEY_SLOT_CLEAR (R84): Writing KCTL.LD = 0 clears the slot and zeroes its key words. -/
  | keySlotClear
  /-- FOLIO_POOL_ENABLE (R96): Setting FPCTL.EN empties every list and frees the whole arena as order-15 folios. -/
  | folioPoolEnable
  /-- FOLIO_RESERVE_SET (R96): A write of FPCTL with EN = 1 changes RESERVE only. -/
  | folioReserveSet
  /-- FOLIO_POOL_DISABLE (R98): Clearing FPCTL.EN waits for the pops and pushes in progress at the engine. -/
  | folioPoolDisable
  /-- FOLIO_LISTS_DISCARD (R98): Once those operations have completed, the engine discards its free lists. -/
  | folioListsDiscard
  /-- MAILBOX_REQUEST (R108): The session server performs a forerunner-mailbox pop or push and writes RSP. -/
  | mailboxRequest
  /-- PROMOTION_COMPLETE (R91): Once a promotion's data is written, the engine reads the deadline word, swaps the leaf to resident and sets the well full. -/
  | promotionComplete
  /-- COPY_ITERATION (R134): The copy engine checks, translates and moves one iteration of the loop nest. -/
  | copyIteration
  /-- COPY_FAULT_RECORD_PENDING (R140): A held copy-fault record is written once a queue entry frees or EN is set. -/
  | copyFaultRecordPending
  /-- CPCTL_RESUME (R139): A CPCTL write with OP 1 resumes a filling-faulted or frozen copy. -/
  | cpctlResume
  /-- CPCTL_CANCEL (R139): A CPCTL write with OP 2 cancels the copy as COPYCAN does. -/
  | cpctlCancel
  /-- COPYQ_DELIVERY (R146): A COPYQ entry lands in a member's bound register once that register has room. -/
  | copyqDelivery
  /-- STREAM_FILL (R153): A pattern or KV-extent stream fills one entry once it has room. -/
  | streamFill
  /-- MRLDFF_ROW_FILL (R239): A requested MRLDFF row fills one entry of the binding once it has room. -/
  | mrldffRowFill
  /-- TILE_SHADOW_SWAP (R226): A completed tile load is swapped into the latch once no row is in progress. -/
  | tileShadowSwap
  /-- WAIT_LIMIT_EXPIRY (R25): A wait reaches WAITLIM and raises the resumable wait-limit trap. -/
  | waitLimitExpiry
  /-- BARRIER_ENABLE (R297): Setting BARCTL.EN zeroes PHASE and every count. -/
  | barrierEnable
  /-- BARRIER_DISABLE (R298): Clearing BARCTL.EN discards the counts and traps every wait on the barrier. -/
  | barrierDisable
  /-- POD_BARRIER_MESSAGE (R304): A member's arrivals, credits and expectations reach ROOT in one UET message. -/
  | podBarrierMessage
  /-- POD_PHASE_MESSAGE (R304): ROOT's phase message reaches a member and advances its PHASE. -/
  | podPhaseMessage
  /-- BLOTTER_RING_ENABLE (R259): Setting a ring descriptor's EN zeroes its positions and flags. -/
  | blotterRingEnable
  /-- BLOTTER_RING_DISABLE (R261): Clearing EN traps the ring's waiters, stops the scribe and discards the entries. -/
  | blotterRingDisable
  /-- STENCIL_CONTEXT_CONTROL (R273): A write of a context control word sets the context's owner ASID and LIMIT. -/
  | stencilContextControl
  /-- PIPELINE_INSTALL (R320): Writing PLCTL.EN = 1 checks the pipeline object and makes it resident or rejected. -/
  | pipelineInstall
  /-- PIPELINE_DRAIN (R320): Writing PLCTL.EN = 0 makes a resident slot draining. -/
  | pipelineDrain
  /-- LAUNCH_DISPATCH (R322): The launch controller starts or resumes a launch-queue record on a qualifying hart. -/
  | launchDispatch
  /-- QUEUE_TASK_START (R322): A free assigned hart starts a task of its stage while FQ > WT. -/
  | queueTaskStart
  /-- BALANCER_SAMPLE (R325): Every 4,096 cycles the balancer samples queue occupancy and assigns or marks one hart per pipeline. -/
  | balancerSample
  /-- LAUNCH_PRIORITY_PREEMPT (R327): A record that has waited one sample period pre-empts a lower-priority task on a qualifying core. -/
  | launchPriorityPreempt
  /-- PREEMPT (R327): A supervisor write of PREEMPT requests pre-emption of a hart or of a whole core. -/
  | preempt
  /-- HART_SWAP_OUT (R334): A halted hart takes a free slot, writes its frame, posts a notice and frees its hart. -/
  | hartSwapOut
  /-- RESUME (R335): RESCTL OP 1 enters a resume record for the frame's home hart. -/
  | resume
  /-- RESUME_AFTER (R335): RESCTL OP 2 resumes with the X-stream after XPC. -/
  | resumeAfter
  /-- FORCE (R335): RESCTL OP 3 resumes the frame on a named hart of the same die. -/
  | force
  /-- CANCEL (R335): RESCTL OP 4 cancels the task and retires its state. -/
  | cancel
  /-- UNFREEZE_ENGINE (R340): RESCTL OP 5 unfreezes an engine and retries its operation. -/
  | unfreezeEngine
  /-- DROP_ENGINE_OPERATION (R340): RESCTL OP 6 drops a frozen engine's operation. -/
  | dropEngineOperation
  /-- FLASH_RING_ENABLE (R357): Setting FLRCTL.EN enables the ring and discards every held completion. -/
  | flashRingEnable
  /-- FLASH_RING_DISABLE (R357): Clearing FLRCTL.EN stops the ring taking posts. -/
  | flashRingDisable
  /-- FLASH_REQUEST_COMPLETE (R360): A flash request finishes moving its blocks, credits its barrier and makes its completion word visible. -/
  | flashRequestComplete
  /-- NETWORK_RECEIVE (R363): The receive engine lands a message, writes its completion record and credits the named barrier. -/
  | networkReceive
  /-- HOST_CXL_MEM_WRITE (R355): A host CXL.mem write is performed at its home slice in link order. -/
  | hostCxlMemWrite
  /-- HOST_CXL_MEM_READ (R355): A host CXL.mem read is served, with back-invalidation when the snoop filter is full. -/
  | hostCxlMemRead
  /-- SPARE_CORE_SWAP (R365): An SPREQ write of KIND 1 requests a core swap. -/
  | spareCoreSwap
  /-- SPARE_LIGATURE_SWAP (R365): An SPREQ write of KIND 2 requests a ligature engine swap. -/
  | spareLigatureSwap
  /-- SPARE_SCRIBE_SWAP (R365): An SPREQ write of KIND 3 requests a scribe engine swap. -/
  | spareScribeSwap
  /-- SPARE_SWAP_DONE (R365): The swap finishes and BUSY returns to 0. -/
  | spareSwapDone
  /-- LANE_RETRAINING (R364): A SerDes or die-link lane is replaced by a spare at retraining. -/
  | laneRetraining
  /-- EVENT_COUNTER_WRAP (R367): An EVCNT wraps past 2^48 − 1 and sets OVF. -/
  | eventCounterWrap
  /-- POWER_SAMPLE (R371): Every 10 µs the limiter samples power and withholds issue cycles while over budget. -/
  | powerSample
  /-- THERMAL_LIMIT (R371): A die reaching 105 °C is limited until it falls to 100 °C. -/
  | thermalLimit
  /-- THERMAL_SHUTDOWN (R371): At 115 °C the module powers down and records the event. -/
  | thermalShutdown
  /-- RESET (R370): The management microcontroller brings up rails, HBM, maps and FEAT, then starts supervisor core 0. -/
  | reset
  /-- REGISTER_WRITE (R5): A write to a control-space register that has no row of its own, under its access codes. -/
  | registerWrite
  /-- RESERVED_ENCODING (R7): A stream reaches a reserved encoding (unlisted major or minor, wrong tlen, wrong stream or bad field) and raises illegal-instruction precisely. -/
  | reservedEncoding
  /-- LINE_FORMAT (R31): A stream reaches head bad of a defective line, or a PC that names no instruction, and raises line-format precisely. -/
  | lineFormat
  /-- LINE_FETCH_FAULT (R35): A fault in translating or reading a code line is taken precisely when the stream first needs a head of that line. -/
  | lineFetchFault
  /-- INGRESS_ERROR_FRAME (R57): An inbound frame with wrong magic, version, zero field, length, or a reserved or outbound kind, or one arriving over RUD, is dropped and counted. -/
  | ingressErrorFrame
  /-- PROMOTION_REQUEST (R91): The pager starts a promotion copy that names a leaf, its expected value, a well and a deadline word. -/
  | promotionRequest
  /-- SUPERVISOR_ACCESS (R316): A supervisor core performs a load, store, atomic or fence on device memory, such as a page-table entry or address-space entry. -/
  | supervisorAccess
  /-- CORE_KEPT_DEGRADED (R366): The management microcontroller clears a core's FEAT bit while the core holds no task. -/
  | coreKeptDegraded
  /-- SOFT_ERROR (R369): A soft error arises in HBM, L2 or scratchpad and is either corrected and counted or leaves a sector whose check fails. -/
  | softError
  /-- POWER_LOSS (R361): Power is lost, leaving each completed but not durable flash block wholly old or wholly new. -/
  | powerLoss
  /-- THERMAL_LIMIT_END (R371): A limited die's junction falls to 100 °C and the limiter stops withholding issue cycles. -/
  | thermalLimitEnd
  deriving DecidableEq, Repr

end Sys2Proof
end

