-- ==== Sys2Proof/WellFormed.lean ====
section
/-! DEFINITION. Well-formedness: the field rules of R37, R38, R41, R42, R45, R50 and R165, and what each entry adds. -/

namespace Sys2Proof

/-- A scalar register field of the fetching stream (Table 3.3). -/
def sr (st : Stream) (r : Fin 32) : Bool :=
  match st with
  | .a => true
  | .x => decide (r.val < 16)
  | .c => decide (r.val < 8)

/-- A scalar register named in a 6-bit vector field (R50). -/
def vsr (st : Stream) (r : Fin 64) : Bool :=
  decide (r.val < 32) && sr st (Fin.ofNat 32 r.val)

/-- A register-group field (R41): a multiple of the group size that does not run past V63. -/
def al (v : Fin 64) (n : Nat) : Bool := decide (v.val % n = 0) && decide (v.val + n ≤ 64)

/-- A topology group (R41, R213). -/
def alT (t : Fin 16) (n : Nat) : Bool := decide (t.val % n = 0) && decide (t.val + n ≤ 16)

/-- The registers of the operand of format `f` when the group counts format `wide` (R191, R251). -/
def narrowRegs (g : Group) (f wide : Fmt) : Nat := max 1 (g.size * f.width / wide.width)

/-- R41 applied to the group of R191. -/
def alN (v : Fin 64) (g : Group) (f wide : Fmt) : Bool := al v (narrowRegs g f wide)

/-- The wider of two formats (R191). -/
def wider (f g : Fmt) : Fmt := if f.width < g.width then g else f

/-- Formats 0x00 to 0x07. -/
def intFmt : Fmt → Bool
  | .i8 | .i16 | .i32 | .i64 | .n8 | .n16 | .n32 | .n64 => true
  | _ => false

/-- FP16, BF16, FP32. -/
def fpFmt : Fmt → Bool
  | .fp16 | .bf16 | .fp32 => true
  | _ => false

/-- Formats 0x00 to 0x07, FP16, BF16, FP32 (majors 0x13 and 0x14). -/
def moveFmt (f : Fmt) : Bool := intFmt f || fpFmt f

/-- Formats 0x00 to 0x0E. -/
def elemFmt : Fmt → Bool
  | .cb2 | .sc8 | .acc80 => false
  | _ => true

/-- Formats 0x00 to 0x0E less the 4-bit ones (R250). -/
def byteFmt (f : Fmt) : Bool := elemFmt f && f != .i4 && f != .fp4

/-- I32, I64, N32, N64 (R256, R306). -/
def wordFmt : Fmt → Bool
  | .i32 | .i64 | .n32 | .n64 => true
  | _ => false

/-- I32, I64, N32, N64, FP32 (R253, R257). -/
def winFmt (f : Fmt) : Bool := wordFmt f || f == .fp32

/-- The index formats of R213. -/
def indexFmt : Fmt → Bool
  | .i16 | .i32 | .i64 | .n16 | .n32 | .n64 => true
  | _ => false

/-- Tile formats (Table 15.1). -/
def tileFmt : Fmt → Bool
  | .fp8a | .fp8b | .i8 | .fp4 | .i4 | .cb2 | .fp16 | .bf16 => true
  | _ => false

/-- Activation formats (R232). -/
def rowFmt : Fmt → Bool
  | .fp8a | .fp8b | .i8 | .fp4 | .i4 | .fp16 | .bf16 => true
  | _ => false

/-- Wide and narrow formats of the quantise instructions (R198). -/
def quantPair (narrow wide : Fmt) : Bool :=
  fpFmt wide && (narrow == .fp8a || narrow == .fp8b || narrow == .fp4 || narrow == .i8 || narrow == .i4)

/-- The format pairs of VFCLASS (R196). -/
def classFmts (fd fs : Fmt) : Bool :=
  (fs == .fp32 && fd == .n32) || ((fs == .fp16 || fs == .bf16) && fd == .n16)

/-- The operations of Table 14.3 with the formats they accept. -/
def treeOp (op : Nat) (f : Fmt) : Bool :=
  match op with
  | 0 | 4 | 5 => moveFmt f
  | 1 | 2 | 3 => intFmt f
  | _ => false

/-- A load's order and scope (R39, R155, R291, R305): plain with scope zero, or .AQ. -/
def ordLoad (o : Order) (s : Scope) : Bool := (o == .plain && s == .ln) || o == .aq

/-- A store's order and scope (R250, R291): plain with scope zero, or .RL. -/
def ordStore (o : Order) (s : Scope) : Bool := (o == .plain && s == .ln) || o == .rl

/-- A scratchpad load's order and scope (R160, R232): plain with scope zero, or .AQ at .CO or wider. -/
def ordPad (o : Order) (s : Scope) : Bool := (o == .plain && s == .ln) || (o == .aq && s != .ln)

/-- A scratchpad store's order and scope (R250): plain with scope zero, or .RL at .CO or wider. -/
def ordPadStore (o : Order) (s : Scope) : Bool := (o == .plain && s == .ln) || (o == .rl && s != .ln)

/-- The index group of R251: gx registers, at most 8, aligned. -/
def idxOk (x : Fin 64) (g : Group) (f : Fmt) : Bool :=
  let gx := max 1 (g.size * 64 / f.width)
  decide (gx ≤ 8) && al x gx

/-- A row field of a hart of HARTS code `h` (R165): below 128 ÷ harts. -/
def rowOk (h row : Nat) : Bool := decide (row < 128 >>> h)

/-- `.AM` (count bit 0) is reserved with FP16 and BF16, and its buffer may not run past V63 (R237). -/
def amOk (o : HT48MX) : Bool :=
  o.count == 0 || (o.fa != .fp16 && o.fa != .bf16 && decide (o.v.val + 2 * o.group.size ≤ 64))

/-- The fields of GMMASK (R276): any other value is reserved, and a reserved encoding is no instruction (R7, R37, R38). DEDUCED
(log 44): so only the limit on Sb[63:32], which no encoding holds, is left for check 3 of R274. -/
def maskChunk (h : Nat) (o : HT32V) : Bool :=
  o.fmt == .n8 && o.mask == 0 && o.var == 0 && !o.cha && !o.chb && decide (512 ≤ (2048 >>> h) * o.group.size)

/-- Control registers that a stream may read (Table 11.2). -/
def ctlReadable (st : Stream) (n : Nat) : Bool :=
  match n with
  | 0x0 | 0x1 | 0x2 | 0x3 => st == .x
  | 0x4 | 0x5 | 0x6 | 0x10 | 0x11 => st != .c
  | _ => false

/-- Control registers that a stream may write (Table 11.2). -/
def ctlWritable (st : Stream) (n : Nat) : Bool :=
  match n with
  | 0x0 | 0x1 | 0x2 | 0x3 => st == .x
  | 0x4 => st != .c
  | _ => false

/-- The fields of an instruction fetched by stream `st` on a hart whose core is partitioned by HARTS code `h`: unused
fields zero, formats accepted, registers of the stream, groups aligned (R37, R38, R41, R42, R45, R50, R165 and the
entries). The steps of other agents carry their arguments in types that cannot leave their ranges. -/
def Instr.fieldsOk (st : Stream) (h : Nat) : Instr → Bool
  | .nop => true
  | .halt => true
  | .rdv => true
  | .brk => true
  | .yield => true
  | .fence => true
  | .hint => true
  | .hintMajor3E => true
  | .bararr o => o.scope != .ln && o.s == 0
  | .barexp o => o.scope != .ln && sr st o.s
  | .barwait o => o.scope != .ln && sr st o.s
  | .bar o => o.scope != .ln && o.s == 0
  | .qput o => o.qset == 0
  | .qget o => o.qset == 0 && sr st o.s
  | .qdrainA o => decide (o.q.val < 2) && o.s == 0
  | .qdrainX o => decide (o.q.val < 2) && sr st o.s
  | .bqput o => o.qset == 0 && o.q == 0
  | .fork o => o.qset == 0 && o.q == 0
  | .wset o => o.state == .free && o.s == 0
  | .wwait o => o.s == 0
  | .wget o => o.state == .free && sr st o.s
  | .wfree o => o.state == .free && o.s == 0
  | .copy o => o.state == .free && o.s == 0
  | .copyres o => o.state == .free && o.s == 0
  | .copycan o => o.state == .free && o.s == 0
  | .add o => sr st o.d && sr st o.a && sr st o.b
  | .sub o => sr st o.d && sr st o.a && sr st o.b
  | .and o => sr st o.d && sr st o.a && sr st o.b
  | .or o => sr st o.d && sr st o.a && sr st o.b
  | .xor o => sr st o.d && sr st o.a && sr st o.b
  | .sll o => sr st o.d && sr st o.a && sr st o.b
  | .srl o => sr st o.d && sr st o.a && sr st o.b
  | .sra o => sr st o.d && sr st o.a && sr st o.b
  | .mul o => sr st o.d && sr st o.a && sr st o.b
  | .mulh o => sr st o.d && sr st o.a && sr st o.b
  | .mulhn o => sr st o.d && sr st o.a && sr st o.b
  | .div o => sr st o.d && sr st o.a && sr st o.b
  | .divn o => sr st o.d && sr st o.a && sr st o.b
  | .rem o => sr st o.d && sr st o.a && sr st o.b
  | .remn o => sr st o.d && sr st o.a && sr st o.b
  | .min o => sr st o.d && sr st o.a && sr st o.b
  | .max o => sr st o.d && sr st o.a && sr st o.b
  | .minn o => sr st o.d && sr st o.a && sr st o.b
  | .maxn o => sr st o.d && sr st o.a && sr st o.b
  | .slt o => sr st o.d && sr st o.a && sr st o.b
  | .sltn o => sr st o.d && sr st o.a && sr st o.b
  | .mov o => sr st o.d && sr st o.a && o.b == 0
  | .clz o => sr st o.d && sr st o.a && o.b == 0
  | .popc o => sr st o.d && sr st o.a && o.b == 0
  | .jr o => o.d == 0 && sr st o.a && o.b == 0
  | .addi o => sr st o.d && sr st o.a
  | .andi o => sr st o.d && sr st o.a
  | .ori o => sr st o.d && sr st o.a
  | .xori o => sr st o.d && sr st o.a
  | .slli o => sr st o.d && sr st o.a && decide (o.imm.toNat < 64)
  | .srli o => sr st o.d && sr st o.a && decide (o.imm.toNat < 64)
  | .srai o => sr st o.d && sr st o.a && decide (o.imm.toNat < 64)
  | .ctlr o => sr st o.d && o.a == 0 && ctlReadable st o.imm.toNat
  | .ctlw o => o.d == 0 && sr st o.a && ctlWritable st o.imm.toNat
  | .svcall o => o.d == 0 && o.a == 0
  | .trap o => o.d == 0 && o.a == 0
  | .featq o => sr st o.d && o.a == 0 && decide (o.imm.toNat < 8)
  | .limm o => sr st o.d
  | .jmp o => o.d == 0
  | .jal o => sr st o.d
  | .loop o => sr st o.d && o.d != 0
  | .beq o => sr st o.a && sr st o.b
  | .bne o => sr st o.a && sr st o.b
  | .blt o => sr st o.a && sr st o.b
  | .bge o => sr st o.a && sr st o.b
  | .bltn o => sr st o.a && sr st o.b
  | .bgen o => sr st o.a && sr st o.b
  | .bq o => o.a == 0 && o.b == 0
  | .ldb o => sr st o.d && sr st o.base && ordLoad o.order o.scope
  | .ldh o => sr st o.d && sr st o.base && ordLoad o.order o.scope
  | .ldw o => sr st o.d && sr st o.base && ordLoad o.order o.scope
  | .ldd o => sr st o.d && sr st o.base && ordLoad o.order o.scope
  | .ldbn o => sr st o.d && sr st o.base && ordLoad o.order o.scope
  | .ldhn o => sr st o.d && sr st o.base && ordLoad o.order o.scope
  | .ldwn o => sr st o.d && sr st o.base && ordLoad o.order o.scope
  | .stb o => sr st o.d && sr st o.base && ordStore o.order o.scope
  | .sth o => sr st o.d && sr st o.base && ordStore o.order o.scope
  | .stw o => sr st o.d && sr st o.base && ordStore o.order o.scope
  | .std o => sr st o.d && sr st o.base && ordStore o.order o.scope
  | .waiteq o => sr st o.d && sr st o.base && ordLoad o.order o.scope
  | .waitne o => sr st o.d && sr st o.base && ordLoad o.order o.scope
  | .amoadd o => decide (o.v.val < 32) && wordFmt o.fmt && o.mask == 0 && o.group == .g1 && !o.chv && (o.order != .plain || o.scope == .ln)
  | .amomin o => decide (o.v.val < 32) && wordFmt o.fmt && o.mask == 0 && o.group == .g1 && !o.chv && (o.order != .plain || o.scope == .ln)
  | .amomax o => decide (o.v.val < 32) && wordFmt o.fmt && o.mask == 0 && o.group == .g1 && !o.chv && (o.order != .plain || o.scope == .ln)
  | .amoand o => decide (o.v.val < 32) && wordFmt o.fmt && o.mask == 0 && o.group == .g1 && !o.chv && (o.order != .plain || o.scope == .ln)
  | .amoor o => decide (o.v.val < 32) && wordFmt o.fmt && o.mask == 0 && o.group == .g1 && !o.chv && (o.order != .plain || o.scope == .ln)
  | .amoswp o => decide (o.v.val < 32) && wordFmt o.fmt && o.mask == 0 && o.group == .g1 && !o.chv && (o.order != .plain || o.scope == .ln)
  | .amocas o => decide (o.v.val < 32) && wordFmt o.fmt && o.mask == 0 && o.group == .g1 && !o.chv && (o.order != .plain || o.scope == .ln)
  | .sbind _ => true
  | .sfree o => o.s == 0
  | .sskip _ => true
  | .sstat _ => true
  | .copyq o => sr st o.s
  | .rule o => decide (o.level.val < 6) && o.count != 0
  | .rbase o => o.d == 0 && sr st o.a && sr st o.b
  | .spmap o => sr st o.d && sr st o.a && sr st o.b
  | .spunmap o => sr st o.d && sr st o.a && o.b == 0
  | .spflush o => sr st o.d && sr st o.a && o.b == 0
  | .spinv o => sr st o.d && sr st o.a && o.b == 0
  | .qjoin o => sr st o.d && sr st o.a && sr st o.b
  | .qleave o => sr st o.d && o.a == 0 && o.b == 0
  | .mand o => o.s == 0
  | .mor o => o.s == 0
  | .mxor o => o.s == 0
  | .mnot o => o.s == 0 && o.mb == 0
  | .mpopc o => sr st o.s && o.md == 0 && o.mb == 0
  | .mfirst o => sr st o.s && o.md == 0 && o.mb == 0
  | .mset o => sr st o.s && o.ma == 0 && o.mb == 0
  | .vadd o => intFmt o.fmt && o.var == 0 && al o.d o.group.size && al o.a o.group.size && al o.b o.group.size
  | .vsub o => intFmt o.fmt && o.var == 0 && al o.d o.group.size && al o.a o.group.size && al o.b o.group.size
  | .vmul o => intFmt o.fmt && o.var == 0 && al o.d o.group.size && al o.a o.group.size && al o.b o.group.size
  | .vmulh o => intFmt o.fmt && o.var == 0 && al o.d o.group.size && al o.a o.group.size && al o.b o.group.size
  | .vmacc o => intFmt o.fmt && o.var == 0 && al o.d o.group.size && al o.a o.group.size && al o.b o.group.size
  | .vadds o => intFmt o.fmt && o.var == 0 && al o.d o.group.size && al o.a o.group.size && al o.b o.group.size
  | .vsubs o => intFmt o.fmt && o.var == 0 && al o.d o.group.size && al o.a o.group.size && al o.b o.group.size
  | .vavg o => intFmt o.fmt && o.var == 0 && al o.d o.group.size && al o.a o.group.size && al o.b o.group.size
  | .vabs o => intFmt o.fmt && o.var == 0 && al o.d o.group.size && al o.a o.group.size && o.b == 0 && !o.chb
  | .vneg o => intFmt o.fmt && o.var == 0 && al o.d o.group.size && al o.a o.group.size && o.b == 0 && !o.chb
  | .vmin o => intFmt o.fmt && o.var == 0 && al o.d o.group.size && al o.a o.group.size && al o.b o.group.size
  | .vmax o => intFmt o.fmt && o.var == 0 && al o.d o.group.size && al o.a o.group.size && al o.b o.group.size
  | .vand o => intFmt o.fmt && o.var == 0 && al o.d o.group.size && al o.a o.group.size && al o.b o.group.size
  | .vor o => intFmt o.fmt && o.var == 0 && al o.d o.group.size && al o.a o.group.size && al o.b o.group.size
  | .vxor o => intFmt o.fmt && o.var == 0 && al o.d o.group.size && al o.a o.group.size && al o.b o.group.size
  | .vnot o => intFmt o.fmt && o.var == 0 && al o.d o.group.size && al o.a o.group.size && o.b == 0 && !o.chb
  | .vsll o => intFmt o.fmt && o.var == 0 && al o.d o.group.size && al o.a o.group.size && al o.b o.group.size
  | .vsrl o => intFmt o.fmt && o.var == 0 && al o.d o.group.size && al o.a o.group.size && al o.b o.group.size
  | .vsra o => intFmt o.fmt && o.var == 0 && al o.d o.group.size && al o.a o.group.size && al o.b o.group.size
  | .vrot o => intFmt o.fmt && o.var == 0 && al o.d o.group.size && al o.a o.group.size && al o.b o.group.size
  | .vcmpEqInt o => intFmt o.fmt && o.var == 0 && decide (o.d.val < 8) && al o.a o.group.size && al o.b o.group.size
  | .vcmpNeInt o => intFmt o.fmt && o.var == 0 && decide (o.d.val < 8) && al o.a o.group.size && al o.b o.group.size
  | .vcmpLtInt o => intFmt o.fmt && o.var == 0 && decide (o.d.val < 8) && al o.a o.group.size && al o.b o.group.size
  | .vcmpGeInt o => intFmt o.fmt && o.var == 0 && decide (o.d.val < 8) && al o.a o.group.size && al o.b o.group.size
  | .vsel o => intFmt o.fmt && o.var == 0 && al o.d o.group.size && al o.a o.group.size && al o.b o.group.size
  | .vfadd o => fpFmt o.fd && o.fs == o.fd && o.var == 0 && al o.d o.group.size && al o.a o.group.size && al o.b o.group.size && o.c == 0 && !o.chc
  | .vfsub o => fpFmt o.fd && o.fs == o.fd && o.var == 0 && al o.d o.group.size && al o.a o.group.size && al o.b o.group.size && o.c == 0 && !o.chc
  | .vfmul o => fpFmt o.fd && o.fs == o.fd && o.var == 0 && al o.d o.group.size && al o.a o.group.size && al o.b o.group.size && o.c == 0 && !o.chc
  | .vfma o => fpFmt o.fd && o.fs == o.fd && o.var == 0 && al o.d o.group.size && al o.a o.group.size && al o.b o.group.size && al o.c o.group.size
  | .vfms o => fpFmt o.fd && o.fs == o.fd && o.var == 0 && al o.d o.group.size && al o.a o.group.size && al o.b o.group.size && al o.c o.group.size
  | .vfnma o => fpFmt o.fd && o.fs == o.fd && o.var == 0 && al o.d o.group.size && al o.a o.group.size && al o.b o.group.size && al o.c o.group.size
  | .vfdiv o => fpFmt o.fd && o.fs == o.fd && o.var == 0 && al o.d o.group.size && al o.a o.group.size && al o.b o.group.size && o.c == 0 && !o.chc
  | .vfsqrt o => fpFmt o.fd && o.fs == o.fd && o.var == 0 && al o.d o.group.size && al o.a o.group.size && o.b == 0 && !o.chb && o.c == 0 && !o.chc
  | .vfrcp o => fpFmt o.fd && o.fs == o.fd && o.var == 0 && al o.d o.group.size && al o.a o.group.size && o.b == 0 && !o.chb && o.c == 0 && !o.chc && o.rm == .rne
  | .vfrsq o => fpFmt o.fd && o.fs == o.fd && o.var == 0 && al o.d o.group.size && al o.a o.group.size && o.b == 0 && !o.chb && o.c == 0 && !o.chc && o.rm == .rne
  | .vfexp2 o => fpFmt o.fd && o.fs == o.fd && o.var == 0 && al o.d o.group.size && al o.a o.group.size && o.b == 0 && !o.chb && o.c == 0 && !o.chc && o.rm == .rne
  | .vflog2 o => fpFmt o.fd && o.fs == o.fd && o.var == 0 && al o.d o.group.size && al o.a o.group.size && o.b == 0 && !o.chb && o.c == 0 && !o.chc && o.rm == .rne
  | .vfmin o => fpFmt o.fd && o.fs == o.fd && o.var == 0 && al o.d o.group.size && al o.a o.group.size && al o.b o.group.size && o.c == 0 && !o.chc && o.rm == .rne && !o.sat
  | .vfmax o => fpFmt o.fd && o.fs == o.fd && o.var == 0 && al o.d o.group.size && al o.a o.group.size && al o.b o.group.size && o.c == 0 && !o.chc && o.rm == .rne && !o.sat
  | .vfabs o => fpFmt o.fd && o.fs == o.fd && o.var == 0 && al o.d o.group.size && al o.a o.group.size && o.b == 0 && !o.chb && o.c == 0 && !o.chc && o.rm == .rne && !o.sat
  | .vfneg o => fpFmt o.fd && o.fs == o.fd && o.var == 0 && al o.d o.group.size && al o.a o.group.size && o.b == 0 && !o.chb && o.c == 0 && !o.chc && o.rm == .rne && !o.sat
  | .vfclass o => classFmts o.fd o.fs && o.var == 0 && al o.d o.group.size && al o.a o.group.size && o.b == 0 && !o.chb && o.c == 0 && !o.chc && o.rm == .rne && !o.sat
  | .vcmpEqFp o => fpFmt o.fd && o.fs == o.fd && o.var == 0 && decide (o.d.val < 8) && al o.a o.group.size && al o.b o.group.size && o.c == 0 && !o.chc && o.rm == .rne && !o.sat
  | .vcmpNeFp o => fpFmt o.fd && o.fs == o.fd && o.var == 0 && decide (o.d.val < 8) && al o.a o.group.size && al o.b o.group.size && o.c == 0 && !o.chc && o.rm == .rne && !o.sat
  | .vcmpLtFp o => fpFmt o.fd && o.fs == o.fd && o.var == 0 && decide (o.d.val < 8) && al o.a o.group.size && al o.b o.group.size && o.c == 0 && !o.chc && o.rm == .rne && !o.sat
  | .vcmpGeFp o => fpFmt o.fd && o.fs == o.fd && o.var == 0 && decide (o.d.val < 8) && al o.a o.group.size && al o.b o.group.size && o.c == 0 && !o.chc && o.rm == .rne && !o.sat
  | .vcvt o => elemFmt o.fd && elemFmt o.fs && o.b == 0 && !o.chb && o.c == 0 && !o.chc && o.var == 0 && alN o.d o.group o.fd (wider o.fd o.fs) && alN o.a o.group o.fs (wider o.fd o.fs)
  | .vqmarg o => quantPair o.fd o.fs && decide (o.var.val < 2) && alN o.d o.group o.fd o.fs && al o.a o.group.size && vsr st o.c && !o.chc && decide (o.d.val + 2 * o.group.size ≤ 64)
  | .vqmargClamp o => quantPair o.fd o.fs && decide (o.var.val < 2) && alN o.d o.group o.fd o.fs && al o.a o.group.size && vsr st o.c && !o.chc && decide (o.d.val + 2 * o.group.size ≤ 64)
  | .vdq o => quantPair o.fs o.fd && decide (o.var.val < 2) && al o.d o.group.size && alN o.a o.group o.fs o.fd && al o.c o.group.size
  | .vscale o => quantPair o.fd o.fs && decide (o.var.val < 2) && al o.a o.group.size && o.b == 0 && !o.chb && vsr st o.c && !o.chc && o.rm == .rne && !o.sat
  | .vredAdd o => moveFmt o.fmt && o.var == 0 && al o.d o.group.size && al o.a o.group.size && al o.b o.group.size
  | .vredMin o => moveFmt o.fmt && o.var == 0 && al o.d o.group.size && al o.a o.group.size && al o.b o.group.size
  | .vredMax o => moveFmt o.fmt && o.var == 0 && al o.d o.group.size && al o.a o.group.size && al o.b o.group.size
  | .vredAnd o => intFmt o.fmt && o.var == 0 && al o.d o.group.size && al o.a o.group.size && al o.b o.group.size
  | .vredOr o => intFmt o.fmt && o.var == 0 && al o.d o.group.size && al o.a o.group.size && al o.b o.group.size
  | .vredXor o => intFmt o.fmt && o.var == 0 && al o.d o.group.size && al o.a o.group.size && al o.b o.group.size
  | .vscanAdd o => moveFmt o.fmt && o.var == 0 && al o.d o.group.size && al o.a o.group.size && al o.b o.group.size
  | .vscanMin o => moveFmt o.fmt && o.var == 0 && al o.d o.group.size && al o.a o.group.size && al o.b o.group.size
  | .vscanMax o => moveFmt o.fmt && o.var == 0 && al o.d o.group.size && al o.a o.group.size && al o.b o.group.size
  | .vscanAnd o => intFmt o.fmt && o.var == 0 && al o.d o.group.size && al o.a o.group.size && al o.b o.group.size
  | .vscanOr o => intFmt o.fmt && o.var == 0 && al o.d o.group.size && al o.a o.group.size && al o.b o.group.size
  | .vscanXor o => intFmt o.fmt && o.var == 0 && al o.d o.group.size && al o.a o.group.size && al o.b o.group.size
  | .vperm o => moveFmt o.fmt && o.var == 0 && al o.d o.group.size && al o.a o.group.size && al o.b o.group.size
  | .vpermw o => moveFmt o.fmt && o.var == 0 && alN o.d o.group o.fmt .i64 && al o.b o.group.size
  | .vslideUp o => moveFmt o.fmt && o.var == 0 && al o.d o.group.size && al o.a o.group.size && vsr st o.b && !o.chb
  | .vslideDown o => moveFmt o.fmt && o.var == 1 && al o.d o.group.size && al o.a o.group.size && vsr st o.b && !o.chb
  | .vcomp o => moveFmt o.fmt && o.var == 0 && al o.d o.group.size && al o.a o.group.size && o.b == 0 && !o.chb
  | .vexpd o => moveFmt o.fmt && o.var == 0 && al o.d o.group.size && al o.a o.group.size && o.b == 0 && !o.chb
  | .vid o => intFmt o.fmt && o.var == 0 && al o.d o.group.size && o.a == 0 && !o.cha && o.b == 0 && !o.chb
  | .vsplat o => moveFmt o.fmt && o.var == 0 && al o.d o.group.size && vsr st o.a && !o.cha && o.b == 0 && !o.chb
  | .vmv o => moveFmt o.fmt && o.var == 0 && al o.d o.group.size && al o.a o.group.size && o.b == 0 && !o.chb
  | .vmvsToScalar o => moveFmt o.fmt && o.var == 0 && o.mask == 0 && vsr st o.d && al o.a o.group.size && vsr st o.b && !o.chb
  | .vmvsToVector o => moveFmt o.fmt && o.var == 1 && o.mask == 0 && al o.d o.group.size && vsr st o.a && !o.cha && vsr st o.b && !o.chb
  | .vclmul o => intFmt o.fmt && o.var == 0 && al o.d o.group.size && al o.a o.group.size && al o.b o.group.size
  | .vclmulh o => intFmt o.fmt && o.var == 0 && al o.d o.group.size && al o.a o.group.size && al o.b o.group.size
  | .vpopc o => intFmt o.fmt && o.var == 0 && al o.d o.group.size && al o.a o.group.size && o.b == 0 && !o.chb
  | .vfirst o => intFmt o.fmt && o.var == 0 && al o.d o.group.size && al o.a o.group.size && o.b == 0 && !o.chb
  | .vrand o => intFmt o.fmt && o.var == 0 && al o.d o.group.size && vsr st o.a && !o.cha && vsr st o.b && !o.chb
  | .tfrom o => indexFmt o.fmt && o.d == 0 && al o.a o.group.size && o.t == 0 && alT o.u o.group.size && o.op == 0 && o.s == 0 && o.imm == 0
  | .tto o => indexFmt o.fmt && al o.d o.group.size && o.a == 0 && !o.cha && alT o.t o.group.size && o.u == 0 && o.op == 0 && o.s == 0 && o.imm == 0
  | .tup o => treeOp o.op.val o.fmt && al o.d o.group.size && al o.a o.group.size && alT o.t o.group.size && o.u == 0 && sr st o.s && o.imm == 0
  | .tdown o => treeOp o.op.val o.fmt && al o.d o.group.size && al o.a o.group.size && alT o.t o.group.size && o.u == 0 && sr st o.s && o.imm == 0
  | .tbcast o => moveFmt o.fmt && al o.d o.group.size && al o.a o.group.size && alT o.t o.group.size && o.u == 0 && o.op == 0 && sr st o.s && o.imm == 0
  | .tbcastRoot o => moveFmt o.fmt && al o.d o.group.size && al o.a o.group.size && alT o.t o.group.size && o.u == 0 && o.op == 0 && sr st o.s && o.imm == 1 && o.mask == 0
  | .tdepth o => indexFmt o.fmt && al o.d o.group.size && o.a == 0 && !o.cha && alT o.t o.group.size && o.u == 0 && o.op == 0 && sr st o.s && o.imm == 0
  | .tanc o => indexFmt o.fmt && al o.d o.group.size && al o.a o.group.size && alT o.t o.group.size && o.u == 0 && o.op == 0 && sr st o.s && o.imm == 0
  | .tancIsa o => intFmt o.fmt && al o.d o.group.size && o.a == 0 && !o.cha && alT o.t o.group.size && alT o.u o.group.size && o.op == 0 && sr st o.s && o.imm == 1
  | .troot o => indexFmt o.fmt && al o.d o.group.size && o.a == 0 && !o.cha && alT o.t o.group.size && decide (o.u.val < 8) && o.op == 0 && sr st o.s && o.imm == 0
  | .tcontr o => moveFmt o.fmt && al o.d o.group.size && al o.a o.group.size && alT o.t o.group.size && alT o.u o.group.size && o.op == 0 && sr st o.s && o.imm == 0
  | .tchk o => moveFmt o.fmt && decide (o.d.val < 8) && o.a == 0 && !o.cha && alT o.t o.group.size && decide (o.u.val < 8) && o.op == 0 && sr st o.s && o.imm == 0 && o.mask == 0
  | .mrow o => rowOk h o.row.val && al o.v o.group.size && o.mask == 0 && o.fd == .i8 && o.rm == .rne && !o.sat && decide (o.count.val < 2) && sr st o.s && rowFmt o.fa && amOk o
  | .mrowz o => rowOk h o.row.val && al o.v o.group.size && o.mask == 0 && o.fd == .i8 && o.rm == .rne && !o.sat && decide (o.count.val < 2) && sr st o.s && rowFmt o.fa && amOk o
  | .mdrain o => rowOk h o.row.val && al o.v o.group.size && !o.chv && elemFmt o.fd && o.fa == .i8 && o.count == 0 && o.s == 0
  | .mclr o => rowOk h o.row.val && o.v == 0 && !o.chv && o.mask == 0 && o.group == .g1 && o.fa == .i8 && o.fd == .i8 && o.rm == .rne && !o.sat && o.count != 0 && decide (o.row.val + o.count.val ≤ 128 >>> h) && o.s == 0
  | .mstat o => rowOk h o.row.val && o.v == 0 && !o.chv && o.mask == 0 && o.group == .g1 && o.fa == .i8 && o.fd == .i8 && o.rm == .rne && !o.sat && decide (o.count.val < 3) && sr st o.s
  | .mrldff o => decide (o.row.val < 32) && al o.v o.group.size && !o.chv && o.mask == 0 && elemFmt o.fa && o.fd == .i8 && o.rm == .rne && !o.sat && o.count != 0
  | .mtload o => o.v == 0 && tileFmt o.fmt && sr st o.base && o.s == 0 && o.mask == 0 && o.group == .g1 && !o.chv && ordPad o.order o.scope
  | .mtloadq o => o.v == 0 && tileFmt o.fmt && sr st o.base && o.s == 0 && o.mask == 0 && o.group == .g1 && !o.chv && ordPad o.order o.scope
  | .cbload o => decide (o.v.val < 2) && o.fmt == .cb2 && sr st o.base && o.s == 0 && o.mask == 0 && o.group == .g1 && !o.chv && ordPad o.order o.scope
  | .vldp o => elemFmt o.fmt && al o.v o.group.size && sr st o.base && sr st o.s && ordPad o.order o.scope && !o.chv
  | .vstp o => elemFmt o.fmt && al o.v o.group.size && sr st o.base && sr st o.s && ordPadStore o.order o.scope
  | .vld o => elemFmt o.fmt && al o.v o.group.size && o.mask == 0 && !o.chv && ordLoad o.order o.scope
  | .vlds o => elemFmt o.fmt && al o.v o.group.size && o.mask == 0 && !o.chv && ordLoad o.order o.scope
  | .vldff o => elemFmt o.fmt && al o.v o.group.size && o.mask == 0 && !o.chv && ordLoad o.order o.scope
  | .vldw o => elemFmt o.fmt && al o.v o.group.size && o.mask == 0 && !o.chv && ordLoad o.order o.scope && o.s == 0
  | .vldch o => elemFmt o.fmt && al o.v o.group.size && o.mask == 0 && !o.chv && ordLoad o.order o.scope
  | .vldx o => elemFmt o.fmt && al o.v o.group.size && o.mask == 0 && !o.chv && ordLoad o.order o.scope
  | .vldt o => elemFmt o.fmt && al o.v o.group.size && o.mask == 0 && !o.chv && ordLoad o.order o.scope
  | .vstx o => byteFmt o.fmt && al o.v o.group.size && sr st o.base && idxOk o.x o.group o.fmt && ordStore o.order o.scope
  | .vaacc o => winFmt o.fmt && al o.v o.group.size && o.base == 0 && o.disp == 0 && idxOk o.x o.group o.fmt && o.order == .plain && o.scope == .ln
  | .vst o => elemFmt o.fmt && al o.v o.group.size && sr st o.base && o.s == 0 && ordStore o.order o.scope
  | .vsts o => byteFmt o.fmt && al o.v o.group.size && sr st o.base && sr st o.s && ordStore o.order o.scope
  | .awin o => decide (o.v.val < 3) && sr st o.base && sr st o.s && winFmt o.fmt && o.mask == 0 && o.group == .g1 && o.order == .plain && o.scope == .ln && !o.chv
  | .amerge => true
  | .vwaitf o => wordFmt o.fmt && al o.v o.group.size && sr st o.base && sr st o.s && ordLoad o.order o.scope
  | .kins o => winFmt o.fmt && vsr st o.d && al o.a o.group.size && alN o.b o.group o.fmt .i64 && o.var == 0
  | .klook o => winFmt o.fmt && alN o.d o.group o.fmt .i64 && al o.a o.group.size && o.b == 0 && !o.chb && o.var == 0
  | .kacc o => winFmt o.fmt && vsr st o.d && al o.a o.group.size && alN o.b o.group o.fmt .i64 && decide (o.var.val < 3)
  | .kdrain o => winFmt o.fmt && al o.d o.group.size && o.a == 0 && !o.cha && vsr st o.b && !o.chb && o.mask == 0 && o.var == 0 && decide (o.d.val + o.group.size + narrowRegs o.group o.fmt .i64 ≤ 64)
  | .kclr => true
  | .gmmask o => maskChunk h o && al o.d o.group.size && vsr st o.a && vsr st o.b
  | .kvmap o => sr st o.d && sr st o.a && sr st o.b
  | .kvxl o => sr st o.d && sr st o.a && sr st o.b
  | .kvapp o => sr st o.d && sr st o.a && sr st o.b
  | .kvtrunc o => sr st o.d && sr st o.a && sr st o.b
  | .fpop o => sr st o.d && sr st o.a && o.b == 0
  | .fpush o => o.d == 0 && sr st o.a && sr st o.b
  | .fpcnt o => sr st o.d && sr st o.a && o.b == 0
  | .sqpush o => o.d == 0 && sr st o.a && sr st o.b && o.b.val % 2 == 0
  | .sqpop o => sr st o.d && o.d != 0 && o.d.val % 2 == 0 && sr st o.a && o.b == 0
  | .sqcnt o => sr st o.d && sr st o.a && o.b == 0
  | .vocswap o => sr st o.d && sr st o.a && sr st o.b
  | .blapp o => sr st o.d && sr st o.a && sr st o.b
  | .blread o => sr st o.d && sr st o.a && sr st o.b
  | .blrel o => sr st o.d && sr st o.a && sr st o.b
  | .blveto o => sr st o.d && sr st o.a && sr st o.b
  | .gmstep o => sr st o.d && sr st o.a && sr st o.b
  | .gmreset o => sr st o.d && sr st o.a && sr st o.b
  | .flpost o => sr st o.d && sr st o.a && sr st o.b
  | .flpoll o => sr st o.d && sr st o.a && sr st o.b
  | .hostCxlMemWrite => true
  | .hostCxlMemRead => true
  | .textFrameRequest => true
  | .textFrameContinuation => true
  | .textFrameCancel => true
  | .ligaturePush => true
  | .scribeEmit => true
  | .pageWalk => true
  | .invalidation => true
  | .invalidationDone => true
  | .keySlotLoad => true
  | .keySlotClear => true
  | .folioPoolEnable => true
  | .folioReserveSet => true
  | .folioPoolDisable => true
  | .folioListsDiscard => true
  | .mailboxRequest => true
  | .promotionComplete => true
  | .copyIteration => true
  | .copyFaultRecordPending => true
  | .cpctlResume => true
  | .cpctlCancel => true
  | .copyqDelivery => true
  | .streamFill => true
  | .mrldffRowFill => true
  | .tileShadowSwap => true
  | .waitLimitExpiry => true
  | .barrierEnable => true
  | .barrierDisable => true
  | .podBarrierMessage => true
  | .podPhaseMessage => true
  | .blotterRingEnable => true
  | .blotterRingDisable => true
  | .stencilContextControl => true
  | .pipelineInstall => true
  | .pipelineDrain => true
  | .launchDispatch => true
  | .queueTaskStart => true
  | .balancerSample => true
  | .launchPriorityPreempt => true
  | .preempt => true
  | .hartSwapOut => true
  | .resume => true
  | .resumeAfter => true
  | .force => true
  | .cancel => true
  | .unfreezeEngine => true
  | .dropEngineOperation => true
  | .flashRingEnable => true
  | .flashRingDisable => true
  | .flashRequestComplete => true
  | .networkReceive => true
  | .spareCoreSwap => true
  | .spareLigatureSwap => true
  | .spareScribeSwap => true
  | .spareSwapDone => true
  | .laneRetraining => true
  | .eventCounterWrap => true
  | .powerSample => true
  | .thermalLimit => true
  | .thermalShutdown => true
  | .reset => true
  | .registerWrite => true
  | .reservedEncoding => true
  | .lineFormat => true
  | .lineFetchFault => true
  | .ingressErrorFrame => true
  | .promotionRequest => true
  | .supervisorAccess => true
  | .coreKeptDegraded => true
  | .softError => true
  | .powerLoss => true
  | .thermalLimitEnd => true

/-- The streams on which the opcode map defines an instruction (R48, Table 4.2); the steps of other agents run on none. -/
def Instr.runsOn (st : Stream) : Instr → Bool
  | .nop => true
  | .halt => true
  | .rdv => true
  | .brk => true
  | .yield => st != .c
  | .fence => true
  | .hint => true
  | .hintMajor3E => true
  | .bararr _ => st != .c
  | .barexp _ => st != .c
  | .barwait _ => st != .c
  | .bar _ => st != .c
  | .qput _ => st == .a
  | .qget _ => st == .x
  | .qdrainA _ => st == .a
  | .qdrainX _ => st == .x
  | .bqput _ => st == .a
  | .fork _ => st == .a
  | .wset _ => st == .c
  | .wwait _ => st == .x
  | .wget _ => st == .x
  | .wfree _ => st == .x
  | .copy _ => st == .c
  | .copyres _ => st == .c
  | .copycan _ => st == .c
  | .add _ => st != .c
  | .sub _ => st != .c
  | .and _ => st != .c
  | .or _ => st != .c
  | .xor _ => st != .c
  | .sll _ => st != .c
  | .srl _ => st != .c
  | .sra _ => st != .c
  | .mul _ => st != .c
  | .mulh _ => st != .c
  | .mulhn _ => st != .c
  | .div _ => st != .c
  | .divn _ => st != .c
  | .rem _ => st != .c
  | .remn _ => st != .c
  | .min _ => st != .c
  | .max _ => st != .c
  | .minn _ => st != .c
  | .maxn _ => st != .c
  | .slt _ => st != .c
  | .sltn _ => st != .c
  | .mov _ => st != .c
  | .clz _ => st != .c
  | .popc _ => st != .c
  | .jr _ => st != .c
  | .addi _ => true
  | .andi _ => st != .c
  | .ori _ => st != .c
  | .xori _ => st != .c
  | .slli _ => st != .c
  | .srli _ => st != .c
  | .srai _ => st != .c
  | .ctlr _ => st != .c
  | .ctlw _ => st != .c
  | .svcall _ => st != .c
  | .trap _ => st != .c
  | .featq _ => st != .c
  | .limm _ => true
  | .jmp _ => true
  | .jal _ => st != .c
  | .loop _ => true
  | .beq _ => true
  | .bne _ => true
  | .blt _ => st != .c
  | .bge _ => st != .c
  | .bltn _ => st != .c
  | .bgen _ => st != .c
  | .bq _ => st == .x
  | .ldb _ => st == .a
  | .ldh _ => st == .a
  | .ldw _ => st == .a
  | .ldd _ => st == .a
  | .ldbn _ => st == .a
  | .ldhn _ => st == .a
  | .ldwn _ => st == .a
  | .stb _ => st != .c
  | .sth _ => st != .c
  | .stw _ => st != .c
  | .std _ => st != .c
  | .waiteq _ => st != .c
  | .waitne _ => st != .c
  | .amoadd _ => st == .a
  | .amomin _ => st == .a
  | .amomax _ => st == .a
  | .amoand _ => st == .a
  | .amoor _ => st == .a
  | .amoswp _ => st == .a
  | .amocas _ => st == .a
  | .sbind _ => st == .a
  | .sfree _ => st == .a
  | .sskip _ => st == .a
  | .sstat _ => st == .a
  | .copyq _ => st == .c
  | .rule _ => st == .c
  | .rbase _ => st == .c
  | .spmap _ => st == .x
  | .spunmap _ => st == .x
  | .spflush _ => st == .x
  | .spinv _ => st == .x
  | .qjoin _ => st == .x
  | .qleave _ => st == .x
  | .mand _ => st == .x
  | .mor _ => st == .x
  | .mxor _ => st == .x
  | .mnot _ => st == .x
  | .mpopc _ => st == .x
  | .mfirst _ => st == .x
  | .mset _ => st == .x
  | .vadd _ => st == .x
  | .vsub _ => st == .x
  | .vmul _ => st == .x
  | .vmulh _ => st == .x
  | .vmacc _ => st == .x
  | .vadds _ => st == .x
  | .vsubs _ => st == .x
  | .vavg _ => st == .x
  | .vabs _ => st == .x
  | .vneg _ => st == .x
  | .vmin _ => st == .x
  | .vmax _ => st == .x
  | .vand _ => st == .x
  | .vor _ => st == .x
  | .vxor _ => st == .x
  | .vnot _ => st == .x
  | .vsll _ => st == .x
  | .vsrl _ => st == .x
  | .vsra _ => st == .x
  | .vrot _ => st == .x
  | .vcmpEqInt _ => st == .x
  | .vcmpNeInt _ => st == .x
  | .vcmpLtInt _ => st == .x
  | .vcmpGeInt _ => st == .x
  | .vsel _ => st == .x
  | .vfadd _ => st == .x
  | .vfsub _ => st == .x
  | .vfmul _ => st == .x
  | .vfma _ => st == .x
  | .vfms _ => st == .x
  | .vfnma _ => st == .x
  | .vfdiv _ => st == .x
  | .vfsqrt _ => st == .x
  | .vfrcp _ => st == .x
  | .vfrsq _ => st == .x
  | .vfexp2 _ => st == .x
  | .vflog2 _ => st == .x
  | .vfmin _ => st == .x
  | .vfmax _ => st == .x
  | .vfabs _ => st == .x
  | .vfneg _ => st == .x
  | .vfclass _ => st == .x
  | .vcmpEqFp _ => st == .x
  | .vcmpNeFp _ => st == .x
  | .vcmpLtFp _ => st == .x
  | .vcmpGeFp _ => st == .x
  | .vcvt _ => st == .x
  | .vqmarg _ => st == .x
  | .vqmargClamp _ => st == .x
  | .vdq _ => st == .x
  | .vscale _ => st == .x
  | .vredAdd _ => st == .x
  | .vredMin _ => st == .x
  | .vredMax _ => st == .x
  | .vredAnd _ => st == .x
  | .vredOr _ => st == .x
  | .vredXor _ => st == .x
  | .vscanAdd _ => st == .x
  | .vscanMin _ => st == .x
  | .vscanMax _ => st == .x
  | .vscanAnd _ => st == .x
  | .vscanOr _ => st == .x
  | .vscanXor _ => st == .x
  | .vperm _ => st == .x
  | .vpermw _ => st == .x
  | .vslideUp _ => st == .x
  | .vslideDown _ => st == .x
  | .vcomp _ => st == .x
  | .vexpd _ => st == .x
  | .vid _ => st == .x
  | .vsplat _ => st == .x
  | .vmv _ => st == .x
  | .vmvsToScalar _ => st == .x
  | .vmvsToVector _ => st == .x
  | .vclmul _ => st == .x
  | .vclmulh _ => st == .x
  | .vpopc _ => st == .x
  | .vfirst _ => st == .x
  | .vrand _ => st == .x
  | .tfrom _ => st == .x
  | .tto _ => st == .x
  | .tup _ => st == .x
  | .tdown _ => st == .x
  | .tbcast _ => st == .x
  | .tbcastRoot _ => st == .x
  | .tdepth _ => st == .x
  | .tanc _ => st == .x
  | .tancIsa _ => st == .x
  | .troot _ => st == .x
  | .tcontr _ => st == .x
  | .tchk _ => st == .x
  | .mrow _ => st == .x
  | .mrowz _ => st == .x
  | .mdrain _ => st == .x
  | .mclr _ => st == .x
  | .mstat _ => st == .x
  | .mrldff _ => st == .a
  | .mtload _ => st == .x
  | .mtloadq _ => st == .x
  | .cbload _ => st == .x
  | .vldp _ => st == .x
  | .vstp _ => st == .x
  | .vld _ => st == .a
  | .vlds _ => st == .a
  | .vldff _ => st == .a
  | .vldw _ => st == .a
  | .vldch _ => st == .a
  | .vldx _ => st == .a
  | .vldt _ => st == .a
  | .vstx _ => st == .x
  | .vaacc _ => st == .x
  | .vst _ => st == .x
  | .vsts _ => st == .x
  | .awin _ => st == .x
  | .amerge => st == .x
  | .vwaitf _ => st == .x
  | .kins _ => st == .x
  | .klook _ => st == .x
  | .kacc _ => st == .x
  | .kdrain _ => st == .x
  | .kclr => st == .x
  | .gmmask _ => st == .x
  | .kvmap _ => st != .c
  | .kvxl _ => st != .c
  | .kvapp _ => st == .x
  | .kvtrunc _ => st == .x
  | .fpop _ => st != .c
  | .fpush _ => st != .c
  | .fpcnt _ => st != .c
  | .sqpush _ => st != .c
  | .sqpop _ => st != .c
  | .sqcnt _ => st != .c
  | .vocswap _ => st != .c
  | .blapp _ => st == .x
  | .blread _ => st == .x
  | .blrel _ => st == .x
  | .blveto _ => st == .x
  | .gmstep _ => st == .x
  | .gmreset _ => st == .x
  | .flpost _ => st != .c
  | .flpoll _ => st != .c
  | .textFrameRequest => false
  | .textFrameContinuation => false
  | .textFrameCancel => false
  | .ligaturePush => false
  | .scribeEmit => false
  | .pageWalk => false
  | .invalidation => false
  | .invalidationDone => false
  | .keySlotLoad => false
  | .keySlotClear => false
  | .folioPoolEnable => false
  | .folioReserveSet => false
  | .folioPoolDisable => false
  | .folioListsDiscard => false
  | .mailboxRequest => false
  | .promotionComplete => false
  | .copyIteration => false
  | .copyFaultRecordPending => false
  | .cpctlResume => false
  | .cpctlCancel => false
  | .copyqDelivery => false
  | .streamFill => false
  | .mrldffRowFill => false
  | .tileShadowSwap => false
  | .waitLimitExpiry => false
  | .barrierEnable => false
  | .barrierDisable => false
  | .podBarrierMessage => false
  | .podPhaseMessage => false
  | .blotterRingEnable => false
  | .blotterRingDisable => false
  | .stencilContextControl => false
  | .pipelineInstall => false
  | .pipelineDrain => false
  | .launchDispatch => false
  | .queueTaskStart => false
  | .balancerSample => false
  | .launchPriorityPreempt => false
  | .preempt => false
  | .hartSwapOut => false
  | .resume => false
  | .resumeAfter => false
  | .force => false
  | .cancel => false
  | .unfreezeEngine => false
  | .dropEngineOperation => false
  | .flashRingEnable => false
  | .flashRingDisable => false
  | .flashRequestComplete => false
  | .networkReceive => false
  | .hostCxlMemWrite => false
  | .hostCxlMemRead => false
  | .spareCoreSwap => false
  | .spareLigatureSwap => false
  | .spareScribeSwap => false
  | .spareSwapDone => false
  | .laneRetraining => false
  | .eventCounterWrap => false
  | .powerSample => false
  | .thermalLimit => false
  | .thermalShutdown => false
  | .reset => false
  | .registerWrite => false
  | .reservedEncoding => false
  | .lineFormat => false
  | .lineFetchFault => false
  | .ingressErrorFrame => false
  | .promotionRequest => false
  | .supervisorAccess => false
  | .coreKeptDegraded => false
  | .softError => false
  | .powerLoss => false
  | .thermalLimitEnd => false

/-- A well-formed instruction of stream `st` on a hart of HARTS code `h`: assigned to the stream, with fields in order (R49). -/
def Instr.wellFormed (st : Stream) (h : Nat) (i : Instr) : Bool := i.runsOn st && i.fieldsOk st h

end Sys2Proof
end

