-- ==== Sys2Proof/Decode.lean ====
section
/-! DEFINITION. Decode: code lines (R27 to R33), tails (R37, R38), the opcode map (R47 to R54), and the encoder. -/

namespace Sys2Proof

/-- `w` bits of `t` from bit `lo` upward (R1). -/
def bits (t lo w : Nat) : Nat := t / 2 ^ lo % 2 ^ w

/-- Scope codes (Table 3.3); 6 and 7 are reserved. -/
def Scope.ofCode : Nat → Option Scope
  | 0 => some .ln | 1 => some .co | 2 => some .qd | 3 => some .di | 4 => some .pk | 5 => some .pd | _ => none

def Scope.code : Scope → Nat
  | .ln => 0 | .co => 1 | .qd => 2 | .di => 3 | .pk => 4 | .pd => 5

/-- Order codes (Table 3.3). -/
def Order.ofCode : Nat → Order
  | 0 => .plain | 1 => .aq | 2 => .rl | _ => .aqrl

def Order.code : Order → Nat
  | .plain => 0 | .aq => 1 | .rl => 2 | .aqrl => 3

/-- Group codes (Table 3.3). -/
def Group.ofCode : Nat → Group
  | 0 => .g1 | 1 => .g2 | 2 => .g4 | _ => .g8

def Group.code : Group → Nat
  | .g1 => 0 | .g2 => 1 | .g4 => 2 | .g8 => 3

/-- Rounding-mode codes (Table 3.3); 5 to 7 are reserved. -/
def Rm.ofCode : Nat → Option Rm
  | 0 => some .rne | 1 => some .rtz | 2 => some .rup | 3 => some .rdn | 4 => some .rna | _ => none

def Rm.code : Rm → Nat
  | .rne => 0 | .rtz => 1 | .rup => 2 | .rdn => 3 | .rna => 4

/-- Well-state codes (Table 3.3); 5 to 7 are reserved. -/
def WellState.ofCode : Nat → Option WellState
  | 0 => some .free | 1 => some .filling | 2 => some .full | 3 => some .draining | 4 => some .faulted | _ => none

def WellState.code : WellState → Nat
  | .free => 0 | .filling => 1 | .full => 2 | .draining => 3 | .faulted => 4

/-- Format codes (Table 3.4); 0x12 to 0x1F are reserved (R40). -/
def Fmt.ofCode : Nat → Option Fmt
  | 0x00 => some .i8 | 0x01 => some .i16 | 0x02 => some .i32 | 0x03 => some .i64
  | 0x04 => some .n8 | 0x05 => some .n16 | 0x06 => some .n32 | 0x07 => some .n64
  | 0x08 => some .i4 | 0x09 => some .fp4 | 0x0A => some .fp8a | 0x0B => some .fp8b
  | 0x0C => some .fp16 | 0x0D => some .bf16 | 0x0E => some .fp32 | 0x0F => some .cb2
  | 0x10 => some .sc8 | 0x11 => some .acc80 | _ => none

def Fmt.code : Fmt → Nat
  | .i8 => 0x00 | .i16 => 0x01 | .i32 => 0x02 | .i64 => 0x03 | .n8 => 0x04 | .n16 => 0x05 | .n32 => 0x06 | .n64 => 0x07
  | .i4 => 0x08 | .fp4 => 0x09 | .fp8a => 0x0A | .fp8b => 0x0B | .fp16 => 0x0C | .bf16 => 0x0D | .fp32 => 0x0E
  | .cb2 => 0x0F | .sc8 => 0x10 | .acc80 => 0x11

/-- The minors of major 0x00 at tlen 0 (Table 4.2): no tail; 0x80 to 0xFF are hints (R51). Minor 0x00 is the line-end
head, which is no instruction. -/
def decMajor00 (minor : Nat) : Option Instr :=
  match minor with
  | 0x01 => some .nop
  | 0x02 => some .halt
  | 0x03 => some .rdv
  | 0x04 => some .brk
  | 0x05 => some .yield
  | 0x08 | 0x09 | 0x0A | 0x0B | 0x0C | 0x0D => some .fence
  | _ => if 0x80 ≤ minor then some .hint else none

/-- Reads a tail of format HT16R (R37, Table 3.2): none where a bit marked — is set or a coded field is reserved (R38). -/
def decHT16R (t : Nat) : Option HT16R :=
  if bits t 15 1 = 0 then
  some { b := Fin.ofNat 32 (bits t 10 5), a := Fin.ofNat 32 (bits t 5 5), d := Fin.ofNat 32 (bits t 0 5) }
  else none

/-- The tail value of format HT16R: each field in its bits, every other bit zero (R37). -/
def encHT16R (o : HT16R) : Nat :=
  o.b.val * 2 ^ 10 + o.a.val * 2 ^ 5 + o.d.val

/-- Reads a tail of format HT16VS (R37, Table 3.2): none where a bit marked — is set or a coded field is reserved (R38). -/
def decHT16VS (t : Nat) : Option HT16VS :=
  if bits t 5 5 = 0 then
  some { v := Fin.ofNat 64 (bits t 10 6), s := Fin.ofNat 32 (bits t 0 5) }
  else none

/-- The tail value of format HT16VS: each field in its bits, every other bit zero (R37). -/
def encHT16VS (o : HT16VS) : Nat :=
  o.v.val * 2 ^ 10 + o.s.val

/-- Reads a tail of format HT16Q (R37, Table 3.2): none where a bit marked — is set or a coded field is reserved (R38). -/
def decHT16Q (t : Nat) : Option HT16Q :=
  some { qset := BitVec.ofNat 8 (bits t 8 8), q := Fin.ofNat 8 (bits t 5 3), s := Fin.ofNat 32 (bits t 0 5) }

/-- The tail value of format HT16Q: each field in its bits, every other bit zero (R37). -/
def encHT16Q (o : HT16Q) : Nat :=
  o.qset.toNat * 2 ^ 8 + o.q.val * 2 ^ 5 + o.s.val

/-- Reads a tail of format HT16H (R37, Table 3.2): none where a bit marked — is set or a coded field is reserved (R38). -/
def decHT16H (t : Nat) : Option HT16H :=
  if bits t 5 2 = 0 then
  (WellState.ofCode (bits t 7 3)).bind fun state =>
  some { handle := Fin.ofNat 64 (bits t 10 6), state := state, s := Fin.ofNat 32 (bits t 0 5) }
  else none

/-- The tail value of format HT16H: each field in its bits, every other bit zero (R37). -/
def encHT16H (o : HT16H) : Nat :=
  o.handle.val * 2 ^ 10 + o.state.code * 2 ^ 7 + o.s.val

/-- Reads a tail of format HT16S (R37, Table 3.2): none where a bit marked — is set or a coded field is reserved (R38). -/
def decHT16S (t : Nat) : Option HT16S :=
  if bits t 5 3 = 0 then
  (Scope.ofCode (bits t 13 3)).bind fun scope =>
  some { scope := scope, id := Fin.ofNat 32 (bits t 8 5), s := Fin.ofNat 32 (bits t 0 5) }
  else none

/-- The tail value of format HT16S: each field in its bits, every other bit zero (R37). -/
def encHT16S (o : HT16S) : Nat :=
  o.scope.code * 2 ^ 13 + o.id.val * 2 ^ 8 + o.s.val

/-- Reads a tail of format HT16K (R37, Table 3.2): none where a bit marked — is set or a coded field is reserved (R38). -/
def decHT16K (t : Nat) : Option HT16K :=
  if bits t 9 2 = 0 then
  some { s := Fin.ofNat 32 (bits t 11 5), md := Fin.ofNat 8 (bits t 6 3), ma := Fin.ofNat 8 (bits t 3 3), mb := Fin.ofNat 8 (bits t 0 3) }
  else none

/-- The tail value of format HT16K: each field in its bits, every other bit zero (R37). -/
def encHT16K (o : HT16K) : Nat :=
  o.s.val * 2 ^ 11 + o.md.val * 2 ^ 6 + o.ma.val * 2 ^ 3 + o.mb.val

/-- Reads a tail of format HT32I (R37, Table 3.2): none where a bit marked — is set or a coded field is reserved (R38). -/
def decHT32I (t : Nat) : Option HT32I :=
  if bits t 10 6 = 0 then
  some { imm := BitVec.ofNat 16 (bits t 16 16), a := Fin.ofNat 32 (bits t 5 5), d := Fin.ofNat 32 (bits t 0 5) }
  else none

/-- The tail value of format HT32I: each field in its bits, every other bit zero (R37). -/
def encHT32I (o : HT32I) : Nat :=
  o.imm.toNat * 2 ^ 16 + o.a.val * 2 ^ 5 + o.d.val

/-- Reads a tail of format HT32M (R37, Table 3.2): none where a bit marked — is set or a coded field is reserved (R38). -/
def decHT32M (t : Nat) : Option HT32M :=
  if bits t 10 1 = 0 then
  (Scope.ofCode (bits t 13 3)).bind fun scope =>
  some { disp := BitVec.ofNat 16 (bits t 16 16), scope := scope, order := Order.ofCode (bits t 11 2), base := Fin.ofNat 32 (bits t 5 5), d := Fin.ofNat 32 (bits t 0 5) }
  else none

/-- The tail value of format HT32M: each field in its bits, every other bit zero (R37). -/
def encHT32M (o : HT32M) : Nat :=
  o.disp.toNat * 2 ^ 16 + o.scope.code * 2 ^ 13 + o.order.code * 2 ^ 11 + o.base.val * 2 ^ 5 + o.d.val

/-- Reads a tail of format HT32B (R37, Table 3.2): none where a bit marked — is set or a coded field is reserved (R38). -/
def decHT32B (t : Nat) : Option HT32B :=
  if bits t 10 6 = 0 then
  some { off := BitVec.ofNat 11 (bits t 21 11), head := Fin.ofNat 32 (bits t 16 5), b := Fin.ofNat 32 (bits t 5 5), a := Fin.ofNat 32 (bits t 0 5) }
  else none

/-- The tail value of format HT32B: each field in its bits, every other bit zero (R37). -/
def encHT32B (o : HT32B) : Nat :=
  o.off.toNat * 2 ^ 21 + o.head.val * 2 ^ 16 + o.b.val * 2 ^ 5 + o.a.val

/-- Reads a tail of format HT32V (R37, Table 3.2): none where a bit marked — is set or a coded field is reserved (R38). -/
def decHT32V (t : Nat) : Option HT32V :=
  (Fmt.ofCode (bits t 2 5)).bind fun fmt =>
  some { d := Fin.ofNat 64 (bits t 26 6), a := Fin.ofNat 64 (bits t 20 6), b := Fin.ofNat 64 (bits t 14 6), cha := bits t 13 1 == 1, chb := bits t 12 1 == 1, mask := Fin.ofNat 8 (bits t 9 3), group := Group.ofCode (bits t 7 2), fmt := fmt, var := Fin.ofNat 4 (bits t 0 2) }

/-- The tail value of format HT32V: each field in its bits, every other bit zero (R37). -/
def encHT32V (o : HT32V) : Nat :=
  o.d.val * 2 ^ 26 + o.a.val * 2 ^ 20 + o.b.val * 2 ^ 14 + o.cha.toNat * 2 ^ 13 + o.chb.toNat * 2 ^ 12 + o.mask.val * 2 ^ 9 + o.group.code * 2 ^ 7 + o.fmt.code * 2 ^ 2 + o.var.val

/-- Reads a tail of format HT48I (R37, Table 3.2): none where a bit marked — is set or a coded field is reserved (R38). -/
def decHT48I (t : Nat) : Option HT48I :=
  if bits t 5 11 = 0 then
  some { imm := BitVec.ofNat 32 (bits t 16 32), d := Fin.ofNat 32 (bits t 0 5) }
  else none

/-- The tail value of format HT48I: each field in its bits, every other bit zero (R37). -/
def encHT48I (o : HT48I) : Nat :=
  o.imm.toNat * 2 ^ 16 + o.d.val

/-- Reads a tail of format HT48J (R37, Table 3.2): none where a bit marked — is set or a coded field is reserved (R38). -/
def decHT48J (t : Nat) : Option HT48J :=
  if bits t 5 11 = 0 then
  some { off := BitVec.ofNat 27 (bits t 21 27), head := Fin.ofNat 32 (bits t 16 5), d := Fin.ofNat 32 (bits t 0 5) }
  else none

/-- The tail value of format HT48J: each field in its bits, every other bit zero (R37). -/
def encHT48J (o : HT48J) : Nat :=
  o.off.toNat * 2 ^ 21 + o.head.val * 2 ^ 16 + o.d.val

/-- Reads a tail of format HT48V (R37, Table 3.2): none where a bit marked — is set or a coded field is reserved (R38). -/
def decHT48V (t : Nat) : Option HT48V :=
  (Fmt.ofCode (bits t 11 5)).bind fun fd =>
  (Fmt.ofCode (bits t 6 5)).bind fun fs =>
  (Rm.ofCode (bits t 3 3)).bind fun rm =>
  some { d := Fin.ofNat 64 (bits t 42 6), a := Fin.ofNat 64 (bits t 36 6), b := Fin.ofNat 64 (bits t 30 6), c := Fin.ofNat 64 (bits t 24 6), cha := bits t 23 1 == 1, chb := bits t 22 1 == 1, chc := bits t 21 1 == 1, mask := Fin.ofNat 8 (bits t 18 3), group := Group.ofCode (bits t 16 2), fd := fd, fs := fs, rm := rm, sat := bits t 2 1 == 1, var := Fin.ofNat 4 (bits t 0 2) }

/-- The tail value of format HT48V: each field in its bits, every other bit zero (R37). -/
def encHT48V (o : HT48V) : Nat :=
  o.d.val * 2 ^ 42 + o.a.val * 2 ^ 36 + o.b.val * 2 ^ 30 + o.c.val * 2 ^ 24 + o.cha.toNat * 2 ^ 23 + o.chb.toNat * 2 ^ 22 + o.chc.toNat * 2 ^ 21 + o.mask.val * 2 ^ 18 + o.group.code * 2 ^ 16 + o.fd.code * 2 ^ 11 + o.fs.code * 2 ^ 6 + o.rm.code * 2 ^ 3 + o.sat.toNat * 2 ^ 2 + o.var.val

/-- Reads a tail of format HT48VM (R37, Table 3.2): none where a bit marked — is set or a coded field is reserved (R38). -/
def decHT48VM (t : Nat) : Option HT48VM :=
  (Fmt.ofCode (bits t 11 5)).bind fun fmt =>
  (Scope.ofCode (bits t 1 3)).bind fun scope =>
  some { v := Fin.ofNat 64 (bits t 42 6), base := Fin.ofNat 32 (bits t 37 5), s := Fin.ofNat 32 (bits t 32 5), disp := BitVec.ofNat 16 (bits t 16 16), fmt := fmt, mask := Fin.ofNat 8 (bits t 8 3), group := Group.ofCode (bits t 6 2), order := Order.ofCode (bits t 4 2), scope := scope, chv := bits t 0 1 == 1 }

/-- The tail value of format HT48VM: each field in its bits, every other bit zero (R37). -/
def encHT48VM (o : HT48VM) : Nat :=
  o.v.val * 2 ^ 42 + o.base.val * 2 ^ 37 + o.s.val * 2 ^ 32 + o.disp.toNat * 2 ^ 16 + o.fmt.code * 2 ^ 11 + o.mask.val * 2 ^ 8 + o.group.code * 2 ^ 6 + o.order.code * 2 ^ 4 + o.scope.code * 2 ^ 1 + o.chv.toNat

/-- Reads a tail of format HT48VX (R37, Table 3.2): none where a bit marked — is set or a coded field is reserved (R38). -/
def decHT48VX (t : Nat) : Option HT48VX :=
  (Fmt.ofCode (bits t 11 5)).bind fun fmt =>
  (Scope.ofCode (bits t 1 3)).bind fun scope =>
  some { v := Fin.ofNat 64 (bits t 42 6), base := Fin.ofNat 32 (bits t 37 5), x := Fin.ofNat 64 (bits t 31 6), chx := bits t 30 1 == 1, disp := BitVec.ofNat 14 (bits t 16 14), fmt := fmt, mask := Fin.ofNat 8 (bits t 8 3), group := Group.ofCode (bits t 6 2), order := Order.ofCode (bits t 4 2), scope := scope, chv := bits t 0 1 == 1 }

/-- The tail value of format HT48VX: each field in its bits, every other bit zero (R37). -/
def encHT48VX (o : HT48VX) : Nat :=
  o.v.val * 2 ^ 42 + o.base.val * 2 ^ 37 + o.x.val * 2 ^ 31 + o.chx.toNat * 2 ^ 30 + o.disp.toNat * 2 ^ 16 + o.fmt.code * 2 ^ 11 + o.mask.val * 2 ^ 8 + o.group.code * 2 ^ 6 + o.order.code * 2 ^ 4 + o.scope.code * 2 ^ 1 + o.chv.toNat

/-- Reads a tail of format HT48T (R37, Table 3.2): none where a bit marked — is set or a coded field is reserved (R38). -/
def decHT48T (t : Nat) : Option HT48T :=
  (Fmt.ofCode (bits t 17 5)).bind fun fmt =>
  some { d := Fin.ofNat 64 (bits t 42 6), a := Fin.ofNat 64 (bits t 36 6), t := Fin.ofNat 16 (bits t 32 4), u := Fin.ofNat 16 (bits t 28 4), cha := bits t 27 1 == 1, mask := Fin.ofNat 8 (bits t 24 3), group := Group.ofCode (bits t 22 2), fmt := fmt, op := Fin.ofNat 16 (bits t 13 4), s := Fin.ofNat 32 (bits t 8 5), imm := BitVec.ofNat 8 (bits t 0 8) }

/-- The tail value of format HT48T: each field in its bits, every other bit zero (R37). -/
def encHT48T (o : HT48T) : Nat :=
  o.d.val * 2 ^ 42 + o.a.val * 2 ^ 36 + o.t.val * 2 ^ 32 + o.u.val * 2 ^ 28 + o.cha.toNat * 2 ^ 27 + o.mask.val * 2 ^ 24 + o.group.code * 2 ^ 22 + o.fmt.code * 2 ^ 17 + o.op.val * 2 ^ 13 + o.s.val * 2 ^ 8 + o.imm.toNat

/-- Reads a tail of format HT48MX (R37, Table 3.2): none where a bit marked — is set or a coded field is reserved (R38). -/
def decHT48MX (t : Nat) : Option HT48MX :=
  if bits t 0 3 = 0 then
  (Fmt.ofCode (bits t 24 5)).bind fun fa =>
  (Fmt.ofCode (bits t 19 5)).bind fun fd =>
  (Rm.ofCode (bits t 16 3)).bind fun rm =>
  some { row := Fin.ofNat 128 (bits t 41 7), v := Fin.ofNat 64 (bits t 35 6), chv := bits t 34 1 == 1, mask := Fin.ofNat 8 (bits t 31 3), group := Group.ofCode (bits t 29 2), fa := fa, fd := fd, rm := rm, sat := bits t 15 1 == 1, count := Fin.ofNat 128 (bits t 8 7), s := Fin.ofNat 32 (bits t 3 5) }
  else none

/-- The tail value of format HT48MX: each field in its bits, every other bit zero (R37). -/
def encHT48MX (o : HT48MX) : Nat :=
  o.row.val * 2 ^ 41 + o.v.val * 2 ^ 35 + o.chv.toNat * 2 ^ 34 + o.mask.val * 2 ^ 31 + o.group.code * 2 ^ 29 + o.fa.code * 2 ^ 24 + o.fd.code * 2 ^ 19 + o.rm.code * 2 ^ 16 + o.sat.toNat * 2 ^ 15 + o.count.val * 2 ^ 8 + o.s.val * 2 ^ 3

/-- Reads a tail of format HT48L (R37, Table 3.2): none where a bit marked — is set or a coded field is reserved (R38). -/
def decHT48L (t : Nat) : Option HT48L :=
  some { level := Fin.ofNat 8 (bits t 45 3), count := BitVec.ofNat 15 (bits t 30 15), stra := BitVec.ofNat 15 (bits t 15 15), strb := BitVec.ofNat 15 (bits t 0 15) }

/-- The tail value of format HT48L: each field in its bits, every other bit zero (R37). -/
def encHT48L (o : HT48L) : Nat :=
  o.level.val * 2 ^ 45 + o.count.toNat * 2 ^ 30 + o.stra.toNat * 2 ^ 15 + o.strb.toNat

/-- The minors of major 0x01 (Table 4.2). -/
def decMajor01 (minor tail : Nat) : Option Instr :=
  (decHT16S tail).bind fun o =>
  match minor with
  | 0x00 => some (.bararr o)
  | 0x01 => some (.barexp o)
  | 0x02 => some (.barwait o)
  | 0x03 => some (.bar o)
  | _ => none

/-- The minors of major 0x02 (Table 4.2). -/
def decMajor02 (st : Stream) (minor tail : Nat) : Option Instr :=
  (decHT16Q tail).bind fun o =>
  match minor with
  | 0x00 => some (.qput o)
  | 0x01 => some (.qget o)
  | 0x02 => if st == .a then some (.qdrainA o) else some (.qdrainX o)
  | 0x03 => some (.bqput o)
  | 0x04 => some (.fork o)
  | _ => none

/-- The minors of major 0x03 (Table 4.2). -/
def decMajor03 (minor tail : Nat) : Option Instr :=
  (decHT16H tail).bind fun o =>
  match minor with
  | 0x00 => some (.wset o)
  | 0x01 => some (.wwait o)
  | 0x02 => some (.wget o)
  | 0x03 => some (.wfree o)
  | 0x04 => some (.copy o)
  | 0x06 => some (.copyres o)
  | 0x07 => some (.copycan o)
  | _ => none

/-- The minors of major 0x04 (Table 4.2). -/
def decMajor04 (minor tail : Nat) : Option Instr :=
  (decHT16R tail).bind fun o =>
  match minor with
  | 0x00 => some (.add o)
  | 0x01 => some (.sub o)
  | 0x02 => some (.and o)
  | 0x03 => some (.or o)
  | 0x04 => some (.xor o)
  | 0x05 => some (.sll o)
  | 0x06 => some (.srl o)
  | 0x07 => some (.sra o)
  | 0x08 => some (.mul o)
  | 0x09 => some (.mulh o)
  | 0x0A => some (.mulhn o)
  | 0x0B => some (.div o)
  | 0x0C => some (.divn o)
  | 0x0D => some (.rem o)
  | 0x0E => some (.remn o)
  | 0x0F => some (.min o)
  | 0x10 => some (.max o)
  | 0x11 => some (.minn o)
  | 0x12 => some (.maxn o)
  | 0x13 => some (.slt o)
  | 0x14 => some (.sltn o)
  | 0x15 => some (.mov o)
  | 0x16 => some (.clz o)
  | 0x17 => some (.popc o)
  | 0x18 => some (.jr o)
  | _ => none

/-- The minors of major 0x05 (Table 4.2). -/
def decMajor05 (minor tail : Nat) : Option Instr :=
  (decHT32I tail).bind fun o =>
  match minor with
  | 0x00 => some (.addi o)
  | 0x01 => some (.andi o)
  | 0x02 => some (.ori o)
  | 0x03 => some (.xori o)
  | 0x04 => some (.slli o)
  | 0x05 => some (.srli o)
  | 0x06 => some (.srai o)
  | 0x08 => some (.ctlr o)
  | 0x09 => some (.ctlw o)
  | 0x0A => some (.svcall o)
  | 0x0B => some (.trap o)
  | 0x0C => some (.featq o)
  | _ => none

/-- The minors of major 0x06 (Table 4.2). -/
def decMajor06 (minor tail : Nat) : Option Instr :=
  (decHT48I tail).bind fun o =>
  match minor with
  | 0x00 => some (.limm o)
  | _ => none

/-- The minors of major 0x07 (Table 4.2). -/
def decMajor07 (minor tail : Nat) : Option Instr :=
  (decHT48J tail).bind fun o =>
  match minor with
  | 0x00 => some (.jmp o)
  | 0x01 => some (.jal o)
  | 0x02 => some (.loop o)
  | _ => none

/-- The minors of major 0x08 (Table 4.2). -/
def decMajor08 (minor tail : Nat) : Option Instr :=
  (decHT32B tail).bind fun o =>
  match minor with
  | 0x00 => some (.beq o)
  | 0x01 => some (.bne o)
  | 0x02 => some (.blt o)
  | 0x03 => some (.bge o)
  | 0x04 => some (.bltn o)
  | 0x05 => some (.bgen o)
  | 0x06 => some (.bq o)
  | _ => none

/-- The minors of major 0x09 (Table 4.2). -/
def decMajor09 (minor tail : Nat) : Option Instr :=
  (decHT32M tail).bind fun o =>
  match minor with
  | 0x00 => some (.ldb o)
  | 0x01 => some (.ldh o)
  | 0x02 => some (.ldw o)
  | 0x03 => some (.ldd o)
  | 0x04 => some (.ldbn o)
  | 0x05 => some (.ldhn o)
  | 0x06 => some (.ldwn o)
  | 0x08 => some (.stb o)
  | 0x09 => some (.sth o)
  | 0x0A => some (.stw o)
  | 0x0B => some (.std o)
  | 0x0C => some (.waiteq o)
  | 0x0D => some (.waitne o)
  | _ => none

/-- The minors of major 0x0A (Table 4.2). -/
def decMajor0A (minor tail : Nat) : Option Instr :=
  (decHT48VM tail).bind fun o =>
  match minor with
  | 0x00 => some (.amoadd o)
  | 0x01 => some (.amomin o)
  | 0x02 => some (.amomax o)
  | 0x03 => some (.amoand o)
  | 0x04 => some (.amoor o)
  | 0x05 => some (.amoswp o)
  | 0x06 => some (.amocas o)
  | _ => none

/-- The minors of major 0x0B (Table 4.2). -/
def decMajor0B (minor tail : Nat) : Option Instr :=
  (decHT16VS tail).bind fun o =>
  match minor with
  | 0x00 => some (.sbind o)
  | 0x01 => some (.sfree o)
  | 0x02 => some (.sskip o)
  | 0x03 => some (.sstat o)
  | 0x04 => some (.copyq o)
  | _ => none

/-- The minors of major 0x0C (Table 4.2). -/
def decMajor0C (minor tail : Nat) : Option Instr :=
  (decHT48L tail).bind fun o =>
  match minor with
  | 0x00 => some (.rule o)
  | _ => none

/-- The minors of major 0x0D (Table 4.2). -/
def decMajor0D (minor tail : Nat) : Option Instr :=
  (decHT16R tail).bind fun o =>
  match minor with
  | 0x00 => some (.rbase o)
  | _ => none

/-- The minors of major 0x0E (Table 4.2). -/
def decMajor0E (minor tail : Nat) : Option Instr :=
  (decHT16R tail).bind fun o =>
  match minor with
  | 0x00 => some (.spmap o)
  | 0x01 => some (.spunmap o)
  | 0x02 => some (.spflush o)
  | 0x03 => some (.spinv o)
  | 0x04 => some (.qjoin o)
  | 0x05 => some (.qleave o)
  | _ => none

/-- The minors of major 0x0F (Table 4.2). -/
def decMajor0F (minor tail : Nat) : Option Instr :=
  (decHT16K tail).bind fun o =>
  match minor with
  | 0x00 => some (.mand o)
  | 0x01 => some (.mor o)
  | 0x02 => some (.mxor o)
  | 0x03 => some (.mnot o)
  | 0x04 => some (.mpopc o)
  | 0x05 => some (.mfirst o)
  | 0x06 => some (.mset o)
  | _ => none

/-- The minors of major 0x10 (Table 4.2). -/
def decMajor10 (minor tail : Nat) : Option Instr :=
  (decHT32V tail).bind fun o =>
  match minor with
  | 0x00 => some (.vadd o)
  | 0x01 => some (.vsub o)
  | 0x02 => some (.vmul o)
  | 0x03 => some (.vmulh o)
  | 0x04 => some (.vmacc o)
  | 0x05 => some (.vadds o)
  | 0x06 => some (.vsubs o)
  | 0x07 => some (.vavg o)
  | 0x08 => some (.vabs o)
  | 0x09 => some (.vneg o)
  | 0x0A => some (.vmin o)
  | 0x0B => some (.vmax o)
  | 0x0C => some (.vand o)
  | 0x0D => some (.vor o)
  | 0x0E => some (.vxor o)
  | 0x0F => some (.vnot o)
  | 0x10 => some (.vsll o)
  | 0x11 => some (.vsrl o)
  | 0x12 => some (.vsra o)
  | 0x13 => some (.vrot o)
  | 0x14 => some (.vcmpEqInt o)
  | 0x15 => some (.vcmpNeInt o)
  | 0x16 => some (.vcmpLtInt o)
  | 0x17 => some (.vcmpGeInt o)
  | 0x18 => some (.vsel o)
  | _ => none

/-- The minors of major 0x11 (Table 4.2). -/
def decMajor11 (minor tail : Nat) : Option Instr :=
  (decHT48V tail).bind fun o =>
  match minor with
  | 0x00 => some (.vfadd o)
  | 0x01 => some (.vfsub o)
  | 0x02 => some (.vfmul o)
  | 0x03 => some (.vfma o)
  | 0x04 => some (.vfms o)
  | 0x05 => some (.vfnma o)
  | 0x06 => some (.vfdiv o)
  | 0x07 => some (.vfsqrt o)
  | 0x08 => some (.vfrcp o)
  | 0x09 => some (.vfrsq o)
  | 0x0A => some (.vfexp2 o)
  | 0x0B => some (.vflog2 o)
  | 0x0C => some (.vfmin o)
  | 0x0D => some (.vfmax o)
  | 0x0E => some (.vfabs o)
  | 0x0F => some (.vfneg o)
  | 0x10 => some (.vfclass o)
  | 0x14 => some (.vcmpEqFp o)
  | 0x15 => some (.vcmpNeFp o)
  | 0x16 => some (.vcmpLtFp o)
  | 0x17 => some (.vcmpGeFp o)
  | _ => none

/-- The minors of major 0x12 (Table 4.2). -/
def decMajor12 (minor tail : Nat) : Option Instr :=
  (decHT48V tail).bind fun o =>
  match minor with
  | 0x00 => some (.vcvt o)
  | 0x01 => some (.vqmarg o)
  | 0x02 => some (.vqmargClamp o)
  | 0x03 => some (.vdq o)
  | 0x04 => some (.vscale o)
  | _ => none

/-- The minors of major 0x13 (Table 4.2). -/
def decMajor13 (minor tail : Nat) : Option Instr :=
  (decHT32V tail).bind fun o =>
  match minor with
  | 0x00 => some (.vredAdd o)
  | 0x01 => some (.vredMin o)
  | 0x02 => some (.vredMax o)
  | 0x03 => some (.vredAnd o)
  | 0x04 => some (.vredOr o)
  | 0x05 => some (.vredXor o)
  | 0x08 => some (.vscanAdd o)
  | 0x09 => some (.vscanMin o)
  | 0x0A => some (.vscanMax o)
  | 0x0B => some (.vscanAnd o)
  | 0x0C => some (.vscanOr o)
  | 0x0D => some (.vscanXor o)
  | 0x10 => some (.vperm o)
  | 0x11 => some (.vpermw o)
  | 0x12 => if o.var == 0 then some (.vslideUp o) else some (.vslideDown o)
  | 0x13 => some (.vcomp o)
  | 0x14 => some (.vexpd o)
  | 0x15 => some (.vid o)
  | 0x16 => some (.vsplat o)
  | 0x17 => some (.vmv o)
  | 0x18 => if o.var == 0 then some (.vmvsToScalar o) else some (.vmvsToVector o)
  | 0x19 => some (.vclmul o)
  | 0x1A => some (.vclmulh o)
  | 0x1B => some (.vpopc o)
  | 0x1C => some (.vfirst o)
  | 0x1D => some (.vrand o)
  | _ => none

/-- The minors of major 0x14 (Table 4.2). -/
def decMajor14 (minor tail : Nat) : Option Instr :=
  (decHT48T tail).bind fun o =>
  match minor with
  | 0x00 => some (.tfrom o)
  | 0x01 => some (.tto o)
  | 0x02 => some (.tup o)
  | 0x03 => some (.tdown o)
  | 0x04 => if o.imm == 0 then some (.tbcast o) else some (.tbcastRoot o)
  | 0x05 => some (.tdepth o)
  | 0x06 => if o.imm == 0 then some (.tanc o) else some (.tancIsa o)
  | 0x07 => some (.troot o)
  | 0x08 => some (.tcontr o)
  | 0x09 => some (.tchk o)
  | _ => none

/-- The minors of major 0x15 (Table 4.2). -/
def decMajor15 (minor tail : Nat) : Option Instr :=
  (decHT48MX tail).bind fun o =>
  match minor with
  | 0x00 => some (.mrow o)
  | 0x01 => some (.mrowz o)
  | 0x02 => some (.mdrain o)
  | 0x03 => some (.mclr o)
  | 0x04 => some (.mstat o)
  | 0x05 => some (.mrldff o)
  | _ => none

/-- The minors of major 0x16 (Table 4.2). -/
def decMajor16 (minor tail : Nat) : Option Instr :=
  (decHT48VM tail).bind fun o =>
  match minor with
  | 0x00 => some (.mtload o)
  | 0x01 => some (.mtloadq o)
  | 0x02 => some (.cbload o)
  | _ => none

/-- The minors of major 0x17 (Table 4.2). -/
def decMajor17 (minor tail : Nat) : Option Instr :=
  (decHT48VM tail).bind fun o =>
  match minor with
  | 0x00 => some (.vldp o)
  | 0x01 => some (.vstp o)
  | _ => none

/-- The minors of major 0x18 (Table 4.2). -/
def decMajor18 (minor tail : Nat) : Option Instr :=
  (decHT48VM tail).bind fun o =>
  match minor with
  | 0x00 => some (.vld o)
  | 0x01 => some (.vlds o)
  | 0x02 => some (.vldff o)
  | 0x03 => some (.vldw o)
  | 0x04 => some (.vldch o)
  | _ => none

/-- The minors of major 0x19 (Table 4.2). -/
def decMajor19 (minor tail : Nat) : Option Instr :=
  (decHT48VX tail).bind fun o =>
  match minor with
  | 0x00 => some (.vldx o)
  | 0x01 => some (.vldt o)
  | 0x02 => some (.vstx o)
  | 0x03 => some (.vaacc o)
  | _ => none

/-- The minors of major 0x1A (Table 4.2). -/
def decMajor1A (minor tail : Nat) : Option Instr :=
  (decHT48VM tail).bind fun o =>
  match minor with
  | 0x00 => some (.vst o)
  | 0x01 => some (.vsts o)
  | 0x02 => some (.awin o)
  | 0x03 => if o.v == 0 && o.base == 0 && o.s == 0 && o.disp == 0 && o.fmt == .i8 && o.mask == 0 && o.group == .g1 && ordStore o.order o.scope && !o.chv then some .amerge else none
  | 0x04 => some (.vwaitf o)
  | _ => none

/-- The minors of major 0x1B (Table 4.2). -/
def decMajor1B (minor tail : Nat) : Option Instr :=
  (decHT32V tail).bind fun o =>
  match minor with
  | 0x00 => some (.kins o)
  | 0x01 => some (.klook o)
  | 0x02 => some (.kacc o)
  | 0x03 => some (.kdrain o)
  | 0x04 => if tail = 0 then some .kclr else none
  | 0x08 => some (.gmmask o)
  | _ => none

/-- The minors of major 0x1C (Table 4.2). -/
def decMajor1C (minor tail : Nat) : Option Instr :=
  (decHT16R tail).bind fun o =>
  match minor with
  | 0x00 => some (.kvmap o)
  | 0x01 => some (.kvxl o)
  | 0x02 => some (.kvapp o)
  | 0x03 => some (.kvtrunc o)
  | 0x04 => some (.fpop o)
  | 0x05 => some (.fpush o)
  | 0x06 => some (.fpcnt o)
  | _ => none

/-- The minors of major 0x1D (Table 4.2). -/
def decMajor1D (minor tail : Nat) : Option Instr :=
  (decHT16R tail).bind fun o =>
  match minor with
  | 0x00 => some (.sqpush o)
  | 0x01 => some (.sqpop o)
  | 0x02 => some (.sqcnt o)
  | 0x03 => some (.vocswap o)
  | 0x04 => some (.blapp o)
  | 0x05 => some (.blread o)
  | 0x06 => some (.blrel o)
  | 0x07 => some (.blveto o)
  | 0x08 => some (.gmstep o)
  | 0x09 => some (.gmreset o)
  | 0x0C => some (.flpost o)
  | 0x0D => some (.flpoll o)
  | _ => none

/-- Every major with its tail length (Table 4.1): a head whose tlen differs is reserved (R47), and so is every other
major (R52); major 0x3E is a hint at every tlen (R51). -/
def decodeRaw (st : Stream) (head tail : Nat) : Option Instr :=
  let tlen := bits head 14 2
  let minor := bits head 0 8
  match bits head 8 6 with
  | 0x00 => if tlen = 0 then decMajor00 minor else none
  | 0x01 => if tlen = 1 then decMajor01 minor tail else none
  | 0x02 => if tlen = 1 then decMajor02 st minor tail else none
  | 0x03 => if tlen = 1 then decMajor03 minor tail else none
  | 0x04 => if tlen = 1 then decMajor04 minor tail else none
  | 0x05 => if tlen = 2 then decMajor05 minor tail else none
  | 0x06 => if tlen = 3 then decMajor06 minor tail else none
  | 0x07 => if tlen = 3 then decMajor07 minor tail else none
  | 0x08 => if tlen = 2 then decMajor08 minor tail else none
  | 0x09 => if tlen = 2 then decMajor09 minor tail else none
  | 0x0A => if tlen = 3 then decMajor0A minor tail else none
  | 0x0B => if tlen = 1 then decMajor0B minor tail else none
  | 0x0C => if tlen = 3 then decMajor0C minor tail else none
  | 0x0D => if tlen = 1 then decMajor0D minor tail else none
  | 0x0E => if tlen = 1 then decMajor0E minor tail else none
  | 0x0F => if tlen = 1 then decMajor0F minor tail else none
  | 0x10 => if tlen = 2 then decMajor10 minor tail else none
  | 0x11 => if tlen = 3 then decMajor11 minor tail else none
  | 0x12 => if tlen = 3 then decMajor12 minor tail else none
  | 0x13 => if tlen = 2 then decMajor13 minor tail else none
  | 0x14 => if tlen = 3 then decMajor14 minor tail else none
  | 0x15 => if tlen = 3 then decMajor15 minor tail else none
  | 0x16 => if tlen = 3 then decMajor16 minor tail else none
  | 0x17 => if tlen = 3 then decMajor17 minor tail else none
  | 0x18 => if tlen = 3 then decMajor18 minor tail else none
  | 0x19 => if tlen = 3 then decMajor19 minor tail else none
  | 0x1A => if tlen = 3 then decMajor1A minor tail else none
  | 0x1B => if tlen = 2 then decMajor1B minor tail else none
  | 0x1C => if tlen = 1 then decMajor1C minor tail else none
  | 0x1D => if tlen = 1 then decMajor1D minor tail else none
  | 0x3E => some .hintMajor3E
  | _ => none

/-- The decoder of one head and its tail (R49): none is a reserved encoding. -/
def decodeHead (st : Stream) (h head tail : Nat) : Option Instr :=
  match decodeRaw st head tail with
  | some i => if i.wellFormed st h then some i else none
  | none => none

/-- How a line's heads end (R30): at a line-end head, because the line is full, or at an ill-formed head. -/
inductive LineEnd where
  | lineEnd | full | bad
  deriving DecidableEq, Repr

/-- The scan of a line (R30): its well-formed heads in order, each with its tail value, and how they end. -/
structure LineScan where
  heads : List (Nat × Nat)
  stop  : LineEnd
  deriving DecidableEq, Repr

/-- Slot k of a line of 64 bytes (R27), the halfword at byte 2k. -/
def slot (line : List (BitVec 8)) (k : Nat) : Nat :=
  (line.getD (2 * k) 0).toNat + 256 * (line.getD (2 * k + 1) 0).toNat

/-- The tail value of n halfwords from slot `start`, the lowest halfword lowest (R29). -/
def tailValue (line : List (BitVec 8)) (start : Nat) : Nat → Nat
  | 0 => 0
  | n + 1 => tailValue line start n + slot line (start + n) * 2 ^ (16 * n)

/-- The fetch unit's loop of R30, from head i with tail total t so far; the fuel is the number of slots. -/
def scanFrom (line : List (BitVec 8)) : (fuel i t : Nat) → LineScan
  | 0, _, _ => ⟨[], .full⟩
  | fuel + 1, i, t =>
    let hd := slot line i
    if hd = 0 then ⟨[], .lineEnd⟩
    else
      let tlen := bits hd 14 2
      let t' := t + tlen
      if 31 < i + t' then ⟨[], .bad⟩
      else
        let entry := (hd, tailValue line (32 - t') tlen)
        if i + 1 = 32 - t' then ⟨[entry], .full⟩
        else
          let rest := scanFrom line fuel (i + 1) t'
          ⟨entry :: rest.heads, rest.stop⟩

/-- The scan of a whole line (R30). -/
def scanLine (line : List (BitVec 8)) : LineScan := scanFrom line 32 0 0

/-- What a PC's head index names in a line (R31, R33). -/
inductive Slotted where
  /-- A head, its tail, and whether it is the last of the line, after which execution goes on at the next line. -/
  | head (hd tail : Nat) (last : Bool)
  /-- The slot of the line-end head: execution goes on at the next line. -/
  | nextLine
  /-- A defective head, or an index that names no instruction: line-format. -/
  | lineFormat
  deriving DecidableEq, Repr

/-- The head at index i of a scanned line (R31, R33). -/
def slotted (sc : LineScan) (i : Nat) : Slotted :=
  match sc.heads[i]? with
  | some (hd, tail) => .head hd tail (decide (i + 1 = sc.heads.length) && sc.stop != .bad)
  | none => if i = sc.heads.length ∧ sc.stop = .lineEnd then .nextLine else .lineFormat

/-- The head and the tail value of an instruction (Table 4.2, R28, R37); none for a step of another agent, which is no word. -/
def Instr.encode : Instr → Option (Nat × Nat)
  | .nop => some (0x0001, 0)
  | .halt => some (0x0002, 0)
  | .rdv => some (0x0003, 0)
  | .brk => some (0x0004, 0)
  | .yield => some (0x0005, 0)
  | .fence => some (0x0008, 0)
  | .hint => some (0x0080, 0)
  | .hintMajor3E => some (0x3E00, 0)
  | .bararr o => some (0x4100, encHT16S o)
  | .barexp o => some (0x4101, encHT16S o)
  | .barwait o => some (0x4102, encHT16S o)
  | .bar o => some (0x4103, encHT16S o)
  | .qput o => some (0x4200, encHT16Q o)
  | .qget o => some (0x4201, encHT16Q o)
  | .qdrainA o => some (0x4202, encHT16Q o)
  | .qdrainX o => some (0x4202, encHT16Q o)
  | .bqput o => some (0x4203, encHT16Q o)
  | .fork o => some (0x4204, encHT16Q o)
  | .wset o => some (0x4300, encHT16H o)
  | .wwait o => some (0x4301, encHT16H o)
  | .wget o => some (0x4302, encHT16H o)
  | .wfree o => some (0x4303, encHT16H o)
  | .copy o => some (0x4304, encHT16H o)
  | .copyres o => some (0x4306, encHT16H o)
  | .copycan o => some (0x4307, encHT16H o)
  | .add o => some (0x4400, encHT16R o)
  | .sub o => some (0x4401, encHT16R o)
  | .and o => some (0x4402, encHT16R o)
  | .or o => some (0x4403, encHT16R o)
  | .xor o => some (0x4404, encHT16R o)
  | .sll o => some (0x4405, encHT16R o)
  | .srl o => some (0x4406, encHT16R o)
  | .sra o => some (0x4407, encHT16R o)
  | .mul o => some (0x4408, encHT16R o)
  | .mulh o => some (0x4409, encHT16R o)
  | .mulhn o => some (0x440A, encHT16R o)
  | .div o => some (0x440B, encHT16R o)
  | .divn o => some (0x440C, encHT16R o)
  | .rem o => some (0x440D, encHT16R o)
  | .remn o => some (0x440E, encHT16R o)
  | .min o => some (0x440F, encHT16R o)
  | .max o => some (0x4410, encHT16R o)
  | .minn o => some (0x4411, encHT16R o)
  | .maxn o => some (0x4412, encHT16R o)
  | .slt o => some (0x4413, encHT16R o)
  | .sltn o => some (0x4414, encHT16R o)
  | .mov o => some (0x4415, encHT16R o)
  | .clz o => some (0x4416, encHT16R o)
  | .popc o => some (0x4417, encHT16R o)
  | .jr o => some (0x4418, encHT16R o)
  | .addi o => some (0x8500, encHT32I o)
  | .andi o => some (0x8501, encHT32I o)
  | .ori o => some (0x8502, encHT32I o)
  | .xori o => some (0x8503, encHT32I o)
  | .slli o => some (0x8504, encHT32I o)
  | .srli o => some (0x8505, encHT32I o)
  | .srai o => some (0x8506, encHT32I o)
  | .ctlr o => some (0x8508, encHT32I o)
  | .ctlw o => some (0x8509, encHT32I o)
  | .svcall o => some (0x850A, encHT32I o)
  | .trap o => some (0x850B, encHT32I o)
  | .featq o => some (0x850C, encHT32I o)
  | .limm o => some (0xC600, encHT48I o)
  | .jmp o => some (0xC700, encHT48J o)
  | .jal o => some (0xC701, encHT48J o)
  | .loop o => some (0xC702, encHT48J o)
  | .beq o => some (0x8800, encHT32B o)
  | .bne o => some (0x8801, encHT32B o)
  | .blt o => some (0x8802, encHT32B o)
  | .bge o => some (0x8803, encHT32B o)
  | .bltn o => some (0x8804, encHT32B o)
  | .bgen o => some (0x8805, encHT32B o)
  | .bq o => some (0x8806, encHT32B o)
  | .ldb o => some (0x8900, encHT32M o)
  | .ldh o => some (0x8901, encHT32M o)
  | .ldw o => some (0x8902, encHT32M o)
  | .ldd o => some (0x8903, encHT32M o)
  | .ldbn o => some (0x8904, encHT32M o)
  | .ldhn o => some (0x8905, encHT32M o)
  | .ldwn o => some (0x8906, encHT32M o)
  | .stb o => some (0x8908, encHT32M o)
  | .sth o => some (0x8909, encHT32M o)
  | .stw o => some (0x890A, encHT32M o)
  | .std o => some (0x890B, encHT32M o)
  | .waiteq o => some (0x890C, encHT32M o)
  | .waitne o => some (0x890D, encHT32M o)
  | .amoadd o => some (0xCA00, encHT48VM o)
  | .amomin o => some (0xCA01, encHT48VM o)
  | .amomax o => some (0xCA02, encHT48VM o)
  | .amoand o => some (0xCA03, encHT48VM o)
  | .amoor o => some (0xCA04, encHT48VM o)
  | .amoswp o => some (0xCA05, encHT48VM o)
  | .amocas o => some (0xCA06, encHT48VM o)
  | .sbind o => some (0x4B00, encHT16VS o)
  | .sfree o => some (0x4B01, encHT16VS o)
  | .sskip o => some (0x4B02, encHT16VS o)
  | .sstat o => some (0x4B03, encHT16VS o)
  | .copyq o => some (0x4B04, encHT16VS o)
  | .rule o => some (0xCC00, encHT48L o)
  | .rbase o => some (0x4D00, encHT16R o)
  | .spmap o => some (0x4E00, encHT16R o)
  | .spunmap o => some (0x4E01, encHT16R o)
  | .spflush o => some (0x4E02, encHT16R o)
  | .spinv o => some (0x4E03, encHT16R o)
  | .qjoin o => some (0x4E04, encHT16R o)
  | .qleave o => some (0x4E05, encHT16R o)
  | .mand o => some (0x4F00, encHT16K o)
  | .mor o => some (0x4F01, encHT16K o)
  | .mxor o => some (0x4F02, encHT16K o)
  | .mnot o => some (0x4F03, encHT16K o)
  | .mpopc o => some (0x4F04, encHT16K o)
  | .mfirst o => some (0x4F05, encHT16K o)
  | .mset o => some (0x4F06, encHT16K o)
  | .vadd o => some (0x9000, encHT32V o)
  | .vsub o => some (0x9001, encHT32V o)
  | .vmul o => some (0x9002, encHT32V o)
  | .vmulh o => some (0x9003, encHT32V o)
  | .vmacc o => some (0x9004, encHT32V o)
  | .vadds o => some (0x9005, encHT32V o)
  | .vsubs o => some (0x9006, encHT32V o)
  | .vavg o => some (0x9007, encHT32V o)
  | .vabs o => some (0x9008, encHT32V o)
  | .vneg o => some (0x9009, encHT32V o)
  | .vmin o => some (0x900A, encHT32V o)
  | .vmax o => some (0x900B, encHT32V o)
  | .vand o => some (0x900C, encHT32V o)
  | .vor o => some (0x900D, encHT32V o)
  | .vxor o => some (0x900E, encHT32V o)
  | .vnot o => some (0x900F, encHT32V o)
  | .vsll o => some (0x9010, encHT32V o)
  | .vsrl o => some (0x9011, encHT32V o)
  | .vsra o => some (0x9012, encHT32V o)
  | .vrot o => some (0x9013, encHT32V o)
  | .vcmpEqInt o => some (0x9014, encHT32V o)
  | .vcmpNeInt o => some (0x9015, encHT32V o)
  | .vcmpLtInt o => some (0x9016, encHT32V o)
  | .vcmpGeInt o => some (0x9017, encHT32V o)
  | .vsel o => some (0x9018, encHT32V o)
  | .vfadd o => some (0xD100, encHT48V o)
  | .vfsub o => some (0xD101, encHT48V o)
  | .vfmul o => some (0xD102, encHT48V o)
  | .vfma o => some (0xD103, encHT48V o)
  | .vfms o => some (0xD104, encHT48V o)
  | .vfnma o => some (0xD105, encHT48V o)
  | .vfdiv o => some (0xD106, encHT48V o)
  | .vfsqrt o => some (0xD107, encHT48V o)
  | .vfrcp o => some (0xD108, encHT48V o)
  | .vfrsq o => some (0xD109, encHT48V o)
  | .vfexp2 o => some (0xD10A, encHT48V o)
  | .vflog2 o => some (0xD10B, encHT48V o)
  | .vfmin o => some (0xD10C, encHT48V o)
  | .vfmax o => some (0xD10D, encHT48V o)
  | .vfabs o => some (0xD10E, encHT48V o)
  | .vfneg o => some (0xD10F, encHT48V o)
  | .vfclass o => some (0xD110, encHT48V o)
  | .vcmpEqFp o => some (0xD114, encHT48V o)
  | .vcmpNeFp o => some (0xD115, encHT48V o)
  | .vcmpLtFp o => some (0xD116, encHT48V o)
  | .vcmpGeFp o => some (0xD117, encHT48V o)
  | .vcvt o => some (0xD200, encHT48V o)
  | .vqmarg o => some (0xD201, encHT48V o)
  | .vqmargClamp o => some (0xD202, encHT48V o)
  | .vdq o => some (0xD203, encHT48V o)
  | .vscale o => some (0xD204, encHT48V o)
  | .vredAdd o => some (0x9300, encHT32V o)
  | .vredMin o => some (0x9301, encHT32V o)
  | .vredMax o => some (0x9302, encHT32V o)
  | .vredAnd o => some (0x9303, encHT32V o)
  | .vredOr o => some (0x9304, encHT32V o)
  | .vredXor o => some (0x9305, encHT32V o)
  | .vscanAdd o => some (0x9308, encHT32V o)
  | .vscanMin o => some (0x9309, encHT32V o)
  | .vscanMax o => some (0x930A, encHT32V o)
  | .vscanAnd o => some (0x930B, encHT32V o)
  | .vscanOr o => some (0x930C, encHT32V o)
  | .vscanXor o => some (0x930D, encHT32V o)
  | .vperm o => some (0x9310, encHT32V o)
  | .vpermw o => some (0x9311, encHT32V o)
  | .vslideUp o => some (0x9312, encHT32V o)
  | .vslideDown o => some (0x9312, encHT32V o)
  | .vcomp o => some (0x9313, encHT32V o)
  | .vexpd o => some (0x9314, encHT32V o)
  | .vid o => some (0x9315, encHT32V o)
  | .vsplat o => some (0x9316, encHT32V o)
  | .vmv o => some (0x9317, encHT32V o)
  | .vmvsToScalar o => some (0x9318, encHT32V o)
  | .vmvsToVector o => some (0x9318, encHT32V o)
  | .vclmul o => some (0x9319, encHT32V o)
  | .vclmulh o => some (0x931A, encHT32V o)
  | .vpopc o => some (0x931B, encHT32V o)
  | .vfirst o => some (0x931C, encHT32V o)
  | .vrand o => some (0x931D, encHT32V o)
  | .tfrom o => some (0xD400, encHT48T o)
  | .tto o => some (0xD401, encHT48T o)
  | .tup o => some (0xD402, encHT48T o)
  | .tdown o => some (0xD403, encHT48T o)
  | .tbcast o => some (0xD404, encHT48T o)
  | .tbcastRoot o => some (0xD404, encHT48T o)
  | .tdepth o => some (0xD405, encHT48T o)
  | .tanc o => some (0xD406, encHT48T o)
  | .tancIsa o => some (0xD406, encHT48T o)
  | .troot o => some (0xD407, encHT48T o)
  | .tcontr o => some (0xD408, encHT48T o)
  | .tchk o => some (0xD409, encHT48T o)
  | .mrow o => some (0xD500, encHT48MX o)
  | .mrowz o => some (0xD501, encHT48MX o)
  | .mdrain o => some (0xD502, encHT48MX o)
  | .mclr o => some (0xD503, encHT48MX o)
  | .mstat o => some (0xD504, encHT48MX o)
  | .mrldff o => some (0xD505, encHT48MX o)
  | .mtload o => some (0xD600, encHT48VM o)
  | .mtloadq o => some (0xD601, encHT48VM o)
  | .cbload o => some (0xD602, encHT48VM o)
  | .vldp o => some (0xD700, encHT48VM o)
  | .vstp o => some (0xD701, encHT48VM o)
  | .vld o => some (0xD800, encHT48VM o)
  | .vlds o => some (0xD801, encHT48VM o)
  | .vldff o => some (0xD802, encHT48VM o)
  | .vldw o => some (0xD803, encHT48VM o)
  | .vldch o => some (0xD804, encHT48VM o)
  | .vldx o => some (0xD900, encHT48VX o)
  | .vldt o => some (0xD901, encHT48VX o)
  | .vstx o => some (0xD902, encHT48VX o)
  | .vaacc o => some (0xD903, encHT48VX o)
  | .vst o => some (0xDA00, encHT48VM o)
  | .vsts o => some (0xDA01, encHT48VM o)
  | .awin o => some (0xDA02, encHT48VM o)
  | .amerge => some (0xDA03, 0)
  | .vwaitf o => some (0xDA04, encHT48VM o)
  | .kins o => some (0x9B00, encHT32V o)
  | .klook o => some (0x9B01, encHT32V o)
  | .kacc o => some (0x9B02, encHT32V o)
  | .kdrain o => some (0x9B03, encHT32V o)
  | .kclr => some (0x9B04, 0)
  | .gmmask o => some (0x9B08, encHT32V o)
  | .kvmap o => some (0x5C00, encHT16R o)
  | .kvxl o => some (0x5C01, encHT16R o)
  | .kvapp o => some (0x5C02, encHT16R o)
  | .kvtrunc o => some (0x5C03, encHT16R o)
  | .fpop o => some (0x5C04, encHT16R o)
  | .fpush o => some (0x5C05, encHT16R o)
  | .fpcnt o => some (0x5C06, encHT16R o)
  | .sqpush o => some (0x5D00, encHT16R o)
  | .sqpop o => some (0x5D01, encHT16R o)
  | .sqcnt o => some (0x5D02, encHT16R o)
  | .vocswap o => some (0x5D03, encHT16R o)
  | .blapp o => some (0x5D04, encHT16R o)
  | .blread o => some (0x5D05, encHT16R o)
  | .blrel o => some (0x5D06, encHT16R o)
  | .blveto o => some (0x5D07, encHT16R o)
  | .gmstep o => some (0x5D08, encHT16R o)
  | .gmreset o => some (0x5D09, encHT16R o)
  | .flpost o => some (0x5D0C, encHT16R o)
  | .flpoll o => some (0x5D0D, encHT16R o)
  | .textFrameRequest => none
  | .textFrameContinuation => none
  | .textFrameCancel => none
  | .ligaturePush => none
  | .scribeEmit => none
  | .pageWalk => none
  | .invalidation => none
  | .invalidationDone => none
  | .keySlotLoad => none
  | .keySlotClear => none
  | .folioPoolEnable => none
  | .folioReserveSet => none
  | .folioPoolDisable => none
  | .folioListsDiscard => none
  | .mailboxRequest => none
  | .promotionComplete => none
  | .copyIteration => none
  | .copyFaultRecordPending => none
  | .cpctlResume => none
  | .cpctlCancel => none
  | .copyqDelivery => none
  | .streamFill => none
  | .mrldffRowFill => none
  | .tileShadowSwap => none
  | .waitLimitExpiry => none
  | .barrierEnable => none
  | .barrierDisable => none
  | .podBarrierMessage => none
  | .podPhaseMessage => none
  | .blotterRingEnable => none
  | .blotterRingDisable => none
  | .stencilContextControl => none
  | .pipelineInstall => none
  | .pipelineDrain => none
  | .launchDispatch => none
  | .queueTaskStart => none
  | .balancerSample => none
  | .launchPriorityPreempt => none
  | .preempt => none
  | .hartSwapOut => none
  | .resume => none
  | .resumeAfter => none
  | .force => none
  | .cancel => none
  | .unfreezeEngine => none
  | .dropEngineOperation => none
  | .flashRingEnable => none
  | .flashRingDisable => none
  | .flashRequestComplete => none
  | .networkReceive => none
  | .hostCxlMemWrite => none
  | .hostCxlMemRead => none
  | .spareCoreSwap => none
  | .spareLigatureSwap => none
  | .spareScribeSwap => none
  | .spareSwapDone => none
  | .laneRetraining => none
  | .eventCounterWrap => none
  | .powerSample => none
  | .thermalLimit => none
  | .thermalShutdown => none
  | .reset => none
  | .registerWrite => none
  | .reservedEncoding => none
  | .lineFormat => none
  | .lineFetchFault => none
  | .ingressErrorFrame => none
  | .promotionRequest => none
  | .supervisorAccess => none
  | .coreKeptDegraded => none
  | .softError => none
  | .powerLoss => none
  | .thermalLimitEnd => none

/-- The bytes of halfword slots, low byte first (R2, R27). -/
def slotBytes (slots : List Nat) : List (BitVec 8) :=
  slots.flatMap fun w => [BitVec.ofNat 8 (w % 256), BitVec.ofNat 8 (w / 256 % 256)]

/-- The halfwords of a tail of n halfwords, lowest first (R29). -/
def tailSlots (n tail : Nat) : List Nat := (List.range n).map fun k => tail / 2 ^ (16 * k) % 2 ^ 16

/-- The assembler's placement of R22 for one line: the longest prefix of the given heads and tails that fits, and the rest.
Head i with its tail total t fits when i + t ≤ 31. -/
def takeLine : (i t : Nat) → List (Nat × Nat) → List (Nat × Nat) × List (Nat × Nat)
  | _, _, [] => ([], [])
  | i, t, (hd, tl) :: rest =>
    let t' := t + bits hd 14 2
    if i + t' ≤ 31 then
      let r := takeLine (i + 1) t' rest
      ((hd, tl) :: r.1, r.2)
    else ([], (hd, tl) :: rest)

/-- The 32 slots of a line that holds the given heads (R22): heads from slot 0 upward, tails from slot 31 downward in head
order, every other slot zero. -/
def lineSlots (hs : List (Nat × Nat)) : List Nat :=
  let tails := hs.foldl (fun acc x => tailSlots (bits x.1 14 2) x.2 ++ acc) []
  hs.map Prod.fst ++ List.replicate (32 - hs.length - tails.length) 0 ++ tails

/-- One line of 64 bytes that holds one head and its tail (R22). -/
def singleLine (head tail : Nat) : List (BitVec 8) := slotBytes (lineSlots [(head, tail)])

/-- The lines of a stream's code (R22); the fuel bounds their number. -/
def packLines : Nat → List (Nat × Nat) → List (List (BitVec 8))
  | 0, _ => []
  | _ + 1, [] => []
  | fuel + 1, h :: hs =>
    let r := takeLine 0 0 (h :: hs)
    slotBytes (lineSlots r.1) :: packLines fuel r.2

/-- The relocation forms HI32 and LO32 of Table 2.3 (R21), on 64-bit addresses. -/
def relocHi32 (x : BitVec 64) : BitVec 32 :=
  ((x - (x.truncate 32).signExtend 64).sshiftRight 32).truncate 32

def relocLo32 (x : BitVec 64) : BitVec 32 := x.truncate 32

/-- What the decoder reads at head 0 of a line on one stream, at one hart per core. -/
def decodeLineHead (st : Stream) (line : List (BitVec 8)) : Option Instr :=
  match slotted (scanLine line) 0 with
  | .head hd tail _ => decodeHead st 0 hd tail
  | _ => none

/-- The head and the tail of a table word: the table's number has the head in its highest halfword and the tail below it
(its match values, such as 0x4300_0000 for WSET). -/
def tableHead (nbits w : Nat) : Nat := w / 2 ^ (nbits - 16) % 2 ^ 16

def tableTail (nbits w : Nat) : Nat := w % 2 ^ (nbits - 16)

/-- The instruction the decoder reads from a table word laid out in a line, on the first of the streams A, X and C that
defines it. -/
def decodeTableWord (nbits w : Nat) : Option Instr :=
  let line := singleLine (tableHead nbits w) (tableTail nbits w)
  match decodeLineHead .a line with
  | some i => some i
  | none =>
    match decodeLineHead .x line with
    | some i => some i
    | none => decodeLineHead .c line

end Sys2Proof
end

