-- ==== Sys2Proof/Machine/Flags.lean ====
section
/-! DEFINITION. Number formats, exact arithmetic, rounding, saturation, conversion, and every flag they set
(R170 to R186). -/

namespace Sys2Proof.Machine

/-! ### VSTAT flags (Table 11.6) -/

abbrev Flags := BitVec 8

def flagNX : Flags := 0x01
def flagUF : Flags := 0x02
def flagOF : Flags := 0x04
def flagDZ : Flags := 0x08
def flagNV : Flags := 0x10
def flagTCY : Flags := 0x20
def flagSAT : Flags := 0x40
def flagMCL : Flags := 0x80

/-- An encoding with the flags its computation sets. -/
abbrev Res := Nat × Flags

/-! ### Layouts (Tables 12.1, 12.2, R180) -/

/-- Exponent width, fraction width and bias of a floating format. -/
def fpLayout : Fmt → Nat × Nat × Nat
  | .fp32 => (8, 23, 127)
  | .fp16 => (5, 10, 15)
  | .bf16 => (8, 7, 127)
  | .fp8a => (4, 3, 7)
  | .fp8b => (5, 2, 15)
  | .fp4 => (2, 1, 1)
  | .acc80 => (11, 68, 1023)
  | _ => (0, 0, 0)

def fracBits (f : Fmt) : Nat := (fpLayout f).2.1

/-- The exponent of the last place of a subnormal. -/
def minExp (f : Fmt) : Int := 1 - (fpLayout f).2.2 - fracBits f

/-- Formats whose encodings with E all ones are infinities and NaNs (Table 12.2). -/
def ieeeSpecials : Fmt → Bool
  | .fp32 | .fp16 | .bf16 | .fp8b | .acc80 => true
  | _ => false

def isFloat : Fmt → Bool
  | .fp32 | .fp16 | .bf16 | .fp8a | .fp8b | .fp4 | .acc80 => true
  | _ => false

/-- The largest finite magnitude as significand and exponent (Table 12.2). -/
def maxFinite (f : Fmt) : Nat × Int :=
  match f with
  | .fp8a => (14, 5)
  | .fp4 => (3, 1)
  | _ => (2 ^ (fracBits f + 1) - 1, 2 ^ ((fpLayout f).1 - 1) - 1 - fracBits f)

/-- The canonical NaN (Table 12.2, R180); zero for FP4 and the integer formats, which have none. -/
def canonicalNaN (f : Fmt) : Nat :=
  match f with
  | .fp8a => 0x7F
  | .fp8b => 0x7E
  | .fp32 | .fp16 | .bf16 | .acc80 => (2 ^ (fpLayout f).1 - 1) * 2 ^ fracBits f + 2 ^ (fracBits f - 1)
  | _ => 0

def signBit (f : Fmt) (neg : Bool) : Nat := if neg then 2 ^ (f.width - 1) else 0

def infinity (f : Fmt) (neg : Bool) : Nat := signBit f neg + (2 ^ (fpLayout f).1 - 1) * 2 ^ fracBits f

/-- A decoded value: exact, (−1)^neg × m × 2^e where finite. -/
inductive FVal where
  | nan (signalling : Bool)
  | inf (neg : Bool)
  | fin (neg : Bool) (m : Nat) (e : Int)
  deriving DecidableEq, Repr

/-- Decode for the floating formats (R170, R171). -/
def decodeF (f : Fmt) (x : Nat) : FVal :=
  let (ew, fw, bias) := fpLayout f
  let neg := x.testBit (f.width - 1)
  let ex := bits x fw ew
  let fr := bits x 0 fw
  if ieeeSpecials f && ex == 2 ^ ew - 1 then
    if fr = 0 then .inf neg else .nan (f != .acc80 && !fr.testBit (fw - 1))
  else if f == .fp8a && x % 128 == 127 then .nan false
  else if ex = 0 then .fin neg fr (1 - bias - fw)
  else .fin neg (2 ^ fw + fr) ((ex : Int) - bias - fw)

/-- Decode for the integer formats (R173). -/
def decodeI (f : Fmt) (x : Nat) : Int :=
  match f with
  | .n8 | .n16 | .n32 | .n64 => (x : Int)
  | _ => (BitVec.ofNat f.width x).toInt

/-- The range of an integer format (R173). -/
def intMin (f : Fmt) : Int :=
  match f with
  | .n8 | .n16 | .n32 | .n64 => 0
  | _ => -(2 ^ (f.width - 1))
def intMax (f : Fmt) : Int :=
  match f with
  | .n8 | .n16 | .n32 | .n64 => 2 ^ f.width - 1
  | _ => 2 ^ (f.width - 1) - 1

/-- The encoding of an integer, wrapped to the width (W of R192). -/
def wrapI (f : Fmt) (x : Int) : Nat := (x % 2 ^ f.width).toNat

/-- Sat (R25) of an integer, with the SAT flag when it clamps. -/
def satI (f : Fmt) (x : Int) : Res :=
  if x < intMin f then (wrapI f (intMin f), flagSAT)
  else if intMax f < x then (wrapI f (intMax f), flagSAT)
  else (wrapI f x, 0)

/-! ### Rounding (R25, R181) -/

/-- An exact magnitude m × 2^e, or where `sticky` a value strictly between m × 2^e and (m + 1) × 2^e. -/
structure Exact where
  neg : Bool
  m : Nat
  e : Int
  sticky : Bool := false
  deriving DecidableEq, Repr

/-- Bits of a number. -/
def bitLen (m : Nat) : Nat := if m = 0 then 0 else Nat.log2 m + 1

/-- Whether the discarded part r of 2^k (with a sticky rest) rounds the significand q up. -/
def roundsUp (rm : Rm) (neg : Bool) (q r half : Nat) (sticky : Bool) : Bool :=
  let any := r != 0 || sticky
  match rm with
  | .rne => decide (half < r) || (r == half && (sticky || q % 2 == 1))
  | .rna => decide (half ≤ r)
  | .rtz => false
  | .rup => any && !neg
  | .rdn => any && neg

/-- Rounds a nonzero magnitude to a multiple of 2^q, where q leaves fw + 1 significant bits and is at least qmin: the
significand, q, and whether it is inexact. -/
def roundMag (fw : Nat) (qmin : Int) (rm : Rm) (x : Exact) : Nat × Int × Bool :=
  let q := max (x.e + bitLen x.m - 1 - fw) qmin
  if q ≤ x.e then (x.m * 2 ^ (x.e - q).toNat, q, x.sticky)
  else
    let k := (q - x.e).toNat
    let n := x.m / 2 ^ k
    let r := x.m % 2 ^ k
    (if roundsUp rm x.neg n r (2 ^ (k - 1)) x.sticky then n + 1 else n, q, r != 0 || x.sticky)

/-- m × 2^e < n × 2^k. -/
def magLt (m : Nat) (e : Int) (n : Nat) (k : Int) : Bool :=
  let lo := min e k
  decide (m * 2 ^ (e - lo).toNat < n * 2 ^ (k - lo).toNat)

/-- The overflow result of Table 12.5 with the flags of R183. -/
def overflowF (f : Fmt) (rm : Rm) (sat neg : Bool) : Res :=
  let toward := match rm with
    | .rne | .rna => true
    | .rup => !neg
    | .rdn => neg
    | .rtz => false
  let big := signBit f neg + (match f with
    | .fp8a => 0x7E
    | .fp4 => 7
    | _ => (2 ^ (fpLayout f).1 - 1) * 2 ^ fracBits f - 1)
  let fl := flagOF ||| flagNX
  if sat then (big, fl ||| flagSAT)
  else if toward && f != .fp4 then (if f == .fp8a then 0x7F else infinity f neg, fl)
  else (big, fl)

/-- The rounded magnitude exceeds the largest finite value (R181). DEDUCED (log 63): R185 has 7.0 convert to FP4 as an overflow under
any mode, so for FP4 a magnitude from 7 up overflows also where the mode rounds it to 6. -/
def overflows (f : Fmt) (x : Exact) (n : Nat) (q : Int) : Bool :=
  magLt (maxFinite f).1 (maxFinite f).2 n q || (f == .fp4 && !magLt x.m x.e 7 0)

/-- Round (R25) into a floating format, with overflow by R181, tininess after rounding, and the flags of R183; under `ftz` a
nonzero subnormal result becomes a zero (R184). -/
def roundF (f : Fmt) (rm : Rm) (sat ftz : Bool) (x : Exact) : Res :=
  if x.m = 0 then (signBit f x.neg, 0)
  else
    let fw := fracBits f
    let (n, q, inexact) := roundMag fw (minExp f) rm x
    if overflows f x n q then overflowF f rm sat x.neg
    else
      let nx := if inexact then flagNX else 0
      let (n, q) := if n = 2 ^ (fw + 1) then (2 ^ fw, q + 1) else (n, q)
      if n < 2 ^ fw then
        if ftz && n != 0 then (signBit f x.neg, flagUF ||| flagNX)
        else
          let (u, uq, _) := roundMag fw (x.e - 100000) rm x
          let tiny := magLt u uq (2 ^ fw) (minExp f)
          (signBit f x.neg + n, nx ||| (if tiny && inexact then flagUF else 0))
      else
        let (u, uq, _) := roundMag fw (x.e - 100000) rm x
        let tiny := magLt u uq (2 ^ fw) (minExp f)
        (signBit f x.neg + (q - minExp f + 1).toNat * 2 ^ fw + (n - 2 ^ fw), nx ||| (if tiny && inexact then flagUF else 0))

/-- The exact value of a signed integer times 2^e. -/
def exactOfInt (x : Int) (e : Int) : Exact := ⟨decide (x < 0), x.natAbs, e, false⟩

/-- An exact magnitude rounded to an integer by a mode. -/
def roundInt (rm : Rm) (x : Exact) : Int × Bool :=
  let (n, inexact) :=
    if 0 ≤ x.e then (x.m * 2 ^ x.e.toNat, x.sticky)
    else
      let k := (-x.e).toNat
      let n := x.m / 2 ^ k
      let r := x.m % 2 ^ k
      (if roundsUp rm x.neg n r (2 ^ (k - 1)) x.sticky then n + 1 else n, r != 0 || x.sticky)
  (if x.neg then -(n : Int) else n, inexact)

/-! ### Floating arithmetic (R182 to R184, R194, R195) -/

/-- An operand as the arithmetic reads it: with FTZ a subnormal is a zero of its sign (R184). -/
def readF (f : Fmt) (ftz : Bool) (x : Nat) : FVal :=
  match decodeF f x with
  | .fin neg m e => if ftz && decide (m < 2 ^ fracBits f) then .fin neg 0 e else .fin neg m e
  | v => v

def FVal.isSnan : FVal → Bool
  | .nan s => s
  | _ => false

def FVal.isNan : FVal → Bool
  | .nan _ => true
  | _ => false

def FVal.neg : FVal → FVal
  | .nan s => .nan s
  | .inf n => .inf (!n)
  | .fin n m e => .fin (!n) m e

/-- NV when an operand is a signalling NaN (R182). -/
def snanFlag (l : List FVal) : Flags := if l.any FVal.isSnan then flagNV else 0

/-- An infinite result. -/
def infF (f : Fmt) (neg : Bool) : Res := (infinity f neg, 0)

/-- An invalid operation (R183). -/
def invalidF (f : Fmt) : Res := (canonicalNaN f, flagNV)

/-- The signed significand of a finite value at exponent lo. -/
def atExp (neg : Bool) (m : Nat) (e lo : Int) : Int :=
  let n : Int := m * 2 ^ (e - lo).toNat
  if neg then -n else n

/-- The exact sum of two finite values, with the sign of an exact zero (IEEE 754-2019 6.3). -/
def addFin (rm : Rm) (n1 : Bool) (m1 : Nat) (e1 : Int) (n2 : Bool) (m2 : Nat) (e2 : Int) : Exact :=
  let lo := min e1 e2
  let t := atExp n1 m1 e1 lo + atExp n2 m2 e2 lo
  if t = 0 then ⟨if n1 == n2 then n1 else rm == .rdn, 0, lo, false⟩ else exactOfInt t lo

def addF (f : Fmt) (rm : Rm) (sat ftz : Bool) (a b : FVal) : Res :=
  match a, b with
  | .nan _, _ => (canonicalNaN f, snanFlag [a, b])
  | _, .nan _ => (canonicalNaN f, snanFlag [a, b])
  | .inf x, .inf y => if x == y then infOperand x else invalidF f
  | .inf x, _ => infOperand x
  | _, .inf y => infOperand y
  | .fin n1 m1 e1, .fin n2 m2 e2 => roundF f rm sat ftz (addFin rm n1 m1 e1 n2 m2 e2)
where
  /-- A result that is an exact infinity: `.SAT` treats it as an overflow of its sign (R181, R183). -/
  infOperand (neg : Bool) : Res := if sat then overflowF f rm sat neg else infF f neg

/-- An infinite result under the sat field (R181, R183). -/
def infResult (f : Fmt) (rm : Rm) (sat neg : Bool) : Res := if sat then overflowF f rm sat neg else infF f neg

def mulF (f : Fmt) (rm : Rm) (sat ftz : Bool) (a b : FVal) : Res :=
  match a, b with
  | .nan _, _ => (canonicalNaN f, snanFlag [a, b])
  | _, .nan _ => (canonicalNaN f, snanFlag [a, b])
  | .inf x, .inf y => infResult f rm sat (x != y)
  | .inf x, .fin y m _ => if m = 0 then invalidF f else infResult f rm sat (x != y)
  | .fin x m _, .inf y => if m = 0 then invalidF f else infResult f rm sat (x != y)
  | .fin n1 m1 e1, .fin n2 m2 e2 => roundF f rm sat ftz ⟨n1 != n2, m1 * m2, e1 + e2, false⟩

/-- ρ(a × b + c), one rounding (zero times infinity beside a quiet NaN: log 33). -/
def fmaF (f : Fmt) (rm : Rm) (sat ftz : Bool) (a b c : FVal) : Res :=
  let prod : Option FVal := match a, b with
    | .inf x, .inf y => some (.inf (x != y))
    | .inf x, .fin y m _ => if m = 0 then none else some (.inf (x != y))
    | .fin x m _, .inf y => if m = 0 then none else some (.inf (x != y))
    | .fin n1 m1 e1, .fin n2 m2 e2 => some (.fin (n1 != n2) (m1 * m2) (e1 + e2))
    | _, _ => some (.nan false)
  match prod with
  | none => (canonicalNaN f, if c.isNan && !c.isSnan && !Config.fmaNanInvalid then 0 else flagNV)
  | some p =>
    if a.isNan || b.isNan || c.isNan then (canonicalNaN f, snanFlag [a, b, c])
    else addF f rm sat ftz p c

def divF (f : Fmt) (rm : Rm) (sat ftz : Bool) (a b : FVal) : Res :=
  match a, b with
  | .nan _, _ => (canonicalNaN f, snanFlag [a, b])
  | _, .nan _ => (canonicalNaN f, snanFlag [a, b])
  | .inf _, .inf _ => invalidF f
  | .inf x, .fin y _ _ => infResult f rm sat (x != y)
  | .fin x _ _, .inf y => (signBit f (x != y), 0)
  | .fin x m1 e1, .fin y m2 e2 =>
    if m2 = 0 then
      if m1 = 0 then invalidF f
      else
        let r := infResult f rm sat (x != y)
        (r.1, r.2 ||| flagDZ)
    else
      let k := 128 + bitLen m2
      let t := m1 * 2 ^ k
      roundF f rm sat ftz ⟨x != y, t / m2, e1 - e2 - k, t % m2 != 0⟩

/-- floor(√n) from a start at or above it, by Newton's steps; the fuel bounds their number. -/
def isqrtFrom (n : Nat) : (fuel x : Nat) → Nat
  | 0, x => x
  | fuel + 1, x =>
    let y := (x + n / x) / 2
    if x ≤ y then x else isqrtFrom n fuel y

/-- floor(√n). -/
def isqrt (n : Nat) : Nat := if n = 0 then 0 else isqrtFrom n (bitLen n + 8) (2 ^ ((bitLen n + 1) / 2))

def sqrtF (f : Fmt) (rm : Rm) (sat ftz : Bool) (a : FVal) : Res :=
  match a with
  | .nan _ => (canonicalNaN f, snanFlag [a])
  | .inf neg => if neg then invalidF f else infResult f rm sat false
  | .fin neg m e =>
    if m = 0 then (signBit f neg, 0)
    else if neg then invalidF f
    else
      let (m, e) := if e % 2 = 0 then (m, e) else (2 * m, e - 1)
      let t := m * 2 ^ 256
      let r := isqrt t
      roundF f rm sat ftz ⟨false, r, e / 2 - 128, r * r != t⟩

/-- An infinity that a division by zero yields, with DZ (R195), under the sat field (log 15). -/
def zeroDivide (f : Fmt) (sat neg : Bool) : Res :=
  let r := infResult f .rne sat neg
  (r.1, r.2 ||| flagDZ)

/-- ρ(1 ÷ a) (R195). -/
def rcpF (f : Fmt) (sat ftz : Bool) (a : FVal) : Res :=
  match a with
  | .fin neg 0 _ => zeroDivide f sat neg
  | _ => divF f .rne sat ftz (.fin false 1 0) a

/-- ρ(1 ÷ √a) (R195). -/
def rsqF (f : Fmt) (sat ftz : Bool) (a : FVal) : Res :=
  match a with
  | .nan _ => (canonicalNaN f, snanFlag [a])
  | .inf neg => if neg then invalidF f else (0, 0)
  | .fin neg m e =>
    if m = 0 then zeroDivide f sat neg
    else if neg then invalidF f
    else
      let (m, e) := if e % 2 = 0 then (m, e) else (2 * m, e - 1)
      let k := 160 + bitLen m
      let r := isqrt (2 ^ (2 * k) / m)
      roundF f .rne sat ftz ⟨false, r, -(e / 2) - k, r * r * m != 2 ^ (2 * k)⟩

/-- 2^(f ÷ 2^n) for 0 ≤ f < 2^n as a fixed-point number of p fraction bits, from below: the product of the roots
2^(2^−i) over the one bits of f; `root` is 2^(2^−i) for the bit in turn. -/
def exp2Frac (p f : Nat) : (n : Nat) → (root acc : Nat) → Nat
  | 0, _, acc => acc
  | n + 1, root, acc =>
    let root := isqrt (root * 2 ^ p)
    exp2Frac p f n root (if f.testBit n then acc * root / 2 ^ p else acc)

/-- The precision of VFEXP2 and VFLOG2, far beyond what any operand of the three formats needs (log 14). -/
def transPrec : Nat := 400

/-- ρ(2^a) (R195). -/
def exp2F (f : Fmt) (sat ftz : Bool) (a : FVal) : Res :=
  match a with
  | .nan _ => (canonicalNaN f, snanFlag [a])
  | .inf neg => if neg then (0, 0) else infResult f .rne sat false
  | .fin neg m e =>
    if m = 0 then roundF f .rne sat ftz ⟨false, 1, 0, false⟩
    else if !magLt m e 1 13 then
      if neg then roundF f .rne sat ftz ⟨false, 1, -100000, true⟩ else overflowF f .rne sat false
    else
      let n := (-e).toNat
      let v : Int := atExp neg m e (-(n : Int))
      let whole := v / 2 ^ n
      let frac := (v % 2 ^ n).toNat
      if frac = 0 then roundF f .rne sat ftz ⟨false, 1, whole, false⟩
      else
        let acc := exp2Frac transPrec frac n (2 * 2 ^ transPrec) (2 ^ transPrec)
        roundF f .rne sat ftz ⟨false, acc, whole - transPrec, true⟩

/-- d binary digits of log2 y for 1 ≤ y < 2 held with p fraction bits, by squaring (log 14). -/
def log2Digits (p : Nat) : (d y acc : Nat) → Nat
  | 0, _, acc => acc
  | d + 1, y, acc =>
    let y := y * y / 2 ^ p
    if 2 * 2 ^ p ≤ y then log2Digits p d (y / 2) (2 * acc + 1) else log2Digits p d y (2 * acc)

/-- ρ(log2 a) (R195). -/
def log2F (f : Fmt) (sat ftz : Bool) (a : FVal) : Res :=
  match a with
  | .nan _ => (canonicalNaN f, snanFlag [a])
  | .inf neg => if neg then invalidF f else infResult f .rne sat false
  | .fin neg m e =>
    if m = 0 then zeroDivide f sat true
    else if neg then invalidF f
    else
      let len := bitLen m
      let k : Int := e + len - 1
      if m = 2 ^ (len - 1) then roundF f .rne sat ftz (exactOfInt k 0)
      else
        let d := 200
        let digits := log2Digits transPrec d (m * 2 ^ (transPrec - (len - 1))) 0
        let v : Int := k * 2 ^ d + digits
        if 0 ≤ v then roundF f .rne sat ftz ⟨false, v.toNat, -(d : Int), true⟩
        else roundF f .rne sat ftz ⟨true, (-v - 1).toNat, -(d : Int), true⟩

/-- Order of two values that are not NaN, −0 below +0 for `minimumNumber`. -/
def FVal.lt : FVal → FVal → Bool
  | .inf x, .inf y => x && !y
  | .inf x, _ => x
  | _, .inf y => !y
  | .fin n1 m1 e1, .fin n2 m2 e2 =>
    let lo := min e1 e2
    decide (atExp n1 m1 e1 lo < atExp n2 m2 e2 lo)
  | _, _ => false

def FVal.isZero : FVal → Bool
  | .fin _ 0 _ => true
  | _ => false

def FVal.sign : FVal → Bool
  | .nan _ => false
  | .inf n => n
  | .fin n _ _ => n

/-- The encoding of a value that the format holds. -/
def encodeF (f : Fmt) (v : FVal) : Nat :=
  match v with
  | .nan _ => canonicalNaN f
  | .inf n => infinity f n
  | .fin n m e => (roundF f .rne false false ⟨n, m, e, false⟩).1

/-- minimumNumber and maximumNumber (R195). -/
def minmaxF (f : Fmt) (wantMax : Bool) (a b : FVal) : Res :=
  let fl := snanFlag [a, b]
  match a, b with
  | .nan _, .nan _ => (canonicalNaN f, fl)
  | .nan _, _ => (encodeF f b, fl)
  | _, .nan _ => (encodeF f a, fl)
  | _, _ =>
    let less := if a.isZero && b.isZero then a.sign && !b.sign else a.lt b
    (encodeF f (if less != wantMax then a else b), fl)

/-- Compares (R195): the bit, and NV. -/
inductive FCmp where
  | eq | ne | lt | ge
  deriving DecidableEq, Repr

def cmpF (c : FCmp) (a b : FVal) : Bool × Flags :=
  let un := a.isNan || b.isNan
  let nv : Flags := match c with
    | .eq | .ne => snanFlag [a, b]
    | .lt | .ge => if un then flagNV else 0
  let same := (a.isZero && b.isZero) || (!a.lt b && !b.lt a)
  (match c with
    | .eq => !un && same
    | .ne => un || !same
    | .lt => !un && a.lt b
    | .ge => !un && !a.lt b, nv)

/-- The class bit of Table 13.3. -/
def classBit (f : Fmt) (v : FVal) : Nat :=
  match v with
  | .inf n => if n then 0 else 7
  | .nan s => if s then 8 else 9
  | .fin n m _ =>
    if m = 0 then (if n then 3 else 4)
    else if m < 2 ^ fracBits f then (if n then 2 else 5)
    else (if n then 1 else 6)

/-! ### Conversions (R185, Table 12.6) -/

/-- A conversion that rounds to −0 in FP8A, FP8B or FP4 writes +0 (R177). -/
def dropNegZero (f : Fmt) (r : Res) : Res :=
  match f with
  | .fp8a | .fp8b | .fp4 => if r.1 = signBit f true then (0, r.2) else r
  | _ => r

/-- A NaN converted to a floating format (R182). -/
def nanTo (fd : Fmt) (signalling : Bool) : Res :=
  if fd == .fp4 then (0, flagNV) else (canonicalNaN fd, if signalling then flagNV else 0)

/-- An infinite operand as an overflow of its sign (R181, R183). -/
def infTo (fd : Fmt) (rm : Rm) (sat neg : Bool) : Res :=
  if ieeeSpecials fd && !sat then (infinity fd neg, 0)
  else if fd == .fp8a && !sat then (0x7F, flagOF ||| flagNX)
  else overflowF fd rm true neg |> fun r => (r.1, if sat then r.2 else flagOF ||| flagNX)

/-- float → float. -/
def floatToFloat (fs fd : Fmt) (rm : Rm) (sat : Bool) (x : Nat) : Res :=
  match decodeF fs x with
  | .nan s => nanTo fd s
  | .inf neg => if fs == fd then (x, 0) else infTo fd rm sat neg
  | .fin neg m e => if fs == fd then (x, 0) else dropNegZero fd (roundF fd rm sat false ⟨neg, m, e, false⟩)

/-- float → integer. -/
def floatToInt (fs fd : Fmt) (rm : Rm) (sat : Bool) (x : Nat) : Res :=
  match decodeF fs x with
  | .nan _ => (0, flagNV)
  | .inf neg => if sat then (wrapI fd (if neg then intMin fd else intMax fd), flagNV ||| flagSAT) else (0, flagNV)
  | .fin neg m e =>
    let (r, inexact) := roundInt rm ⟨neg, m, e, false⟩
    if r < intMin fd ∨ intMax fd < r then
      if sat then ((satI fd r).1, flagNV ||| flagSAT) else (wrapI fd r, flagNV)
    else (wrapI fd r, if inexact then flagNX else 0)

/-- integer → float: zero converts to +0. -/
def intToFloat (fs fd : Fmt) (rm : Rm) (sat : Bool) (x : Nat) : Res :=
  dropNegZero fd (roundF fd rm sat false (exactOfInt (decodeI fs x) 0))

/-- integer → integer. -/
def intToInt (fs fd : Fmt) (sat : Bool) (x : Nat) : Res :=
  if sat then satI fd (decodeI fs x) else (wrapI fd (decodeI fs x), 0)

/-- A conversion (Table 12.6). -/
def convert (fs fd : Fmt) (rm : Rm) (sat : Bool) (x : Nat) : Res :=
  match isFloat fs, isFloat fd with
  | true, true => floatToFloat fs fd rm sat x
  | true, false => floatToInt fs fd rm sat x
  | false, true => intToFloat fs fd rm sat x
  | false, false => intToInt fs fd sat x

/-! ### Exact sums (R186) -/

/-- The running exact sum: any NaN, the infinities present, the finite sum at a common exponent, whether every addend is −0,
whether every addend is +0, and the addends so far. -/
structure ExactSum where
  nan : Bool := false
  snan : Bool := false
  pinf : Bool := false
  ninf : Bool := false
  sum : Int := 0
  exp : Int := 0
  allNegZero : Bool := true
  allPosZero : Bool := true
  count : Nat := 0
  deriving DecidableEq, Repr

def ExactSum.add (s : ExactSum) (v : FVal) : ExactSum :=
  let s := { s with count := s.count + 1 }
  match v with
  | .nan sg => { s with nan := true, snan := s.snan || sg, allNegZero := false, allPosZero := false }
  | .inf n => { s with pinf := s.pinf || !n, ninf := s.ninf || n, allNegZero := false, allPosZero := false }
  | .fin n m e =>
    let lo := min s.exp e
    { s with sum := s.sum * 2 ^ (s.exp - lo).toNat + atExp n m e lo, exp := lo
             allNegZero := s.allNegZero && n && m == 0, allPosZero := s.allPosZero && !n && m == 0 }

/-- The rounded exact sum (R186): NV for a signalling NaN, or when +∞ and −∞ are both present; DEDUCED (log 96): not for a quiet NaN
alone. -/
def ExactSum.round (s : ExactSum) (f : Fmt) (rm : Rm) (sat ftz : Bool) : Res :=
  if s.pinf && s.ninf then (canonicalNaN f, flagNV)
  else if s.nan then (canonicalNaN f, if s.snan then flagNV else 0)
  else if s.pinf then infResult f rm sat false
  else if s.ninf then infResult f rm sat true
  else if s.sum = 0 then
    (signBit f (s.count != 0 && (s.allNegZero || (rm == .rdn && !s.allPosZero))), 0)
  else roundF f rm sat ftz (exactOfInt s.sum s.exp)

end Sys2Proof.Machine
end

