-- ==== Sys2Proof/Machine/State.lean ====
section
/-! DEFINITION. The machine's state as plain data, its fault and refusal reasons, and the state after reset. -/

namespace Sys2Proof.Machine

/-- Reasons a run stops. There is none: every trap and fault of the spec is taken as a next state (R328 to R341), every wait
is a next state, and a module that has powered down stays as it is until it is reset (R371). -/
inductive Fault where
  deriving DecidableEq, Repr

/-- Reasons the model gives no meaning. -/
inductive Refusal where
  /-- Raised by the arm of an instruction that has no meaning yet. Safe. -/
  | notModelled (mnemonic : String)
  /-- Raised by REGISTER_WRITE and SUPERVISOR_ACCESS for an address of the hub control space at which the spec places
  no register, or a register whose layout is CXL's own (R353). Safe. -/
  | noSuchRegister (addr : Nat)
  deriving DecidableEq, Repr

/-- A sparse table by key, ascending, no key twice; a key that is not listed holds the table's default. -/
abbrev Tab (α : Type) := List (Nat × α)

/-- The entry of key `k`, `d` where none is listed. -/
def tget {α : Type} (d : α) : Tab α → Nat → α
  | [], _ => d
  | (k, v) :: rest, n => if k = n then v else tget d rest n

/-- Places an entry in key order. -/
def tinsert {α : Type} (n : Nat) (x : α) : Tab α → Tab α
  | [] => [(n, x)]
  | (k, v) :: rest => if n < k then (n, x) :: (k, v) :: rest else (k, v) :: tinsert n x rest

/-- Removes the entry of a key. -/
def tdel {α : Type} (n : Nat) : Tab α → Tab α
  | [] => []
  | (k, v) :: rest => if k = n then tdel n rest else (k, v) :: tdel n rest

/-- Writes the entry of a key. -/
def tput {α : Type} (t : Tab α) (n : Nat) (x : α) : Tab α := tinsert n x (tdel n t)

/-- Byte storage: address and byte pairs, addresses strictly rising, no byte equal to zero, which is what an unlisted
address reads as (log 4). -/
abbrev Memory := List Host.Cell

/-- What a byte reads as. -/
def Memory.read (m : Memory) (a : Nat) : Byte := tget 0 m a

/-- Writes a byte; a zero byte removes the entry, which keeps the canonical form. -/
def Memory.write (m : Memory) (a : Nat) (b : Byte) : Memory :=
  if b = 0 then tdel a m else tput m a b

/-- Writes n bytes from an address at once, each as `f` gives it for its place. -/
def Memory.fill (m : Memory) (a n : Nat) (f : Nat → Byte) : Memory :=
  m.filter (fun p => decide (p.1 < a)) ++
  ((List.range n).filterMap fun k => if f k = 0 then none else some (a + k, f k)) ++
  m.filter fun p => decide (a + n ≤ p.1)

/-- The canonical form: strictly rising addresses and no zero byte. -/
def Memory.wf : Memory → Bool
  | [] => true
  | [(_, b)] => b != 0
  | (a, b) :: (a', b') :: rest => decide (a < a') && b != 0 && Memory.wf ((a', b') :: rest)

/-- One accumulator row (R231): 64 columns of ACC80, RSF, CSF and AMC. -/
structure AccRow where
  cols : BitVec 5120 := 0
  rsf  : Bool := false
  csf  : BitVec 64 := 0
  amc  : BitVec 8 := 0
  deriving DecidableEq, Repr

/-- A tile as latched (R226 to R230): its image, the codebook bank with which its codes were decoded, its column special
word, and the address space of the hart that loaded it. -/
structure Tile where
  image : List Byte
  book  : BitVec 16384
  cf    : BitVec 64
  asid  : BitVec 16
  deriving DecidableEq, Repr

/-- An element of an entry whose sector failed its check on the way in, to be reported at the pop (R154): its place in the
entry, its address, from which a resumption reads it again (R341), and the core and offset where that is a scratchpad's. -/
structure BadPiece where
  bit   : Nat
  width : Nat
  va    : BitVec 64
  pad   : Option (CoreId × Nat) := none
  /-- The bit of its first byte at which it lies (R174). -/
  sh    : Nat := 0
  /-- The registers of the group whose entry, once popped, holds it. -/
  regs  : Nat := 1
  deriving DecidableEq, Repr

/-- One entry of a bound register's queue (R148): its bits, its window tag and the width of the format that filled it
(R157, R205), its failed elements. -/
structure Entry where
  data : BitVec 16384
  tag  : Option (BitVec 64) := none
  width : Nat := 0
  bad  : List BadPiece := []
  deriving DecidableEq, Repr

/-- An entry in flight that a fault or an invalidation stopped (R85, R154, R156): its index, the elements below `next` are written,
the entry is not poppable. -/
structure Partial where
  index : Nat
  data : BitVec 16384
  next : Nat
  bad  : List BadPiece := []
  /-- The elements above `next` that are read too, where an invalidation came between the elements (R85). -/
  done : List Nat := []
  deriving DecidableEq, Repr

/-- An extent of a sequence descriptor (Table 7.2). -/
structure Extent where
  base : BitVec 64
  elen : BitVec 32
  str  : BitVec 32
  pool : Bool
  ord  : BitVec 4
  deriving DecidableEq, Repr

/-- A binding (R148 to R154): the record's fields, the descriptor snapshot of kind 2, and the queue. -/
structure Binding where
  kind   : Nat := 0
  grp    : Group := .g1
  fmt    : Fmt := .i8
  depth  : Nat := 4
  count  : Nat := 0
  base   : BitVec 64 := 0
  estr   : BitVec 32 := 0
  nin    : Nat := 1
  istr   : BitVec 64 := 0
  ostr   : BitVec 64 := 0
  slice  : Nat := 8
  roff   : Nat := 0
  start  : Nat := 0
  len    : Nat := 0
  extents : List Extent := []
  /-- The fill cursor: the index of the next entry whose fill is not yet issued (R161). -/
  cursor : Nat := 0
  /-- The entries of a stream of kind 1 or 2. -/
  total  : Nat := 0
  short  : Bool := false
  entries : List Entry := []
  filling : Option Partial := none
  /-- The rows that MRLDFF instructions have requested and that are not yet filled (R239), by address. -/
  rows   : List (BitVec 64) := []
  /-- The window tag of the last popped entry, none where no VLDW filled it, and the element width of that VLDW (R157). -/
  tag    : Option (BitVec 64) := none
  tagWidth : Nat := 0
  deriving DecidableEq, Repr

/-- An accumulation window (R253): touched private copies by key lane · 256 + element. -/
structure Window where
  op     : Nat
  fmt    : Fmt
  base   : BitVec 64
  wn     : Nat
  copies : Tab (BitVec 64) := []
  deriving DecidableEq, Repr

/-- One level of a ruling state (R133). -/
structure Level where
  n  : Nat := 1
  ss : BitVec 15 := 0
  ds : BitVec 15 := 0
  deriving DecidableEq, Repr

/-- The ruling state (R133): levels 0 to 5, the source and destination bases. -/
structure Ruling where
  levels : Tab Level := []
  sb     : BitVec 64 := 0
  db     : BitVec 64 := 0
  deriving DecidableEq, Repr

/-- A copy attached to a well (R133, R134): the snapshot of C0 and the ruling state, the next iteration in iteration order,
whether a violation froze it, and for COPYQ the register, the members that receive by task number, the bytes read so far
and how many entries have landed at each member. -/
structure Copy where
  /-- Its place in the order in which the copies were issued (R151). -/
  seq    : Nat := 0
  ctl    : BitVec 64
  ruling : Ruling
  iter   : Nat := 0
  frozen : Bool := false
  dest   : Option (Fin 64) := none
  quire  : Option Nat := none
  width  : Nat := 0
  bytes  : List Byte := []
  /-- The bytes of failing sectors among them, with the address of each, and its core and offset in a scratchpad. -/
  badAt  : List (Nat × BitVec 64 × Option (CoreId × Nat)) := []
  landed : Tab Nat := []
  members : List Nat := []
  deriving DecidableEq, Repr

/-- A well (R137): its owner is the task that claimed it. -/
structure Well where
  state : WellState := .free
  owner : Option Nat := none
  copy  : Option Copy := none
  deriving DecidableEq, Repr

/-- What a stream of a hart does (R283, R285); `idle` where the hart holds no task. -/
inductive StreamStat where
  | idle | running | atRdv | halted
  deriving DecidableEq, Repr

/-- A wait in progress (R25, R168): the bound that governs it. -/
structure WaitRec where
  limit : BitVec 32
  deriving DecidableEq, Repr

/-- What a waiting stream waits for, where an act of another agent ends the wait by a trap: a well that becomes free (R144), a
blotter ring that is disabled (R261). -/
inductive Awaited where
  | well (k : Fin 64)
  | ring (k : Nat)
  deriving DecidableEq, Repr

/-- A BAR or BARWAIT that waits (R302, Table 24.2): the barrier, the phase p, and whether its arrival is made. -/
structure BarRec where
  network : Nat
  id      : Nat
  phase   : BitVec 32
  arrived : Bool
  deriving DecidableEq, Repr

/-- A code line held by a stream (R36). -/
structure HeldLine where
  addr  : BitVec 64
  bytes : List Byte
  deriving DecidableEq, Repr

/-- One 32-byte sector of a line that a stream has fetched before the other (R36): which, and its bytes. -/
structure HeldSector where
  addr  : BitVec 64
  upper : Bool
  bytes : List Byte
  deriving DecidableEq, Repr

/-- What one stream has of its own. -/
structure StreamRec where
  pc    : BitVec 64 := 0
  stat  : StreamStat := .idle
  wait  : Option WaitRec := none
  on    : Option Awaited := none
  bar   : Option BarRec := none
  line  : Option HeldLine := none
  sector : Option HeldSector := none
  /-- The PC that follows the RDV at which the stream stands (R33, R283). -/
  after : BitVec 64 := 0
  /-- Trap cause and trap address (R167). -/
  cause : BitVec 16 := 0
  taddr : BitVec 64 := 0
  deriving DecidableEq, Repr

/-- The task of a hart (R321): a number of its own, its address space, pipeline slot, stage and launch priority, and
whether it has completed an SQPOP (R322). -/
structure Task where
  number : Nat
  asid   : BitVec 16
  slot   : Nat
  stage  : Nat
  prio   : Nat
  popped : Bool := false
  deriving DecidableEq, Repr

/-- Who asks for a pre-emption (R327). -/
inductive Preempt where
  | supervisor | balancer | launch
  deriving DecidableEq, Repr

/-- The fields of the restart record that are not read from registers (Table 24.2). -/
structure HaltRec where
  acause : BitVec 16 := 0
  xcause : BitVec 16 := 0
  ccause : BitVec 16 := 0
  aaddr  : BitVec 64 := 0
  xaddr  : BitVec 64 := 0
  /-- The X-stream's trap named an element. -/
  xe     : Bool := false
  aelem  : BitVec 13 := 0
  akind  : BitVec 3 := 0
  abind  : BitVec 6 := 0
  aent   : BitVec 32 := 0
  xdone  : Bool := false
  frz    : Bool := false
  code   : BitVec 16 := 0
  arg    : BitVec 64 := 0
  /-- The stream that made a service call. -/
  caller : Option Stream := none
  deriving DecidableEq, Repr

/-- An event counter (R367). -/
structure Counter where
  src   : BitVec 8 := 0
  en    : Bool := false
  ovf   : Bool := false
  count : BitVec 48 := 0
  deriving DecidableEq, Repr

/-- A QJOIN that has joined (R145), and what its quire's forming gives Sd once it is decided. -/
structure Joining where
  quire : Nat
  n     : Nat
  vl    : BitVec 13
  result : Option (BitVec 64) := none
  deriving DecidableEq, Repr

/-- A VWAITF that waits (R306): the armed elements, Ss as the wait will leave it, the fault that follows it when the prefix
has reached it, and the lowest element not yet satisfied; while it waits for a free entry it has armed none. -/
structure FlagWait where
  arming : Bool := false
  armed : List Nat
  stop  : Nat
  fault : Option (BitVec 16 × BitVec 64)
  low   : Nat
  deriving DecidableEq, Repr

/-- Everything that belongs to a hart's task (R162 to R168, R332). A register file is a sparse table: an unlisted register
holds its placement value (R166). -/
structure Hart where
  task   : Option Task := none
  a      : Tab (BitVec 64) := []
  s      : Tab (BitVec 64) := []
  c      : Tab (BitVec 64) := []
  v      : Tab VReg := []
  t      : Tab Wide := []
  /-- The parent indices written since placement, by register; any other equals its own position (R166, log 12). -/
  tset   : Tab (BitVec 256) := []
  m      : Tab Wide := []
  ac     : Tab AccRow := []
  q      : Tab (List (BitVec 64)) := []
  bq     : List Bool := []
  vl     : BitVec 13 := 0
  vstart : BitVec 13 := 0
  tce    : Bool := false
  ftz    : Bool := false
  vstat  : BitVec 8 := 0
  waitlim : BitVec 32 := 0x00100000
  featm  : BitVec 3 := 0
  sa     : StreamRec := {}
  sx     : StreamRec := {}
  sc     : StreamRec := {}
  /-- The three streams have met at RDV, and X and C leave when A issues its next instruction (R283). -/
  met    : Bool := false
  /-- The A-stream's preceding instruction is an RDV (R284). -/
  lastRdv : Bool := false
  /-- Bound sources that the instruction at XPC has already popped (R149). -/
  popped : List Nat := []
  /-- Failed elements of the entries so popped, by register (R154, R341). -/
  popBad : List (Nat × BadPiece) := []
  /-- The flags of the elements that the instruction at XPC performed before a fault: VSTAT takes them when it completes
  (R168). -/
  pend   : BitVec 8 := 0
  /-- The elements at and above VSTART that the instruction at XPC performed before an invalidation reached the core (R85). -/
  done   : List Nat := []
  /-- VSTART of an instruction that is not performed element by element, and that an integrity fault stopped: with it the
  instruction restarts (R336, R341). -/
  again  : Option (BitVec 13) := none
  ruling : Ruling := {}
  binds  : Tab (Option Binding) := []
  window : Option Window := none
  keys   : List (BitVec 64 × BitVec 64) := []
  quire  : Option (Nat × Nat) := none
  joining : Option Joining := none
  flagWait : Option FlagWait := none
  /-- The tile that the hart last latched or used (R242), and whether its resumption could not latch it (R339). -/
  tile   : Option Tile := none
  tileHeld : Bool := false
  /-- The hart has stopped all three streams (R329) and holds the record. -/
  halted : Bool := false
  halt   : HaltRec := {}
  preempt : Option Preempt := none
  counters : Tab Counter := []
  deriving DecidableEq, Repr

/-- A stash line (R124): its physical address once filled. -/
structure StashLine where
  pa     : Nat
  dirty  : Bool × Bool
  /-- The key pair of its page, under which its sectors go back (R89, R125). -/
  key    : Option (BitVec 512) := none
  /-- The level of the page through which it was translated (R73). -/
  level  : Nat := 0
  deriving DecidableEq, Repr

/-- A stash region (R123): offset, virtual base, address space, owning task, its valid lines by index. -/
structure StashRegion where
  offset : Nat
  va     : BitVec 64
  asid   : BitVec 16
  owner  : Nat
  lines  : Tab (Option StashLine) := []
  deriving DecidableEq, Repr

/-- A core (R8, R13, R115, R123, R137, R178, R226). -/
structure Core where
  /-- VCFG.HARTS: log 2 of the harts per core. -/
  harts   : BitVec 2 := 0
  feat    : BitVec 3 := Config.featShipped
  scratch : Memory := []
  badSp   : List Nat := []
  stash   : List StashRegion := []
  wells   : Tab Well := []
  book0   : BitVec 16384 := 0
  book1   : BitVec 16384 := 0
  tile    : Option Tile := none
  shadow  : Option Tile := none
  lastAsid : Option (BitVec 16) := none
  swapHeld : Bool := false
  deriving DecidableEq, Repr

/-- A record of a launch queue (R322), with the number of samples it has seen (R327); a resume record names its frame's slot. -/
inductive LaunchKind where
  | first (slot stage : Nat)
  | resume (frame : Nat) (after : Bool)
  deriving DecidableEq, Repr

structure LaunchRec where
  kind : LaunchKind
  waited : Nat := 0
  deriving DecidableEq, Repr

/-- A quire (R145): the task numbers of its members, in rank order. -/
structure Quire where
  members : List Nat := []
  deriving DecidableEq, Repr

/-- A frame (R331, R332): the saved hart, its identity and its stash mappings (its wells stay with its home core), whether a
resume record carries it, whether that record is one that no OP 1 entered (R325, R327), and whether its task is cancelled and
waits for its copies (R335). -/
structure Frame where
  hart  : Hart
  id    : HartId
  stash : List (Nat × BitVec 64)
  queued : Bool := false
  auto   : Bool := false
  retiring : Bool := false
  deriving DecidableEq, Repr

/-- A cached translation (R81): the page, the leaf value it was made from and its level. -/
structure Cached where
  asid  : BitVec 16
  vpage : Nat
  level : Nat
  leaf  : BitVec 64
  deriving DecidableEq, Repr

/-- The assignment of a hart position to a stage (R322, R325), and the balancer's mark. -/
structure Assign where
  stage : Option (Nat × Nat) := none
  mark  : Option (Nat × Nat) := none
  deriving DecidableEq, Repr

/-- A compute die and its registers of the hub control space. -/
structure Die where
  popBytes : BitVec 38 := BitVec.ofNat 38 Config.populatedBytes
  /-- The physical slice of each logical one, and the physical core of each enabled one, where a spare serves (R110, R364). -/
  sliceMap : Tab Nat := []
  coreMap  : Tab Nat := []
  -- FPARENA and FPCTL (Tables 7.3, 7.4), free lists by order (R97)
  fpAsid  : BitVec 16 := 0
  fpBase  : BitVec 26 := 0
  fpReserve : BitVec 32 := 0
  fpSize  : BitVec 7 := 0
  fpEn    : Bool := false
  free    : Tab (List Nat) := []
  -- CFQBASE, CFQHEAD, CFQTAIL (Tables 9.8, 9.9), records held pending (R140)
  cfqBase : BitVec 37 := 0
  cfqEn   : Bool := false
  cfqIcore : BitVec 5 := 0
  cfqHead : BitVec 10 := 0
  cfqTail : BitVec 10 := 0
  cfqHeld : List (BitVec 256) := []
  -- FRBASE, NQBASE, NQHEAD, NQTAIL (R333), frames by slot
  frBase  : BitVec 36 := 0
  frEn    : Bool := false
  frNslot : BitVec 13 := 0
  nqBase  : BitVec 37 := 0
  nqIcore : BitVec 5 := 0
  nqHead  : BitVec 12 := 0
  nqTail  : BitVec 12 := 0
  frames  : Tab (Option Frame) := []
  /-- Notices of frozen engines and host aborts that wait for a free notice entry. -/
  nqHeld  : List (BitVec 64) := []
  launch  : Tab (List LaunchRec) := []
  quires  : Tab Quire := []
  tlb     : List Cached := []
  /-- Hart positions of the die, by 8 · core + hart. -/
  assign  : Tab Assign := []
  /-- Cycles of the die's clock (R10), and the balancer's samples so far (R325). -/
  cycle   : Nat := 0
  samples : Nat := 0
  /-- The limiter withholds issue cycles (R371): for the module's power, for this die's heat. -/
  limitedPower : Bool := false
  limitedHeat  : Bool := false
  counters : Tab Counter := []
  deriving DecidableEq, Repr

/-- A key slot (R84): the key words as written, and the pair loaded. -/
structure KeySlot where
  words  : BitVec 512 := 0
  loaded : Bool := false
  key    : BitVec 512 := 0
  deriving DecidableEq, Repr

/-- An invalidation port (Tables 6.5, 6.6). -/
structure InvPort where
  va    : BitVec 48 := 0
  asid  : BitVec 16 := 0
  allas : Bool := false
  pages : BitVec 32 := 0
  done  : Bool := true
  deriving DecidableEq, Repr

/-- A barrier (R297, R299). -/
structure Barrier where
  asid  : BitVec 16 := 0
  en    : Bool := false
  root  : BitVec 9 := 0
  phase : BitVec 32 := 0
  memb  : BitVec 16 := 0
  xarr  : BitVec 48 := 0
  xbyt  : BitVec 48 := 0
  arr   : BitVec 48 := 0
  byt   : BitVec 48 := 0
  deriving DecidableEq, Repr

/-- A blotter entry (Table 19.3). -/
structure BlEntry where
  token  : BitVec 18
  fin    : Bool
  cancel : Bool
  deriving DecidableEq, Repr

/-- A blotter ring (Table 19.1), its entries by position mod 256, the scribe's held bytes and the reply bytes sent. -/
structure Ring where
  session : BitVec 64 := 0
  app  : BitVec 32 := 0
  rel  : BitVec 32 := 0
  vp   : BitVec 32 := 0
  emit : BitVec 32 := 0
  ign  : BitVec 32 := 0
  asid : BitVec 16 := 0
  flow : BitVec 16 := 0
  vocab : BitVec 6 := 0
  model : BitVec 16 := 0
  rtab : BitVec 46 := 0
  scribe : BitVec 4 := 0
  closed : Bool := false
  veto : Bool := false
  notice : Bool := false
  en   : Bool := false
  entries : Tab BlEntry := []
  held : List Byte := []
  sent : Nat := 0
  /-- The end frame has been sent (R271): nothing more is emitted. -/
  ended : Bool := false
  deriving DecidableEq, Repr

/-- An installed automaton object (R272, R273): who installed it and where, and its header's fields. -/
structure StencilObj where
  asid   : BitVec 16
  va     : BitVec 64
  states : Nat
  classes : Nat
  tokens : Nat
  start  : Nat
  limit  : Nat
  classOff : Nat
  transOff : Nat
  maskOff : Nat
  /-- The forced token of each state, recorded when the object was installed. -/
  forced : List (Option Nat) := []
  deriving DecidableEq, Repr

/-- A stencil context (R273). -/
structure StencilCtx where
  owner : BitVec 16 := 0
  limit : BitVec 7 := 0
  obj   : Option StencilObj := none
  state : Nat := 0
  stack : List (BitVec 8) := []
  deriving DecidableEq, Repr

/-- The kept fields of a stage (R320, Table 23.2, Table 20.2). -/
structure Stage where
  hpc  : BitVec 2
  minh : Nat
  maxh : Nat
  desc : BitVec 64
  aent : BitVec 64
  xent : BitVec 64
  cent : BitVec 64
  featm : BitVec 3
  deriving DecidableEq, Repr

/-- A stage queue (Table 23.3) with its entries (Table 5.3), oldest first, and how many were ever pushed. -/
structure StageQueue where
  depth : Nat
  cons  : Nat
  prod  : Nat
  entries : List (BitVec 128) := []
  pushed : Nat := 0
  deriving DecidableEq, Repr

/-- A pipeline slot (R319, R320); `maps` is the model id that it maps, from the write that made it resident until it is empty. -/
structure Pipeline where
  addr  : BitVec 64 := 0
  asid  : BitVec 16 := 0
  model : BitVec 16 := 0
  inq   : BitVec 5 := 0
  ing   : Bool := false
  dies  : BitVec 4 := 0
  state : BitVec 2 := 0
  en    : Bool := false
  qbase : BitVec 64 := 0
  prio  : Nat := 0
  thr   : Nat := 256
  maps  : Option (BitVec 16) := none
  stages : List Stage := []
  queues : List StageQueue := []
  deriving DecidableEq, Repr

/-- A version of a vocabulary (R68, R69): the address space and address of its object. -/
structure VocabVersion where
  version : BitVec 32
  asid : BitVec 16
  va   : BitVec 64
  deriving DecidableEq, Repr

/-- An open request on a ligature engine (R57 to R60). -/
structure OpenRequest where
  session : BitVec 64
  engine  : Fin 16
  slot    : Nat
  queue   : Nat
  model   : BitVec 16
  vocab   : BitVec 16
  version : BitVec 32
  nospec  : Bool
  received : Nat := 0
  /-- The text not yet tokenised, and whether some of it came since the engine last tokenised. -/
  held    : List Byte := []
  ready   : Bool := false
  /-- The last bytes tokenised, while they are a proper part of a well-formed UTF-8 sequence. -/
  utf     : List Byte := []
  pending : List Nat := []
  pushed  : Nat := 0
  eot     : Bool := false
  cancelled : Bool := false
  deriving DecidableEq, Repr

/-- A closed-request record (R60). -/
structure ClosedRec where
  session : BitVec 64
  slot    : Nat
  queue   : Nat
  engine  : Fin 16
  count   : Nat
  vver    : BitVec 8
  deriving DecidableEq, Repr

/-- A frame that the hub sends (Table 5.1, Table 19.5), with its ring's flow index where a ring sends it. -/
structure OutFrame where
  flow    : Option (BitVec 16)
  kind    : BitVec 8
  eot     : Bool
  model   : BitVec 16
  vocab   : BitVec 16
  session : BitVec 64
  offset  : BitVec 32
  payload : List Byte
  deriving DecidableEq, Repr

/-- A flash request in flight (R359, R360): tag, entry, the poster's die and address space, the partition's first block and size,
and how many WRITEs of the flash had completed when it was posted. -/
structure FlashReq where
  tag   : BitVec 32
  entry : BitVec 512
  die   : Fin 4
  asid  : BitVec 16
  lba   : Nat
  size  : Nat := 0
  mark  : Nat := 0
  deriving DecidableEq, Repr

/-- A flash ring (Table 28.1). -/
structure FlashRing where
  asid : BitVec 16 := 0
  en   : Bool := false
  lba  : BitVec 33 := 0
  nlb  : BitVec 33 := 0
  next : BitVec 32 := 1
  tags : List (BitVec 32) := []
  inflight : List FlashReq := []
  done : List (BitVec 32 × BitVec 64) := []
  deriving DecidableEq, Repr

/-- A receive buffer that the network server has posted (R363). -/
structure NetBuffer where
  pa     : Nat
  size   : Nat
  record : Nat
  barrier : Option (Nat × Nat) := none
  deriving DecidableEq, Repr

/-- A pod message that the hub sends: for a barrier (R304), or one that the network server posts, on its flow to its module
(R362). -/
inductive PodOut where
  | arrival (id : Nat) (root : BitVec 9) (m : PodArrival)
  | phase (id : Nat) (m : PodPhase)
  | message (dest : Fin 512) (m : PodMessage)
  deriving DecidableEq, Repr

/-- What the microcontroller's own store records (R370, R371): a thermal shutdown of a die, a repair or a retirement. -/
inductive McEvent where
  | thermal (die : Fin 4)
  | repair (r : Repair)
  deriving DecidableEq, Repr

/-- SPREQ (Table 29.2). -/
structure SpareReq where
  busy : Bool := false
  kind : BitVec 3 := 0
  die  : BitVec 2 := 0
  unit : BitVec 7 := 0
  stat : BitVec 2 := 0
  deriving DecidableEq, Repr

/-- A host's HDM decoder (R353): host base, size and the device address it exposes. -/
structure HdmDecoder where
  en   : Bool := false
  host : Nat := 0
  size : Nat := 0
  pa   : Nat := 0
  deriving DecidableEq, Repr

/-- An entry of a link's snoop filter (R354): the 64-byte line that its host caches, and the line as the host has modified it,
none while the host's copy is clean. -/
structure SnoopEntry where
  link  : Nat
  line  : Nat
  dirty : Option (List Byte) := none
  deriving DecidableEq, Repr

/-- The hub die HD. -/
structure Hub where
  astBase : BitVec 31 := 0
  astEn   : Bool := false
  /-- Address-space entries that the hub holds together with translations (R83). -/
  asts    : Tab (BitVec 256) := []
  keys    : Tab KeySlot := []
  inv     : Tab InvPort := []
  barriers : Tab Barrier := []
  podOut  : List PodOut := []
  rings   : Tab Ring := []
  ctxs    : Tab StencilCtx := []
  objects : Tab (List StencilObj) := []
  pipes   : Tab Pipeline := []
  vocabs  : Tab (List VocabVersion) := []
  requests : List OpenRequest := []
  closed  : List ClosedRec := []
  /-- Cancel entries that engines have still to push for closed requests (R60). -/
  cancels : List ClosedRec := []
  frames  : List OutFrame := []
  illFormed : Tab Nat := []
  flashRings : Tab FlashRing := []
  flash   : Memory := []
  flashDurable : Memory := []
  /-- The contents that completed WRITEs have given each block since it was last durable, oldest first, each with its place in the
  order of all WRITEs (R361), and how many WRITEs have completed. -/
  flashPending : Tab (List (Nat × List Byte)) := []
  flashWrites : Nat := 0
  /-- The blocks that the media could not deliver to the last request (Table 28.3). -/
  flashBad : List Nat := []
  netBufs : Tab (Option NetBuffer) := []
  /-- Messages that wait for their buffers, in the order in which they came (R363). -/
  netIn   : List PodMessage := []
  hdm     : Tab HdmDecoder := []
  /-- The snoop filters of the two links, oldest entry first (R354). -/
  snoop   : List SnoopEntry := []
  promotions : List Promotion := []
  /-- Promotions whose compare-and-swap failed: the status of their completion records (R92). -/
  superseded : List Promotion := []
  /-- Frozen engines by 32 · SRC + index, with the operation they retry. -/
  frozen  : Tab (Option (Instr × Request)) := []
  spreq   : SpareReq := {}
  spareCores : Tab Nat := []
  spareLigature : Nat := 2
  spareScribe : Nat := 2
  /-- Spare lanes in use by group of four ports, and the physical supervisor core of each where a spare serves (Table 29.1). -/
  laneSpares : Tab Nat := []
  supMap  : Tab Nat := []
  counters : Tab Counter := []
  /-- Reports queued for the session server (R271). -/
  scribeReports : List (Nat × Nat) := []
  deriving DecidableEq, Repr

/-- What moves in a turn (log 2): a stream of a hart, using cached translations, and the line that it
holds, unless `fresh`; one whose vector access an invalidation reaches when `pages` of its pages are translated (R85); one that fetches
a sector of its line ahead of the other (R36); or a step of another agent with what that agent presents. Between `barrierCycle true`
and `barrierCycle false` the turns share one cycle of the barrier unit. -/
inductive Turn where
  | barrierCycle (opens : Bool)
  | run (h : HartId) (st : Stream) (fresh : Bool)
  | part (h : HartId) (st : Stream) (pages : Nat)
  | ahead (h : HartId) (st : Stream) (upper : Bool)
  | event (i : Instr) (r : Request)
  deriving DecidableEq, Repr

/-- The module. -/
structure State where
  mem    : Memory := []
  /-- Sectors (address ÷ 32) whose stored check fails (R112, R369). -/
  badSectors : List Nat := []
  /-- The key under which each sector was last written (R89); an unlisted sector is plain. -/
  keyTags : Tab (Option (BitVec 512)) := []
  harts  : Tab Hart := []
  cores  : Tab Core := []
  dies   : Tab Die := []
  hub    : Hub := {}
  /-- HARTID.MODULE (Table 11.9). -/
  podIndex : BitVec 9 := 0
  /-- The module is powered (R371), what the microcontroller's store records, and whether supervisor core 0 runs (R370). -/
  powered : Bool := true
  mcStore : List McEvent := []
  sup0   : Bool := true
  /-- The value that the last access of each supervisor core, and the last host read of each link, returned. -/
  supValue : Tab (BitVec 64) := []
  hostValue : Tab (Option (List Byte)) := []
  -- the model's own fields (log 2, log 3)
  agenda : List Turn := []
  /-- The arrivals and expectations of the turns now made share one cycle of the barrier unit (R299, R303); the expectations. -/
  oneCycle : Bool := false
  expects : List (Nat × Nat × BitVec 64) := []
  rr     : Nat := 0
  curHart : HartId := ⟨0, 0, 0⟩
  curStream : Stream := .a
  fresh  : Bool := false
  /-- The pages that a vector access of this turn translates before an invalidation reaches the core (R85, log 7): none for all. -/
  upto   : Option Nat := none
  /-- The fall-through PC of the instruction in execution (R33), its head, whose minor is the scope of a FENCE (R307), and its tail,
  which holds the order and the scope of an AMERGE (R255). -/
  fallPc : BitVec 64 := 0
  head   : BitVec 16 := 0
  tail   : BitVec 48 := 0
  /-- What the agent of the step in execution presents. -/
  req    : Request := {}
  taskCtr : Nat := 0
  copyCtr : Nat := 0
  freeCtr : Nat := 0
  deriving DecidableEq, Repr

/-- The module right after reset (R370): every register at its Reset value, no pipeline, ring or barrier enabled, no task
placed. -/
def State.reset : State := {}

end Sys2Proof.Machine
end

