-- ==== Sys2Proof/Machine/Ops.lean ====
section
/-! DEFINITION. The named operations: registers, harts, traps, waits, physical memory, translation, virtual accesses. -/

namespace Sys2Proof.Machine

/-! ### Cause codes (Table 24.1) -/

namespace Cause
def illegal : BitVec 16 := 0x0001
def lineFormat : BitVec 16 := 0x0002
def instructionAddress : BitVec 16 := 0x0003
def nonCanonical : BitVec 16 := 0x0010
def nonexistent : BitVec 16 := 0x0011
def notPresent : BitVec 16 := 0x0012
def malformed : BitVec 16 := 0x0013
def permission : BitVec 16 := 0x0014
def notResident : BitVec 16 := 0x0015
def misalignment : BitVec 16 := 0x0016
def key : BitVec 16 := 0x0017
def integrity : BitVec 16 := 0x0018
def padRange : BitVec 16 := 0x0019
def copyAddress : BitVec 16 := 0x001A
def streamMismatch : BitVec 16 := 0x001B
def chunkFormat : BitVec 16 := 0x001C
def shapeRange : BitVec 16 := 0x001D
def vectorLength : BitVec 16 := 0x0020
def stream : BitVec 16 := 0x0021
def quantise : BitVec 16 := 0x0022
def marginOverflow : BitVec 16 := 0x0023
def tileFormat : BitVec 16 := 0x0024
def codebookFormat : BitVec 16 := 0x0025
def matrix : BitVec 16 := 0x0026
def topologyCycle : BitVec 16 := 0x0027
def featureAbsent : BitVec 16 := 0x0028
def window : BitVec 16 := 0x0029
def kvDescriptor : BitVec 16 := 0x0030
def kvExtentLimit : BitVec 16 := 0x0031
def poolEmpty : BitVec 16 := 0x0032
def folio : BitVec 16 := 0x0033
def stash : BitVec 16 := 0x0034
def copy : BitVec 16 := 0x0035
def well : BitVec 16 := 0x0036
def stageQueue : BitVec 16 := 0x0037
def blotter : BitVec 16 := 0x0038
def stencil : BitVec 16 := 0x0039
def stackOverflow : BitVec 16 := 0x003A
def barrier : BitVec 16 := 0x003B
def fork : BitVec 16 := 0x0040
def rendezvous : BitVec 16 := 0x0041
def waitLimit : BitVec 16 := 0x0042
def orphanWait : BitVec 16 := 0x0043
def serviceCall : BitVec 16 := 0x0044
def software : BitVec 16 := 0x0045
def breakpoint : BitVec 16 := 0x0046
def violation : BitVec 16 := 0x0050
end Cause

/-! ### Harts, cores, dies -/

def coreKey (c : CoreId) : Nat := 96 * c.die.val + c.core.val
def hartKey (h : HartId) : Nat := 8 * (96 * h.die.val + h.core.val) + h.hart.val
def coreOf (h : HartId) : CoreId := ⟨h.die, h.core⟩

def State.hart (s : State) (h : HartId) : Hart := tget {} s.harts (hartKey h)
def State.setHart (s : State) (h : HartId) (x : Hart) : State := { s with harts := tput s.harts (hartKey h) x }
def State.core (s : State) (c : CoreId) : Core := tget {} s.cores (coreKey c)
def State.setCore (s : State) (c : CoreId) (x : Core) : State := { s with cores := tput s.cores (coreKey c) x }
def State.die (s : State) (d : Fin 4) : Die := tget {} s.dies d.val
def State.setDie (s : State) (d : Fin 4) (x : Die) : State := { s with dies := tput s.dies d.val x }

/-- The hart whose instruction is in execution. -/
def State.cur (s : State) : Hart := s.hart s.curHart
def State.setCur (s : State) (x : Hart) : State := s.setHart s.curHart x
def State.curCoreId (s : State) : CoreId := ⟨s.curHart.die, s.curHart.core⟩
def State.curCore (s : State) : Core := s.core s.curCoreId

/-- The address space of a hart's task (R70); 0 where it holds none. -/
def Hart.asid (x : Hart) : BitVec 16 := match x.task with | some t => t.asid | none => 0

/-- The number of the task of a hart, by which it owns wells and stash regions. -/
def Hart.taskNo (x : Hart) : Nat := match x.task with | some t => t.number | none => 0

/-- Lanes of a hart of a core (R162). -/
def Core.lanes (c : Core) : Nat := 32 >>> c.harts.toNat

/-- Harts of a core (R13). -/
def Core.numHarts (c : Core) : Nat := 1 <<< c.harts.toNat

def State.lanes (s : State) : Nat := s.curCore.lanes

/-- The width in bits of a vector register of the hart in execution (Table 1.5). -/
def State.regBits (s : State) : Nat := s.lanes * 64

/-! ### Stream records -/

def Hart.st (x : Hart) : Stream → StreamRec
  | .a => x.sa | .x => x.sx | .c => x.sc

def Hart.setSt (x : Hart) (st : Stream) (r : StreamRec) : Hart :=
  match st with
  | .a => { x with sa := r } | .x => { x with sx := r } | .c => { x with sc := r }

def State.curSt (s : State) : StreamRec := s.cur.st s.curStream
def State.setCurSt (s : State) (r : StreamRec) : State := s.setCur (s.cur.setSt s.curStream r)

/-! ### Registers (R162): A0 and S0 read zero and discard writes; C0 to C7 are ordinary -/

def Hart.getA (x : Hart) (r : Nat) : BitVec 64 := if r = 0 then 0 else tget 0 x.a r
def Hart.setA (x : Hart) (r : Nat) (w : BitVec 64) : Hart := if r = 0 then x else { x with a := tput x.a r w }
def Hart.getS (x : Hart) (r : Nat) : BitVec 64 := if r = 0 then 0 else tget 0 x.s r
def Hart.setS (x : Hart) (r : Nat) (w : BitVec 64) : Hart := if r = 0 then x else { x with s := tput x.s r w }
def Hart.getC (x : Hart) (r : Nat) : BitVec 64 := tget 0 x.c r
def Hart.setC (x : Hart) (r : Nat) (w : BitVec 64) : Hart := { x with c := tput x.c r w }

/-- A scalar register of a stream (Table 3.3, R45). -/
def Hart.getR (x : Hart) : Stream → Nat → BitVec 64
  | .a, r => x.getA r | .x, r => x.getS r | .c, r => x.getC r

def Hart.setR (x : Hart) (st : Stream) (r : Nat) (w : BitVec 64) : Hart :=
  match st with
  | .a => x.setA r w | .x => x.setS r w | .c => x.setC r w

def State.getR (s : State) (r : Fin 32) : BitVec 64 := s.cur.getR s.curStream r.val
def State.setR (s : State) (r : Fin 32) (w : BitVec 64) : State := s.setCur (s.cur.setR s.curStream r.val w)

/-- Vector registers (R162). -/
def Hart.getV (x : Hart) (r : Nat) : VReg := tget 0 x.v r
def Hart.setV (x : Hart) (r : Nat) (w : VReg) : Hart := { x with v := tput x.v r w }

/-- Masks (R162): M0 reads all-ones and discards writes. -/
def Hart.getM (x : Hart) (r : Nat) : Wide := if r = 0 then BitVec.allOnes 4096 else tget 0 x.m r
def Hart.setM (x : Hart) (r : Nat) (w : Wide) : Hart := if r = 0 then x else { x with m := tput x.m r w }

/-- Topology registers (R162, R166): the indices as written. -/
def Hart.getT (x : Hart) (r : Nat) : Wide := tget 0 x.t r
def Hart.setT (x : Hart) (r : Nat) (w : Wide) : Hart := { x with t := tput x.t r w }

def Hart.getAc (x : Hart) (r : Nat) : AccRow := tget {} x.ac r
def Hart.setAc (x : Hart) (r : Nat) (w : AccRow) : Hart := { x with ac := tput x.ac r w }

def Hart.queue (x : Hart) (q : Nat) : List (BitVec 64) := tget [] x.q q
def Hart.setQueue (x : Hart) (q : Nat) (l : List (BitVec 64)) : Hart := { x with q := tput x.q q l }
def Hart.bind (x : Hart) (v : Nat) : Option Binding := tget none x.binds v
def Hart.setBind (x : Hart) (v : Nat) (b : Option Binding) : Hart := { x with binds := tput x.binds v b }

/-! ### Event counters (R367, R368) -/

/-- Adds n events of a source to every enabled counter of it; the count wraps and sets OVF. -/
def bump (src : BitVec 8) (n : Nat) (t : Tab Counter) : Tab Counter :=
  t.map fun (k, c) =>
    if c.en && c.src == src then
      (k, { c with count := BitVec.ofNat 48 (c.count.toNat + n), ovf := c.ovf || decide (2 ^ 48 ≤ c.count.toNat + n) })
    else (k, c)

def State.countDie (s : State) (d : Fin 4) (src : BitVec 8) (n : Nat) : State :=
  let x := s.die d
  if x.counters.isEmpty then s else s.setDie d { x with counters := bump src n x.counters }

def State.countHub (s : State) (src : BitVec 8) (n : Nat) : State :=
  { s with hub := { s.hub with counters := bump src n s.hub.counters } }

def State.countHart (s : State) (h : HartId) (src : BitVec 8) (n : Nat) : State :=
  let x := s.hart h
  let s := if x.counters.isEmpty then s else s.setHart h { x with counters := bump src n x.counters }
  s.countDie h.die src n

/-- An ignored write of a control register (event 0x22), counted by the hub or a die. -/
def State.ignoredHub (s : State) : State := s.countHub 0x22 1
def State.ignoredDie (s : State) (d : Fin 4) : State := s.countDie d 0x22 1

/-! ### Completing, trapping, waiting -/

/-- Why an instruction does not complete. -/
structure TrapInfo where
  cause : BitVec 16
  addr  : BitVec 64 := 0
  /-- The element of Fault (R25), which becomes VSTART on the X-stream; none where the entry gives no element. -/
  elem  : Option Nat := none
  /-- AKIND, ABIND, AENT of an A-side access (Table 24.2). -/
  akind : BitVec 3 := 0
  abind : BitVec 6 := 0
  aent  : BitVec 32 := 0
  deriving DecidableEq, Repr

inductive Stop where
  | trap (i : TrapInfo)
  | wait
  /-- An invalidation came between the elements (R85): what is done stays, and the stream goes on with the rest in a later turn. -/
  | again
  | refuse (r : Refusal)
  deriving DecidableEq, Repr

/-- The effect of an instruction: it may change the state before it stops. -/
abbrev Act (α : Type) := ExceptT Stop (StateM State) α

def trap {α : Type} (cause : BitVec 16) : Act α := throw (.trap { cause := cause })
def faultAt {α : Type} (cause : BitVec 16) (addr : BitVec 64) : Act α := throw (.trap { cause := cause, addr := addr })
def waitFor (c : Bool) : Act Unit := if c then pure () else throw .wait
def trapIf (c : Bool) (cause : BitVec 16) : Act Unit := if c then trap cause else pure ()

/-- Runs an engine's work on behalf of a hart. -/
def onBehalf {α : Type} (h : HartId) (st : Stream) (m : Act α) : Act α := fun s => m { s with curHart := h, curStream := st }

/-- Runs an access on behalf of element e: a fault in it is a fault at e (R25). A violation names no element: its class is H, and
the instruction has performed nothing (Table 24.1, R337). -/
def atElem {α : Type} (e : Nat) (m : Act α) : Act α := fun s =>
  match m s with
  | (.error (.trap i), s') => (.error (.trap (if i.cause = Cause.violation then i else { i with elem := some e })), s')
  | r => r

/-- Runs an engine's work for a task, whose hart is x, resident at h or held in a frame whose home h is: of the hart at h only
the counters may change, where it is the task's. -/
def asTask {α : Type} (h : HartId) (x : Hart) (m : Act α) : Act α := fun s =>
  let r := m { s.setHart h x with curHart := h, curStream := .c }
  let y := s.hart h
  (r.1, r.2.setHart h (if y.taskNo = x.taskNo then { y with counters := (r.2.hart h).counters } else y))

/-- Marks the faults of an A-side access with its kind, binding and entry (Table 24.2). -/
def asKind {α : Type} (k : BitVec 3) (bind : BitVec 6) (ent : BitVec 32) (m : Act α) : Act α := fun s =>
  match m s with
  | (.error (.trap i), s') => (.error (.trap { i with akind := k, abind := bind, aent := ent }), s')
  | r => r

/-- Runs actions for each member of a list in order. -/
def forEach {α : Type} (l : List α) (f : α → Act Unit) : Act Unit :=
  match l with
  | [] => pure ()
  | x :: xs => do f x; forEach xs f

/-- The X-stream's bound sources count as popped until the instruction completes (R149), and only then VSTAT has its flags
(R168). DESIGN CHOICE (log 84): a hint is completed like an instruction: it counts as event 0x01, and it stands between an RDV and a FORK
(R284). -/
def State.complete (s : State) : State :=
  let x := s.cur
  let r := { x.st s.curStream with pc := s.fallPc, wait := none, on := none, bar := none }
  let x := x.setSt s.curStream r
  let x := match s.curStream with
    | .a => { x with lastRdv := false }
    | .x => { x with popped := [], popBad := [], vstat := x.vstat ||| x.pend, pend := 0, done := [] }
    | .c => x
  (s.setCur x).countHart s.curHart 0x01 1

/-- The whole hart halts (R329). A QJOIN that waits has performed nothing and restarts from its head (R145); the entries of
a VWAITF are freed, and it re-arms from VSTART (R306). -/
def Hart.stop (x : Hart) : Hart :=
  { x with halted := true, flagWait := none
           joining := match x.joining with | some j => if j.result.isSome then some j else none | none => none }

/-- A stream of a hart takes a trap or fault: its cause and address registers (R167), VSTART on the X-stream for an element
fault (R25), the record's fields (Table 24.2), and the whole hart halts (R329). A violation freezes the hart (R340). The
stream's PC names the instruction, which restarts from its head or from the element (R337); the entries that it has popped (R149) and
the flags of the elements that it has performed (R168) stand until it completes. -/
def Hart.takeTrap (x : Hart) (st : Stream) (i : TrapInfo) : Hart :=
  let x := x.setSt st { x.st st with cause := i.cause, taddr := i.addr, wait := none, on := none }
  let h := { x.halt with frz := x.halt.frz || i.cause == Cause.violation }
  let x := x.stop
  match st with
  | .a => { x with halt := { h with acause := i.cause, aaddr := i.addr, aelem := BitVec.ofNat 13 (i.elem.getD 0), akind := i.akind, abind := i.abind, aent := i.aent } }
  | .x => { x with halt := { h with xcause := i.cause, xaddr := i.addr, xe := i.elem.isSome },
                   vstart := match i.elem with | some e => BitVec.ofNat 13 e | none => x.vstart }
  | .c => { x with halt := { h with ccause := i.cause } }

/-- The stream in execution takes a trap or fault; the PC that follows its instruction is kept for XDONE and OP 2 (R335). -/
def takeTrap (i : TrapInfo) (s : State) : State :=
  let r := { s.curSt with after := s.fallPc }
  s.setCur ((s.cur.setSt s.curStream r).takeTrap s.curStream i)

/-- The wait-limit trap of a stream; that of a VWAITF leaves VSTART at its lowest armed element not yet satisfied (R306). -/
def Hart.limitTrap (x : Hart) (st : Stream) : TrapInfo :=
  { cause := Cause.waitLimit, elem := match st, x.flagWait with | .x, some f => some f.low | _, _ => none }

/-- A stream waits (R25): its first check starts the wait under the limit of that moment (R168), and with LIMIT 0 it traps
at once (Table 11.7). -/
def beginWait (s : State) : State :=
  let x := s.cur
  match (x.st s.curStream).wait with
  | some _ => s
  | none =>
    if x.waitlim = 0 then takeTrap (x.limitTrap s.curStream) (s.countHart s.curHart 0x15 1)
    else s.setCurSt { x.st s.curStream with wait := some ⟨x.waitlim⟩, after := s.fallPc }

/-- The outcome of an effect that does not advance the stream by itself. -/
def settle (m : Act Unit) (s : State) : Host.Outcome State Fault Refusal :=
  match m s with
  | (.ok _, s') => .next s'
  | (.error (.trap i), s') => .next (takeTrap i s')
  | (.error .wait, s') => .next (beginWait s')
  | (.error .again, s') => .next (s'.setCurSt { s'.curSt with wait := none, on := none })
  | (.error (.refuse r), _) => .refused r

/-- The outcome of an instruction's effect: when it completes, its stream goes on at the fall-through PC (R33). -/
def finish (m : Act Unit) (s : State) : Host.Outcome State Fault Refusal :=
  settle (m >>= fun _ => modify State.complete) s

/-- The outcome of a step of another agent: a stop leaves everything as it was. -/
def happen (m : Act Unit) (s : State) : Host.Outcome State Fault Refusal :=
  match m s with
  | (.ok _, s') => .next s'
  | (.error (.refuse r), _) => .refused r
  | (.error _, _) => .next s

/-- What the wait that may follow is for. -/
def awaits (on : Awaited) : Act Unit := modify fun s => s.setCurSt { s.curSt with on := some on }

/-- A stream of a hart that waits for something takes a trap at once (R144, R261). -/
def Hart.trapWaiting (x : Hart) (on : Awaited) (cause : BitVec 16) (st : Stream) : Hart :=
  if x.task.isSome && !x.halted && (x.st st).wait.isSome && (x.st st).on == some on then x.takeTrap st { cause := cause } else x

/-- Every stream that waits for something takes a trap at once. -/
def State.trapWaiters (s : State) (on : Awaited) (cause : BitVec 16) (here : Nat → Bool) : State :=
  { s with harts := s.harts.map fun (k, x) =>
      (k, if here k then [Stream.a, .x, .c].foldl (fun x st => x.trapWaiting on cause st) x else x) }

def getCur : Act Hart := do return (← get).cur
def setCur (x : Hart) : Act Unit := modify fun s => s.setCur x
def modCur (f : Hart → Hart) : Act Unit := modify fun s => s.setCur (f s.cur)
def getCore : Act Core := do return (← get).curCore
def modCore (f : Core → Core) : Act Unit := modify fun s => s.setCore s.curCoreId (f s.curCore)
def modDie (d : Fin 4) (f : Die → Die) : Act Unit := modify fun s => s.setDie d (f (s.die d))
def modHub (f : Hub → Hub) : Act Unit := modify fun s => { s with hub := f s.hub }
def reg (r : Fin 32) : Act (BitVec 64) := do return (← get).getR r
def setReg (r : Fin 32) (w : BitVec 64) : Act Unit := modify fun s => s.setR r w

/-- Feature (R25): feature-absent when the core lacks the bit (Table 11.8). -/
def needFeature (bit : Nat) : Act Unit := do
  let c ← getCore
  trapIf (!c.feat.getLsbD bit) Cause.featureAbsent

/-- The PC a stream goes to, in place of the fall-through PC. -/
def goTo (pc : BitVec 64) : Act Unit := modify fun s => { s with fallPc := pc }

/-! ### Byte order and addresses -/

/-- The value of bytes, lowest first (R2). -/
def leNat : List Byte → Nat
  | [] => 0
  | b :: bs => b.toNat + 256 * leNat bs

/-- The n low bytes of a value, lowest first (R2). -/
def leBytes (n v : Nat) : List Byte := (List.range n).map fun k => BitVec.ofNat 8 (v / 256 ^ k % 256)

/-- Canonical (R25): bits 63 to 56 all equal bit 56. -/
def canonical (a : BitVec 64) : Bool :=
  let top := a.toNat / 2 ^ 56
  top == 0 || top == 255

/-- The exact 66-bit address sum of R134 is in the canonical range. -/
def canonicalInt (g : Int) : Bool := decide (-(2 ^ 56) ≤ g) && decide (g < 2 ^ 56)

/-! ### Physical memory: sectors, checks, key tags, coherence -/

def hubBase : Nat := 0x000F000000000000

/-- A physical address lies in populated HBM (R71, Table 6.1). -/
def State.inHbm (s : State) (pa : Nat) : Bool :=
  decide (pa < 4 * 2 ^ 38) && decide (pa % 2 ^ 38 < (s.die (Fin.ofNat 4 (pa / 2 ^ 38))).popBytes.toNat)

/-- A physical address lies in the host window (Table 6.1). -/
def inHost (pa : Nat) : Bool := decide (0x0004000000000000 ≤ pa) && decide (pa ≤ 0x0007FFFFFFFFFFFF)

/-- A physical address lies in the hub control space (Table 6.1). -/
def inHub (pa : Nat) : Bool := decide (hubBase ≤ pa) && decide (pa ≤ hubBase + 0xFFFFFFFF)

def readBytes (m : Memory) (pa n : Nat) : List Byte := (List.range n).map fun k => m.read (pa + k)
def writeBytes (m : Memory) (pa : Nat) : List Byte → Memory
  | [] => m
  | b :: bs => writeBytes (m.write pa b) (pa + 1) bs

/-- The sectors that n bytes from an address touch (R109). -/
def sectorsOf (pa n : Nat) : List Nat := (List.range ((pa + n + 31) / 32 - pa / 32)).map fun k => pa / 32 + k

/-- The lines that n bytes from an address touch (R109). -/
def linesOf (pa n : Nat) : List Nat := (List.range ((pa + n + 63) / 64 - pa / 64)).map fun k => pa / 64 + k

/-- Writes one 32-byte sector's plaintext back under a key (R89), keeping or clearing its failing check (R125: a bad sector is written
back unchanged). -/
def State.putSector (s : State) (sec : Nat) (bytes : List Byte) (bad : Bool) (key : Option (BitVec 512)) : State :=
  { s with mem := writeBytes s.mem (32 * sec) bytes
           keyTags := match key with | some _ => tput s.keyTags sec key | none => tdel sec s.keyTags
           badSectors := if bad then (if s.badSectors.contains sec then s.badSectors else sec :: s.badSectors) else s.badSectors.filter (· != sec) }

/-- The writeback of the dirty sectors of one stash line (R125), and the number written. -/
def State.writeBackLine (s : State) (c : Core) (r : StashRegion) (idx : Nat) (l : StashLine) : State :=
  let off := r.offset + 64 * idx
  let s := if l.dirty.1 then s.putSector (l.pa / 32) (readBytes c.scratch off 32) (c.badSp.contains (off / 32)) l.key else s
  if l.dirty.2 then s.putSector (l.pa / 32 + 1) (readBytes c.scratch (off + 32) 32) (c.badSp.contains (off / 32 + 1)) l.key else s

/-- The valid lines of a region, with their index. -/
def StashRegion.valid (r : StashRegion) : List (Nat × StashLine) :=
  r.lines.filterMap fun (k, l) => l.map fun x => (k, x)

/-- The regions of a core other than the one kept. -/
def others (keep : Option (Nat × Nat)) (k : Nat) (l : List StashRegion) : List StashRegion :=
  l.filter fun r => keep != some (k, r.offset)

/-- A line of a region after its recall: clean for a read, invalid for a write. -/
def StashRegion.recalled (r : StashRegion) (ln : Nat) (write : Bool) : StashRegion :=
  { r with lines := r.lines.map fun (i, l) => match l with
      | some x => if x.pa / 64 == ln then (i, if write then none else some { x with dirty := (false, false) }) else (i, l)
      | none => (i, none) }

/-- Recalls line `ln` of physical memory from every stash region but the one at offset `keep.2` of core `keep.1`, which makes the
access (R124): dirty sectors are written back, and for a write the stash copies become invalid. -/
def State.recallStash (s : State) (ln : Nat) (write : Bool) (keep : Option (Nat × Nat)) : State :=
  s.cores.foldl (fun s (k, c) =>
    let rs := others keep k c.stash
    if rs.any fun r => r.valid.any fun x => x.2.pa / 64 == ln then
      let s := rs.foldl (fun s r => r.valid.foldl (fun s (i, l) => if l.pa / 64 == ln then s.writeBackLine c r i l else s) s) s
      { s with cores := tput s.cores k { c with stash := c.stash.map fun r => if keep == some (k, r.offset) then r else r.recalled ln write } }
    else s) s

/-- A host's modified line comes back: both sectors are written whole, under no key (R354, R355). -/
def State.takeBack (s : State) (e : SnoopEntry) : State :=
  match e.dirty with
  | none => s
  | some b =>
    { s with mem := writeBytes s.mem (64 * e.line) b
             badSectors := s.badSectors.filter fun k => k / 2 != e.line
             keyTags := tdel (2 * e.line) (tdel (2 * e.line + 1) s.keyTags) }

/-- Before a device access to a line that a snoop filter tracks, the line is back-invalidated (R354). -/
def State.backInvalidate (s : State) (ln : Nat) : State :=
  let s := (s.hub.snoop.filter fun x => x.line == ln).foldl State.takeBack s
  { s with hub := { s.hub with snoop := s.hub.snoop.filter fun x => x.line != ln } }

/-- What a device access to a line finds done before it: the hosts' copies and the other stash copies are recalled. -/
def State.recall (s : State) (ln : Nat) (write : Bool) (keep : Option (Nat × Nat)) : State :=
  (s.backInvalidate ln).recallStash ln write keep

def State.recallAll (s : State) (pa n : Nat) (write : Bool) (keep : Option (Nat × Nat)) : State :=
  (linesOf pa n).foldl (fun s ln => s.recall ln write keep) s

/-- The bytes that memory holds, without a recall, a key or a check. -/
def State.peek (s : State) (pa n : Nat) : List Byte := readBytes s.mem pa n

/-- A consuming read that names no key, of a table or a word that an engine reads (R114, R124): the lines are recalled and every
sector is checked. -/
def readPlain (pa n : Nat) (va : BitVec 64) : Act Nat := do
  modify fun s => s.recallAll pa n false none
  let s ← get
  if (sectorsOf pa n).any fun k => s.badSectors.contains k then faultAt Cause.integrity va
  else return leNat (s.peek pa n)

/-- A compare-and-swap of an 8-byte table entry at `.PK` (R79, R91): whether it found the expected value. -/
def swapEntry (pa : Nat) (expected new : BitVec 64) : Act Bool := do
  modify fun s => s.recallAll pa 8 true none
  let s ← get
  if leNat (s.peek pa 8) = expected.toNat then
    modify fun s =>
      { s with mem := writeBytes s.mem pa (leBytes 8 new.toNat) }
    return true
  else return false

/-- The key tag of a sector. -/
def State.tagOf (s : State) (sec : Nat) : Option (BitVec 512) := tget none s.keyTags sec

/-- A sector that was written under a key other than the one it is read with (R89); a sector that no key was used for
passes (log 6). -/
def State.otherKey (s : State) (key : Option (BitVec 512)) (sec : Nat) : Bool :=
  match s.tagOf sec, key with
  | some k, some k' => k != k'
  | _, _ => false

/-- A consuming read of n bytes under a key (R89, R112, R114): recalls the lines, checks every sector. A sector of another
key fails its check or, by the free choice, reads as free bytes. -/
def readPa (key : Option (BitVec 512)) (pa n : Nat) (va : BitVec 64) (keep : Option (Nat × Nat) := none) : Act (List Byte) := do
  modify fun s => s.recallAll pa n false keep
  let s ← get
  let secs := sectorsOf pa n
  if secs.any fun k => s.badSectors.contains k then faultAt Cause.integrity va
  else if secs.any (s.otherKey key) then
    let c := s.freeCtr
    set { s with freeCtr := c + 1 + n }
    if Config.freeCheckPasses c then
      return (List.range n).map fun k => if s.otherKey key ((pa + k) / 32) then Config.freeDecipheredByte (c + 1 + k) else s.mem.read (pa + k)
    else faultAt Cause.integrity va
  else return s.peek pa n

/-- The sectors that a write of n bytes touches but does not replace whole. -/
def partialSectors (pa n : Nat) : List Nat := (sectorsOf pa n).filter fun k => !(decide (pa ≤ 32 * k) && decide (32 * k + 32 ≤ pa + n))

/-- Performs a write of bytes under a key, the checks done: whole sectors get a new check and tag (R111). -/
def State.poke (s : State) (key : Option (BitVec 512)) (pa : Nat) (bytes : List Byte) (keep : Option (Nat × Nat) := none) : State :=
  let n := bytes.length
  let s := s.recallAll pa n true keep
  let part := partialSectors pa n
  let whole := (sectorsOf pa n).filter fun k => !part.contains k
  { s with mem := writeBytes s.mem pa bytes
           badSectors := s.badSectors.filter fun k => !whole.contains k
           keyTags := (sectorsOf pa n).foldl (fun t k => match key with | some _ => tput t k key | none => if whole.contains k then tdel k t else t) s.keyTags }

/-- The check of a write of n bytes under a key (R111): a partial write into a sector whose check fails is not performed and raises
an integrity fault; so does, by the check it cannot pass, a merge into a sector of another key (R89, log 6). -/
def checkWrite (key : Option (BitVec 512)) (pa n : Nat) (va : BitVec 64) (keep : Option (Nat × Nat) := none) : Act Unit := do
  modify fun s => s.recallAll pa n true keep
  let s ← get
  if (partialSectors pa n).any fun k => s.badSectors.contains k || s.otherKey key k then faultAt Cause.integrity va else pure ()

/-- A write of bytes under a key, its check first (R111). -/
def writePa (key : Option (BitVec 512)) (pa : Nat) (bytes : List Byte) (va : BitVec 64) (keep : Option (Nat × Nat) := none) : Act Unit := do
  checkWrite key pa bytes.length va keep
  modify fun s => s.poke key pa bytes keep

/-! ### Translation (R70 to R92) -/

/-- The address-space entry of an ASID (R83). -/
structure AstEntry where
  root : Nat
  voc  : Bool
  keys : BitVec 128
  deriving DecidableEq, Repr

/-- The fields of an entry's 256 bits (Table 6.9), none while V is 0. -/
def astOf (v : Nat) : Option AstEntry :=
  if v.testBit 128 then some ⟨bits v 198 46 * 64, v.testBit 129, BitVec.ofNat 128 (v % 2 ^ 128)⟩ else none

/-- The hub's read of an address-space entry (R83, R114), for an access that concerns address `va`. DESIGN CHOICE (log 86): a table that
ASTBASE places outside HBM is read like any other, with no fault for its place. -/
def readAst (asid : BitVec 16) (va : BitVec 64) : Act Nat := do
  let s ← get
  readPlain (s.hub.astBase.toNat * 2 ^ 21 + 32 * asid.toNat) 32 va

/-- The entry as a use of it finds it: none while ASTBASE.EN is 0; the entry that the hub holds, or in a `fresh` turn, or where it
holds none, the entry of the table. -/
def astEntry (asid : BitVec 16) (va : BitVec 64) : Act (Option AstEntry) := do
  let s ← get
  if s.hub.astEn then
    match if s.fresh then none else (s.hub.asts.find? fun p => p.1 == asid.toNat) with
    | some p => return astOf p.2.toNat
    | none => return astOf (← readAst asid va)
  else return none

/-- The fields of a table entry (Table 6.3). -/
def entFrame (e : BitVec 64) : Nat := bits e.toNat 16 36
def entKey (e : BitVec 64) : Nat := bits e.toNat 9 7
def entOk (e : BitVec 64) : Nat := bits e.toNat 7 2
def entTier (e : BitVec 64) : Nat := bits e.toNat 52 2

/-- Malformed (R75). -/
def malformedEntry (e : BitVec 64) (level : Nat) : Bool :=
  bits e.toNat 57 7 != 0 ||
  (if e.getLsbD 1 then
    entOk e == 3 || entTier e == 3 || level == 3 ||
    (level == 1 && bits e.toNat 16 13 != 0) || (level == 2 && bits e.toNat 16 26 != 0) ||
    (e.getLsbD 3 && !e.getLsbD 2)
  else level == 0 || bits e.toNat 52 5 != 0 || bits e.toNat 2 14 != 0)

/-- The index into a level's table (Table 6.2). -/
def tableIndex (va : BitVec 64) (level : Nat) : Nat :=
  match level with
  | 3 => bits va.toNat 55 2
  | 2 => bits va.toNat 42 13
  | 1 => bits va.toNat 29 13
  | _ => bits va.toNat 16 13

/-- log 2 of the page size of a leaf of a level (R73). -/
def pageBits (level : Nat) : Nat :=
  match level with
  | 2 => 42
  | 1 => 29
  | _ => 16

/-- A walk's result: the leaf, its level and the address of its entry. -/
structure Leaf where
  ent   : BitVec 64
  level : Nat
  addr  : Nat
  deriving DecidableEq, Repr

/-- The walk of R76 from a table at p, down from `level`; the fuel is the levels left. Each entry is read as any master's read
of it is, so that a store that is dirty in a stash is seen (R78, R124). -/
def walkFrom (va : BitVec 64) : (fuel level p : Nat) → Act Leaf
  | 0, _, _ => faultAt Cause.malformed va
  | fuel + 1, level, p => do
    let at' := p + 8 * tableIndex va level
    if !(← get).inHbm at' then faultAt Cause.malformed va
    else
      let e := BitVec.ofNat 64 (← readPlain at' 8 va)
      if !e.getLsbD 0 then faultAt Cause.notPresent va
      else if malformedEntry e level then faultAt Cause.malformed va
      else if e.getLsbD 1 then return ⟨e, level, at'⟩
      else walkFrom va fuel (level - 1) (entFrame e * 2 ^ 16)

/-- The walk of an address space (R76, R83). -/
def walk (asid : BitVec 16) (va : BitVec 64) : Act Leaf := do
  match ← astEntry asid va with
  | none => faultAt Cause.malformed va
  | some a => walkFrom va 4 3 a.root

/-- The permission an access needs (R76). -/
def permits (e : BitVec 64) : AccessKind → Bool
  | .read => e.getLsbD 2
  | .write => e.getLsbD 3
  | .fetch => e.getLsbD 4

/-- The walker's update of A, and of D on a write (R79). -/
def touched (e : BitVec 64) (k : AccessKind) : BitVec 64 :=
  e ||| 0x20 ||| (if k = .write then 0x40 else 0)

/-- The page of an address at a level. -/
def vpageOf (va : BitVec 64) (level : Nat) : Nat := (va.toNat % 2 ^ 57) / 2 ^ pageBits level

/-- The cached translation of an address on a die that may serve an access (R79, R81). -/
def State.cachedFor (s : State) (d : Fin 4) (asid : BitVec 16) (va : BitVec 64) (k : AccessKind) : Option Cached :=
  (s.die d).tlb.find? fun c => c.asid == asid && c.vpage == vpageOf va c.level && (k != .write || c.leaf.getLsbD 6)

/-- What a translation gives an access: the physical address, the leaf, the key pair under which it reads or writes, and the
page's level. -/
structure Mapped where
  pa   : Nat
  leaf : BitVec 64
  key  : BitVec 512
  level : Nat := 0
  deriving DecidableEq, Repr

def paOf (leaf : BitVec 64) (level : Nat) (va : BitVec 64) : Nat :=
  entFrame leaf * 2 ^ 16 + va.toNat % 2 ^ pageBits level

/-- The checks of R76 on a leaf. -/
def checkLeaf (leaf : BitVec 64) (va : BitVec 64) (k : AccessKind) : Act Unit := do
  if !permits leaf k then faultAt Cause.permission va
  else if entTier leaf == 2 then faultAt Cause.notResident va
  else pure ()

/-- A walk with the update of A and D that follows it (R79): when the compare fails, the walker walks again from level 3. Within
one step nothing comes between the read of an entry and its compare, so the first round ends it; a store of software is
performed before the whole or after it (R80). -/
def walkTouch (asid : BitVec 16) (va : BitVec 64) (k : AccessKind) : (rounds : Nat) → Act (BitVec 64 × Nat)
  | 0 => throw .wait
  | n + 1 => do
    let l ← walk asid va
    checkLeaf l.ent va k
    let e := touched l.ent k
    if e = l.ent then return (e, l.level)
    else if ← swapEntry l.addr l.ent e then return (e, l.level)
    else walkTouch asid va k n

/-- Translates for an access of an address space from a die (R76, R79), without what follows it. A walk counts as an event of
the die, and of the hart in execution where the access is its `own`. -/
def translateLeaf (d : Fin 4) (asid : BitVec 16) (va : BitVec 64) (k : AccessKind) (own : Bool := false) : Act (BitVec 64 × Nat) := do
  let s ← get
  match if s.fresh then none else s.cachedFor d asid va k with
  | some c =>
    checkLeaf c.leaf va k
    return (c.leaf, c.level)
  | none =>
    set (if own then s.countHart s.curHart 0x14 1 else s.countDie d 0x14 1)
    walkTouch asid va k 2

/-- The key pair of a leaf (R89): the grant is checked before the slot. -/
def keyFor (asid : BitVec 16) (leaf : BitVec 64) (va : BitVec 64) : Act (BitVec 512) := do
  let granted := match ← astEntry asid va with | some a => a.keys.getLsbD (entKey leaf) | none => false
  if !granted then faultAt Cause.violation va
  else
    let k := tget {} (← get).hub.keys (entKey leaf)
    if !k.loaded then faultAt Cause.key va else return k.key

/-- The physical address that a leaf gives, in a populated region and not in the hub space (R71). -/
def placePa (leaf : BitVec 64) (level : Nat) (va : BitVec 64) : Act Nat := do
  let pa := paOf leaf level va
  let s ← get
  if inHub pa then faultAt Cause.permission va
  else if !(s.inHbm pa || inHost pa) then faultAt Cause.nonexistent va
  else return pa

/-- A whole translation of a canonical address: R76, then the populated regions and the hub space (R71), then the key (R89).
DESIGN CHOICE (log 61): a TIER that disagrees with the region of the FRAME is no fault of its own; the access goes where the
FRAME says. DESIGN CHOICE (log 87): the fault of a place that does not exist comes before a key that is not granted. -/
def translate (d : Fin 4) (asid : BitVec 16) (va : BitVec 64) (k : AccessKind) (own : Bool := false) : Act Mapped := do
  let (leaf, level) ← translateLeaf d asid va k own
  let pa ← placePa leaf level va
  let key ← keyFor asid leaf va
  return ⟨pa, leaf, key, level⟩

/-- Translates on behalf of the hart in execution. -/
def translateCur (va : BitVec 64) (k : AccessKind) : Act Mapped := do
  let s ← get
  if !canonical va then faultAt Cause.nonCanonical va
  else translate s.curHart.die s.cur.asid va k true

/-- The fault of an access that needs TIER = 0, where any other tier is the permission fault (R255, R256). -/
def TrapInfo.hbmOnly (i : TrapInfo) : TrapInfo := if i.cause = Cause.notResident then { i with cause := Cause.permission } else i

/-- A virtual address from an exact sum (R134, R70). -/
def vaOfInt (g : Int) : BitVec 64 := BitVec.ofInt 64 g

/-- Checks canonicality of an exact address and alignment to n (R70, R87), then translates. -/
def translateAligned (g : Int) (n : Nat) (k : AccessKind) : Act Mapped := do
  if !canonicalInt g then faultAt Cause.nonCanonical (vaOfInt g)
  else if (vaOfInt g).toNat % n != 0 then faultAt Cause.misalignment (vaOfInt g)
  else translateCur (vaOfInt g) k

/-- An aligned read of n bytes at an exact virtual address by the hart in execution (Mem, R25). -/
def loadMem (g : Int) (n : Nat) : Act Nat := do
  let m ← translateAligned g n .read
  let b ← readPa (some m.key) m.pa n (vaOfInt g)
  return leNat b

/-- An aligned write of n bytes at an exact virtual address (SetMem, R25). -/
def storeMem (g : Int) (n v : Nat) : Act Unit := do
  let m ← translateAligned g n .write
  writePa (some m.key) m.pa (leBytes n v) (vaOfInt g)

/-- The pieces of n bytes from an address that lie in one 64-byte line each. -/
def linePieces (va : BitVec 64) (n : Nat) : List (BitVec 64 × Nat) :=
  (linesOf va.toNat n).map fun l =>
    let lo := max va.toNat (64 * l)
    let hi := min (va.toNat + n) (64 * l + 64)
    (BitVec.ofNat 64 lo, hi - lo)

/-- A page as an instruction has translated it (R86): its number, its level, and its leaf and key pair, or the fault that its
translation gave. -/
structure Page where
  level : Nat
  vpage : Nat
  leaf  : Except TrapInfo (BitVec 64)
  key   : Except TrapInfo (BitVec 512)

/-- What a translation of a page gave, at another address of the page. -/
def throwAt {α : Type} (va : BitVec 64) : Except TrapInfo α → Act α
  | .ok a => pure a
  | .error i => throw (.trap { i with addr := va })

/-- An address of a page that an instruction has translated. -/
def Page.map (p : Page) (va : BitVec 64) : Act Mapped := do
  let leaf ← throwAt va p.leaf
  let pa ← placePa leaf p.level va
  return ⟨pa, leaf, ← throwAt va p.key, p.level⟩

/-- Runs an effect and answers whether it faulted, in place of the fault; a wait or a refusal still stops. -/
def tryAct {α : Type} (m : Act α) : Act (Except TrapInfo α) := fun s =>
  match m s with
  | (.ok a, s') => (.ok (.ok a), s')
  | (.error (.trap i), s') => (.ok (.error i), s')
  | (.error e, s') => (.error e, s')

/-- The level of the leaf that an address has, 0 where it has none: the size of the page that a fault of its leaf concerns. -/
def leafLevel (d : Fin 4) (asid : BitVec 16) (va : BitVec 64) (k : AccessKind) : Act Nat := fun s =>
  (.ok (match if s.fresh then none else s.cachedFor d asid va k, walk asid va s with
    | some c, _ => c.level
    | none, (.ok l, _) => l.level
    | none, _ => 0), s)

/-- Translates the page of an address (R86). -/
def translatePage (d : Fin 4) (asid : BitVec 16) (k : AccessKind) (own : Bool) (va : BitVec 64) : Act Page := do
  match ← tryAct (translateLeaf d asid va k own) with
  | .ok (leaf, level) => return ⟨level, vpageOf va level, .ok leaf, ← tryAct (keyFor asid leaf va)⟩
  | .error i =>
    let level ← leafLevel d asid va k
    return ⟨level, vpageOf va level, .error i, .error i⟩

/-- The page of an address among those that an instruction has translated. -/
def pageOf (pages : List Page) (va : BitVec 64) : Option Page := pages.find? fun p => p.vpage == vpageOf va p.level

/-- Translates an address through the pages that the instruction has translated, each page once (R86): the page joins them. -/
def translateOnce (d : Fin 4) (asid : BitVec 16) (k : AccessKind) (own : Bool) (pages : List Page) (va : BitVec 64) :
    Act (Mapped × List Page) := do
  if !canonical va then faultAt Cause.nonCanonical va
  else match pageOf pages va with
  | some p => return (← p.map va, pages)
  | none =>
    let p ← translatePage d asid k own va
    return (← p.map va, pages ++ [p])

/-- Translates every piece of a list, each page once. -/
def translatePieces (d : Fin 4) (asid : BitVec 16) (k : AccessKind) (own : Bool) : List Page → List (BitVec 64 × Nat) →
    Act (List (BitVec 64 × Nat × Mapped))
  | _, [] => pure []
  | pages, (a, len) :: rest => do
    let (m, pages) ← translateOnce d asid k own pages a
    let l ← translatePieces d asid k own pages rest
    return (a, len, m) :: l

/-- Translates every line of a block. -/
def translateBlock (d : Fin 4) (asid : BitVec 16) (va : BitVec 64) (n : Nat) (k : AccessKind) (own : Bool := false) :
    Act (List (BitVec 64 × Nat × Mapped)) := translatePieces d asid k own [] (linePieces va n)

/-- Reads a block of bytes by an address space from a die: every line translated before any is read (R86). -/
def readBlock (d : Fin 4) (asid : BitVec 16) (va : BitVec 64) (n : Nat) (own : Bool := false) : Act (List Byte) := do
  let ps ← translateBlock d asid va n .read own
  let bs ← ps.mapM fun (a, len, m) => readPa (some m.key) m.pa len a
  return bs.flatten

/-- The bytes of a block that lie at an address of it; the block may wrap past the top of the addresses (R70). -/
def blockPart {α : Type} (bytes : List α) (va a : BitVec 64) (len : Nat) : List α := (bytes.drop (a - va).toNat).take len

/-- Writes a block of bytes by an address space from a die. -/
def writeBlock (d : Fin 4) (asid : BitVec 16) (va : BitVec 64) (bytes : List Byte) (own : Bool := false) : Act Unit := do
  let ps ← translateBlock d asid va bytes.length .write own
  forEach ps fun (a, len, m) => writePa (some m.key) m.pa (blockPart bytes va a len) a

def readBlockCur (va : BitVec 64) (n : Nat) : Act (List Byte) := do
  let s ← get
  readBlock s.curHart.die s.cur.asid va n true

def writeBlockCur (va : BitVec 64) (bytes : List Byte) : Act Unit := do
  let s ← get
  writeBlock s.curHart.die s.cur.asid va bytes true

end Sys2Proof.Machine
end

