-- ==== Sys2Proof/Machine/Pad.lean ====
section
/-! DEFINITION. The scratchpad and the stash (R115 to R125): addresses, range and trimming, line fills, coherent stores. -/

namespace Sys2Proof.Machine

/-- A scratchpad address resolved: the core and the byte offset (Table 8.1). -/
structure PadRef where
  core : CoreId
  off  : Nat
  deriving DecidableEq, Repr

/-- The core and offset of a scratchpad address, none when it is out of range (R115, R121): a quad is four cores with
consecutive numbers (R8). -/
def State.padRef (s : State) (sa : Int) : Option PadRef :=
  if 0 ≤ sa ∧ sa < 0x80000 then some ⟨s.curCoreId, sa.toNat⟩
  else if 0x200000 ≤ sa ∧ sa < 0x400000 then
    some ⟨⟨s.curHart.die, Fin.ofNat 96 (s.curHart.core.val / 4 * 4 + bits sa.toNat 19 2)⟩, sa.toNat % 0x80000⟩
  else none

/-- The harts of a core that hold tasks. -/
def State.tasksOn (s : State) (c : CoreId) : List Task :=
  (List.range 8).filterMap fun k => (s.hart ⟨c.die, c.core, Fin.ofNat 8 k⟩).task

/-- An access through the quad window to a core that runs a task of another address space is a violation (R121). -/
def padGuard (sa : Int) (r : PadRef) : Act Unit := do
  let s ← get
  if 0x200000 ≤ sa ∧ (s.tasksOn r.core).any (fun t => t.asid != s.cur.asid) then faultAt Cause.violation (vaOfInt sa)
  else pure ()

/-- The stash region that an offset of a core lies in (R123). -/
def Core.regionAt (c : Core) (off : Nat) : Option StashRegion := c.stash.find? fun r => r.offset == off / 4096 * 4096

def Core.setRegion (c : Core) (r : StashRegion) : Core :=
  { c with stash := c.stash.map fun x => if x.offset == r.offset then r else x }

def StashRegion.line (r : StashRegion) (i : Nat) : Option StashLine := tget none r.lines i
def StashRegion.setLine (r : StashRegion) (i : Nat) (l : Option StashLine) : StashRegion := { r with lines := tput r.lines i l }

/-- The virtual address that a line of a region stands for. -/
def StashRegion.lineVa (r : StashRegion) (i : Nat) : BitVec 64 := r.va + BitVec.ofNat 64 (64 * i)

/-- One sector of memory as a move carries it (R114): its bytes and whether its check fails; a sector of another key fails
or, by the free choice of R89, is free bytes. -/
def moveSector (key : Option (BitVec 512)) (sec : Nat) : Act (List Byte × Bool) := do
  let s ← get
  let b := s.peek (32 * sec) 32
  if s.badSectors.contains sec then return (b, true)
  else if s.otherKey key sec then
    let c := s.freeCtr
    set { s with freeCtr := c + 33 }
    return ((List.range 32).map fun k => Config.freeDecipheredByte (c + 1 + k), !Config.freeCheckPasses c)
  else return (b, false)

/-- Writes bytes into a core's scratchpad and sets the check state of its sectors. -/
def Core.putPad (c : Core) (off : Nat) (b : List Byte) : Core := { c with scratch := writeBytes c.scratch off b }
def Core.markPad (c : Core) (sec : Nat) (bad : Bool) : Core :=
  { c with badSp := if bad then (if c.badSp.contains sec then c.badSp else sec :: c.badSp) else c.badSp.filter (· != sec) }

/-- Marks the sector of an offset dirty in its line. -/
def Core.dirtyPad (c : Core) (off : Nat) : Core :=
  match c.regionAt off with
  | none => c
  | some r =>
    let i := off % 4096 / 64
    match r.line i with
    | none => c
    | some l => c.setRegion (r.setLine i (some { l with dirty := if off % 64 < 32 then (true, l.dirty.2) else (l.dirty.1, true) }))

def modCoreAt (c : CoreId) (f : Core → Core) : Act Unit := modify fun s => s.setCore c (f (s.core c))

/-- The region of a core at an offset, as it stands. -/
def State.regionOf (s : State) (c : CoreId) (r : StashRegion) : StashRegion := ((s.core c).regionAt r.offset).getD r

/-- Fills a stash line from a page (R124), TIER 0 only (R90): the whole 64-byte line, its checks carried. -/
def fillAt (c : CoreId) (r : StashRegion) (i : Nat) (m : Mapped) : Act Unit := do
  let ln := m.pa / 64
  if entTier m.leaf != 0 then faultAt Cause.permission (r.lineVa i)
  else
    modify fun s => s.recall ln false (some (coreKey c, r.offset))
    let (b0, x0) ← moveSector (some m.key) (2 * ln)
    let (b1, x1) ← moveSector (some m.key) (2 * ln + 1)
    let off := r.offset + 64 * i
    modify fun s =>
      let k := (((s.core c).putPad off (b0 ++ b1)).markPad (off / 32) x0).markPad (off / 32 + 1) x1
      s.setCore c (k.setRegion ((s.regionOf c r).setLine i (some ⟨64 * ln, (false, false), some m.key, m.level⟩)))

/-- Fills a stash line on first touch (R124): translated like any access. DESIGN CHOICE (log 66): a fault of the fill names the
line's virtual address. -/
def fillLine (c : CoreId) (r : StashRegion) (i : Nat) : Act Unit := do
  fillAt c r i (← translate c.die r.asid (r.lineVa i) .read true)

/-- A line whose leaf has come to name another frame (R127): its dirty sectors go back under the old translation and it is filled from
the new one. -/
def moveLine (c : CoreId) (r : StashRegion) (i : Nat) (l : StashLine) (m : Mapped) : Act Unit := do
  modify fun s => s.writeBackLine (s.core c) r i l
  fillAt c r i m

/-- Makes the line of an offset ready for an access (R124): a plain location needs nothing; a stash line is filled, and a
store translates for write and takes the line from every other stash. -/
def padPrepare (c : CoreId) (off : Nat) (write : Bool) : Act Unit := do
  match ((← get).core c).regionAt off with
  | none => pure ()
  | some r =>
    let i := off % 4096 / 64
    if (r.line i).isNone then fillLine c r i else pure ()
    if write then
      let m ← translate c.die r.asid (r.lineVa i + BitVec.ofNat 64 (off % 64)) .write true
      match ((← get).regionOf c r).line i with
      | some l =>
        if l.pa / 64 != m.pa / 64 then moveLine c r i l m
        else modify fun s => s.setCore c ((s.core c).setRegion ((s.regionOf c r).setLine i (some { l with key := some m.key })))
      | none => pure ()
      modify fun s => s.recall (m.pa / 64) true (some (coreKey c, r.offset))
    else pure ()

/-- The pieces of n bytes from an offset that lie in one sector each. -/
def sectorPieces (off n : Nat) : List (Nat × Nat) :=
  (sectorsOf off n).map fun k =>
    let lo := max off (32 * k)
    (lo, min (off + n) (32 * k + 32) - lo)

/-- A consuming read of n bytes of a scratchpad (R113, R124): integrity fault, with address `va`, where a sector's check
fails. -/
def padRead (c : CoreId) (off n : Nat) (va : BitVec 64) : Act (List Byte) := do
  forEach (sectorPieces off n) fun (o, _) => padPrepare c o false
  let s ← get
  let k := s.core c
  if (sectorsOf off n).any fun x => k.badSp.contains x then faultAt Cause.integrity va
  else return readBytes k.scratch off n

/-- Performs a store of bytes to a scratchpad, its lines ready and its checks done: the sectors become dirty. -/
def Core.storePad (c : Core) (off : Nat) (b : List Byte) : Core :=
  (sectorPieces off b.length).foldl (fun k (o, _) => k.dirtyPad o) (c.putPad off b)

/-- A store of bytes to a scratchpad (R111, R124): a merge into a failing sector is not performed. -/
def padWrite (c : CoreId) (off : Nat) (b : List Byte) (va : BitVec 64) : Act Unit := do
  forEach (sectorPieces off b.length) fun (o, _) => padPrepare c o true
  let s ← get
  let k := s.core c
  let part := partialSectors off b.length
  if part.any fun x => k.badSp.contains x then faultAt Cause.integrity va
  else
    let whole := (sectorsOf off b.length).filter fun x => !part.contains x
    set (s.setCore c (whole.foldl (fun k x => k.markPad x false) (k.storePad off b)))

/-! ### Moves that carry checks on unchanged (R114) -/

/-- The part of n items from a place that begins at another place. -/
def itemsAt {α : Type} (l : List α) (start at' len : Nat) : List α := (l.drop (at' - start)).take len

/-- The bytes that a move takes, each with whether its sector's check fails. -/
abbrev Moved := List (Byte × Bool)

/-- The failing sectors after a write of moved bytes at an offset: a sector written whole takes its check from the bytes, a
sector written in part stays failing. -/
def carry (old : List Nat) (off : Nat) (b : Moved) : List Nat :=
  let part := partialSectors off b.length
  let hit := (sectorsOf off b.length).filter fun k => ((b.drop (32 * k - off)).take (32 * k + 32 - max off (32 * k))).any (·.2)
  (hit.filter fun k => !old.contains k) ++ old.filter fun k => hit.contains k || part.contains k || !(sectorsOf off b.length).contains k

/-- Bytes of a core's scratchpad as a move takes them; the stash lines are filled. -/
def padTake (c : CoreId) (off n : Nat) : Act Moved := do
  forEach (sectorPieces off n) fun (o, _) => padPrepare c o false
  let k := (← get).core c
  return (List.range n).map fun i => (k.scratch.read (off + i), k.badSp.contains ((off + i) / 32))

/-- Places moved bytes in a core's scratchpad; a merge into a sector whose check fails is not performed (R111). -/
def Core.givePad (k : Core) (off : Nat) (b : Moved) : Core :=
  (sectorPieces off b.length).foldl (fun k (o, len) =>
    let x := itemsAt b off o len
    if decide (len < 32) && k.badSp.contains (o / 32) then k
    else { k.storePad o (x.map Prod.fst) with badSp := carry k.badSp o x }) k

def padGive (c : CoreId) (off : Nat) (b : Moved) : Act Unit := do
  forEach (sectorPieces off b.length) fun (o, _) => padPrepare c o true
  modCoreAt c fun k => k.givePad off b

/-- Bytes of memory, within one line, as a move takes them. -/
def memTake (key : Option (BitVec 512)) (pa n : Nat) : Act Moved := do
  modify fun s => s.recallAll pa n false none
  let l ← (sectorPieces pa n).mapM fun (o, len) => do
    let (b, x) ← moveSector key (o / 32)
    return ((b.drop (o % 32)).take len).map fun y => (y, x)
  return l.flatten

/-- Writes moved bytes to memory; a merge into a sector whose check fails, as that of another key does (log 6), is not performed
(R111), and a copy raises no fault for it (R136). -/
def State.memGive (s : State) (key : Option (BitVec 512)) (pa : Nat) (b : Moved) : State :=
  (sectorPieces pa b.length).foldl (fun s (o, len) =>
    let x := itemsAt b pa o len
    if decide (len < 32) && (s.badSectors.contains (o / 32) || s.otherKey key (o / 32)) then s
    else { s.poke key o (x.map Prod.fst) with badSectors := carry s.badSectors o x }) (s.recallAll pa b.length true none)

/-- What R118 decides for the active elements of a scratchpad access, in ascending order. -/
inductive PadPlan where
  /-- Every element passes. -/
  | all
  /-- A later element e is out of range: the elements below it are performed and VL becomes e. -/
  | trim (e : Nat)
  /-- The first element is out of range. -/
  | range (e : Nat)
  /-- Element e is in range and misaligned. -/
  | misaligned (e : Nat)
  deriving DecidableEq, Repr

/-- The examination of R118: range before alignment, the first element that fails decides. -/
def padPlan (s : State) (addr : Nat → Int) (size : Nat) : (first : Bool) → List Nat → PadPlan
  | _, [] => .all
  | first, e :: rest =>
    match s.padRef (addr e) with
    | none => if first then .range e else .trim e
    | some _ => if (addr e).toNat % size != 0 then .misaligned e else padPlan s addr size false rest

/-! ### Removing regions -/

/-- Writes back the dirty sectors of a region (R125) and answers how many. -/
def State.flushRegion (s : State) (c : CoreId) (r : StashRegion) : State × Nat :=
  let k := s.core c
  let s' := r.valid.foldl (fun s (i, l) => s.writeBackLine k r i l) s
  let n := r.valid.foldl (fun n (_, l) => n + l.dirty.1.toNat + l.dirty.2.toNat) 0
  let clean := { r with lines := r.lines.map fun (i, l) => (i, l.map fun x => { x with dirty := (false, false) }) }
  (s'.setCore c ((s'.core c).setRegion clean), n)

/-- Unmaps a region (R128): flushed, removed; lines never filled read zero. DESIGN CHOICE (log 65): so does a line that was filled
and had become invalid. -/
def State.unmapRegion (s : State) (c : CoreId) (r : StashRegion) : State × Nat :=
  let (s, n) := s.flushRegion c r
  let k := s.core c
  let dead := (List.range 64).filter fun i => (r.line i).isNone
  let k := dead.foldl (fun k i => ((k.putPad (r.offset + 64 * i) (List.replicate 64 0)).markPad ((r.offset + 64 * i) / 32) false).markPad ((r.offset + 64 * i) / 32 + 1) false) k
  (s.setCore c { k with stash := k.stash.filter fun x => x.offset != r.offset }, n)

end Sys2Proof.Machine
end

