-- ==== Sys2Proof/Machine/Operands.lean ====
section
/-! DEFINITION. The operands of the X-stream: element access, groups, masks, bound registers, and the template of R26
(R24 to R26, R149, R163, R164, R174, R191). -/

namespace Sys2Proof.Machine

/-! ### Elements of a group (R163, R174) -/

/-- Element e, of width w, of a value (R174). -/
def elemAt (w v e : Nat) : Nat := v / 2 ^ (w * e) % 2 ^ w

/-- The value with element e replaced. -/
def putElem (w v e x : Nat) : Nat :=
  v / 2 ^ (w * (e + 1)) * 2 ^ (w * (e + 1)) + x % 2 ^ w * 2 ^ (w * e) + v % 2 ^ (w * e)

/-- The bits of n registers from r, register r lowest; `wb` is the register width in bits (Table 1.5). -/
def Hart.group (x : Hart) (wb r n : Nat) : Nat :=
  (List.range n).foldr (fun i acc => (x.getV (r + i)).toNat % 2 ^ wb + acc * 2 ^ wb) 0

/-- Writes the bits of n registers from r. -/
def Hart.setGroup (x : Hart) (wb r n v : Nat) : Hart :=
  (List.range n).foldl (fun x i => x.setV (r + i) (BitVec.ofNat 2048 (v / 2 ^ (wb * i) % 2 ^ wb))) x

/-- A mask as the hart has it: L × 128 bits (R162). -/
def State.maskBits (s : State) (m : Nat) : Nat := (s.cur.getM m).toNat % 2 ^ (s.lanes * 128)

/-- The elements from VSTART to VL − 1 whose mask bit is 1 (Active, R25), ascending. -/
def activeList (vstart vl mask : Nat) : List Nat :=
  (List.range vl).filter fun e => decide (vstart ≤ e) && mask.testBit e

/-- N (R163): elements of width w in g registers of the hart in execution. -/
def State.numElems (s : State) (g w : Nat) : Nat := s.lanes * 64 * g / w

/-! ### Bound registers (R149) -/

/-- A vector operand: first register, registers, element width. -/
structure Operand where
  reg : Nat
  n   : Nat
  w   : Nat
  deriving DecidableEq, Repr

/-- The bindings of a hart with their first registers. -/
def Hart.bindings (x : Hart) : List (Nat × Binding) := x.binds.filterMap fun (k, b) => b.map fun y => (k, y)

/-- The operand's registers overlap the binding's. -/
def overlaps (o : Operand) (v : Nat) (b : Binding) : Bool := decide (o.reg < v + b.grp.size) && decide (v < o.reg + o.n)

/-- The operand holds the first register of a binding. -/
def holdsFirst (o : Operand) (v : Nat) : Bool := decide (o.reg ≤ v) && decide (v < o.reg + o.n)

/-- A source operand breaks R149: it reads a later register of a bound group, or a kind-3 register. -/
def badSource (x : Hart) (o : Operand) : Bool :=
  x.bindings.any fun (v, b) => overlaps o v b && (b.kind == 3 || !holdsFirst o v)

/-- A destination operand breaks R149: it writes a register of a binding of kinds 0 to 2, or a later register of a kind-3
group. -/
def badDest (x : Hart) (o : Operand) : Bool :=
  x.bindings.any fun (v, b) => overlaps o v b && (b.kind != 3 || !holdsFirst o v)

/-- The bindings that the sources pop, each once (R15 point 3). -/
def Hart.toPop (x : Hart) (srcs : List Operand) : List (Nat × Binding) :=
  x.bindings.filter fun (v, b) => b.kind != 3 && (srcs.any fun o => overlaps o v b)

/-- The kind-3 bindings that the destinations push to. -/
def Hart.toPush (x : Hart) (dsts : List Operand) : List (Nat × Binding) :=
  x.bindings.filter fun (v, b) => b.kind == 3 && (dsts.any fun o => overlaps o v b)

/-- Pops the oldest entry of a binding into the register's own storage (R149). -/
def Hart.pop (x : Hart) (wb v : Nat) (b : Binding) : Hart :=
  match b.entries with
  | [] => x
  | e :: rest =>
    let x := (x.setBind v (some { b with entries := rest, tag := e.tag, tagWidth := e.width })).setGroup wb v b.grp.size e.data.toNat
    { x with popped := x.popped ++ [v], popBad := x.popBad ++ e.bad.map fun p => (v, { p with regs := b.grp.size }) }

/-- A failed element of an entry popped before a fault is read again at resumption (R341), from the memory or the scratchpad that
it came from, into the group that the entry was popped into. -/
def rereadPiece (wb : Nat) (p : Nat × BadPiece) : Act Unit := do
  let n := (p.2.width + 7) / 8
  match ← tryAct (match p.2.pad with
      | some (c, off) => padRead c off n p.2.va
      | none => do
        let m ← translateCur p.2.va .read
        readPa (some m.key) m.pa n p.2.va) with
  | .error _ => pure ()
  | .ok bs =>
    let raw := leNat bs
    let val := raw / 2 ^ p.2.sh % 2 ^ p.2.width
    modCur fun x =>
      let g := x.group wb p.1 p.2.regs
      let x := x.setGroup wb p.1 p.2.regs (g - g / 2 ^ p.2.bit % 2 ^ p.2.width * 2 ^ p.2.bit + val * 2 ^ p.2.bit)
      { x with popBad := x.popBad.filter (· != p) }

/-- The vector-length trap (R164). -/
def checkLength (n : Nat) : Act Unit := do
  let x ← getCur
  trapIf (decide (n < x.vl.toNat)) Cause.vectorLength

/-- Opens the operands of an instruction (R149): the stream traps, the waits for every entry and place it needs, then the
pops; an entry popped before a fault is not popped again. With VSTART at or above VL nothing is written (R164, R204, R213; log
56), and no place is needed, but by an instruction that `always` writes. -/
def openOperands (srcs dsts : List Operand) (always : Bool := false) : Act Unit := do
  let s ← get
  let x := s.cur
  let wb := s.regBits
  trapIf (srcs.any (badSource x) || dsts.any (badDest x)) Cause.stream
  let pops := (x.toPop srcs).filter fun (v, _) => !x.popped.contains v
  waitFor (pops.all fun (_, b) => !b.entries.isEmpty)
  waitFor ((!always && decide (x.vl.toNat ≤ x.vstart.toNat)) || (x.toPush dsts).all fun (_, b) => decide (b.entries.length < b.depth))
  forEach x.popBad (rereadPiece wb)
  modCur fun x => pops.foldl (fun x (v, b) => x.pop wb v b) x

/-- The value of a source operand. -/
def readOperand (o : Operand) : Act Nat := do
  let s ← get
  return s.cur.group s.regBits o.reg o.n

/-- The value of a destination before the write: zero where a kind-3 binding takes the result (R149), but the elements
already committed when the instruction resumes after a fault. -/
def readDest (o : Operand) (resumed : Bool) : Act Nat := do
  let s ← get
  if (s.cur.toPush [o]).isEmpty || resumed then return s.cur.group s.regBits o.reg o.n else return 0

/-- Writes a destination: into the registers, and, when the instruction is `done`, one entry into the queue of a kind-3 binding
(R149). DESIGN CHOICE (log 93): where the result has fewer registers than the binding's group, the entry takes the others as they stand. -/
def writeDest (o : Operand) (v : Nat) (done : Bool := true) : Act Unit := do
  let s ← get
  let wb := s.regBits
  modCur fun x =>
    let x := x.setGroup wb o.reg o.n v
    (if done then x.toPush [o] else []).foldl (fun x (k, b) =>
      x.setBind k (some { b with entries := b.entries ++ [{ data := BitVec.ofNat 16384 (x.group wb k b.grp.size) }] })) x

/-- Writes the result of an instruction from VSTART up: nothing with VSTART at or above VL (R164, R204; log 56). -/
def writeResult (o : Operand) (v : Nat) (done : Bool := true) : Act Unit := do
  let x ← getCur
  if x.vl.toNat ≤ x.vstart.toNat then pure () else writeDest o v done

/-- The failed piece that element e of the sources holds, if any (R154). -/
def failedPiece (x : Hart) (wb : Nat) (srcs : List Operand) (e : Nat) : Option (Nat × BadPiece) :=
  x.popBad.find? fun (v, p) =>
    srcs.any fun o => holdsFirst o v &&
      (let at' := (v - o.reg) * wb + p.bit
       decide (at' < o.w * (e + 1)) && decide (o.w * e < at' + p.width))

/-- The lowest element of a list whose popped source failed its check (R154), with the address of what failed. -/
def failedElem (x : Hart) (wb : Nat) (srcs : List Operand) (es : List Nat) : Option (Nat × BitVec 64) :=
  es.findSome? fun e => (failedPiece x wb srcs e).map fun p => (e, p.2.va)

/-- The integrity fault of a popped element (R154, R331, R341). -/
def integrityAt (f : Nat × BitVec 64) : TrapInfo := { cause := Cause.integrity, addr := f.2, elem := some f.1 }

/-- Sets VSTAT flags, of an instruction that completes (R168). -/
def raiseFlags (f : Flags) : Act Unit := modCur fun x => { x with vstat := x.vstat ||| f }

/-- Keeps the flags of elements until the instruction completes (R168). -/
def holdFlags (f : Flags) : Act Unit := modCur fun x => { x with pend := x.pend ||| f }

/-- VSTART ← 0 (R26). -/
def clearVstart : Act Unit := modCur fun x => { x with vstart := 0 }

/-- Runs an instruction whole: a stop that names no element leaves everything as it was (R336, class H), but not what was done
before an invalidation (R85). -/
def whole (m : Act Unit) : Act Unit := fun s =>
  match m s with
  | (.error (.trap i), s') => (.error (.trap i), if i.elem.isSome then s' else s)
  | (.error .again, s') => (.error .again, s')
  | (.error e, _) => (.error e, s)
  | r => r

/-- The elements to perform: the active ones, cut at the lowest failed one, which is then the fault (R154, R341). -/
def performList (srcs : List Operand) (mask : Nat) : Act (List Nat × Option (Nat × BitVec 64)) := do
  let s ← get
  let x := s.cur
  let act := activeList x.vstart.toNat x.vl.toNat mask
  match failedElem x s.regBits srcs act with
  | some f => return (act.filter fun e => decide (e < f.1), some f)
  | none => return (act, none)

/-- Ends an element-by-element instruction: VSTART ← 0, or the integrity fault at the failed element. -/
def endElements (bad : Option (Nat × BitVec 64)) : Act Unit :=
  match bad with
  | some f => throw (.trap (integrityAt f))
  | none => clearVstart

/-- The flags of the elements performed: of an instruction that completes, or kept where a failed element stops it (R168). -/
def keepFlags (bad : Option (Nat × BitVec 64)) (f : Flags) : Act Unit := if bad.isSome then holdFlags f else raiseFlags f

/-- For an instruction that does not work element by element: a failed element among those it reads is an integrity fault at that
element (R154, R341). DEDUCED (log 67): it has performed no element, so it restarts with the VSTART that it had. -/
def guardWhole (srcs : List Operand) (es : List Nat) : Act Unit := do
  let s ← get
  let x := s.cur
  match failedElem x s.regBits srcs es with
  | some f =>
    modCur fun x => { x with again := some x.vstart }
    throw (.trap (integrityAt f))
  | none => pure ()

/-- Folds an element function over a list: the new destination value and the flags of every element. -/
def foldElems (w : Nat) (f : Nat → Res) : List Nat → Nat → Flags → Nat × Flags
  | [], v, fl => (v, fl)
  | e :: es, v, fl => let r := f e; foldElems w f es (putElem w v e r.1) (fl ||| r.2)

/-- The template of R26: `n` is the element count, `f` gives element e from the values of the sources and of the
destination. -/
def elementwise (n mask : Nat) (srcs : List Operand) (dst : Operand) (f : List Nat → Nat → Nat → Res) : Act Unit :=
  whole (do
    checkLength n
    let resumed := !(← getCur).popped.isEmpty
    openOperands srcs [dst]
    let (es, bad) ← performList srcs mask
    let vals ← srcs.mapM readOperand
    let old ← readDest dst resumed
    let (v, fl) := foldElems dst.w (f vals old) es old 0
    writeResult dst v bad.isNone
    keepFlags bad fl
    endElements bad)

/-- Writes bit e of a mask value. -/
def putBit (m e : Nat) (b : Bool) : Nat := putElem 1 m e b.toNat

/-- Folds a compare over a list: the new mask value and the flags. -/
def foldBits (f : Nat → Bool × Flags) : List Nat → Nat → Flags → Nat × Flags
  | [], v, fl => (v, fl)
  | e :: es, v, fl => let r := f e; foldBits f es (putBit v e r.1) (fl ||| r.2)

/-- Writes a mask register (R162). -/
def writeMask (m v : Nat) : Act Unit := modCur fun x => x.setM m (BitVec.ofNat 4096 v)

/-- A compare under R26 and R193: bit e of Md for each active element. -/
def elementMask (n mask md : Nat) (srcs : List Operand) (f : List Nat → Nat → Bool × Flags) : Act Unit :=
  whole (do
    checkLength n
    openOperands srcs []
    let (es, bad) ← performList srcs mask
    let vals ← srcs.mapM readOperand
    let s ← get
    let (v, fl) := foldBits (f vals) es (s.cur.getM md).toNat 0
    writeMask md v
    keepFlags bad fl
    endElements bad)

/-- The i-th source value. -/
def val (vals : List Nat) (i : Nat) : Nat := vals.getD i 0

/-! ### The page-sorting unit (R86) -/

/-- The fault of an element, for the instruction: a violation names none (Table 24.1, class H). -/
def faultOf (e : Nat) (i : TrapInfo) : TrapInfo := if i.cause = Cause.violation then i else { i with elem := some e }

/-- What the page-sorting unit gives an element: its place, its fault, or nothing yet, where an invalidation reached the core before
its page was translated (R85). -/
inductive Place (α : Type) where
  | at' (a : α)
  | fault (i : TrapInfo)
  | later

def Place.map {α β : Type} (f : α → β) : Place α → Place β
  | .at' a => .at' (f a)
  | .fault i => .fault i
  | .later => .later

def Place.of {α : Type} : Except TrapInfo α → Place α
  | .ok a => .at' a
  | .error i => .fault i

/-- Sorts one element at an exact address into the pages translated so far: the address must be canonical and a multiple of n (R70,
R87), and its page is translated once (R86), whether it faults or not. -/
def sortOne (pages : List Page) (g : Int) (n : Nat) (k : AccessKind) : Act (Place Mapped × List Page) := do
  let va := vaOfInt g
  if !canonicalInt g then return (.fault { cause := Cause.nonCanonical, addr := va }, pages)
  else if va.toNat % n != 0 then return (.fault { cause := Cause.misalignment, addr := va }, pages)
  else match pageOf pages va with
  | some p => return (Place.of (← tryAct (p.map va)), pages)
  | none =>
    let s ← get
    if s.upto.any fun b => decide (b ≤ pages.length) then return (.later, pages)
    else
      let p ← translatePage s.curHart.die s.cur.asid k true va
      return (Place.of (← tryAct (p.map va)), pages ++ [p])

/-- Runs an instruction whose translations an invalidation cannot come between. -/
def allPages {α : Type} (m : Act α) : Act α := fun s =>
  let r := m { s with upto := none }
  (r.1, { r.2 with upto := s.upto })

/-- What the page-sorting unit gives each element of an access. -/
abbrev Sorted (α : Type) := List (Nat × Place α)

/-- Translates the pages of every element before any is accessed (R86); `addr` gives an element's exact address. -/
def sortPages (addr : Nat → Int) (n : Nat) (k : AccessKind) : List Page → List Nat → Act (Sorted Mapped)
  | _, [] => pure []
  | pages, e :: es => do
    let (r, pages) ← sortOne pages (addr e) n k
    return (e, r) :: (← sortPages addr n k pages es)

/-- Why an access does not go on with its elements: the fault of one, or an invalidation that came before one was translated. -/
inductive Halt where
  | fault (i : TrapInfo)
  | later (e : Nat)

/-- The elements that are translated below the first that faults, and its fault; where an element below it is not yet translated, that
element in place of the fault (R85, R86), but for a violation. -/
def passing {α : Type} : Sorted α → List (Nat × α) × Option Halt
  | [] => ([], none)
  | (e, .fault i) :: _ => ([], some (.fault (faultOf e i)))
  | (e, .at' m) :: rest => let r := passing rest; ((e, m) :: r.1, r.2)
  | (e, .later) :: rest =>
    let r := passing rest
    (r.1, match r.2 with
      | some (.fault i) => if i.cause = Cause.violation then r.2 else some (.later e)
      | _ => some (.later e))

/-- The elements of an access that may be performed and what stops the others (R86). A violation ends the instruction with nothing
performed (Table 24.1, class H). -/
def passed {α : Type} (l : Sorted α) : Act (List (Nat × α) × Option Halt) := do
  let r := passing l
  match r.2 with
  | some (.fault i) => if i.cause = Cause.violation then throw (.trap i) else return r
  | _ => return r

/-- Translates the pages of the elements of an access, then decides which may be performed. -/
def prepass (addr : Nat → Int) (n : Nat) (k : AccessKind) (es : List Nat) : Act (List (Nat × Mapped) × Option Halt) := do
  passed (← sortPages addr n k [] es)

/-- Ends an access that an invalidation stopped: VSTART records the lowest element not yet translated, and those above it that are
performed are not performed again (R85). The hart takes no trap. -/
def goOnLater (e : Nat) (es : List Nat) : Act Unit := do
  modCur fun x => { x with vstart := BitVec.ofNat 13 e, done := (x.done ++ es).filter fun k => decide (e ≤ k) }
  throw .again

/-- What an access ends with when its elements are performed. -/
def endAccess (h : Option Halt) (es : List Nat) : Act Unit :=
  match h with
  | some (.fault i) => throw (.trap i)
  | some (.later e) => goOnLater e es
  | none => pure ()

/-- Performs the elements that passed, then stops as the others make it (Fault, R25). -/
def perform {β : Type} (f : Nat → β → Act Unit) (l : List (Nat × β)) (h : Option Halt) : Act Unit := do
  forEach l fun (e, b) => atElem e (f e b)
  endAccess h (l.map Prod.fst)

/-- The fault that an element-by-element instruction ends with: the access's, or the failed element of a popped entry (R154). -/
def endFault (fault : Option TrapInfo) (bad : Option (Nat × BitVec 64)) : Option TrapInfo :=
  match fault with
  | some i => some i
  | none => bad.map integrityAt

/-- The elements of an access below a failed element of a popped entry (R154), and what stops the others: what is already found at an
element up to it, or its integrity fault. -/
def belowBad {α : Type} (bad : Option (Nat × BitVec 64)) (r : List (Nat × α) × Option Halt) : List (Nat × α) × Option Halt :=
  match bad with
  | none => r
  | some f =>
    let first : Bool := match r.2 with
      | some (.fault i) => decide (i.elem.getD 0 ≤ f.1)
      | some (.later e) => decide (e ≤ f.1)
      | none => false
    (r.1.filter fun x => decide (x.1 < f.1), if first then r.2 else some (.fault (integrityAt f)))

/-- The active elements that the instruction has not performed, and the lowest of them that failed its check on the way in (R85,
R154). -/
def remaining (srcs : List Operand) (mask : Nat) : Act (List Nat × Option (Nat × BitVec 64)) := do
  let s ← get
  let x := s.cur
  let act := (activeList x.vstart.toNat x.vl.toNat mask).filter fun e => !x.done.contains e
  return (act, failedElem x s.regBits srcs act)

end Sys2Proof.Machine
end

