-- ==== Sys2Proof/Machine/Scalar.lean ====
section
/-! DEFINITION. The scalar integer families, majors 0x04, 0x05 (arithmetic), 0x06 (R286, R287). -/

namespace Sys2Proof.Machine

/-- The results of Table 20.3; a and b are the source registers. -/
def sllW (a b : BitVec 64) : BitVec 64 := a <<< (b.toNat % 64)
def srlW (a b : BitVec 64) : BitVec 64 := a >>> (b.toNat % 64)
def sraW (a b : BitVec 64) : BitVec 64 := a.sshiftRight (b.toNat % 64)
def mulhW (a b : BitVec 64) : BitVec 64 := BitVec.ofInt 64 (a.toInt * b.toInt / 2 ^ 64)
def mulhnW (a b : BitVec 64) : BitVec 64 := BitVec.ofNat 64 (a.toNat * b.toNat / 2 ^ 64)
def divW (a b : BitVec 64) : BitVec 64 := if b = 0 then BitVec.ofInt 64 (-1) else BitVec.ofInt 64 (a.toInt.tdiv b.toInt)
def divnW (a b : BitVec 64) : BitVec 64 := if b = 0 then BitVec.allOnes 64 else BitVec.ofNat 64 (a.toNat / b.toNat)
def remW (a b : BitVec 64) : BitVec 64 := if b = 0 then a else BitVec.ofInt 64 (a.toInt - b.toInt * a.toInt.tdiv b.toInt)
def remnW (a b : BitVec 64) : BitVec 64 := if b = 0 then a else BitVec.ofNat 64 (a.toNat % b.toNat)
def minW (a b : BitVec 64) : BitVec 64 := if a.toInt ≤ b.toInt then a else b
def maxW (a b : BitVec 64) : BitVec 64 := if a.toInt ≤ b.toInt then b else a
def minnW (a b : BitVec 64) : BitVec 64 := if a.toNat ≤ b.toNat then a else b
def maxnW (a b : BitVec 64) : BitVec 64 := if a.toNat ≤ b.toNat then b else a
def sltW (a b : BitVec 64) : BitVec 64 := if a.toInt < b.toInt then 1 else 0
def sltnW (a b : BitVec 64) : BitVec 64 := if a.toNat < b.toNat then 1 else 0

/-- Leading zeros and ones of the low n bits. -/
def clzBits (v : Nat) : Nat → Nat
  | 0 => 0
  | n + 1 => if v.testBit n then 0 else 1 + clzBits v n
def popBits (v : Nat) : Nat → Nat
  | 0 => 0
  | n + 1 => (if v.testBit n then 1 else 0) + popBits v n
def clzW (a : BitVec 64) : BitVec 64 := BitVec.ofNat 64 (clzBits a.toNat 64)
def popcW (a : BitVec 64) : BitVec 64 := BitVec.ofNat 64 (popBits a.toNat 64)

/-- A register–register instruction (R286): d gets f of the two sources, and the stream goes on. -/
def scalarRR (f : BitVec 64 → BitVec 64 → BitVec 64) (o : HT16R) (s : State) : Host.Outcome State Fault Refusal :=
  .next (s.setR o.d (f (s.getR o.a) (s.getR o.b))).complete

/-- A one-source instruction (R286). -/
def scalarR (f : BitVec 64 → BitVec 64) (o : HT16R) (s : State) : Host.Outcome State Fault Refusal :=
  .next (s.setR o.d (f (s.getR o.a))).complete

/-- A register–immediate instruction (R287): the immediate is sign-extended. -/
def scalarRI (f : BitVec 64 → BitVec 64 → BitVec 64) (o : HT32I) (s : State) : Host.Outcome State Fault Refusal :=
  .next (s.setR o.d (f (s.getR o.a) (o.imm.signExtend 64))).complete

def execAdd (o : HT16R) (s : State) : Host.Outcome State Fault Refusal := scalarRR (· + ·) o s
def execSub (o : HT16R) (s : State) : Host.Outcome State Fault Refusal := scalarRR (· - ·) o s
def execAnd (o : HT16R) (s : State) : Host.Outcome State Fault Refusal := scalarRR (· &&& ·) o s
def execOr (o : HT16R) (s : State) : Host.Outcome State Fault Refusal := scalarRR (· ||| ·) o s
def execXor (o : HT16R) (s : State) : Host.Outcome State Fault Refusal := scalarRR (· ^^^ ·) o s
def execSll (o : HT16R) (s : State) : Host.Outcome State Fault Refusal := scalarRR sllW o s
def execSrl (o : HT16R) (s : State) : Host.Outcome State Fault Refusal := scalarRR srlW o s
def execSra (o : HT16R) (s : State) : Host.Outcome State Fault Refusal := scalarRR sraW o s
def execMul (o : HT16R) (s : State) : Host.Outcome State Fault Refusal := scalarRR (· * ·) o s
def execMulh (o : HT16R) (s : State) : Host.Outcome State Fault Refusal := scalarRR mulhW o s
def execMulhn (o : HT16R) (s : State) : Host.Outcome State Fault Refusal := scalarRR mulhnW o s
def execDiv (o : HT16R) (s : State) : Host.Outcome State Fault Refusal := scalarRR divW o s
def execDivn (o : HT16R) (s : State) : Host.Outcome State Fault Refusal := scalarRR divnW o s
def execRem (o : HT16R) (s : State) : Host.Outcome State Fault Refusal := scalarRR remW o s
def execRemn (o : HT16R) (s : State) : Host.Outcome State Fault Refusal := scalarRR remnW o s
def execMin (o : HT16R) (s : State) : Host.Outcome State Fault Refusal := scalarRR minW o s
def execMax (o : HT16R) (s : State) : Host.Outcome State Fault Refusal := scalarRR maxW o s
def execMinn (o : HT16R) (s : State) : Host.Outcome State Fault Refusal := scalarRR minnW o s
def execMaxn (o : HT16R) (s : State) : Host.Outcome State Fault Refusal := scalarRR maxnW o s
def execSlt (o : HT16R) (s : State) : Host.Outcome State Fault Refusal := scalarRR sltW o s
def execSltn (o : HT16R) (s : State) : Host.Outcome State Fault Refusal := scalarRR sltnW o s
def execMov (o : HT16R) (s : State) : Host.Outcome State Fault Refusal := scalarR id o s
def execClz (o : HT16R) (s : State) : Host.Outcome State Fault Refusal := scalarR clzW o s
def execPopc (o : HT16R) (s : State) : Host.Outcome State Fault Refusal := scalarR popcW o s
def execAddi (o : HT32I) (s : State) : Host.Outcome State Fault Refusal := scalarRI (· + ·) o s
def execAndi (o : HT32I) (s : State) : Host.Outcome State Fault Refusal := scalarRI (· &&& ·) o s
def execOri (o : HT32I) (s : State) : Host.Outcome State Fault Refusal := scalarRI (· ||| ·) o s
def execXori (o : HT32I) (s : State) : Host.Outcome State Fault Refusal := scalarRI (· ^^^ ·) o s
def execSlli (o : HT32I) (s : State) : Host.Outcome State Fault Refusal := scalarRI sllW o s
def execSrli (o : HT32I) (s : State) : Host.Outcome State Fault Refusal := scalarRI srlW o s
def execSrai (o : HT32I) (s : State) : Host.Outcome State Fault Refusal := scalarRI sraW o s

/-- LIMM (R287). -/
def execLimm (o : HT48I) (s : State) : Host.Outcome State Fault Refusal :=
  .next (s.setR o.d (o.imm.signExtend 64)).complete

end Sys2Proof.Machine
end

