-- ==== Sys2Proof/Machine/VecInt.lean ====
section
/-! DEFINITION. The integer and logic family, major 0x10, and the masks, major 0x0F (R192, R193, R209). -/

namespace Sys2Proof.Machine

/-- The mask value that governs an instruction. -/
def govMask (m : Fin 8) : Act Nat := do return (← get).maskBits m.val

/-- The number of elements of format f in the group (R163). -/
def countOf (g : Group) (f : Fmt) : Act Nat := do return (← get).numElems g.size f.width

/-- The three operands of an HT32.V instruction whose operands all have the width of its format. -/
def srcA (o : HT32V) : Operand := ⟨o.a.val, o.group.size, o.fmt.width⟩
def srcB (o : HT32V) : Operand := ⟨o.b.val, o.group.size, o.fmt.width⟩
def dstD (o : HT32V) : Operand := ⟨o.d.val, o.group.size, o.fmt.width⟩

/-- A two-source integer row of Table 13.1; `g` maps the encodings of a, b and the old destination to the result. -/
def vecBin (g : Fmt → Nat → Nat → Nat → Res) (o : HT32V) (s : State) : Host.Outcome State Fault Refusal :=
  finish (do
    let n ← countOf o.group o.fmt
    let m ← govMask o.mask
    let w := o.fmt.width
    elementwise n m [srcA o, srcB o] (dstD o) fun vs old e => g o.fmt (elemAt w (val vs 0) e) (elemAt w (val vs 1) e) (elemAt w old e)) s

/-- A one-source row. -/
def vecUn (g : Fmt → Nat → Res) (o : HT32V) (s : State) : Host.Outcome State Fault Refusal :=
  finish (do
    let n ← countOf o.group o.fmt
    let m ← govMask o.mask
    let w := o.fmt.width
    elementwise n m [srcA o] (dstD o) fun vs _ e => g o.fmt (elemAt w (val vs 0) e)) s

/-- A row that wraps an exact integer result. -/
def wrapBin (h : Int → Int → Int) (f : Fmt) (a b _d : Nat) : Res := (wrapI f (h (decodeI f a) (decodeI f b)), 0)
def satBin (h : Int → Int → Int) (f : Fmt) (a b _d : Nat) : Res := satI f (h (decodeI f a) (decodeI f b))

/-- Left rotation of n bits. -/
def rotl (n a s : Nat) : Nat := (a * 2 ^ s + a / 2 ^ (n - s)) % 2 ^ n

def execVadd (o : HT32V) (s : State) : Host.Outcome State Fault Refusal := vecBin (wrapBin (· + ·)) o s
def execVsub (o : HT32V) (s : State) : Host.Outcome State Fault Refusal := vecBin (wrapBin (· - ·)) o s
def execVmul (o : HT32V) (s : State) : Host.Outcome State Fault Refusal := vecBin (wrapBin (· * ·)) o s
def execVmulh (o : HT32V) (s : State) : Host.Outcome State Fault Refusal :=
  vecBin (fun f a b _ => (wrapI f (decodeI f a * decodeI f b / 2 ^ f.width), 0)) o s
/-- VMACC reads Vd as a third source, which a binding may not hold (R149): a bound Vd is written, and traps. -/
def execVmacc (o : HT32V) (s : State) : Host.Outcome State Fault Refusal :=
  finish (do
    let n ← countOf o.group o.fmt
    let m ← govMask o.mask
    let w := o.fmt.width
    elementwise n m [srcA o, srcB o, dstD o] (dstD o) fun vs _ e =>
      (wrapI o.fmt (decodeI o.fmt (elemAt w (val vs 2) e) + decodeI o.fmt (elemAt w (val vs 0) e) * decodeI o.fmt (elemAt w (val vs 1) e)), 0)) s
def execVadds (o : HT32V) (s : State) : Host.Outcome State Fault Refusal := vecBin (satBin (· + ·)) o s
def execVsubs (o : HT32V) (s : State) : Host.Outcome State Fault Refusal := vecBin (satBin (· - ·)) o s
def execVavg (o : HT32V) (s : State) : Host.Outcome State Fault Refusal := vecBin (wrapBin fun a b => (a + b + 1) / 2) o s
def execVabs (o : HT32V) (s : State) : Host.Outcome State Fault Refusal := vecUn (fun f a => (wrapI f (decodeI f a).natAbs, 0)) o s
def execVneg (o : HT32V) (s : State) : Host.Outcome State Fault Refusal := vecUn (fun f a => (wrapI f (-decodeI f a), 0)) o s
def execVmin (o : HT32V) (s : State) : Host.Outcome State Fault Refusal := vecBin (wrapBin fun a b => min a b) o s
def execVmax (o : HT32V) (s : State) : Host.Outcome State Fault Refusal := vecBin (wrapBin fun a b => max a b) o s
def execVand (o : HT32V) (s : State) : Host.Outcome State Fault Refusal := vecBin (fun _ a b _ => (a &&& b, 0)) o s
def execVor (o : HT32V) (s : State) : Host.Outcome State Fault Refusal := vecBin (fun _ a b _ => (a ||| b, 0)) o s
def execVxor (o : HT32V) (s : State) : Host.Outcome State Fault Refusal := vecBin (fun _ a b _ => (a ^^^ b, 0)) o s
def execVnot (o : HT32V) (s : State) : Host.Outcome State Fault Refusal := vecUn (fun f a => (2 ^ f.width - 1 - a, 0)) o s
def execVsll (o : HT32V) (s : State) : Host.Outcome State Fault Refusal :=
  vecBin (fun f a b _ => (a * 2 ^ (b % f.width) % 2 ^ f.width, 0)) o s
def execVsrl (o : HT32V) (s : State) : Host.Outcome State Fault Refusal := vecBin (fun f a b _ => (a / 2 ^ (b % f.width), 0)) o s
def execVsra (o : HT32V) (s : State) : Host.Outcome State Fault Refusal :=
  vecBin (fun f a b _ => (wrapI f ((BitVec.ofNat f.width a).toInt / 2 ^ (b % f.width)), 0)) o s
def execVrot (o : HT32V) (s : State) : Host.Outcome State Fault Refusal := vecBin (fun f a b _ => (rotl f.width a (b % f.width), 0)) o s

/-- VCMP of the integer family (R193). -/
def vecCmp (g : Int → Int → Bool) (o : HT32V) (s : State) : Host.Outcome State Fault Refusal :=
  finish (do
    let n ← countOf o.group o.fmt
    let m ← govMask o.mask
    let w := o.fmt.width
    elementMask n m o.d.val [srcA o, srcB o] fun vs e => (g (decodeI o.fmt (elemAt w (val vs 0) e)) (decodeI o.fmt (elemAt w (val vs 1) e)), 0)) s

def execVcmpEqInt (o : HT32V) (s : State) : Host.Outcome State Fault Refusal := vecCmp (fun a b => decide (a = b)) o s
def execVcmpNeInt (o : HT32V) (s : State) : Host.Outcome State Fault Refusal := vecCmp (fun a b => decide (a ≠ b)) o s
def execVcmpLtInt (o : HT32V) (s : State) : Host.Outcome State Fault Refusal := vecCmp (fun a b => decide (a < b)) o s
def execVcmpGeInt (o : HT32V) (s : State) : Host.Outcome State Fault Refusal := vecCmp (fun a b => decide (b ≤ a)) o s

/-- VSEL (R193): the mask selects and does not govern. -/
def execVsel (o : HT32V) (s : State) : Host.Outcome State Fault Refusal :=
  finish (do
    let n ← countOf o.group o.fmt
    let m ← govMask o.mask
    let w := o.fmt.width
    elementwise n (2 ^ 4096 - 1) [srcA o, srcB o] (dstD o) fun vs _ e =>
      (if m.testBit e then elemAt w (val vs 0) e else elemAt w (val vs 1) e, 0)) s

/-! ### Masks (R209): whole mask registers; VSTART is left -/

/-- A mask instruction of two sources. -/
def maskBin (g : Wide → Wide → Wide) (o : HT16K) (s : State) : Host.Outcome State Fault Refusal :=
  .next (s.setCur (s.cur.setM o.md.val (g (s.cur.getM o.ma.val) (s.cur.getM o.mb.val)))).complete

def execMand (o : HT16K) (s : State) : Host.Outcome State Fault Refusal := maskBin (· &&& ·) o s
def execMor (o : HT16K) (s : State) : Host.Outcome State Fault Refusal := maskBin (· ||| ·) o s
def execMxor (o : HT16K) (s : State) : Host.Outcome State Fault Refusal := maskBin (· ^^^ ·) o s
def execMnot (o : HT16K) (s : State) : Host.Outcome State Fault Refusal := maskBin (fun a _ => ~~~ a) o s

/-- MPOPC: the 1 bits among bits 0 to VL − 1. -/
def execMpopc (o : HT16K) (s : State) : Host.Outcome State Fault Refusal :=
  .next (s.setR o.s (BitVec.ofNat 64 (popBits (s.maskBits o.ma.val) s.cur.vl.toNat))).complete

/-- The lowest 1 bit among the low n, or none. -/
def lowestBit (v n : Nat) : Option Nat := (List.range n).find? fun e => v.testBit e

/-- MFIRST: the lowest set bit below VL, or −1. -/
def execMfirst (o : HT16K) (s : State) : Host.Outcome State Fault Refusal :=
  .next (s.setR o.s (match lowestBit (s.maskBits o.ma.val) s.cur.vl.toNat with
    | some e => BitVec.ofNat 64 e
    | none => BitVec.ofInt 64 (-1))).complete

/-- MSET: bit e is 1 where e is below Ss. -/
def execMset (o : HT16K) (s : State) : Host.Outcome State Fault Refusal :=
  .next (s.setCur (s.cur.setM o.md.val (BitVec.ofNat 4096 (2 ^ min 4096 (s.getR o.s).toNat - 1)))).complete

end Sys2Proof.Machine
end

