-- ==== Sys2Proof/Machine/VecFloat.lean ====
section
/-! DEFINITION. The floating family, major 0x11 (R194 to R196). -/

namespace Sys2Proof.Machine

/-- Operands of an HT48.V instruction, all of one width. -/
def fA (o : HT48V) : Operand := ⟨o.a.val, o.group.size, o.fs.width⟩
def fB (o : HT48V) : Operand := ⟨o.b.val, o.group.size, o.fs.width⟩
def fC (o : HT48V) : Operand := ⟨o.c.val, o.group.size, o.fs.width⟩
def fD (o : HT48V) : Operand := ⟨o.d.val, o.group.size, o.fd.width⟩

/-- A floating row of Table 13.2 over its sources; `g` takes the format, mode, sat, FTZ and the encodings. -/
def vecFloat (srcs : List Operand) (g : Fmt → Rm → Bool → Bool → List Nat → Res) (o : HT48V) (s : State) : Host.Outcome State Fault Refusal :=
  finish (do
    let n ← countOf o.group o.fs
    let m ← govMask o.mask
    let ftz := (← getCur).ftz
    elementwise n m srcs (fD o) fun vs _ e => g o.fs o.rm o.sat ftz (vs.map fun v => elemAt o.fs.width v e)) s

/-- The decoded operands as the arithmetic reads them. -/
def vecF1 (g : Fmt → Rm → Bool → Bool → FVal → Res) (o : HT48V) (s : State) : Host.Outcome State Fault Refusal :=
  vecFloat [fA o] (fun f rm sat ftz vs => g f rm sat ftz (readF f ftz (val vs 0))) o s
def vecF2 (g : Fmt → Rm → Bool → Bool → FVal → FVal → Res) (o : HT48V) (s : State) : Host.Outcome State Fault Refusal :=
  vecFloat [fA o, fB o] (fun f rm sat ftz vs => g f rm sat ftz (readF f ftz (val vs 0)) (readF f ftz (val vs 1))) o s
def vecF3 (g : Fmt → Rm → Bool → Bool → FVal → FVal → FVal → Res) (o : HT48V) (s : State) : Host.Outcome State Fault Refusal :=
  vecFloat [fA o, fB o, fC o] (fun f rm sat ftz vs => g f rm sat ftz (readF f ftz (val vs 0)) (readF f ftz (val vs 1)) (readF f ftz (val vs 2))) o s

def execVfadd (o : HT48V) (s : State) : Host.Outcome State Fault Refusal := vecF2 addF o s
def execVfsub (o : HT48V) (s : State) : Host.Outcome State Fault Refusal := vecF2 (fun f rm sat ftz a b => addF f rm sat ftz a b.neg) o s
def execVfmul (o : HT48V) (s : State) : Host.Outcome State Fault Refusal := vecF2 mulF o s
def execVfma (o : HT48V) (s : State) : Host.Outcome State Fault Refusal := vecF3 fmaF o s
def execVfms (o : HT48V) (s : State) : Host.Outcome State Fault Refusal := vecF3 (fun f rm sat ftz a b c => fmaF f rm sat ftz a b c.neg) o s
def execVfnma (o : HT48V) (s : State) : Host.Outcome State Fault Refusal := vecF3 (fun f rm sat ftz a b c => fmaF f rm sat ftz a.neg b c) o s
def execVfdiv (o : HT48V) (s : State) : Host.Outcome State Fault Refusal := vecF2 divF o s
def execVfsqrt (o : HT48V) (s : State) : Host.Outcome State Fault Refusal := vecF1 sqrtF o s
def execVfrcp (o : HT48V) (s : State) : Host.Outcome State Fault Refusal := vecF1 (fun f _ sat ftz a => rcpF f sat ftz a) o s
def execVfrsq (o : HT48V) (s : State) : Host.Outcome State Fault Refusal := vecF1 (fun f _ sat ftz a => rsqF f sat ftz a) o s
def execVfexp2 (o : HT48V) (s : State) : Host.Outcome State Fault Refusal := vecF1 (fun f _ sat ftz a => exp2F f sat ftz a) o s
def execVflog2 (o : HT48V) (s : State) : Host.Outcome State Fault Refusal := vecF1 (fun f _ sat ftz a => log2F f sat ftz a) o s
def execVfmin (o : HT48V) (s : State) : Host.Outcome State Fault Refusal := vecF2 (fun f _ _ _ a b => minmaxF f false a b) o s
def execVfmax (o : HT48V) (s : State) : Host.Outcome State Fault Refusal := vecF2 (fun f _ _ _ a b => minmaxF f true a b) o s

/-- VFABS and VFNEG change only the sign bit; a NaN gives the canonical NaN, and no flag is raised (R195). -/
def signOp (g : Fmt → Nat → Nat) (f : Fmt) (x : Nat) : Res := (if (decodeF f x).isNan then canonicalNaN f else g f x, 0)

def execVfabs (o : HT48V) (s : State) : Host.Outcome State Fault Refusal :=
  vecFloat [fA o] (fun f _ _ _ vs => signOp (fun f x => x % 2 ^ (f.width - 1)) f (val vs 0)) o s
def execVfneg (o : HT48V) (s : State) : Host.Outcome State Fault Refusal :=
  vecFloat [fA o] (fun f _ _ _ vs => signOp (fun f x => x ^^^ 2 ^ (f.width - 1)) f (val vs 0)) o s

/-- VFCLASS (R196): one bit of Table 13.3. -/
def execVfclass (o : HT48V) (s : State) : Host.Outcome State Fault Refusal :=
  vecFloat [fA o] (fun f _ _ ftz vs => (2 ^ classBit f (readF f ftz (val vs 0)), 0)) o s

/-- VCMP of the floating family (R193, R195). -/
def vecFCmp (c : FCmp) (o : HT48V) (s : State) : Host.Outcome State Fault Refusal :=
  finish (do
    let n ← countOf o.group o.fs
    let m ← govMask o.mask
    let ftz := (← getCur).ftz
    let w := o.fs.width
    elementMask n m o.d.val [fA o, fB o] fun vs e => cmpF c (readF o.fs ftz (elemAt w (val vs 0) e)) (readF o.fs ftz (elemAt w (val vs 1) e))) s

def execVcmpEqFp (o : HT48V) (s : State) : Host.Outcome State Fault Refusal := vecFCmp .eq o s
def execVcmpNeFp (o : HT48V) (s : State) : Host.Outcome State Fault Refusal := vecFCmp .ne o s
def execVcmpLtFp (o : HT48V) (s : State) : Host.Outcome State Fault Refusal := vecFCmp .lt o s
def execVcmpGeFp (o : HT48V) (s : State) : Host.Outcome State Fault Refusal := vecFCmp .ge o s

end Sys2Proof.Machine
end

