-- ==== Sys2Proof/Machine/Quant.lean ====
section
/-! DEFINITION. Conversion and quantisation, major 0x12 (R197 to R202). -/

namespace Sys2Proof.Machine

/-- The operand of a format when the group counts the wider of two formats (R191). -/
def mixedOperand (r : Nat) (g : Group) (f wide : Fmt) : Operand := ⟨r, narrowRegs g f wide, f.width⟩

/-- VCVT (R197). -/
def execVcvt (o : HT48V) (s : State) : Host.Outcome State Fault Refusal :=
  finish (do
    let wd := wider o.fd o.fs
    let n ← countOf o.group wd
    let m ← govMask o.mask
    elementwise n m [mixedOperand o.a.val o.group o.fs wd] (mixedOperand o.d.val o.group o.fd wd) fun vs _ e =>
      convert o.fs o.fd o.rm o.sat (elemAt o.fs.width (val vs 0) e)) s

/-- The quantise maximum Mq of a narrow format, as significand and exponent (R198). -/
def quantMax : Fmt → Nat
  | .fp8a => 448
  | .fp8b => 57344
  | .fp4 => 6
  | .i8 => 127
  | _ => 7

/-- The margin code of a narrow format (Table 12.4). -/
def marginCode : Fmt → Nat
  | .fp4 | .i4 => 8
  | _ => 0x80

/-- The rank of an element in the election (R198): NaNs, then infinities, then finite values by descending magnitude, the lower
index first: whether element i with value a comes before element j with value b. -/
def ranksBefore (i : Nat) (a : FVal) (j : Nat) (b : FVal) : Bool :=
  match a, b with
  | .nan _, .nan _ => decide (i < j)
  | .nan _, _ => true
  | _, .nan _ => false
  | .inf _, .inf _ => decide (i < j)
  | .inf _, _ => true
  | _, .inf _ => false
  | .fin _ m e, .fin _ n k => magLt n k m e || (!magLt m e n k && decide (i < j))

/-- Inserts an element into a ranking. -/
def rankInsert (i : Nat) (a : FVal) : List (Nat × FVal) → List (Nat × FVal)
  | [] => [(i, a)]
  | (j, b) :: rest => if ranksBefore i a j b then (i, a) :: (j, b) :: rest else (j, b) :: rankInsert i a rest

/-- The k-sets of all election blocks of 128 elements over the active elements (R198), as element indices. -/
def elected (k : Nat) (act : List (Nat × FVal)) : List Nat :=
  (List.range 32).flatMap fun b =>
    let blk := act.filter fun x => x.1 / 128 == b
    ((blk.foldl (fun r x => rankInsert x.1 x.2 r) []).take k).map Prod.fst

/-- k from its scalar register, or the quantise-operand trap (R198). -/
def electCount (r : Fin 64) : Act Nat := do
  let x ← getCur
  let w := x.getS r.val
  trapIf (decide (8 < w.toNat)) Cause.quantise
  return w.toNat

/-- Elements of a scale block (R198): 128, or 32 under .B32. -/
def blockSize (var : Fin 4) : Nat := if var = 1 then 32 else 128

/-- The smallest scale b with amax ≤ Mq × 2^(b − 127), 254 if none (R199), counted down from 254. -/
def scaleFor (q : Fmt) (m : Nat) (e : Int) : (b : Nat) → Nat
  | 0 => 0
  | b + 1 => if magLt (quantMax q) ((b : Int) - 127) m e then b + 1 else scaleFor q m e b

/-- The scale of one block from the elements left outside the k-sets, with its flags (R199). -/
def blockScale (q : Fmt) (xs : List FVal) : Res :=
  if xs.any fun v => match v with | .fin _ _ _ => false | _ => true then (0xFF, flagNV)
  else
    let amax := xs.foldl (fun (acc : Nat × Int) v => match v with | .fin _ m e => if magLt acc.1 acc.2 m e then (m, e) else acc | _ => acc) (0, 0)
    if amax.1 = 0 then (127, 0) else (scaleFor q amax.1 amax.2 254, 0)

/-- The active elements of a wide operand with their values. -/
def activeVals (f : Fmt) (v : Nat) (act : List Nat) : List (Nat × FVal) := act.map fun e => (e, decodeF f (elemAt f.width v e))

/-- VSCALE (R199). -/
def execVscale (o : HT48V) (s : State) : Host.Outcome State Fault Refusal :=
  finish (whole (do
    let n ← countOf o.group o.fs
    checkLength n
    let mask ← govMask o.mask
    let k ← electCount o.c
    let src : Operand := ⟨o.a.val, o.group.size, o.fs.width⟩
    let dst : Operand := ⟨o.d.val, 1, 8⟩
    openOperands [src] [dst]
    let x ← getCur
    let act := activeList x.vstart.toNat x.vl.toNat mask
    guardWhole [src] act
    let xs := activeVals o.fs (← readOperand src) act
    let el := elected k xs
    let bs := blockSize o.var
    let old ← readDest dst false
    let blocks := (List.range 128).filter fun j => act.any fun e => e / bs == j
    let (v, fl) := foldElems 8 (fun j => blockScale o.fd ((xs.filter fun y => y.1 / bs == j && !el.contains y.1).map Prod.snd)) blocks old 0
    writeResult dst v
    raiseFlags fl
    clearVstart)) s

/-- An exact value divided by 2^(b − 127), the scale b (R175). -/
def divScale (v : FVal) (b : Nat) : FVal :=
  match v with
  | .fin n m e => .fin n m (e - ((b : Int) - 127))
  | v => v

/-- Q (R200): rounds to the narrow format; the integer formats clamp to ±Mq whatever sat is. -/
def quantise (q : Fmt) (rm : Rm) (sat : Bool) (v : FVal) : Res :=
  if isFloat q then
    match v with
    | .nan s => nanTo q s
    | .inf neg => infTo q rm sat neg
    | .fin n m e => dropNegZero q (roundF q rm sat false ⟨n, m, e, false⟩)
  else
    match v with
    | .nan _ => (0, flagNV)
    | .inf neg => (wrapI q (if neg then -(quantMax q : Int) else quantMax q), flagSAT)
    | .fin n m e =>
      let (r, inexact) := roundInt rm ⟨n, m, e, false⟩
      let nx : Flags := if inexact then flagNX else 0
      if (quantMax q : Int) < r then (wrapI q (quantMax q), nx ||| flagSAT)
      else if r < -(quantMax q : Int) then (wrapI q (-(quantMax q : Int)), nx ||| flagSAT)
      else (wrapI q r, nx)

/-- The code of one element (R200): σ's scale, whether it is kept, whether it is elected. -/
def quantCode (q fw : Fmt) (rm : Rm) (sat : Bool) (x b : Nat) (kept elect : Bool) : Res :=
  if b = 0xFF then (0, flagNV)
  else if kept then (marginCode q, 0)
  else if elect then
    let r : Res := match decodeF fw x with
      | .nan _ => if canonicalNaN q != 0 then (canonicalNaN q, 0) else quantise q rm true (.inf (x.testBit (fw.width - 1)))
      | v => quantise q rm true (.inf v.sign)
    (r.1, r.2 ||| flagMCL)
  else quantise q rm sat (divScale (decodeF fw x) b)

/-- The margin value of a kept element (R200): its FP16 value relative to its block's scale. -/
def marginValue (rm : Rm) (sat : Bool) (v : FVal) (b : Nat) : Res :=
  if b = 0xFF then (0x7E00, 0)
  else match divScale v b with
    | .nan s => nanTo .fp16 s
    | .inf neg => infTo .fp16 rm sat neg
    | .fin n m e => roundF .fp16 rm sat false ⟨n, m, e, false⟩

/-- VQMARG and VQMARG.CLAMP (R200). -/
def vqmarg (clamp : Bool) (o : HT48V) (s : State) : Host.Outcome State Fault Refusal :=
  finish (whole (do
    let s0 ← get
    let g := o.group.size
    let n ← countOf o.group o.fs
    checkLength n
    let mask ← govMask o.mask
    let k ← electCount o.c
    let src : Operand := ⟨o.a.val, g, o.fs.width⟩
    let scl : Operand := ⟨o.b.val, 1, 8⟩
    let dst := mixedOperand o.d.val o.group o.fd o.fs
    let buf : Operand := ⟨o.d.val + g, g, 32⟩
    let cap := 2 * s0.lanes * g
    openOperands [src, scl] [dst, buf] true
    let x ← getCur
    let act := activeList x.vstart.toNat x.vl.toNat mask
    let bs := blockSize o.var
    guardWhole [src] act
    guardWhole [scl] (act.map fun e => e / bs)
    let v ← readOperand src
    let sc ← readOperand scl
    let elect := (elected k (activeVals o.fs v act))
    let sorted := act.filter elect.contains
    if !clamp && decide (cap < sorted.length) then trap Cause.marginOverflow
    else
      let kept := sorted.take cap
      let scaleOf (e : Nat) : Nat := elemAt 8 sc (e / bs)
      let old ← readDest dst false
      let (codes, fl) := foldElems dst.w (fun e => quantCode o.fd o.fs o.rm o.sat (elemAt o.fs.width v e) (scaleOf e) (kept.contains e) (elect.contains e)) act old 0
      let (ents, fl2) := foldElems 32 (fun i =>
        match kept[i]? with
        | none => (0x7FFF, 0)
        | some m => let r := marginValue o.rm o.sat (decodeF o.fs (elemAt o.fs.width v m)) (scaleOf m); (r.1 * 2 ^ 16 + m, r.2)) (List.range cap) 0 0
      writeDest dst codes
      writeDest buf ents
      raiseFlags (fl ||| fl2)
      modCur fun x => x.setS o.c.val (BitVec.ofNat 64 kept.length)
      clearVstart)) s

def execVqmarg (o : HT48V) (s : State) : Host.Outcome State Fault Refusal := vqmarg false o s
def execVqmargClamp (o : HT48V) (s : State) : Host.Outcome State Fault Refusal := vqmarg true o s

/-- The value of the first entry of a margin buffer whose index is e, +0 where none matches (R202). -/
def bufferValue (buf cap e : Nat) : FVal :=
  match (List.range cap).find? fun i => elemAt 32 buf i % 2 ^ 15 == e with
  | some i => decodeF .fp16 (elemAt 32 buf i / 2 ^ 16)
  | none => .fin false 0 0

/-- The value of a narrow code outside the margins. -/
def narrowValue (q : Fmt) (c : Nat) : FVal :=
  if isFloat q then decodeF q c else let i := decodeI q c; .fin (decide (i < 0)) i.natAbs 0

/-- A value times its scale, rounded (R202). -/
def dequant (fw : Fmt) (rm : Rm) (sat : Bool) (v : FVal) (b : Nat) : Res :=
  if b = 0xFF then (canonicalNaN fw, flagNV)
  else match v with
    | .nan s => nanTo fw s
    | .inf neg => infTo fw rm sat neg
    | .fin n m e => roundF fw rm sat false ⟨n, m, e + ((b : Int) - 127), false⟩

/-- VDQ (R202). -/
def execVdq (o : HT48V) (s : State) : Host.Outcome State Fault Refusal :=
  finish (do
    let g := o.group.size
    let n ← countOf o.group o.fd
    let mask ← govMask o.mask
    let cap := 2 * (← get).lanes * g
    let bs := blockSize o.var
    elementwise n mask [mixedOperand o.a.val o.group o.fs o.fd, ⟨o.b.val, 1, 8⟩, ⟨o.c.val, g, 32⟩] ⟨o.d.val, g, o.fd.width⟩ fun vs _ e =>
      let c := elemAt o.fs.width (val vs 0) e
      let y := if c = marginCode o.fs then bufferValue (val vs 2) cap e else narrowValue o.fs c
      dequant o.fd o.rm o.sat y (elemAt 8 (val vs 1) (e / bs))) s

end Sys2Proof.Machine
end

