-- ==== Sys2Proof/Machine/Folio.lean ====
section
/-! DEFINITION. Sequence descriptors, the key-value and folio instructions, the folio pool engines and their registers
(R93 to R108). -/

namespace Sys2Proof.Machine

/-! ### Descriptors (R93 to R95) -/

/-- The fields of a descriptor that the instructions use (Tables 7.1, 7.2): the extents in use, and the header's dword 0. -/
structure Desc where
  len  : Nat
  cnt  : Nat
  bord : Nat
  mord : Nat
  live : Bool
  rowb : Nat
  strd : Nat
  exts : List Extent
  deriving DecidableEq, Repr

/-- Entry i of an image. -/
def extentOf (v i : Nat) : Extent :=
  let e := bits v (512 + 128 * i) 128
  ⟨BitVec.ofNat 64 (e % 2 ^ 64 / 64 * 64), BitVec.ofNat 32 (bits e 64 32), BitVec.ofNat 32 (bits e 96 32), e.testBit 4, BitVec.ofNat 4 e⟩

/-- Reads an image; entries at and above CNT are ignored. -/
def descOf (v : Nat) : Desc :=
  { len := bits v 0 32, cnt := bits v 32 5, bord := bits v 40 4, mord := bits v 44 4, live := v.testBit 63
    rowb := bits v 64 16, strd := bits v 96 32, exts := (List.range (min (bits v 32 5) 16)).map (extentOf v) }

/-- CAP (R94). -/
def capOf (l : List Extent) : Nat := l.foldl (fun n e => n + e.elen.toNat) 0

/-- The row address of a position (R94), none at or above CAP. -/
def rowAddr : List Extent → Nat → Option (BitVec 64)
  | [], _ => none
  | e :: rest, p =>
    if p < e.elen.toNat then some (e.base + BitVec.ofNat 64 (p * e.str.toNat)) else rowAddr rest (p - e.elen.toNat)

def kib64 (k : Nat) : Nat := 65536 * 2 ^ k

/-- A reserved bit of the header or of an entry in use is set. -/
def descReserved (v cnt : Nat) : Bool :=
  bits v 192 320 != 0 || bits v 80 16 != 0 || bits v 48 15 != 0 || bits v 37 3 != 0 ||
  (List.range (min cnt 16)).any fun i => v.testBit (512 + 128 * i + 5)

/-- The checks of R101 in their order: 0 when the image is valid, else the code of the first failing check. -/
def descCode (v : Nat) : Int :=
  let d := descOf v
  if 16 < d.cnt || capOf d.exts < d.len then -1
  else if descReserved v d.cnt || d.exts.any (fun e => !canonical e.base || e.elen == 0) then -2
  else if d.rowb % 64 != 0 || d.rowb < 64 || 32768 < d.rowb || d.strd % 64 != 0 || d.strd < d.rowb || kib64 d.bord < d.strd || d.mord < d.bord ||
      d.exts.any (fun e => e.str.toNat % 64 != 0 || decide (e.str.toNat < d.rowb) || (e.pool && decide (kib64 e.ord.toNat < e.elen.toNat * e.str.toNat))) then -3
  else 0

/-- Dword 0 of a descriptor's header. -/
def Desc.dword0 (d : Desc) : Nat := d.len % 2 ^ 32 + d.cnt * 2 ^ 32 + d.bord * 2 ^ 40 + d.mord * 2 ^ 44 + d.live.toNat * 2 ^ 63

/-- The descriptor of KVXL, KVAPP and KVTRUNC (R100): the kv-descriptor trap unless it is live and valid. -/
def liveDesc (va : BitVec 64) : Act Desc := do
  trapIf (!canonical va || va.toNat % 64 != 0) Cause.kvDescriptor
  let hd ← readBlockCur va 64
  let cnt := min (bits (leNat hd) 32 5) 16
  let es ← readBlockCur (va + 64) (16 * cnt)
  let v := leNat (hd ++ es)
  trapIf (!(descOf v).live || descCode v != 0) Cause.kvDescriptor
  return descOf v

/-! ### The pool engine (R96, R97) -/

def Die.freeList (d : Die) (k : Nat) : List Nat := tget [] d.free k

/-- The arena's base address: VA[56:31], canonical. -/
def Die.arena (d : Die) : BitVec 64 := (BitVec.ofNat 57 (d.fpBase.toNat * 2 ^ 31)).signExtend 64
def Die.arenaBytes (d : Die) : Nat := d.fpSize.toNat * 2 ^ 31

/-- The free 64 KiB units. -/
def Die.freeUnits (d : Die) : Nat := (List.range 16).foldl (fun n k => n + (d.freeList k).length * 2 ^ k) 0

/-- Places an offset in an ascending list. -/
def insertAsc (x : Nat) : List Nat → List Nat
  | [] => [x]
  | y :: ys => if x < y then x :: y :: ys else y :: insertAsc x ys

def Die.freeAt (d : Die) (k f : Nat) : Die := { d with free := tput d.free k (insertAsc f (d.freeList k)) }
def Die.takeAt (d : Die) (k f : Nat) : Die := { d with free := tput d.free k ((d.freeList k).filter (· != f)) }

/-- Splits a folio of order k + n down to order k, freeing each upper half. -/
def Die.split (d : Die) (f k : Nat) : Nat → Die
  | 0 => d
  | n + 1 => (d.freeAt (k + n) (f + kib64 (k + n))).split f k n

/-- pop (R97): the arena offset of the folio taken. -/
def Die.popFolio (d : Die) (k : Nat) : Option (Nat × Die) :=
  match (List.range 16).find? fun j => decide (k ≤ j) && !(d.freeList j).isEmpty with
  | none => none
  | some j =>
    match d.freeList j with
    | [] => none
    | f :: _ => some (f, (d.takeAt j f).split f k (j - k))

/-- push (R97), merging with free buddies; the fuel is the orders above k. -/
def Die.pushFolio (d : Die) (f k : Nat) : Nat → Die
  | 0 => d.freeAt k f
  | n + 1 =>
    let b := f ^^^ kib64 k
    if (d.freeList k).contains b then (d.takeAt k b).pushFolio (min f b) (k + 1) n else d.freeAt k f

/-- A byte of the folio is already free. -/
def Die.overlapsFree (d : Die) (f k : Nat) : Bool :=
  (List.range 16).any fun j => (d.freeList j).any fun g => decide (g < f + kib64 k) && decide (f < g + kib64 j)

/-- The virtual address lies in the enabled arena of a die. -/
def Die.holdsVa (d : Die) (va : BitVec 64) : Bool := d.fpEn && decide ((va - d.arena).toNat < d.arenaBytes)

/-- The folio rules of FPUSH on one engine (R105). -/
def Die.folioOk (d : Die) (va : BitVec 64) (k : Nat) : Bool :=
  let off := (va - d.arena).toNat
  decide (k ≤ 15) && d.holdsVa va && off % kib64 k == 0 && decide (off + kib64 k ≤ d.arenaBytes) && !d.overlapsFree off k

def allDies : List (Fin 4) := [0, 1, 2, 3]

/-- The engine whose arena holds a folio: one granted to the address space before any other (R99). -/
def State.arenaOf (s : State) (asid : BitVec 16) (va : BitVec 64) : Option (Fin 4) :=
  match allDies.find? fun d => (s.die d).holdsVa va && (s.die d).fpAsid == asid with
  | some d => some d
  | none => allDies.find? fun d => (s.die d).holdsVa va

/-- The engine that takes a folio, under the rules of FPUSH (R105): the folio trap, or the violation of an arena not granted (R99). DESIGN
CHOICE (log 89): an order above 15 and a folio in no arena come before the violation, and the violation before the folio's alignment and
its free bytes. -/
def folioEngine (va : BitVec 64) (k : Nat) : Act (Fin 4) := do
  let s ← get
  trapIf (decide (15 < k)) Cause.folio
  match s.arenaOf s.cur.asid va with
  | none => trap Cause.folio
  | some d =>
    let x := s.die d
    if x.fpAsid != s.cur.asid then faultAt Cause.violation va
    else
      trapIf (!x.folioOk va k) Cause.folio
      return d

/-- Pushes a folio to an engine (R97). -/
def State.pushTo (s : State) (d : Fin 4) (va : BitVec 64) (k : Nat) : State :=
  let x := s.die d
  s.setDie d (x.pushFolio (va - x.arena).toNat k (15 - k))

/-- Pushes a folio under the rules of FPUSH. -/
def pushChecked (va : BitVec 64) (k : Nat) : Act Unit := do
  let d ← folioEngine va k
  modify fun s => s.pushTo d va k

/-- A pop from the hart's own die: none when no folio is free. The violation of an arena not granted (R99). -/
def popOwn (k : Nat) (reserve : Bool) : Act (Option (BitVec 64)) := do
  let s ← get
  let x := s.die s.curHart.die
  trapIf (x.fpEn && x.fpAsid != s.cur.asid) Cause.violation
  if !x.fpEn || (reserve && decide (x.freeUnits < 2 ^ k + x.fpReserve.toNat)) then return none
  else match x.popFolio k with
    | none => return none
    | some (f, x') =>
      set (s.setDie s.curHart.die x')
      return some (x.arena + BitVec.ofNat 64 f)

/-! ### Instructions (R99 to R105) -/

/-- KVMAP (R101). -/
def kvmapBody (o : HT16R) : Act Unit := do
  let a ← reg o.a
  let b ← reg o.b
  let src := if b = 0 then a else b
  let check (va : BitVec 64) : Act Unit :=
    if !canonical va then faultAt Cause.nonCanonical va
    else if va.toNat % 64 != 0 then faultAt Cause.misalignment va
    else pure ()
  check src
  let v := leNat (← readBlockCur src 320)
  if descCode v != 0 then setReg o.d (BitVec.ofInt 64 (descCode v))
  else
    check a
    writeBlockCur a (leBytes 320 (v ||| 2 ^ 63))
    setReg o.d 0

/-- An A-stream fault of these instructions is recorded as a scalar access (Table 24.2). -/
def execKvmap (o : HT16R) (s : State) : Host.Outcome State Fault Refusal := finish (asKind 5 0 0 (kvmapBody o)) s

/-- KVXL (R102). -/
def execKvxl (o : HT16R) (s : State) : Host.Outcome State Fault Refusal :=
  finish (do
    let a ← reg o.a
    let b ← reg o.b
    let d ← asKind 5 0 0 (liveDesc a)
    setReg o.d ((rowAddr d.exts b.toNat).getD 0)) s

/-- The extent that KVAPP needs (R103): the descriptor after it. A LEN that could not grow is found when there is a folio (log 16). The descriptor's lines are translated for writing, and the sector
that the entry goes into is checked, before the pop, so that a fault never loses a folio; an extent that could hold no position is
a limit broken (log 16). -/
def kvappGrow (va : BitVec 64) (d : Desc) : Act Desc := do
  trapIf (d.cnt == 16) Cause.kvExtentLimit
  let g := match d.exts.getLast? with
    | none => d.bord
    | some e => min (e.ord.toNat + 1) d.mord
  trapIf (decide (kib64 g < d.strd)) Cause.kvDescriptor
  let at' := va + 64 + BitVec.ofNat 64 (16 * d.cnt)
  let m ← translateCur at' .write
  checkWrite (some m.key) m.pa 16 at'
  let _ ← translateCur va .write
  let s ← get
  match ← popOwn g false with
  | none => trap Cause.poolEmpty
  | some f =>
    if d.len = 2 ^ 32 - 1 then
      set s
      trap Cause.kvDescriptor
    else pure ()
    let elen := kib64 g / d.strd
    writeBlockCur at' (leBytes 16 (f.toNat + 16 + g + elen * 2 ^ 64 + d.strd * 2 ^ 96))
    let d := { d with cnt := d.cnt + 1, exts := d.exts ++ [⟨f, BitVec.ofNat 32 elen, BitVec.ofNat 32 d.strd, true, BitVec.ofNat 4 g⟩] }
    writeBlockCur va (leBytes 8 d.dword0)
    return d

/-- Moves a row out of the hart's scratchpad to memory (R103, R114). -/
def rowOut (sb n : Nat) (va : BitVec 64) : Act Unit := do
  let s ← get
  let ps ← translateBlock s.curHart.die s.cur.asid va n .write
  let b ← padTake s.curCoreId sb n
  forEach ps fun (a, len, m) => modify fun s => s.memGive (some m.key) m.pa (blockPart b va a len)

/-- KVAPP (R103). -/
def kvappBody (o : HT16R) : Act Unit := do
  let va ← reg o.a
  let sb ← reg o.b
  let d ← liveDesc va
  trapIf (sb.toNat % 64 != 0 || decide (0x80000 < sb.toNat + d.rowb)) Cause.kvDescriptor
  trapIf (decide (d.len = 2 ^ 32 - 1) && d.len != capOf d.exts) Cause.kvDescriptor
  let d ← if d.len = capOf d.exts then kvappGrow va d else pure d
  match rowAddr d.exts d.len with
  | none => trap Cause.kvDescriptor
  | some a =>
    rowOut sb.toNat d.rowb a
    writeBlockCur va (leBytes 8 { d with len := d.len + 1 }.dword0)
    setReg o.d a

def execKvapp (o : HT16R) (s : State) : Host.Outcome State Fault Refusal := finish (kvappBody o) s

/-- The extents from the highest downward that start at or above n. -/
def extentsFrom (n : Nat) : (start : Nat) → List Extent → List Extent
  | _, [] => []
  | st, e :: rest => extentsFrom n (st + e.elen.toNat) rest ++ (if n ≤ st then [e] else [])

/-- KVTRUNC (R104): every entry that goes is checked before the first is pushed; any that fails changes nothing. -/
def kvtruncBody (o : HT16R) : Act Unit := do
  let va ← reg o.a
  let n ← reg o.b
  let d ← liveDesc va
  if d.len ≤ n.toNat then setReg o.d 0
  else
    let gone := extentsFrom n.toNat 0 d.exts
    let folios := gone.filter (·.pool)
    let dests ← folios.mapM fun e => do return (e, ← folioEngine e.base e.ord.toNat)
    writeBlockCur va (leBytes 8 { d with len := n.toNat, cnt := d.cnt - gone.length }.dword0)
    modify fun s => dests.foldl (fun s (e, d) => s.pushTo d e.base e.ord.toNat) s
    setReg o.d (BitVec.ofNat 64 folios.length)

def execKvtrunc (o : HT16R) (s : State) : Host.Outcome State Fault Refusal :=
  finish (kvtruncBody o) s

/-- FPOP (R105). -/
def execFpop (o : HT16R) (s : State) : Host.Outcome State Fault Refusal :=
  finish (do
    let k ← reg o.a
    trapIf (decide (15 < k.toNat)) Cause.folio
    let f ← popOwn k.toNat true
    setReg o.d (f.getD 0)) s

/-- FPUSH (R105). -/
def execFpush (o : HT16R) (s : State) : Host.Outcome State Fault Refusal :=
  finish (do
    let va ← reg o.a
    let k ← reg o.b
    pushChecked va k.toNat) s

/-- FPCNT (R105, R98): the arena of the hart's die must be granted to its address space (R99). -/
def execFpcnt (o : HT16R) (s : State) : Host.Outcome State Fault Refusal :=
  finish (do
    let k ← reg o.a
    trapIf (decide (17 < k.toNat)) Cause.folio
    let s ← get
    let x := s.die s.curHart.die
    trapIf (x.fpEn && x.fpAsid != s.cur.asid) Cause.violation
    setReg o.d (BitVec.ofNat 64 (
      if k = 17 then x.fpReserve.toNat
      else if !x.fpEn then 0
      else if k = 16 then x.freeUnits
      else (x.freeList k.toNat).length))) s

/-! ### The engine's registers (R96, R98) -/

/-- A write of FPARENA: ignored while EN = 1. -/
def State.writeFparena (s : State) (d : Fin 4) (v : BitVec 64) : State :=
  let x := s.die d
  if x.fpEn then s
  else s.setDie d { x with fpAsid := BitVec.ofNat 16 (bits v.toNat 48 16), fpBase := BitVec.ofNat 26 v.toNat }

/-- The free lists after EN goes from 0 to 1: the whole arena as folios of order 15. -/
def wholeArena (size : Nat) : Tab (List Nat) := [(15, (List.range size).map (· * 2 ^ 31))]

/-- A write of FPCTL (R96, R98). -/
def State.writeFpctl (s : State) (d : Fin 4) (v : BitVec 64) : State :=
  let x := s.die d
  let res := BitVec.ofNat 32 (bits v.toNat 32 32)
  let size := bits v.toNat 1 7
  if x.fpEn then
    s.setDie d { x with fpReserve := res, fpEn := v.getLsbD 0 }
  else if v.getLsbD 0 then
    if 1 ≤ size ∧ size ≤ 67 ∧ size * 2 ^ 31 ≤ x.popBytes.toNat then
      s.setDie d { x with fpReserve := res, fpSize := BitVec.ofNat 7 size, fpEn := true, free := wholeArena size }
    else s.ignoredDie d
  else s.setDie d { x with fpReserve := res, fpSize := BitVec.ofNat 7 size }

/-- A write of FPCTL of die `req.die` that sets EN. -/
def execFolioPoolEnable (s : State) : Host.Outcome State Fault Refusal :=
  .next (if (s.die s.req.die).fpEn then s else s.writeFpctl s.req.die (s.req.value ||| 1))

/-- A write of FPCTL with EN = 1 while EN = 1. -/
def execFolioReserveSet (s : State) : Host.Outcome State Fault Refusal :=
  .next (if (s.die s.req.die).fpEn then s.writeFpctl s.req.die (s.req.value ||| 1) else s)

/-- A write of FPCTL that clears EN: no pop or push is in progress between steps. -/
def execFolioPoolDisable (s : State) : Host.Outcome State Fault Refusal :=
  .next (if (s.die s.req.die).fpEn then s.writeFpctl s.req.die (s.req.value &&& ~~~ 1) else s)

/-- The lists of a disabled engine are discarded (R98). -/
def execFolioListsDiscard (s : State) : Host.Outcome State Fault Refusal :=
  let x := s.die s.req.die
  .next (if x.fpEn then s else s.setDie s.req.die { x with free := [] })

/-! ### The forerunner mailbox (R108) -/

/-- The answer to a mailbox request on a die: RSP, and the die after it. DESIGN CHOICE (log 68): a REQ is malformed whose operation is
0 or 3, whose bits 57 to 42 are not zero, or that pushes a folio at a non-canonical address. -/
def Die.mailbox (x : Die) (req : BitVec 64) : Nat × Die :=
  let v := req.toNat
  let op := bits v 62 2
  let k := bits v 58 4
  let va := (BitVec.ofNat 58 (bits v 0 42 * 2 ^ 16)).signExtend 64
  if bits v 42 16 != 0 || op == 0 || op == 3 || (op == 2 && !canonical va) then (3, x)
  else if op = 1 then
    if !x.fpEn || decide (x.freeUnits < 2 ^ k + x.fpReserve.toNat) then (1, x)
    else match x.popFolio k with
      | none => (1, x)
      | some (f, x') => ((x.arena + BitVec.ofNat 64 f).toNat, x')
  else if x.folioOk va k then (1, x.pushFolio (va - x.arena).toNat k (15 - k))
  else (1, x)

/-- MAILBOX_REQUEST: the mailbox at physical address `req.addr`, a requester on die `req.die`. DESIGN CHOICE (log 88): of its two words REQ
lies at offset 0 and RSP at offset 8. -/
def execMailboxRequest (s : State) : Host.Outcome State Fault Refusal :=
  happen (do
    let s ← get
    let pa := s.req.addr.toNat
    if pa % 16 = 0 ∧ (s.inHbm pa || inHost pa) then
      let q ← readPa none pa 8 s.req.addr
      let (rsp, x) := (s.die s.req.die).mailbox (BitVec.ofNat 64 (leNat q))
      modDie s.req.die fun _ => x
      writePa none (pa + 8) (leBytes 8 rsp) s.req.addr
    else pure ()) s

end Sys2Proof.Machine
end

