-- ==== Sys2Proof/Machine/ScalarMem.lean ====
section
/-! DEFINITION. Scalar loads, stores, word waits and atomics, majors 0x09 and 0x0A (R291, R305, R256). -/

namespace Sys2Proof.Machine

/-- base + SignExt(disp), exact (R291). -/
def scalarAddr (base : BitVec 64) (disp : BitVec 16) : Int := base.toInt + disp.toInt

/-- A scalar access on the stream in execution: on the A-stream a fault is recorded as a scalar access (Table 24.2). -/
def asScalar {α : Type} (m : Act α) : Act α := asKind 5 0 0 m

/-- A load of n bytes (R291). -/
def scalarLoad (n : Nat) (ext : Nat → BitVec 64) (o : HT32M) (s : State) : Host.Outcome State Fault Refusal :=
  finish (do
    let b ← reg o.base
    let v ← asScalar (loadMem (scalarAddr b o.disp) n)
    setReg o.d (ext v)) s

/-- SignExt and ZeroExt of n bytes (R25). -/
def signExtBytes (n v : Nat) : BitVec 64 := (BitVec.ofNat (8 * n) v).signExtend 64
def zeroExtBytes (n v : Nat) : BitVec 64 := (BitVec.ofNat (8 * n) v).zeroExtend 64

def execLdb (o : HT32M) (s : State) : Host.Outcome State Fault Refusal := scalarLoad 1 (signExtBytes 1) o s
def execLdh (o : HT32M) (s : State) : Host.Outcome State Fault Refusal := scalarLoad 2 (signExtBytes 2) o s
def execLdw (o : HT32M) (s : State) : Host.Outcome State Fault Refusal := scalarLoad 4 (signExtBytes 4) o s
def execLdd (o : HT32M) (s : State) : Host.Outcome State Fault Refusal := scalarLoad 8 (signExtBytes 8) o s
def execLdbn (o : HT32M) (s : State) : Host.Outcome State Fault Refusal := scalarLoad 1 (zeroExtBytes 1) o s
def execLdhn (o : HT32M) (s : State) : Host.Outcome State Fault Refusal := scalarLoad 2 (zeroExtBytes 2) o s
def execLdwn (o : HT32M) (s : State) : Host.Outcome State Fault Refusal := scalarLoad 4 (zeroExtBytes 4) o s

/-- A store of n bytes (R291). -/
def scalarStore (n : Nat) (o : HT32M) (s : State) : Host.Outcome State Fault Refusal :=
  finish (do
    let b ← reg o.base
    let v ← reg o.d
    asScalar (storeMem (scalarAddr b o.disp) n (v.toNat % 256 ^ n))) s

def execStb (o : HT32M) (s : State) : Host.Outcome State Fault Refusal := scalarStore 1 o s
def execSth (o : HT32M) (s : State) : Host.Outcome State Fault Refusal := scalarStore 2 o s
def execStw (o : HT32M) (s : State) : Host.Outcome State Fault Refusal := scalarStore 4 o s
def execStd (o : HT32M) (s : State) : Host.Outcome State Fault Refusal := scalarStore 8 o s

/-- A wait on a word (R305). -/
def waitWord (ok : Nat → Nat → Bool) (o : HT32M) (s : State) : Host.Outcome State Fault Refusal :=
  finish (do
    let b ← reg o.base
    let w ← reg o.d
    let v ← asScalar (loadMem (scalarAddr b o.disp) 4)
    waitFor (ok v (w.toNat % 2 ^ 32))) s

def execWaiteq (o : HT32M) (s : State) : Host.Outcome State Fault Refusal := waitWord (fun a b => a == b) o s
def execWaitne (o : HT32M) (s : State) : Host.Outcome State Fault Refusal := waitWord (fun a b => a != b) o s

/-! ### Atomics (R256) -/

/-- Bytes of the word formats. -/
def fmtBytes (f : Fmt) : Nat := f.width / 8

/-- I formats are signed (R256). -/
def fmtSigned : Fmt → Bool
  | .i8 | .i16 | .i32 | .i64 | .i4 => true
  | _ => false

/-- The value of an n-byte word under a format. -/
def fmtInt (f : Fmt) (v : Nat) : Int := if fmtSigned f then (BitVec.ofNat f.width v).toInt else (v : Int)

/-- The place of an access for write that needs TIER = 0: any other tier is the permission fault (R256). -/
def hbmPlace (g : Int) (n : Nat) : Act Mapped := do
  match ← tryAct (translateAligned g n .write) with
  | .error i => throw (.trap i.hbmOnly)
  | .ok m => if entTier m.leaf != 0 then faultAt Cause.permission (vaOfInt g) else return m

/-- An atomic (R256): the page needs RD, W and TIER 0; the read and the write are one. `f` gives the new value from the old
one, the source and the destination register's low bits, none where nothing is written. -/
def atomic (f : Fmt → Nat → Nat → Nat → Option Nat) (o : HT48VM) (s : State) : Host.Outcome State Fault Refusal :=
  finish (do
    let n := fmtBytes o.fmt
    let d : Fin 32 := Fin.ofNat 32 o.v.val
    let b ← reg o.base
    let x ← reg o.s
    let cmp ← reg d
    let g := scalarAddr b o.disp
    let old ← asScalar (do
      let m ← hbmPlace g n
      let old := leNat (← readPa (some m.key) m.pa n (vaOfInt g))
      match f o.fmt old (x.toNat % 256 ^ n) (cmp.toNat % 256 ^ n) with
      | some v => writePa (some m.key) m.pa (leBytes n v) (vaOfInt g)
      | none => pure ()
      return old)
    setReg d (if fmtSigned o.fmt then signExtBytes n old else zeroExtBytes n old)) s

def execAmoadd (o : HT48VM) (s : State) : Host.Outcome State Fault Refusal :=
  atomic (fun f old x _ => some ((old + x) % 2 ^ f.width)) o s
def execAmomin (o : HT48VM) (s : State) : Host.Outcome State Fault Refusal :=
  atomic (fun f old x _ => some (if fmtInt f old ≤ fmtInt f x then old else x)) o s
def execAmomax (o : HT48VM) (s : State) : Host.Outcome State Fault Refusal :=
  atomic (fun f old x _ => some (if fmtInt f old ≤ fmtInt f x then x else old)) o s
def execAmoand (o : HT48VM) (s : State) : Host.Outcome State Fault Refusal :=
  atomic (fun _ old x _ => some (old &&& x)) o s
def execAmoor (o : HT48VM) (s : State) : Host.Outcome State Fault Refusal :=
  atomic (fun _ old x _ => some (old ||| x)) o s
def execAmoswp (o : HT48VM) (s : State) : Host.Outcome State Fault Refusal :=
  atomic (fun _ _ x _ => some x) o s
def execAmocas (o : HT48VM) (s : State) : Host.Outcome State Fault Refusal :=
  atomic (fun _ old x cmp => if old = cmp then some x else none) o s

end Sys2Proof.Machine
end

