-- ==== Sys2Proof/Machine/Wells.lean ====
section
/-! DEFINITION. The ruling sequencer, wells, the copy engine, its fault queue, quires and COPYQ (R132 to R147). -/

namespace Sys2Proof.Machine

/-! ### Wells (R137) -/

def Core.well (c : Core) (k : Nat) : Well := tget {} c.wells k
def Core.setWell (c : Core) (k : Nat) (w : Well) : Core := { c with wells := tput c.wells k w }

def ownWell (k : Nat) : Act Well := do return (← getCore).well k
def putWell (k : Nat) (w : Well) : Act Unit := modCore fun c => c.setWell k w

/-- The hart in execution owns the well. -/
def owned (w : Well) : Act Bool := do return w.owner == some (← getCur).taskNo

/-- The codes of Table 3.3. -/
def wellCode : WellState → Nat
  | .free => 0 | .filling => 1 | .full => 2 | .draining => 3 | .faulted => 4

/-- A well becomes free (Table 9.2): a hart that waits in WWAIT for FULL takes the orphan-wait trap at once (R144). -/
def State.freeWell (s : State) (id : CoreId) (k : Fin 64) : State :=
  (s.setCore id ((s.core id).setWell k.val {})).trapWaiters (.well k) Cause.orphanWait fun h => h / 8 == coreKey id

/-- Frees a well of the core of the hart in execution. -/
def freeOwn (k : Fin 64) : Act Unit := modify fun s => s.freeWell s.curCoreId k

/-- WSET (Table 9.5). -/
def execWset (o : HT16H) (s : State) : Host.Outcome State Fault Refusal :=
  finish (do
    let w ← ownWell o.handle.val
    let own ← owned w
    trapIf (w.state != .free && !own) Cause.well
    waitFor (w.state == .free)
    let x ← getCur
    putWell o.handle.val ⟨.filling, some x.taskNo, none⟩) s

/-- WWAIT (Table 9.5, R144): the orphan check comes first, at issue and while it waits; ownership is checked at issue. -/
def execWwait (o : HT16H) (s : State) : Host.Outcome State Fault Refusal :=
  finish (do
    let w ← ownWell o.handle.val
    trapIf (o.state == .full && (w.state == .free || (w.state == .draining && w.copy.isNone))) Cause.orphanWait
    let waiting := (← get).curSt.wait.isSome
    trapIf (!waiting && !(← owned w)) Cause.well
    if o.state = .full then awaits (.well o.handle) else pure ()
    waitFor (w.state == o.state)
    if o.state = .full then putWell o.handle.val { w with state := .draining } else pure ()) s

/-- The value of WGET (Table 9.5). -/
def wellWord (w : Well) (own : Bool) : BitVec 64 :=
  let frozen := match w.copy with | some c => c.frozen | none => false
  BitVec.ofNat 64 (wellCode w.state + 8 * w.copy.isSome.toNat + 16 * own.toNat + 32 * w.owner.isSome.toNat + 64 * frozen.toNat)

def execWget (o : HT16H) (s : State) : Host.Outcome State Fault Refusal :=
  finish (do
    let w ← ownWell o.handle.val
    setReg o.s (wellWord w (← owned w))) s

def execWfree (o : HT16H) (s : State) : Host.Outcome State Fault Refusal :=
  finish (do
    let w ← ownWell o.handle.val
    trapIf (!(← owned w) || !(w.state == .full || w.state == .draining)) Cause.well
    freeOwn o.handle) s

/-! ### Ruling (R142) -/

def execRule (o : HT48L) (s : State) : Host.Outcome State Fault Refusal :=
  finish (modCur fun x => { x with ruling := { x.ruling with levels := tput x.ruling.levels o.level.val ⟨o.count.toNat, o.stra, o.strb⟩ } }) s

def execRbase (o : HT16R) (s : State) : Host.Outcome State Fault Refusal :=
  finish (do
    let a ← reg o.a
    let b ← reg o.b
    modCur fun x => { x with ruling := { x.ruling with sb := a, db := b } }) s

/-! ### Copies (R133 to R136) -/

def Ruling.level (r : Ruling) (l : Nat) : Level := tget {} r.levels l

/-- The iterations of levels below l. -/
def Ruling.inner (r : Ruling) (l : Nat) : Nat := (List.range l).foldl (fun p i => p * (r.level i).n) 1

/-- The unit U in bytes (Table 9.1). -/
def Copy.unit (c : Copy) : Nat := 8 * 2 ^ bits c.ctl.toNat 0 4
def Copy.total (c : Copy) : Nat := c.ruling.inner 6

/-- The index of level l at an iteration, in iteration order (R134). -/
def Copy.index (c : Copy) (k l : Nat) : Nat := k / c.ruling.inner l % (c.ruling.level l).n

/-- The exact addresses of an iteration (R134). -/
def Copy.source (c : Copy) (k : Nat) : Int :=
  c.ruling.sb.toInt + (List.range 6).foldl (fun a l => a + c.index k l * (c.ruling.level l).ss.toInt * 2 ^ bits c.ctl.toNat 4 4) (0 : Int)
def Copy.target (c : Copy) (k : Nat) : Int :=
  c.ruling.db.toInt + (List.range 6).foldl (fun a l => a + c.index k l * (c.ruling.level l).ds.toInt * 2 ^ bits c.ctl.toNat 8 4) (0 : Int)

/-- C0 holds a reserved value (Table 9.1, R143). -/
def ctlReserved (c : BitVec 64) : Bool :=
  bits c.toNat 20 44 != 0 || bits c.toNat 12 4 != 0 || decide (9 < bits c.toNat 0 4)

/-- The scratchpad pieces of a unit, every byte in range (R135). -/
def unitPieces (s : State) (g : Int) (n : Nat) : Option (List (PadRef × Nat)) :=
  if g % 8 = 0 ∧ (s.padRef g).isSome ∧ (s.padRef (g + n - 1)).isSome then
    (sectorPieces g.toNat n).mapM fun (o, len) => (s.padRef o).map fun r => (r, len)
  else none

/-- The source check and read of an iteration (R135). -/
def copyRead (pad : Bool) (g : Int) (n : Nat) : Act Moved := do
  let s ← get
  if pad then
    match unitPieces s g n with
    | none => faultAt Cause.copyAddress (vaOfInt g)
    | some ps =>
      forEach ps fun (r, _) => padGuard g r
      let l ← ps.mapM fun (r, len) => padTake r.core r.off len
      return l.flatten
  else if !canonicalInt g || g % 8 != 0 then faultAt Cause.copyAddress (vaOfInt g)
  else
    let ps ← translateBlock s.curHart.die s.cur.asid (vaOfInt g) n .read
    let l ← ps.mapM fun (_, len, m) => memTake (some m.key) m.pa len
    return l.flatten

/-- The destination check and write of an iteration (R135). -/
def copyWrite (pad : Bool) (g : Int) (b : Moved) : Act Unit := do
  let s ← get
  let n := b.length
  if pad then
    match unitPieces s g n with
    | none => faultAt Cause.copyAddress (vaOfInt g)
    | some ps =>
      forEach ps fun (r, _) => padGuard g r
      forEach ps fun (r, _) => padPrepare r.core r.off true
      let _ ← ps.foldlM (fun (k : Nat) (r, len) => do
        padGive r.core r.off ((b.drop k).take len)
        return k + len) 0
  else if !canonicalInt g || g % 8 != 0 then faultAt Cause.copyAddress (vaOfInt g)
  else
    let va := vaOfInt g
    let ps ← translateBlock s.curHart.die s.cur.asid va n .write
    forEach ps fun (a, len, m) => modify fun s => s.memGive (some m.key) m.pa (blockPart b va a len)

/-! ### The copy-fault queue (R140) -/

/-- The queue can take a record. -/
def Die.cfqReady (d : Die) : Bool := d.cfqEn && (d.cfqHead - d.cfqTail).toNat != 1023

/-- Writes the oldest held record, when the queue can take it. -/
def State.flushCfq (s : State) (d : Fin 4) : State :=
  let x := s.die d
  match x.cfqHeld with
  | [] => s
  | r :: rest =>
    if x.cfqReady then
      let s := s.poke none (x.cfqBase.toNat * 2 ^ 15 + 32 * x.cfqHead.toNat) (leBytes 32 r.toNat)
      s.setDie d { x with cfqHeld := rest, cfqHead := x.cfqHead + 1 }
    else s

/-- Posts a record behind those that are held. -/
def State.postCfq (s : State) (d : Fin 4) (r : BitVec 256) : State :=
  let held := (s.die d).cfqHeld
  let s := s.setDie d { s.die d with cfqHeld := held ++ [r] }
  if held.isEmpty then s.flushCfq d else s

/-- COPY_FAULT_RECORD_PENDING, on die `req.die`. -/
def execCopyFaultRecordPending (s : State) : Host.Outcome State Fault Refusal := .next (s.flushCfq s.req.die)

/-- The record of Table 9.3. -/
def faultRecord (h : HartId) (handle : Nat) (c : Copy) (k : Nat) (dest : Bool) (cause : BitVec 16) (addr : BitVec 64) : BitVec 256 :=
  let idx := (List.range 6).foldl (fun v l => v + c.index k l % 2 ^ 15 * 2 ^ (15 * l)) 0
  BitVec.ofNat 256 (idx * 2 ^ 128 + h.die.val * 2 ^ 97 + h.core.val * 2 ^ 90 + h.hart.val * 2 ^ 87 + handle * 2 ^ 81 + dest.toNat * 2 ^ 80 + cause.toNat * 2 ^ 64 + addr.toNat)

/-- A copy stops at iteration k (R136, R139): filling-faulted, or frozen in place by a violation; its record is posted. -/
def State.stopCopy (s : State) (h : HartId) (handle : Nat) (w : Well) (c : Copy) (k : Nat) (dest : Bool) (cause : BitVec 16) (addr : BitVec 64) : State :=
  let x := s.core (coreOf h)
  let w := if cause = Cause.violation then { w with copy := some { c with frozen := true } } else { w with state := .faulted, copy := some c }
  (s.setCore (coreOf h) (x.setWell handle w)).postCfq h.die (faultRecord h handle c k dest cause addr)

/-! ### The engine -/

/-- The hart that holds a task. -/
def State.hartOfTask (s : State) (n : Nat) : Option HartId :=
  (s.harts.find? fun (_, x) => match x.task with | some t => t.number == n | none => false).map fun (k, _) =>
    ⟨Fin.ofNat 4 (k / 768), Fin.ofNat 96 (k / 8 % 96), Fin.ofNat 8 (k % 8)⟩

/-- Entries of a COPYQ. -/
def Copy.entries (c : Copy) : Nat := if c.width = 0 then 0 else c.unit * c.total / c.width

/-- Every iteration is written, and every entry has landed at every member (R146). -/
def Copy.finished (c : Copy) : Bool :=
  decide (c.total ≤ c.iter) && (c.dest.isNone || c.members.all fun t => decide (c.entries ≤ tget 0 c.landed t))

/-- Keeps a running copy in its well, or makes the well full. -/
def State.keepCopy (s : State) (id : CoreId) (handle : Nat) (w : Well) (c : Copy) : State :=
  s.setCore id ((s.core id).setWell handle (if c.finished then { w with state := .full, copy := none } else { w with copy := some c }))

/-- A cancelled task of the die whose copies still run (R321, R335): its home and its hart. -/
def Die.retiringTask (d : Die) (t : Nat) : Option (HartId × Hart) :=
  d.frames.findSome? fun (_, f) => match f with
    | some f => if f.retiring && f.hart.taskNo == t then some (f.id, f.hart) else none
    | none => none

/-- The task for which a copy may move now (R137, R141): its owner, resident on this core and not halted, or cancelled; the well
filling, the copy not frozen. -/
def State.activeCopy (s : State) (id : CoreId) (handle : Nat) : Option (HartId × Hart × Well × Copy) :=
  let w := (s.core id).well handle
  match w.copy, w.owner with
  | some c, some t =>
    if w.state == .filling && !c.frozen then
      match s.hartOfTask t, (s.die id.die).retiringTask t with
      | some h, _ => if (coreOf h) == id && !(s.hart h).halted then some (h, s.hart h, w, c) else none
      | none, some (h, x) => some (h, x, w, c)
      | none, none => none
    else none
  | _, _ => none

/-- The bytes of an iteration kept for a COPYQ, failing ones marked with the place that reads them again; `place` gives that of a
scratchpad source. -/
def Copy.take (c : Copy) (b : Moved) (place : Int → Option PadRef) : Copy :=
  let k := c.bytes.length
  let g (i : Nat) : Int := c.source c.iter + i
  let pad (i : Nat) : Option (CoreId × Nat) := if c.ctl.getLsbD 16 then (place (g i)).map fun r => (r.core, r.off) else none
  { c with iter := c.iter + 1, bytes := c.bytes ++ b.map Prod.fst
           badAt := c.badAt ++ (List.range b.length).filterMap fun i => match b[i]? with
             | some (_, true) => some (k + i, vaOfInt (g i), pad i)
             | _ => none }

/-- COPY_ITERATION (R134 to R136): the next iteration of the copy of well `req.handle` of core `req.core`, source before
destination. A copy never raises an integrity fault: DESIGN CHOICE (log 82), an iteration whose translation reads a table sector that
fails its check is not begun, and is tried again. -/
def execCopyIteration (s : State) : Host.Outcome State Fault Refusal :=
  let id := s.req.core
  let k := s.req.handle.val
  match s.activeCopy id k with
  | none => .next s
  | some (h, x, w, c) =>
    if c.total ≤ c.iter then .next s
    else
      let g := c.source c.iter
      let t := c.target c.iter
      match asTask h x (copyRead (c.ctl.getLsbD 16) g c.unit) s with
      | (.error (.trap i), s') => .next (if i.cause = Cause.integrity then s else s'.stopCopy h k w c c.iter false i.cause (vaOfInt g))
      | (.error _, s') => .next s'
      | (.ok b, s') =>
        if c.dest.isSome then .next (s'.keepCopy id k w (c.take b (State.padRef { s' with curHart := h })))
        else match asTask h x (copyWrite (!c.ctl.getLsbD 17) t b) s' with
          | (.error (.trap i), s'') => .next (if i.cause = Cause.integrity then s else s''.stopCopy h k w c c.iter true i.cause (vaOfInt t))
          | (.error _, s'') => .next s''
          | (.ok _, s'') => .next (s''.keepCopy id k w { c with iter := c.iter + 1 })

/-! ### Copy instructions (R143) -/

/-- Attaches a copy to its well, behind the copies issued before it (R138, R151). -/
def attach (k : Nat) (w : Well) (c : Copy) : Act Unit := do
  let s ← get
  set { s with copyCtr := s.copyCtr + 1 }
  putWell k { w with copy := some { c with seq := s.copyCtr } }

/-- The copy slots in use of a core. -/
def Core.copies (c : Core) : Nat := (c.wells.filter fun x => x.2.copy.isSome).length

/-- The checks of COPY and COPYQ (Table 9.5) and the wait for a copy slot. -/
def copyIssue (k : Nat) : Act Well := do
  let w ← ownWell k
  trapIf (!(← owned w) || w.state != .filling || w.copy.isSome) Cause.well
  waitFor (decide ((← getCore).copies < 16))
  return w

def execCopy (o : HT16H) (s : State) : Host.Outcome State Fault Refusal :=
  finish (do
    let x ← getCur
    trapIf (ctlReserved (x.getC 0)) Cause.copy
    let w ← copyIssue o.handle.val
    attach o.handle.val w { ctl := x.getC 0, ruling := x.ruling }) s

/-- Resumes a copy (COPYRES, CPCTL OP 1). A copy with nothing left to write or deliver, whose last entries were discarded while it
stood still (R147), is full at once. -/
def Well.resume (w : Well) : Well :=
  match w.copy with
  | none => { w with state := .filling }
  | some c => if c.finished then { w with state := .full, copy := none } else { w with state := .filling, copy := some { c with frozen := false } }

def execCopyres (o : HT16H) (s : State) : Host.Outcome State Fault Refusal :=
  finish (do
    let w ← ownWell o.handle.val
    trapIf (!(← owned w) || !(w.state == .filling || w.state == .faulted)) Cause.well
    if w.state = .faulted then putWell o.handle.val w.resume else pure ()) s

/-- COPYCAN (Table 9.5). DEDUCED (log 91): where the supervisor has cancelled the frozen copy that it waited for, it finds its well free:
the well trap. -/
def execCopycan (o : HT16H) (s : State) : Host.Outcome State Fault Refusal :=
  finish (do
    let w ← ownWell o.handle.val
    trapIf (!(← owned w) || w.state == .free) Cause.well
    waitFor (match w.copy with | some c => !c.frozen | none => true)
    if w.state = .filling ∨ w.state = .faulted then freeOwn o.handle else pure ()) s

/-- A write of CPCTL (Table 9.4): it names a faulted or frozen copy, or it is ignored and counted, as OP 0 and 3 are (R139, Table
29.5). -/
def State.cpctl (s : State) (d : Fin 4) (core : Nat) (handle : Fin 64) (op : Nat) : State :=
  if op = 0 ∨ op = 3 ∨ 96 ≤ core then s.ignoredDie d
  else
    let id : CoreId := ⟨d, Fin.ofNat 96 core⟩
    let w := (s.core id).well handle.val
    let frozen := match w.copy with | some c => c.frozen | none => false
    if w.state == .faulted || frozen then
      if op = 1 then s.setCore id ((s.core id).setWell handle.val w.resume) else s.freeWell id handle
    else s.ignoredDie d

/-- CPCTL writes for well `req.handle` of core `req.core`. -/
def execCpctlResume (s : State) : Host.Outcome State Fault Refusal := .next (s.cpctl s.req.core.die s.req.core.core.val s.req.handle 1)
def execCpctlCancel (s : State) : Host.Outcome State Fault Refusal := .next (s.cpctl s.req.core.die s.req.core.core.val s.req.handle 2)

/-! ### Quires (R145, R147) -/

def Die.quire (d : Die) (q : Nat) : Quire := tget {} d.quires q

/-- The harts of a die that have joined a quire and wait, lowest position first. -/
def State.joiners (s : State) (d : Fin 4) (q : Nat) : List (HartId × Joining) :=
  s.harts.filterMap fun (k, x) =>
    match x.joining with
    | some j => if k / 768 == d.val && j.quire == q && j.result.isNone && x.task.isSome && !x.halted then
        some (⟨Fin.ofNat 4 (k / 768), Fin.ofNat 96 (k / 8 % 96), Fin.ofNat 8 (k % 8)⟩, j) else none
    | none => none

/-- One joiner of each core. -/
def oneEachCore : List (HartId × Joining) → List (HartId × Joining)
  | [] => []
  | x :: rest => x :: (oneEachCore rest).filter fun y => y.1.core != x.1.core

/-- The joiners whose wait ends together (R145): the first whose n harts have joined, and others up to n in all, in core order.
DESIGN CHOICE (log 62): where more than n wait, on a quire number that was held, those of the lowest cores are taken. -/
def joinGroup (js : List (HartId × Joining)) : List (HartId × Joining) :=
  match js.find? fun x => decide (x.2.n ≤ js.length) with
  | none => []
  | some x => let g := (x :: js.filter (· != x)).take x.2.n; js.filter g.contains

/-- Forms a quire, or fails it, once n harts of n distinct cores have joined (R145). -/
def State.formQuire (s : State) (d : Fin 4) (q : Nat) : State :=
  let js := joinGroup (oneEachCore (s.joiners d q))
  if (s.die d).quire q |>.members.isEmpty then
    match js with
    | [] => s
    | (h0, j0) :: _ =>
        let lanes := (s.core (coreOf h0)).harts
        let good := js.all fun x => x.2.n == js.length && x.2.vl == j0.vl && (s.core (coreOf x.1)).harts == lanes && (s.hart x.1).asid == (s.hart h0).asid
        let s := (js.zipIdx).foldl (fun s (x, rank) =>
          let y := s.hart x.1
          let r : BitVec 64 := if good then BitVec.ofNat 64 rank else BitVec.ofInt 64 (-2)
          s.setHart x.1 { y with joining := some { x.2 with result := some r }, quire := if good then some (q, rank) else y.quire }) s
        if good then s.setDie d { s.die d with quires := tput (s.die d).quires q ⟨js.map fun x => (s.hart x.1).taskNo⟩ } else s
  else s

/-- QJOIN (R145). A reserved value of Sa or Sb is an illegal instruction (log 17). -/
def qjoinBody (o : HT16R) : Act Unit := do
  let x ← getCur
  let a := (← reg o.a).toNat
  let b := (← reg o.b).toNat
  match x.joining with
  | some j =>
    match j.result with
    | some r =>
      modCur fun x => { x with joining := none, vl := if x.quire.isSome then j.vl else x.vl }
      setReg o.d r
    | none => join x a b
  | none =>
    if x.quire.isSome then setReg o.d (BitVec.ofInt 64 (-3)) else join x a b
where
  join (x : Hart) (a b : Nat) : Act Unit := do
    trapIf (decide (64 ≤ a) || bits b 5 11 != 0 || bits b 32 32 != 0 || decide (bits b 0 5 < 2) || decide (16 < bits b 0 5)) Cause.illegal
    let s ← get
    let d := s.curHart.die
    trapIf ((s.joiners d a).any fun y => (s.hart y.1).asid != x.asid) Cause.violation
    modCur fun x => { x with joining := some ⟨a, bits b 0 5, BitVec.ofNat 13 (min (bits b 16 16) 4096), none⟩ }
    modify fun s => s.formQuire d a
    let y ← getCur
    match y.joining.bind (·.result) with
    | none => throw .wait
    | some r =>
      modCur fun x => { x with joining := none, vl := if x.quire.isSome then BitVec.ofNat 13 (min (bits b 16 16) 4096) else x.vl }
      setReg o.d r

def execQjoin (o : HT16R) (s : State) : Host.Outcome State Fault Refusal := finish (qjoinBody o) s

/-- A delivery to a task is outstanding on a die (R145). -/
def State.deliveryDue (s : State) (d : Fin 4) (t : Nat) : Bool :=
  s.cores.any fun (k, c) => k / 96 == d.val && c.wells.any fun (_, w) =>
    match w.copy with
    | some c => c.dest.isSome && c.members.contains t && decide (tget 0 c.landed t < c.entries)
    | none => false

/-- A task leaves its quire; the quire dissolves with its last member. -/
def State.leaveQuire (s : State) (d : Fin 4) (q t : Nat) : State :=
  let x := s.die d
  s.setDie d { x with quires := tput x.quires q ⟨(x.quire q).members.filter (· != t)⟩ }

/-- QLEAVE (R145). -/
def execQleave (o : HT16R) (s : State) : Host.Outcome State Fault Refusal :=
  finish (do
    let s ← get
    let x := s.cur
    match x.quire with
    | none => setReg o.d (BitVec.ofInt 64 (-1))
    | some (q, _) =>
      waitFor (!s.deliveryDue s.curHart.die x.taskNo)
      modify fun s => s.leaveQuire s.curHart.die q x.taskNo
      modCur fun x => { x with quire := none }
      setReg o.d 0) s

/-! ### COPYQ (R146) -/

/-- The binding that covers a register, with its first register. -/
def Hart.covering (x : Hart) (v : Nat) : Option (Nat × Binding) :=
  x.bindings.find? fun (k, b) => decide (k ≤ v) && decide (v < k + b.grp.size)

/-- COPYQ (R146). DESIGN CHOICE (log 90): Cs of 64 or more takes the copy trap. -/
def execCopyq (o : HT16VS) (s : State) : Host.Outcome State Fault Refusal :=
  finish (do
    let s ← get
    let x := s.cur
    let c := (← reg o.s).toNat
    let w := s.regBits / 8
    let new : Copy := { ctl := x.getC 0, ruling := x.ruling, dest := some o.v, quire := x.quire.map Prod.fst, width := w,
                        members := match x.quire with
                          | some (q, _) => ((s.die s.curHart.die).quire q).members
                          | none => [x.taskNo] }
    trapIf (ctlReserved (x.getC 0) || decide (64 ≤ c) || new.unit * new.total % w != 0 ||
      (x.quire.isNone && (x.covering o.v.val).isNone)) Cause.copy
    let well ← copyIssue c
    attach c well new) s

/-- Entry e of a COPYQ, with its failing bytes. -/
def Copy.entry (c : Copy) (e : Nat) : Entry :=
  { data := BitVec.ofNat 16384 (leNat ((c.bytes.drop (e * c.width)).take c.width))
    bad := c.badAt.filterMap fun (k, va, pad) => if k / c.width = e then some { bit := 8 * (k % c.width), width := 8, va := va, pad := pad } else none }

/-- A copy issued earlier by the same owner has still to deliver entries to a member's register (R151). -/
def Core.deliversFirst (k : Core) (owner : Option Nat) (c : Copy) (t : Nat) : Bool :=
  k.wells.any fun (_, w) => w.owner == owner && match w.copy with
    | some y => y.dest == c.dest && decide (y.seq < c.seq) && y.members.contains t && decide (tget 0 y.landed t < y.entries)
    | none => false

/-- COPYQ_DELIVERY (R146, R151): the next entry for the member on `req.hart` from well `req.handle` of core `req.core`. It waits
while the register is unbound or full, and faults at an entry directed at a binding that cannot take it. -/
def execCopyqDelivery (s : State) : Host.Outcome State Fault Refusal :=
  let id := s.req.core
  let k := s.req.handle.val
  match s.activeCopy id k with
  | none => .next s
  | some (h, _, w, c) =>
    let m := s.req.hart
    let x := s.hart m
    let e := tget 0 c.landed x.taskNo
    match c.dest with
    | none => .next s
    | some v =>
      if x.task.isNone || x.halted || (s.core id).deliversFirst w.owner c x.taskNo || !c.members.contains x.taskNo || decide (c.entries ≤ e) || decide (c.bytes.length < (e + 1) * c.width) then .next s
      else match x.covering v.val with
        | none => .next s
        | some (r, b) =>
          if b.kind != 0 || b.grp != .g1 then
            let it := e * c.width / c.unit
            .next (s.stopCopy h k w c it true Cause.streamMismatch (vaOfInt (c.source it)))
          else if b.depth ≤ b.entries.length + b.filling.isSome.toNat then .next s
          else
            let s := s.setHart m (x.setBind r (some { b with entries := b.entries ++ [c.entry e], cursor := b.cursor + 1 }))
            .next (s.keepCopy id k w { c with landed := tput c.landed x.taskNo (e + 1) })

end Sys2Proof.Machine
end

