-- ==== Sys2Proof/Machine/Streams.lean ====
section
/-! DEFINITION. Bindings, stream records, stream fills and the explicit loads of the A-stream (R148 to R161, R239). -/

namespace Sys2Proof.Machine

/-! ### Reading elements into an entry (R86, R87, R156, R174) -/

/-- Where one element of an entry comes from: a byte address, its bytes, the bit of its nibble; zero where no memory is
read. -/
inductive Source where
  | zero
  | at' (a : Int) (n sh : Nat)
  | fault (cause : BitVec 16) (addr : BitVec 64)
  deriving DecidableEq, Repr

/-- The access of element e of width w at an exact byte address (R174). -/
def sourceOf (w e : Nat) (a : Int) : Source := .at' a (max 1 (w / 8)) (if w = 4 then 4 * (e % 2) else 0)

/-- The index of the entry whose fill comes next: the one that a fault stopped, or the one at the cursor. -/
def Binding.index (b : Binding) : Nat := match b.filling with | some p => p.index | none => b.cursor

/-- The fill of the next entry is issued: the cursor stands past it. -/
def Binding.issued (b : Binding) : Binding := if b.filling.isSome then b else { b with cursor := b.cursor + 1 }

/-- A fault or an invalidation stops the fill of an entry, of which the elements below `next`, and those of `done`, are written. -/
def Binding.hold (b : Binding) (data : Nat) (next : Nat) (bad : List BadPiece) (done : List Nat := []) : Binding :=
  { b.issued with filling := some ⟨b.index, BitVec.ofNat 16384 data, next, bad, done⟩ }

/-- An entry of a binding, filled with elements of width w, is complete. -/
def Binding.push (b : Binding) (w data : Nat) (bad : List BadPiece) (tag : Option (BitVec 64) := none) : Binding :=
  { b.issued with entries := b.entries ++ [{ data := BitVec.ofNat 16384 data, tag := tag, width := w, bad := bad }], filling := none }

/-- Room for one more entry filled or in flight (R154). -/
def Binding.room (b : Binding) : Bool := decide (b.entries.length + b.filling.isSome.toNat < b.depth)

def putBinding (v : Nat) (b : Binding) : Act Unit := modCur fun x => x.setBind v (some b)

/-- Where a filled element is read: its place, none where no memory is read, its address, its bytes, its bit. -/
structure Spot where
  at'  : Option Mapped
  va   : BitVec 64
  n    : Nat
  sh   : Nat
  deriving DecidableEq, Repr

/-- Translates the pages of the elements of an entry before any is read (R86). -/
def sortSources (src : Nat → Source) : List Page → List Nat → Act (Sorted Spot)
  | _, [] => pure []
  | pages, e :: es => do
    match src e with
    | .zero => return (e, .at' ⟨none, 0, 0, 0⟩) :: (← sortSources src pages es)
    | .fault c a => return (e, .fault { cause := c, addr := a }) :: (← sortSources src pages es)
    | .at' a n sh =>
      let (r, pages) ← sortOne pages a n .read
      return (e, r.map fun m => ⟨some m, vaOfInt a, n, sh⟩) :: (← sortSources src pages es)

/-- Who reports a failing sector of a filled element (R114, R154, R156): the load itself, or the pop of its entry. -/
inductive Report where
  | load | pop
  deriving DecidableEq, Repr

/-- Reads one element: its bits, and a piece where its sector's check fails and the pop reports it (R154). -/
def readSpot (w pos : Nat) (rep : Report) (p : Spot) : Act (Nat × Option BadPiece) := do
  match p.at', rep with
  | none, _ => return (0, none)
  | some m, .load =>
    let b ← readPa (some m.key) m.pa p.n p.va
    return (leNat b / 2 ^ p.sh % 2 ^ w, none)
  | some m, .pop =>
    let b ← memTake (some m.key) m.pa p.n
    return (leNat (b.map Prod.fst) / 2 ^ p.sh % 2 ^ w, if b.any (·.2) then some { bit := pos, width := w, va := p.va, sh := p.sh } else none)

/-- The elements of an entry as far as they are read: the bits, the failing pieces, the next element. -/
abbrev Filled := Nat × List BadPiece × Nat

/-- Reads sorted elements in order, up to the first fault. -/
def readSpots (w : Nat) (rep : Report) : List (Nat × Spot) → Filled → Act (Filled × Option TrapInfo)
  | [], acc => pure (acc, none)
  | (e, p) :: rest, (v, bad, k) => do
    match ← tryAct (readSpot w (w * e) rep p) with
    | .ok (x, q) => readSpots w rep rest (v + x * 2 ^ (w * e), bad ++ q.toList, e + 1)
    | .error i => return ((v, bad, k), some (faultOf e i))

/-- A first-fault form ends before the faulting element, above element 0; an integrity fault and a violation are never shortened
(R156, R341). -/
def shortens (i : TrapInfo) (e : Nat) : Bool := decide (0 < e) && i.cause != Cause.violation && i.cause != Cause.integrity

/-- The lowest element that stops a fill. -/
def Halt.elem : Halt → Nat
  | .fault i => i.elem.getD 0
  | .later e => e

/-- Fills the elements of a list, of n elements of an entry that holds `acc`: a fault at element e leaves the elements below it in the entry,
which `keep` holds with the elements read above it (R156); with `first`, a first-fault form ends the load there. Where an invalidation
came before an element was translated, the load goes on with it in a later turn (R85). `at'` gives the element at which a stop at an
element is reported. -/
def fillFrom (w n : Nat) (src : Nat → Source) (rep : Report) (first : Bool) (keep : Filled → List Nat → Act Unit) (es : List Nat) (acc : Filled)
    (at' : Nat → Nat := id) : Act Filled := do
  let (l, stop) := passing (← sortSources src [] es)
  let (acc, fault) ← readSpots w rep l acc
  match (fault.map Halt.fault) <|> stop with
  | none => return (acc.1, acc.2.1, n)
  | some h =>
    let read := (l.map Prod.fst).filter fun e => match fault with | some i => decide (e < i.elem.getD 0) | none => true
    match h with
    | .later e =>
      keep (acc.1, acc.2.1, e) (read.filter fun k => decide (e ≤ k))
      throw .again
    | .fault i =>
      let e := at' (i.elem.getD 0)
      if first && shortens i e then return (acc.1 % 2 ^ (w * e), acc.2.1, e)
      else
        if i.cause = Cause.violation then pure () else keep (acc.1, acc.2.1, e) (read.filter fun k => decide (e ≤ k))
        throw (.trap (if i.elem.isSome then { i with elem := some e } else i))

/-- The elements from e0 up to n. -/
def rangeFrom (e0 n : Nat) : List Nat := (List.range n).filter fun e => decide (e0 ≤ e)

/-- The entry of a binding being filled, from its start or from where a fault or an invalidation left it. -/
def Binding.partial' (b : Binding) : Filled :=
  match b.filling with
  | some p => (p.data.toNat, p.bad, p.next)
  | none => (0, [], 0)

/-- The elements of the entry that an invalidation left read above those not yet translated (R85). -/
def Binding.readAbove (b : Binding) : List Nat :=
  match b.filling with
  | some p => p.done
  | none => []

/-- The elements of n that are still to be read. -/
def Binding.toRead (b : Binding) (n : Nat) : List Nat := (rangeFrom b.partial'.2.2 n).filter fun e => !b.readAbove.contains e

/-- Fills an entry of the binding of v with n elements of width w, from its start or from where a fault or an invalidation left it. -/
def fillEntry (v : Nat) (b : Binding) (w n : Nat) (rep : Report) (first : Bool) (src : Nat → Source) (at' : Nat → Nat := id) : Act Filled :=
  fillFrom w n src rep first (fun p l => putBinding v (b.hold p.1 p.2.2 p.2.1 ((b.readAbove.filter fun e => decide (p.2.2 ≤ e)) ++ l))) (b.toRead n) b.partial' at'

/-! ### Explicit loads (R155 to R159) -/

/-- The binding an explicit load fills: the stream trap unless v is the first register of a kind-0 binding of the load's
group. -/
def loadBinding (v : Nat) (g : Group) : Act Binding := do
  let x ← getCur
  match x.bind v with
  | none => trap Cause.stream
  | some b =>
    trapIf (b.kind != 0 || b.grp != g) Cause.stream
    return b

/-- E for a format (R148). -/
def entryElems (s : State) (g : Group) (w : Nat) : Nat := s.regBits * g.size / w

/-- Fills one entry of a kind-0 binding with n elements (R155, R156): waits for a free entry, behind the rows of MRLDFF
(R239). Answers the elements read. -/
def loadEntry (v : Nat) (b : Binding) (w n : Nat) (first : Bool) (tag : Option (BitVec 64)) (src : Nat → Source) : Act Nat := do
  waitFor ((b.filling.isSome || b.room) && b.rows.isEmpty)
  let (d, bad, e) ← asKind 1 (BitVec.ofNat 6 v) (BitVec.ofNat 32 b.index) (fillEntry v b w n .load first src)
  putBinding v (b.push w d bad tag)
  return e

/-- VLD, VLDS and VLDFF (R155). -/
def explicitLoad (strided first : Bool) (o : HT48VM) : Act Unit := do
  let b ← loadBinding o.v.val o.group
  let s ← get
  let w := o.fmt.width
  let full := entryElems s o.group w
  let a := (← reg o.s).toNat
  let n := if bits a 32 16 = 0 then full else bits a 32 16
  trapIf (bits a 48 16 != 0 || (!strided && bits a 0 32 != 0) || decide (full < n)) Cause.stream
  let base := scalarAddr (← reg o.base) o.disp
  let stride := (BitVec.ofNat 32 a).toInt
  let got ← loadEntry o.v.val b w n first none fun e =>
    if strided then sourceOf w e (base + e * stride) else sourceOf w e (base + (e * w / 8 : Nat))
  if first then setReg o.s (BitVec.ofNat 64 got) else pure ()

def execVld (o : HT48VM) (s : State) : Host.Outcome State Fault Refusal := finish (explicitLoad false false o) s
def execVlds (o : HT48VM) (s : State) : Host.Outcome State Fault Refusal := finish (explicitLoad true false o) s
def execVldff (o : HT48VM) (s : State) : Host.Outcome State Fault Refusal := finish (explicitLoad false true o) s

/-- VLDW (R157): the whole group, tagged with the address of element 0. -/
def execVldw (o : HT48VM) (s : State) : Host.Outcome State Fault Refusal :=
  finish (do
    let b ← loadBinding o.v.val o.group
    let w := o.fmt.width
    let n := entryElems (← get) o.group w
    let base := scalarAddr (← reg o.base) o.disp
    let _ ← loadEntry o.v.val b w n false (some (vaOfInt base)) fun e => sourceOf w e (base + (e * w / 8 : Nat))
    pure ()) s

/-- A read of n bytes of a chunk object for the load's own use (R158). -/
def chunkRead (a : Int) (n : Nat) : Act Nat := do
  if !canonicalInt a then faultAt Cause.nonCanonical (vaOfInt a)
  else return leNat (← readBlockCur (vaOfInt a) n)

/-- The header of a chunk object (R158), or the chunk-format fault: the chunks, the offset table and the data. DESIGN CHOICE (log 92): an
object that is not 64-byte aligned is the misalignment fault. -/
def chunkHeader (obj : Int) (f : Fmt) : Act (Nat × Nat × Nat) := do
  if (vaOfInt obj).toNat % 64 != 0 && canonicalInt obj then faultAt Cause.misalignment (vaOfInt obj)
  else
    let h ← chunkRead obj 32
    if bits h 0 32 != 0x3148434B || bits h 32 8 != f.code || bits h 128 64 % 16 != 0 || bits h 192 64 % 16 != 0 then
      faultAt Cause.chunkFormat (vaOfInt obj)
    else return (bits h 64 32, bits h 128 64, bits h 192 64)

/-- One chunk: its bitmap and the address of its packed values (R158). Its zero padding to 16 bytes belongs to it. A misaligned offset is the fault of the chunk that it
names; that of the next chunk only bounds this one. -/
def chunkAt (obj : Int) (w nch tab data c : Nat) : Act (Nat × Int) := do
  let off ← chunkRead (obj + tab + 4 * c) 4
  let a := obj + data + off
  if off % 16 != 0 then faultAt Cause.chunkFormat (vaOfInt a)
  else
    let map ← chunkRead a 16
    let ones := ((List.range 128).filter map.testBit).length
    if c + 1 < nch then
      let next ← chunkRead (obj + tab + 4 * (c + 1)) 4
      if next < off + 16 + (ones * w + 127) / 128 * 16 then faultAt Cause.chunkFormat (vaOfInt a) else pure ()
    else pure ()
    return (map, a + 16)

/-- The heads of chunks c + k for the k of a list, up to the first that faults. -/
def chunkHeads (obj : Int) (w nch tab data c : Nat) : List Nat → Act (List (Nat × Except TrapInfo (Nat × Int)))
  | [] => pure []
  | k :: ks => do
    if nch ≤ c + k then chunkHeads obj w nch tab data c ks
    else match ← tryAct (chunkAt obj w nch tab data (c + k)) with
      | .error i => return [(k, .error i)]
      | .ok x => return (k, .ok x) :: (← chunkHeads obj w nch tab data c ks)

/-- The source of element e of a VLDCH whose chunks have these heads: the next packed value where the bitmap has a 1. -/
def chunkSource (w : Nat) (heads : List (Nat × Except TrapInfo (Nat × Int))) (e : Nat) : Source :=
  let i := e % 128
  match (heads.find? fun x => x.1 == e / 128).map Prod.snd with
  | none => .zero
  | some (.error f) => .fault f.cause f.addr
  | some (.ok (map, a)) =>
    if map.testBit i then
      let p := ((List.range i).filter map.testBit).length
      .at' (a + (p * w / 8 : Nat)) (max 1 (w / 8)) (p * w % 8)
    else .zero

/-- The first element of the chunk of element e, at which a fault of the chunk is reported (R158). -/
def chunkStart (e : Nat) : Nat := e / 128 * 128

/-- VLDCH (R158): the heads of its chunks, then, with every page translated (R86), the values. -/
def vldchBody (o : HT48VM) : Act Unit := do
  let b ← loadBinding o.v.val o.group
  let w := o.fmt.width
  let n := entryElems (← get) o.group w
  trapIf (decide (w < 4) || decide (32 < w) || n % 128 != 0) Cause.stream
  waitFor ((b.filling.isSome || b.room) && b.rows.isEmpty)
  let obj := scalarAddr (← reg o.base) o.disp
  let c := (← reg o.s).toNat
  let e0 := b.partial'.2.2
  let d ← asKind 1 (BitVec.ofNat 6 o.v.val) (BitVec.ofNat 32 b.index) (do
    let (nch, tab, data) ← atElem (chunkStart e0) (chunkHeader obj o.fmt)
    let heads ← chunkHeads obj w nch tab data c (rangeFrom (e0 / 128) (n / 128))
    return (← fillEntry o.v.val b w n .load false (chunkSource w heads) chunkStart).1)
  putBinding o.v.val (b.push w d [])

def execVldch (o : HT48VM) (s : State) : Host.Outcome State Fault Refusal := finish (vldchBody o) s

/-- The kind-3 binding that VLDX and VLDT pop, with its oldest entry (R159): the stream trap, or the wait. -/
def indexEntry (x : Nat) : Act (Binding × Nat × Nat) := do
  let h ← getCur
  match h.bind x with
  | none => trap Cause.stream
  | some b =>
    trapIf (b.kind != 3) Cause.stream
    match b.entries with
    | [] => throw .wait
    | e :: _ => return (b, e.data.toNat, (← get).regBits * b.grp.size)

/-- Ends VLDX and VLDT: the index entry leaves its queue when the load completes, so that a resumed load finds it. -/
def popIndex (x : Nat) : Act Unit :=
  modCur fun h => match h.bind x with
    | some b => h.setBind x (some { b with entries := b.entries.drop 1 })
    | none => h

/-- VLDX (R159). -/
def execVldx (o : HT48VX) (s : State) : Host.Outcome State Fault Refusal :=
  finish (do
    let b ← loadBinding o.v.val o.group
    let (_, idx, wb) ← indexEntry o.x.val
    let w := o.fmt.width
    let n := min (entryElems (← get) o.group w) (wb / 64)
    let base := (← reg o.base).toInt + o.disp.toInt
    let _ ← loadEntry o.v.val b w n false none fun e => sourceOf w e (base + (BitVec.ofNat 64 (elemAt 64 idx e)).toInt)
    popIndex o.x.val) s

/-- A shape record (Table 10.5) from the index entry. -/
structure Shape where
  base  : BitVec 64
  rank  : Nat
  clip  : Bool
  exts  : List Nat
  strs  : List Int
  first : Nat
  count : Nat
  deriving DecidableEq, Repr

/-- Reads a shape record: none where a field is out of range (R159; an extent below 1, log 18). -/
def shapeOf (f : Fmt) (full v : Nat) : Option Shape :=
  let el (i : Nat) : Nat := elemAt 64 v i
  let sg (i : Nat) : Int := (BitVec.ofNat 64 (el i)).toInt
  let rank := bits (el 1) 0 3
  let exts := (List.range rank).map fun k => sg (2 + k)
  if rank = 0 ∨ 6 < rank ∨ bits (el 1) 8 5 ≠ f.code ∨ bits (el 1) 3 5 ≠ 0 ∨ bits (el 1) 13 3 ≠ 0 ∨ bits (el 1) 17 47 ≠ 0 ∨
      full < el 15 ∨ exts.any (fun x => decide (x < 1)) then none
  else some ⟨BitVec.ofNat 64 (el 0), rank, (el 1).testBit 16, exts.map Int.toNat, (List.range rank).map fun k => sg (8 + k), el 14,
    if el 15 = 0 then full else el 15⟩

/-- The source of element e of a shape (R159). -/
def Shape.source (sh : Shape) (w : Nat) (off : Int) (e : Nat) : Source :=
  let l := sh.first + e
  let all := sh.exts.foldl (· * ·) 1
  if all ≤ l then (if sh.clip then .zero else .fault Cause.shapeRange sh.base)
  else
    let go := (sh.exts.zip sh.strs).foldl (fun (acc : Int × Nat) (x, st) => (acc.1 + (l / acc.2 % x : Nat) * st, acc.2 * x)) (0, 1)
    sourceOf w e (sh.base.toInt + off + go.1)

/-- VLDT (R159). -/
def execVldt (o : HT48VX) (s : State) : Host.Outcome State Fault Refusal :=
  finish (do
    let b ← loadBinding o.v.val o.group
    let (_, v, wb) ← indexEntry o.x.val
    let w := o.fmt.width
    trapIf (decide (wb < 1024)) Cause.stream
    match shapeOf o.fmt (entryElems (← get) o.group w) v with
    | none => trap Cause.stream
    | some sh =>
      let off := (← reg o.base).toInt + o.disp.toInt
      let _ ← loadEntry o.v.val b w sh.count false none (sh.source w off)
      popIndex o.x.val) s

/-! ### Stream records (R152, R153, R161) -/

def groupOfCode : Nat → Group
  | 0 => .g1 | 1 => .g2 | 2 => .g4 | _ => .g8

/-- A record is well formed by itself (Tables 10.1, 10.2), with its binding; kind 2 still lacks its descriptor. -/
def recordOf (v : Nat) : Option Binding :=
  let kind := bits v 0 3
  let f := Fmt.ofCode (bits v 8 5)
  let depth := bits v 24 4
  match f with
  | none => none
  | some f =>
    let common := bits v 3 5 == 0 && bits v 13 3 == 0 && bits v 18 6 == 0 && bits v 28 4 == 0 && decide (depth ≤ 8) && bits v 384 128 == 0 &&
      decide (bits v 8 5 ≤ 0x0E)
    let b : Binding := { kind := kind, grp := groupOfCode (bits v 16 2), fmt := f, depth := if depth = 0 then 4 else depth, count := bits v 32 32 }
    if !common then none
    else match kind with
      | 0 => if bits v 32 32 = 0 ∧ bits v 64 320 = 0 then some b else none
      | 3 => if bits v 32 32 = 0 ∧ bits v 64 320 = 0 ∧ f = .i64 then some b else none
      | 1 => if bits v 320 64 = 0 ∧ bits v 160 32 ≠ 0 then
          some { b with base := BitVec.ofNat 64 (bits v 64 64), estr := BitVec.ofNat 32 (bits v 128 32), nin := bits v 160 32,
                        istr := BitVec.ofNat 64 (bits v 192 64), ostr := BitVec.ofNat 64 (bits v 256 64), total := bits v 32 32 }
        else none
      | 2 => if bits v 192 192 = 0 ∧ bits v 160 16 % 8 = 0 then
          some { b with base := BitVec.ofNat 64 (bits v 64 64), start := bits v 128 32, roff := bits v 160 16, slice := bits v 176 16 }
        else none
      | _ => none

/-- The limits of R148 and the placement of R161. -/
def bindFits (x : Hart) (v : Nat) (b : Binding) : Bool :=
  let g := b.grp.size
  v % g == 0 && decide (v + g ≤ 64) && !(x.bindings.any fun (k, y) => overlaps ⟨v, g, 1⟩ k y) &&
  decide (x.bindings.length < 16) && decide (x.bindings.foldl (fun n (_, y) => n + y.depth * y.grp.size) (b.depth * g) ≤ 32)

/-- Positions in one entry of a KV-extent stream (R153). -/
def positionsPer (s : State) (b : Binding) : Nat := s.regBits * b.grp.size / (8 * b.slice)

/-- Completes a kind-2 binding with its descriptor's snapshot (R153). -/
def withDescriptor (v : Nat) (b : Binding) : Act Binding := do
  let s ← get
  let wb := s.regBits * b.grp.size / 8
  trapIf (b.base.toNat % 64 != 0 || !((List.range 14).any fun k => decide (b.slice = 8 * 2 ^ k)) || decide (wb < b.slice)) Cause.stream
  let img ← asKind 4 (BitVec.ofNat 6 v) 0 (do
    if !canonical b.base then faultAt Cause.nonCanonical b.base else readBlockCur b.base 320)
  let d := descOf (leNat img)
  trapIf (!d.live || descCode (leNat img) != 0 || decide (d.rowb < b.roff + b.slice)) Cause.stream
  let per := positionsPer s b
  return { b with len := d.len, extents := d.exts, total := (b.count + per - 1) / per }

/-- SBIND (R152, R161). -/
def sbindBody (o : HT16VS) : Act Unit := do
  let v := o.v.val
  let a ← reg o.s
  let b ← if o.s = 0 then pure (some {}) else do
    trapIf (a.toNat % 64 != 0) Cause.stream
    let r ← asKind 4 (BitVec.ofNat 6 v) 0 (do
      if !canonical a then faultAt Cause.nonCanonical a else readBlockCur a 64)
    pure (recordOf (leNat r))
  match b with
  | none => trap Cause.stream
  | some b =>
    trapIf (!bindFits (← getCur) v b) Cause.stream
    let b ← if b.kind = 2 then withDescriptor v b else pure b
    putBinding v b

def execSbind (o : HT16VS) (s : State) : Host.Outcome State Fault Refusal := finish (sbindBody o) s

/-- The fill of a stream or of a requested row that is in flight (R150, log 64): begun, stopped by a fault, resumed and not yet complete.
What an explicit load left when its task was resumed past it is no fill in flight. -/
def Binding.inFlight (b : Binding) : Bool := b.filling.isSome && (b.kind == 1 || b.kind == 2 || !b.rows.isEmpty)

/-- Frees one binding of a hart: its entries, and that of a fill in flight, are discarded and counted (R150). -/
def State.freeBinding (s : State) (h : HartId) (v : Nat) : State :=
  let x := s.hart h
  match x.bind v with
  | none => s
  | some b => (s.setHart h (x.setBind v none)).countHart h 0x20 (b.entries.length + b.inFlight.toNat)

/-- SFREE (R150): it waits for a fill in flight; fills not yet begun stop. -/
def execSfree (o : HT16VS) (s : State) : Host.Outcome State Fault Refusal :=
  finish (do
    match (← getCur).bind o.v.val with
    | none => trap Cause.stream
    | some b =>
      waitFor !b.inFlight
      modify fun s => s.freeBinding s.curHart o.v.val) s

/-- SSKIP (R161). -/
def execSskip (o : HT16VS) (s : State) : Host.Outcome State Fault Refusal :=
  finish (do
    match (← getCur).bind o.v.val with
    | none => trap Cause.stream
    | some b =>
      trapIf (b.kind == 0 || b.kind == 3) Cause.stream
      let n := (← reg o.s).toNat
      putBinding o.v.val { b with cursor := min b.total (b.cursor + n) }) s

/-- The value of SSTAT (Table 10.6). DESIGN CHOICE (log 94): the fill cursor of a kind-3 binding stays 0, since pushes are no fills. -/
def statOf (b : Option Binding) : BitVec 64 :=
  match b with
  | none => 0
  | some b => BitVec.ofNat 64 (2 ^ 63 + b.kind * 2 ^ 60 + b.short.toNat * 2 ^ 40 + b.entries.length % 256 * 2 ^ 32 + b.cursor % 2 ^ 32)

def execSstat (o : HT16VS) (s : State) : Host.Outcome State Fault Refusal :=
  .next (s.setR o.s (statOf (s.cur.bind o.v.val))).complete

/-! ### Fills (R153, R154) -/

/-- The units that a stream's entry j is read in: the source of unit k of width w; for kind 1 elements, for kind 2 pieces of 8
bytes. -/
def fillSource (b : Binding) (j per : Nat) (k : Nat) : Source :=
  if b.kind = 1 then
    sourceOf b.fmt.width k (b.base.toInt + (j / b.nin : Nat) * b.ostr.toInt + (j % b.nin : Nat) * b.istr.toInt + k * b.estr.toInt)
  else
    let q := b.slice / 8
    let p := b.start + j * per + k / q
    if b.start + b.count ≤ p ∨ b.len ≤ p then .zero
    else match rowAddr b.extents p with
      | some a => .at' (a.toInt + b.roff + 8 * (k % q)) 8 0
      | none => .zero

/-- A position of entry j at or above the snapshot LEN sets SHORT (R153). -/
def fillShort (b : Binding) (j per : Nat) : Bool :=
  b.kind == 2 && decide (b.len < min (b.start + (j + 1) * per) (b.start + b.count))

/-- An engine's A-side fault halts the hart with the record of Table 24.2. -/
def State.aSideFault (s : State) (h : HartId) (i : TrapInfo) : State := s.setHart h ((s.hart h).takeTrap .a i)

/-- The hart can be filled for: it holds a task and is not halted (R329). -/
def State.fillable (s : State) (h : HartId) : Bool := (s.hart h).task.isSome && !(s.hart h).halted

/-- STREAM_FILL: the next entry of the binding of `req.reg` of hart `req.hart`. -/
def execStreamFill (s : State) : Host.Outcome State Fault Refusal :=
  let h := s.req.hart
  let v := s.req.reg.val
  match (s.hart h).bind v with
  | none => .next s
  | some b =>
    if !s.fillable h || !(b.kind == 1 || b.kind == 2) || !(b.filling.isSome || (decide (b.cursor < b.total) && b.room)) then .next s
    else
      let m : Act Unit := do
        let per := positionsPer (← get) b
        let w := if b.kind = 1 then b.fmt.width else 64
        let n := (← get).regBits * b.grp.size / w
        let (d, bad, _) ← fillEntry v b w n .pop false (fillSource b b.index per)
        putBinding v { b.push b.fmt.width d bad with short := b.short || fillShort b b.index per }
      match onBehalf h .a m s with
      | (.error (.trap i), s') =>
        let e := if b.kind = 1 then i.elem else i.elem.map fun e => e * 64 / b.fmt.width
        .next (s'.aSideFault h { i with elem := e, akind := 2, abind := BitVec.ofNat 6 v, aent := BitVec.ofNat 32 b.index })
      | (_, s') => .next s'

/-! ### MRLDFF (R239) -/

/-- The lines of n rows of len bytes from an address: the row, the element of width w at the line's start, the line's address. -/
def rowLines (a : BitVec 64) (len w n : Nat) : List (Nat × Nat × BitVec 64) :=
  (List.range n).flatMap fun q =>
    let r := a + BitVec.ofNat 64 (q * len)
    (linePieces r len).map fun (p, _) => (q, (p - r).toNat * 8 / w, p)

/-- Translates every page of the rows of a request (R86), then answers the first row that holds a faulting element, its fault and
all of them. -/
def sortRows : List Page → List (Nat × Nat × BitVec 64) → Option (Nat × TrapInfo) → Act (Option (Nat × TrapInfo))
  | _, [], bad => pure bad
  | pages, (q, e, p) :: rest, bad => do
    let (r, pages) ← sortOne pages p.toInt 1 .read
    sortRows pages rest (bad <|> match r with | .fault i => some (q, faultOf e i) | _ => none)

/-- MRLDFF (R239): `row` names Ad, `count` n. Its translations only say which rows are requested; each fill translates anew (R85). An integrity fault, of a table's sector, and a violation are never shortened (R156,
R341). -/
def mrldffBody (o : HT48MX) (ad : Fin 32) : Act Unit := do
  let v := o.v.val
  let a ← reg o.s
  let s ← get
  match s.cur.bind v with
  | none => trap Cause.stream
  | some b =>
    trapIf (b.kind != 0 || b.grp != o.group || b.fmt != o.fa || !canonical a || a.toNat % 64 != 0) Cause.stream
    let len := s.regBits * b.grp.size / 8
    let bad ← allPages (sortRows [] (rowLines a len b.fmt.width o.count.val) none)
    let q := match bad with | some (q, _) => q | none => o.count.val
    match bad with
    | some (q, i) =>
      if shortens i q then pure ()
      else throw (.trap { i with akind := 3, abind := BitVec.ofNat 6 v, aent := BitVec.ofNat 32 (b.index + b.rows.length + q) })
    | none => pure ()
    putBinding v { b with rows := b.rows ++ (List.range q).map fun k => a + BitVec.ofNat 64 (k * len) }
    setReg ad (BitVec.ofNat 64 q)

def execMrldff (o : HT48MX) (s : State) : Host.Outcome State Fault Refusal := finish (mrldffBody o (Fin.ofNat 32 o.row.val)) s

/-- MRLDFF_ROW_FILL: the oldest requested row of the binding of `req.reg` of hart `req.hart`. -/
def execMrldffRowFill (s : State) : Host.Outcome State Fault Refusal :=
  let h := s.req.hart
  let v := s.req.reg.val
  match (s.hart h).bind v with
  | none => .next s
  | some b =>
    match b.rows with
    | [] => .next s
    | a :: rest =>
      if !s.fillable h || !(b.filling.isSome || b.room) then .next s
      else
        let w := b.fmt.width
        let m : Act Unit := do
          let n := (← get).regBits * b.grp.size / w
          let (d, bad, _) ← fillEntry v b w n .pop false fun e => .at' (a.toInt + (e * w / 8 : Nat)) (max 1 (w / 8)) (e * w % 8)
          putBinding v { b.push w d bad with rows := rest }
        match onBehalf h .a m s with
        | (.error (.trap i), s') =>
          .next (s'.aSideFault h { i with akind := 3, abind := BitVec.ofNat 6 v, aent := BitVec.ofNat 32 b.index })
        | (_, s') => .next s'

end Sys2Proof.Machine
end

