-- ==== Sys2Proof/Machine/Stores.lean ====
section
/-! DEFINITION. Scratchpad loads and stores, and the global vector stores of the X-stream (R118, R160, R250 to R252). -/

namespace Sys2Proof.Machine

/-! ### Sectors that a store writes whole (R111, R113) -/

/-- The nibbles that element e of width w writes at a byte address: the first and how many (R174). -/
def nibbles (w e a : Nat) : Nat × Nat := if w = 4 then (2 * a + e % 2, 1) else (2 * a, w / 4)

/-- The sectors that lie whole within a list of nibble spans: a lane store makes their checks anew (R113). -/
def wholeSectors (l : List (Nat × Nat)) : List Nat :=
  ((l.map fun x => x.1 / 64).dedup).filter fun k =>
    let near := l.filter fun x => x.1 / 64 == k
    (List.range 64).all fun i => near.any fun x => decide (x.1 ≤ 64 * k + i) && decide (64 * k + i < x.1 + x.2)

/-- The elements of a store below the first that merges into a sector whose check fails (R111), that element, and the sectors that
those elements write whole; `fails` says so of a sector for a merge. Fewer elements may leave a sector partly written, so the
cut is taken until it stands. -/
def mergeCut {β : Type} (span : Nat × β → Nat × Nat) (fails : Nat × β → Nat → Bool) :
    (fuel : Nat) → List (Nat × β) → Option Nat → List (Nat × β) × Option Nat × List Nat
  | 0, l, f => (l, f, [])
  | fuel + 1, l, f =>
    let ws := wholeSectors (l.map span)
    match l.find? fun x => let k := (span x).1 / 64; !ws.contains k && fails x k with
    | some x => mergeCut span fails fuel (l.filter fun y => decide (y.1 < x.1)) (some x.1)
    | none => (l, f, ws)

/-! ### Global stores -/

/-- The byte that a nibble of a 4-bit format leaves: the other nibble is kept (R174, R250). -/
def mergeNibble (e old x : Nat) : Nat := if e % 2 = 0 then old / 16 * 16 + x % 16 else x % 16 * 16 + old % 16

/-- Writes one element of width w at a translated address, its check made already. -/
def storeElem (w : Nat) (m : Mapped) (e x : Nat) : Act Unit := do
  if w = 4 then
    modify fun s => s.recallAll m.pa 1 true none
    let old := leNat ((← get).peek m.pa 1)
    modify fun s => s.poke (some m.key) m.pa (leBytes 1 (mergeNibble e old x))
  else modify fun s => s.poke (some m.key) m.pa (leBytes (w / 8) x)

/-- Stores elements that passed their checks (R111, R113, R250): the sectors written whole have new checks, a merge into a failing
one is an integrity fault at its element, and the elements below the fault are performed. -/
def storeElems (w : Nat) (val : Nat → Nat) (va : Nat → BitVec 64) (l : List (Nat × Mapped)) (fault : Option Halt) : Act Unit := do
  forEach l fun (_, m) => modify fun s => s.recallAll m.pa (max 1 (w / 8)) true none
  let s ← get
  let span (x : Nat × Mapped) : Nat × Nat := nibbles w x.1 x.2.pa
  let (l, f, ws) := mergeCut span (fun x k => s.badSectors.contains k || s.otherKey (some x.2.key) k) (l.length + 1) l none
  set { s with badSectors := s.badSectors.filter fun k => !ws.contains k
               keyTags := l.foldl (fun t x => let k := (span x).1 / 64; if ws.contains k then tput t k (some x.2.key) else t) s.keyTags }
  perform (fun e m => storeElem w m e (val e)) l (match f with
    | some e => some (.fault { cause := Cause.integrity, addr := va e, elem := some e })
    | none => fault)

/-- A global vector store (R250): `addr` gives the exact address of an element from the values of the sources. Every page is translated
first, also above a failed element of a popped source. -/
def globalStore (f : Fmt) (g : Group) (mask : Fin 8) (srcs : List Operand) (addr : List Nat → Nat → Int) : Act Unit :=
  whole (do
    let w := f.width
    checkLength (← countOf g f)
    let mk ← govMask mask
    openOperands srcs []
    let (es, bad) ← remaining srcs mk
    let vals ← srcs.mapM readOperand
    let (l, stop) := belowBad bad (← prepass (addr vals) (max 1 (w / 8)) .write es)
    storeElems w (fun e => elemAt w (val vals 0) e) (fun e => vaOfInt (addr vals e)) l stop
    clearVstart)

def execVst (o : HT48VM) (s : State) : Host.Outcome State Fault Refusal :=
  finish (do
    let base := scalarAddr (← reg o.base) o.disp
    globalStore o.fmt o.group o.mask [⟨o.v.val, o.group.size, o.fmt.width⟩] fun _ e => base + (e * o.fmt.width / 8 : Nat)) s

def execVsts (o : HT48VM) (s : State) : Host.Outcome State Fault Refusal :=
  finish (do
    let base := scalarAddr (← reg o.base) o.disp
    let st := (← reg o.s).toInt
    globalStore o.fmt o.group o.mask [⟨o.v.val, o.group.size, o.fmt.width⟩] fun _ e => base + e * st) s

/-- The I64 index operand of a group (R251). -/
def indexOperand (x : Fin 64) (g : Group) (f : Fmt) : Operand := ⟨x.val, max 1 (g.size * 64 / f.width), 64⟩

def execVstx (o : HT48VX) (s : State) : Host.Outcome State Fault Refusal :=
  finish (do
    let base := (← reg o.base).toInt + o.disp.toInt
    globalStore o.fmt o.group o.mask [⟨o.v.val, o.group.size, o.fmt.width⟩, indexOperand o.x o.group o.fmt]
      fun vals e => base + (BitVec.ofNat 64 (elemAt 64 (val vals 1) e)).toInt) s

/-! ### The scratchpad -/

/-- The address function of VLDP and VSTP (R160): Ss = S0 gives unit stride. -/
def padAddr (base : Int) (stride : Option Int) (w e : Nat) : Int :=
  match stride with
  | none => base + (e * w / 8 : Nat)
  | some st => base + e * st

/-- The elements that R118 lets through, the fault that follows them, and VL when the access is trimmed. -/
def padElems (s : State) (addr : Nat → Int) (size : Nat) (es : List Nat) : List Nat × Option TrapInfo × Option Nat :=
  match padPlan s addr size true es with
  | .all => (es, none, none)
  | .range e => ([], some { cause := Cause.padRange, addr := vaOfInt (addr e), elem := some e }, none)
  | .trim e => (es.filter fun k => decide (k < e), none, some e)
  | .misaligned e => (es.filter fun k => decide (k < e), some { cause := Cause.misalignment, addr := vaOfInt (addr e), elem := some e }, none)

/-- The check of each element against the owner of the named core (R121): a violation performs nothing. -/
def padGuards (addr : Nat → Int) (es : List Nat) : Act Unit := do
  let s ← get
  forEach es fun e => match s.padRef (addr e) with
    | some r => padGuard (addr e) r
    | none => pure ()

/-- Reads one element of a scratchpad (R160, R174). -/
def padLoadElem (w : Nat) (a : Int) (e : Nat) : Act Nat := do
  match (← get).padRef a with
  | none => pure 0
  | some r =>
    let b ← padRead r.core r.off (max 1 (w / 8)) (vaOfInt a)
    return if w = 4 then leNat b / 16 ^ (e % 2) % 16 else leNat b

/-- The offset of a scratchpad location among those of every core, for the sectors of a store. -/
def PadRef.place (r : PadRef) : Nat := coreKey r.core * 0x80000 + r.off

/-- Writes one element of a scratchpad (R250, R174), its check made; a line that another element's store took from its region is
made ready again. -/
def padStoreElem (w : Nat) (r : PadRef) (e x : Nat) : Act Unit := do
  match ((← get).core r.core).regionAt r.off with
  | some g => if (g.line (r.off % 4096 / 64)).isNone then padPrepare r.core r.off true else pure ()
  | none => pure ()
  modCoreAt r.core fun k =>
    let old := leNat (readBytes k.scratch r.off 1)
    k.storePad r.off (if w = 4 then leBytes 1 (mergeNibble e old x) else leBytes (w / 8) x)

/-- Makes the lines of the elements ready (R124), up to the first that faults. -/
def padReady (addr : Nat → Int) : List Nat → Act (List (Nat × PadRef) × Option TrapInfo)
  | [] => pure ([], none)
  | e :: es => do
    match (← get).padRef (addr e) with
    | none => padReady addr es
    | some r =>
      match ← tryAct (padPrepare r.core r.off true) with
      | .error i => return ([], some (faultOf e i))
      | .ok _ =>
        let (l, f) ← padReady addr es
        return ((e, r) :: l, f)

/-- Stores elements into scratchpads, as storeElems does into memory. A violation of a fill or a store ends the instruction with
nothing performed. -/
def padStoreElems (w : Nat) (val : Nat → Nat) (addr : Nat → Int) (es : List Nat) (fault : Option Halt) : Act Unit := do
  let (l, stop) ← padReady addr es
  match stop with
  | some i => if i.cause = Cause.violation then throw (.trap i) else pure ()
  | none => pure ()
  let s ← get
  let span (x : Nat × PadRef) : Nat × Nat := nibbles w x.1 x.2.place
  let (l, f, ws) := mergeCut span (fun x _ => (s.core x.2.core).badSp.contains (x.2.off / 32)) (l.length + 1) l none
  forEach l fun (_, r) => if ws.contains (r.place / 32) then modCoreAt r.core fun k => k.markPad (r.off / 32) false else pure ()
  perform (fun e r => padStoreElem w r e (val e)) l (match f with
    | some e => some (.fault { cause := Cause.integrity, addr := vaOfInt (addr e), elem := some e })
    | none => match stop with | some i => some (.fault i) | none => fault)

/-- The stash line whose translation an access of a scratchpad location needs (R124): every store's, and a load's of an unfilled one. -/
def padLine (s : State) (write : Bool) (sa : Int) : Option (Nat × Nat) :=
  match s.padRef sa with
  | none => none
  | some r => match (s.core r.core).regionAt r.off with
    | none => none
    | some g => if write || (g.line (r.off % 4096 / 64)).isNone then some (coreKey r.core, r.off / 64) else none

/-- The first element of an access that needs the translation of a further stash line when an invalidation comes after `upto` of them
(R85). -/
def padCut (s : State) (write : Bool) (addr : Nat → Int) (seen : List (Nat × Nat)) : List Nat → Option Nat
  | [] => none
  | e :: es =>
    match padLine s write (addr e) with
    | none => padCut s write addr seen es
    | some ln =>
      if seen.contains ln then padCut s write addr seen es
      else if s.upto.any fun b => decide (b ≤ seen.length) then some e
      else padCut s write addr (ln :: seen) es

/-- What R118 lets through of an access, as far as its translations go (R85). -/
def padPart (s : State) (write : Bool) (addr : Nat → Int) (r : List Nat × Option TrapInfo × Option Nat) : List Nat × Option Halt × Option Nat :=
  match padCut s write addr [] r.1 with
  | some e => (r.1.filter fun k => decide (k < e), some (.later e), none)
  | none => (r.1, r.2.1.map .fault, r.2.2)

/-! ### Scratchpad banks (R116, R117) -/

/-- The bank of an offset. -/
def padBank (o : Nat) : Nat := bits o 3 6 ^^^ bits o 9 6

/-- The words that the elements of a window touch, each once, by core: elements in one word share an access. -/
def windowWords (l : List PadRef) : List (Nat × Nat) := (l.map fun r => (coreKey r.core, r.off / 8)).dedup

/-- The rounds of one window of up to 64 elements: the largest number of its words that name one bank. -/
def windowRounds (l : List PadRef) : Nat :=
  (List.range 64).foldl (fun n b => max n ((windowWords l).countP fun w => padBank (8 * w.2) == b)) 0

/-- The rounds of a vector scratchpad access: its elements in windows of 64 consecutive ones. -/
def padRounds (s : State) (addr : Nat → Int) (es : List Nat) : Nat :=
  (List.range 64).foldl (fun n w => n + windowRounds ((es.filter fun e => e / 64 == w).filterMap fun e => s.padRef (addr e))) 0

/-- Counts the bank rounds of an access (event 0x12). -/
def countRounds (addr : Nat → Int) (es : List Nat) : Act Unit := modify fun s =>
  if s.cur.counters.isEmpty && (s.die s.curHart.die).counters.isEmpty then s
  else s.countHart s.curHart 0x12 (padRounds s addr es)

/-- Ends a scratchpad access: VL is trimmed (R118), VSTART ← 0. -/
def padEnd (trim : Option Nat) : Act Unit := do
  match trim with
  | some e => modCur fun x => { x with vl := BitVec.ofNat 13 e }
  | none => pure ()
  clearVstart

def padStride (s : Fin 32) : Act (Option Int) := do
  if s = 0 then return none else return some (← reg s).toInt

/-- VLDP (R160): a bound v raises the stream trap; the elements loaded before a fault are committed. -/
def vldpBody (o : HT48VM) : Act Unit :=
  whole (do
    let w := o.fmt.width
    let dst : Operand := ⟨o.v.val, o.group.size, w⟩
    checkLength (← countOf o.group o.fmt)
    let x ← getCur
    trapIf (x.bindings.any fun (v, b) => overlaps dst v b) Cause.stream
    let addr := padAddr (scalarAddr (← reg o.base) o.disp) (← padStride o.s) w
    let es := activeList x.vstart.toNat x.vl.toNat (← govMask o.mask)
    let (es, fault, trim) := padPart (← get) false addr (padElems (← get) addr (max 1 (w / 8)) es)
    padGuards addr es
    countRounds addr es
    perform (fun e _ => do
      let y ← padLoadElem w (addr e) e
      let old ← readOperand dst
      writeDest dst (putElem w old e y)) (es.map fun e => (e, ())) fault
    padEnd trim)

def execVldp (o : HT48VM) (s : State) : Host.Outcome State Fault Refusal := finish (vldpBody o) s

/-- VSTP (R250, R251). -/
def vstpBody (o : HT48VM) : Act Unit :=
  whole (do
    let w := o.fmt.width
    let src : Operand := ⟨o.v.val, o.group.size, w⟩
    checkLength (← countOf o.group o.fmt)
    let mk ← govMask o.mask
    openOperands [src] []
    let (es, bad) ← performList [src] mk
    let addr := padAddr (scalarAddr (← reg o.base) o.disp) (← padStride o.s) w
    let v ← readOperand src
    let (es, fault, trim) := padElems (← get) addr (max 1 (w / 8)) es
    padGuards addr es
    let (es, stop, trim) := padPart (← get) true addr (es, endFault fault (if trim.isSome then none else bad), trim)
    countRounds addr es
    padStoreElems w (elemAt w v) addr es stop
    padEnd trim)

def execVstp (o : HT48VM) (s : State) : Host.Outcome State Fault Refusal := finish (vstpBody o) s

end Sys2Proof.Machine
end

