-- ==== Sys2Proof/Machine/Window.lean ====
section
/-! DEFINITION. Accumulation windows and the key scratchpad (R253 to R258). -/

namespace Sys2Proof.Machine

/-- The folding operations of windows and of KACC (R254): 0 ADD, 1 MIN, else MAX, on encodings of a format. Nothing is
flushed. -/
def accOp (op : Nat) (f : Fmt) (a b : Nat) : Res :=
  match op with
  | 0 => if isFloat f then addF f .rne false false (decodeF f a) (decodeF f b) else ((a + b) % 2 ^ f.width, 0)
  | 1 => if isFloat f then minmaxF f false (decodeF f a) (decodeF f b) else (if fmtInt f a ≤ fmtInt f b then a else b, 0)
  | _ => if isFloat f then minmaxF f true (decodeF f a) (decodeF f b) else (if fmtInt f a ≤ fmtInt f b then b else a, 0)

/-! ### Windows (R253 to R255) -/

/-- AWIN. -/
def execAwin (o : HT48VM) (s : State) : Host.Outcome State Fault Refusal :=
  finish (do
    let x ← getCur
    let b := scalarAddr (← reg o.base) o.disp
    let n := (← reg o.s).toNat
    let bytes := o.fmt.width / 8
    trapIf (x.window.isSome || n == 0 || decide (1024 < n * bytes) || b % bytes != 0) Cause.window
    modCur fun x => { x with window := some { op := o.v.val, fmt := o.fmt, base := vaOfInt b, wn := n } }) s

/-- One element of VAACC into the copy of its lane. -/
def Window.add (w : Window) (lanes e i x : Nat) : Window × Flags :=
  let k := e % lanes * 256 + i
  match w.copies.find? fun p => p.1 == k with
  | none => ({ w with copies := tput w.copies k (BitVec.ofNat 64 x) }, 0)
  | some p =>
    let r := accOp w.op w.fmt p.2.toNat x
    ({ w with copies := tput w.copies k (BitVec.ofNat 64 r.1) }, r.2)

/-- VAACC (R254). DESIGN CHOICE (log 95): the window trap comes before the vector-length trap. -/
def vaaccBody (o : HT48VX) : Act Unit :=
  whole (do
    let src : Operand := ⟨o.v.val, o.group.size, o.fmt.width⟩
    let idx := indexOperand o.x o.group o.fmt
    let win := (← getCur).window
    trapIf (match win with | some w => w.fmt != o.fmt | none => true) Cause.window
    checkLength (← countOf o.group o.fmt)
    let mk ← govMask o.mask
    openOperands [src, idx] []
    let (es, bad) ← performList [src, idx] mk
    let v ← readOperand src
    let ix ← readOperand idx
    match win with
    | none => pure ()
    | some w =>
      let x ← getCur
      trapIf ((activeList x.vstart.toNat x.vl.toNat mk).any fun e => decide (w.wn ≤ elemAt 64 ix e)) Cause.window
      let lanes := (← get).lanes
      let (w, fl) := es.foldl (fun (acc : Window × Flags) e =>
        let r := acc.1.add lanes e (elemAt 64 ix e) (elemAt o.fmt.width v e)
        (r.1, acc.2 ||| r.2)) (w, 0)
      modCur fun x => { x with window := some w }
      keepFlags bad fl
      endElements bad)

def execVaacc (o : HT48VX) (s : State) : Host.Outcome State Fault Refusal := finish (vaaccBody o) s

/-- The touched copies of element i in lane order. -/
def Window.copiesOf (w : Window) (lanes i : Nat) : List Nat :=
  (List.range lanes).filterMap fun l => (w.copies.find? fun p => p.1 == l * 256 + i).map fun p => p.2.toNat

/-- One element of AMERGE at its translated address: read, fold lane by lane, write, clear the touched bits (R255); its flags stand
in VSTAT when the instruction completes (R168). -/
def mergeElem (w : Window) (i : Nat) (m : Mapped) : Act Unit := do
  let lanes := (← get).lanes
  let n := w.fmt.width / 8
  let va := w.base + BitVec.ofNat 64 (i * n)
  let old := leNat (← readPa (some m.key) m.pa n va)
  let (v, fl) := (w.copiesOf lanes i).foldl (fun (acc : Res) c => let r := accOp w.op w.fmt acc.1 c; (r.1, acc.2 ||| r.2)) (old, 0)
  writePa (some m.key) m.pa (leBytes n v) va
  holdFlags fl
  modCur fun x => { x with window := x.window.map fun w => { w with copies := w.copies.filter fun p => p.1 % 256 != i } }

/-- The pages of an access that needs TIER = 0: any other tier is the permission fault (R255, R306). -/
def hbmPages (addr : Nat → Int) (l : Sorted Mapped) : Sorted Mapped :=
  l.map fun (e, r) => (e, match r with
    | .fault i => .fault i.hbmOnly
    | .at' m => if entTier m.leaf != 0 then .fault { cause := Cause.permission, addr := vaOfInt (addr e) } else .at' m
    | .later => .later)

/-- AMERGE (R255). -/
def amergeBody : Act Unit :=
  whole (do
    let x ← getCur
    let lanes := (← get).lanes
    match x.window with
    | none => trap Cause.window
    | some w =>
      let n := w.fmt.width / 8
      let es := (List.range w.wn).filter fun i => decide (x.vstart.toNat ≤ i) && !(w.copiesOf lanes i).isEmpty
      let addr (i : Nat) : Int := w.base.toInt + (i * n : Nat)
      let (l, stop) ← passed (hbmPages addr (← sortPages addr n .write [] es))
      perform (fun i m => mergeElem w i m) l stop
      modCur fun x => { x with window := none }
      clearVstart)

def execAmerge (s : State) : Host.Outcome State Fault Refusal := finish amergeBody s

/-! ### The key scratchpad (R257, R258) -/

/-- C: entries of a hart. -/
def State.keyRoom (s : State) : Nat := 4096 / s.curCore.numHarts

/-- The value of a key. -/
def keyFind (l : List (BitVec 64 × BitVec 64)) (k : BitVec 64) : Option (BitVec 64) := (l.find? fun p => p.1 == k).map Prod.snd

/-- Replaces the value of a valid key. -/
def keyPut (l : List (BitVec 64 × BitVec 64)) (k v : BitVec 64) : List (BitVec 64 × BitVec 64) :=
  l.map fun p => if p.1 = k then (k, v) else p

/-- FEAT.KEYSP (Table 11.8). -/
def keyFeature : Act Unit := needFeature 2

/-- The keys of an instruction and its values (R191). -/
def keysOf (r : Fin 64) (g : Group) : Operand := ⟨r.val, g.size, 64⟩
def valuesOf (r : Nat) (o : HT32V) : Operand := mixedOperand r o.group o.fmt .i64

/-- Writes the governing mask and clears VSTART. -/
def keyEnd (mask : Fin 8) (m : Nat) : Act Unit := do
  writeMask mask.val m
  clearVstart

/-- KINS and KACC: `upd` gives what a valid key's value becomes (none: no change). -/
def keyUpdate (upd : Nat → Nat → Option Res) (o : HT32V) : Act Unit :=
  whole (do
    keyFeature
    let w := o.fmt.width
    let ka := keysOf o.a o.group
    let vb := valuesOf o.b.val o
    checkLength (← countOf o.group .i64)
    let mk ← govMask o.mask
    openOperands [ka, vb] []
    let x ← getCur
    let es := activeList x.vstart.toNat x.vl.toNat mk
    guardWhole [ka, vb] es
    let ks ← readOperand ka
    let vs ← readOperand vb
    let room := (← get).keyRoom
    let (keys, refused, fl) := es.foldl (fun (acc : List (BitVec 64 × BitVec 64) × List Nat × Flags) e =>
      let k := BitVec.ofNat 64 (elemAt 64 ks e)
      let v := elemAt w vs e
      match keyFind acc.1 k with
      | some old => match upd (old.toNat % 2 ^ w) v with
        | some r => (keyPut acc.1 k (BitVec.ofNat 64 r.1), acc.2.1, acc.2.2 ||| r.2)
        | none => acc
      | none => if acc.1.length < room then (acc.1 ++ [(k, BitVec.ofNat 64 v)], acc.2.1, acc.2.2) else (acc.1, acc.2.1 ++ [e], acc.2.2)) (x.keys, [], (0 : Flags))
    modCur fun x => { x with keys := keys }
    raiseFlags fl
    let m := es.foldl (fun m e => putBit m e (refused.contains e)) (x.getM o.mask.val).toNat
    modCur fun x => x.setS o.d.val (BitVec.ofNat 64 refused.length)
    keyEnd o.mask m)

def execKins (o : HT32V) (s : State) : Host.Outcome State Fault Refusal := finish (keyUpdate (fun _ _ => none) o) s
def execKacc (o : HT32V) (s : State) : Host.Outcome State Fault Refusal := finish (keyUpdate (fun a b => some (accOp o.var.val o.fmt a b)) o) s

/-- KLOOK (R257). -/
def klookBody (o : HT32V) : Act Unit :=
  whole (do
    keyFeature
    let w := o.fmt.width
    let ka := keysOf o.a o.group
    let dst := valuesOf o.d.val o
    checkLength (← countOf o.group .i64)
    let mk ← govMask o.mask
    openOperands [ka] [dst]
    let x ← getCur
    let es := activeList x.vstart.toNat x.vl.toNat mk
    guardWhole [ka] es
    let ks ← readOperand ka
    let old ← readDest dst false
    let look (e : Nat) : Option (BitVec 64) := keyFind x.keys (BitVec.ofNat 64 (elemAt 64 ks e))
    let v := es.foldl (fun v e => match look e with | some y => putElem w v e (y.toNat % 2 ^ w) | none => v) old
    writeResult dst v
    keyEnd o.mask (es.foldl (fun m e => putBit m e (look e).isNone) (x.getM o.mask.val).toNat))

def execKlook (o : HT32V) (s : State) : Host.Outcome State Fault Refusal := finish (klookBody o) s

/-- Places an entry in ascending unsigned key order. -/
def keySort (p : BitVec 64 × BitVec 64) : List (BitVec 64 × BitVec 64) → List (BitVec 64 × BitVec 64)
  | [] => [p]
  | q :: rest => if p.1.toNat < q.1.toNat then p :: q :: rest else q :: keySort p rest

/-- KDRAIN (R258). -/
def kdrainBody (o : HT32V) : Act Unit :=
  whole (do
    keyFeature
    let w := o.fmt.width
    let dk := keysOf o.d o.group
    let dv := valuesOf (o.d.val + o.group.size) o
    checkLength (← countOf o.group .i64)
    openOperands [] [dk, dv] true
    let x ← getCur
    let vl := x.vl.toNat
    let sorted := x.keys.foldl (fun l p => keySort p l) []
    let out := sorted.take vl
    let at' (e : Nat) : BitVec 64 × BitVec 64 := out.getD e (0, 0)
    let oldK ← readDest dk false
    let oldV ← readDest dv false
    writeDest dk ((List.range vl).foldl (fun v e => putElem 64 v e (at' e).1.toNat) oldK)
    writeDest dv ((List.range vl).foldl (fun v e => putElem w v e ((at' e).2.toNat % 2 ^ w)) oldV)
    modCur fun x => { x with keys := sorted.drop vl }
    modCur fun x => x.setS o.b.val (BitVec.ofNat 64 out.length)
    clearVstart)

def execKdrain (o : HT32V) (s : State) : Host.Outcome State Fault Refusal := finish (kdrainBody o) s

/-- KCLR (R257). -/
def execKclr (s : State) : Host.Outcome State Fault Refusal :=
  finish (do
    keyFeature
    modCur fun x => { x with keys := [] }) s

end Sys2Proof.Machine
end

