-- ==== Sys2Proof/Machine/Barriers.lean ====
section
/-! DEFINITION. Barriers, pod barriers and waits on flags (R296 to R306). -/

namespace Sys2Proof.Machine

/-! ### Barrier networks (R296, R299) -/

/-- The instance of a scope that a hart belongs to (R296); none at the lane level. -/
def networkOf (h : HartId) : Scope → Option Nat
  | .ln => none
  | .co => some (96 * h.die.val + h.core.val)
  | .qd => some (384 + 24 * h.die.val + h.core.val / 4)
  | .di => some (480 + h.die.val)
  | .pk => some 484
  | .pd => some 485

def podNetwork : Nat := 485

def State.barrier (s : State) (net id : Nat) : Barrier := tget {} s.hub.barriers (32 * net + id)
def State.setBarrier (s : State) (net id : Nat) (b : Barrier) : State :=
  { s with hub := { s.hub with barriers := tput s.hub.barriers (32 * net + id) b } }

/-- Surplus arrivals count where the network lives (R296, R299). -/
def State.countSurplus (s : State) (net n : Nat) : State :=
  if net < 384 then s.countDie (Fin.ofNat 4 (net / 96)) 0x21 n
  else if net < 480 then s.countDie (Fin.ofNat 4 ((net - 384) / 24)) 0x21 n
  else if net < 484 then s.countDie (Fin.ofNat 4 (net - 480)) 0x21 n
  else s.countHub 0x21 n

/-- The phase is complete (R299). -/
def Barrier.complete (b : Barrier) : Bool :=
  let need := b.memb.toNat + b.xarr.toNat
  (decide (0 < need) || decide (0 < b.xbyt.toNat)) && decide (need ≤ b.arr.toNat) && decide (b.xbyt.toNat ≤ b.byt.toNat)

/-- The completion check of one cycle (R299); at pod scope ROOT sends the new PHASE to every member (R304). -/
def State.checkBarrier (s : State) (net id : Nat) : State :=
  let b := s.barrier net id
  if b.complete then
    let p := b.phase + 1
    let s := (s.setBarrier net id { b with phase := p, arr := 0, byt := 0, xarr := 0, xbyt := 0 }).countSurplus net (b.arr.toNat - (b.memb.toNat + b.xarr.toNat))
    if net = podNetwork then { s with hub := { s.hub with podOut := s.hub.podOut ++ [.phase id (.phase p)] } } else s
  else s

/-- Arrivals and bytes taken in a cycle; the check comes at the cycle's end. -/
def State.arriveAt (s : State) (net id arr byt : Nat) : State :=
  let b := s.barrier net id
  let s := s.setBarrier net id { b with arr := b.arr + BitVec.ofNat 48 arr, byt := b.byt + BitVec.ofNat 48 byt }
  if s.oneCycle then s else s.checkBarrier net id

/-- The operand of a BAREXP is within its limits (Table 21.2). -/
def expectOk (w : BitVec 64) : Bool :=
  let k := bits w.toNat 62 2
  bits w.toNat 48 14 == 0 && (k == 0 || k == 1 || (k == 2 && bits w.toNat 16 32 == 0))

/-- Applies an expectation to the phase now current. -/
def State.putExpect (s : State) (net id : Nat) (w : BitVec 64) : State :=
  let b := s.barrier net id
  let n := BitVec.ofNat 48 (bits w.toNat 0 48)
  let b := match bits w.toNat 62 2 with
    | 0 => { b with xarr := b.xarr + n }
    | 1 => { b with xbyt := b.xbyt + n }
    | _ => { b with memb := BitVec.ofNat 16 (bits w.toNat 0 16) }
  s.setBarrier net id b

/-- Applies an expectation; the next cycle's check follows. -/
def State.applyExpect (s : State) (net id : Nat) (w : BitVec 64) : State := (s.putExpect net id w).checkBarrier net id

/-- An expectation taken in a cycle is applied at the cycle's end, after the check (R299). -/
def State.expectAt (s : State) (net id : Nat) (w : BitVec 64) : State :=
  if s.oneCycle then { s with expects := s.expects ++ [(net, id, w)] } else s.applyExpect net id w

/-- The module counts the arrivals of a pod barrier itself (R304). -/
def State.isRoot (s : State) (net id : Nat) : Bool := net != podNetwork || (s.barrier net id).root == s.podIndex

def State.sendPod (s : State) (m : PodOut) : State := { s with hub := { s.hub with podOut := s.hub.podOut ++ [m] } }

def State.member (s : State) : Fin 512 := Fin.ofNat 512 s.podIndex.toNat

/-- Arrivals and bytes taken at this module: at its own instance, or in a message to ROOT (R304), which takes those of one cycle
together. -/
def State.arrive (s : State) (net id arr byt : Nat) : State :=
  if s.isRoot net id || s.oneCycle then s.arriveAt net id arr byt
  else s.sendPod (.arrival id (s.barrier net id).root ⟨s.member, BitVec.ofNat 48 arr, BitVec.ofNat 48 byt, none⟩)

/-- An expectation posted at this module. -/
def State.expect (s : State) (net id : Nat) (w : BitVec 64) : State :=
  if s.isRoot net id || s.oneCycle then s.expectAt net id w
  else s.sendPod (.arrival id (s.barrier net id).root ⟨s.member, 0, 0, some w⟩)

/-- What a cycle took at a barrier, with the expectations posted: the instance that counts is checked (R299); a member of a pod
barrier sends ROOT the arrivals and bytes in one message, and an expectation in the same way (R304). -/
def State.closeCycle (s : State) (net id : Nat) (ws : List (BitVec 64)) : State :=
  if s.isRoot net id then s.checkBarrier net id
  else
    let b := s.barrier net id
    let s := s.setBarrier net id { b with arr := 0, byt := 0 }
    let s := if b.arr = 0 ∧ b.byt = 0 ∧ ws = [] then s else s.sendPod (.arrival id b.root ⟨s.member, b.arr, b.byt, ws.head?⟩)
    (ws.drop 1).foldl (fun s w => s.sendPod (.arrival id b.root ⟨s.member, 0, 0, some w⟩)) s

/-- The cycle that several turns shared ends (R299, R303): every barrier is checked, then every expectation is applied, and the next
cycle's check follows. -/
def State.endCycle (s : State) : State :=
  let l := s.expects
  let keys := s.hub.barriers.map Prod.fst
  let s := { s with oneCycle := false, expects := [] }
  let s := keys.foldl (fun s k => s.closeCycle (k / 32) (k % 32) ((l.filter fun e => 32 * e.1 + e.2.1 == k).map fun e => e.2.2)) s
  let s := (l.filter fun e => s.isRoot e.1 e.2.1).foldl (fun s (net, id, w) => s.putExpect net id w) s
  keys.foldl (fun s k => if s.isRoot (k / 32) (k % 32) then s.checkBarrier (k / 32) (k % 32) else s) s

/-- Bytes credited by an engine operation; an instance with EN = 0 takes none. -/
def State.credit (s : State) (net id n : Nat) : State :=
  if (s.barrier net id).en then s.arrive net id 0 n else s

/-! ### Barrier instructions (R300 to R302) -/

/-- The barrier trap takes a record of an arrival back (R298). -/
def barrierTrap : Act Unit := do
  modify fun s => s.setCurSt { s.curSt with bar := none }
  trap Cause.barrier

/-- Checks 1 and 2 of R300 on a barrier. -/
def barrierChecks (net id : Nat) : Act Unit := do
  let s ← get
  let b := s.barrier net id
  if !b.en then barrierTrap else pure ()
  trapIf (b.asid != s.cur.asid) Cause.violation

/-- The network of a barrier instruction, its checks made. -/
def barrierOf (o : HT16S) : Act Nat := do
  let s ← get
  match networkOf s.curHart o.scope with
  | none => trap Cause.illegal
  | some net =>
    barrierChecks net o.id.val
    return net

/-- A wait for phase p is satisfied (Table 21.2). -/
def phaseDone (phase p : BitVec 32) : Bool := decide (1 ≤ (phase - p).toNat) && decide ((phase - p).toNat ≤ 2 ^ 31)

/-- Waits for phase p; the wait is recorded (Table 24.2). -/
def waitPhase (net id : Nat) (p : BitVec 32) (arrived : Bool) : Act Unit := do
  let s ← get
  if phaseDone (s.barrier net id).phase p then pure ()
  else
    set (s.setCurSt { s.curSt with bar := some ⟨net, id, p, arrived⟩ })
    throw .wait

def execBararr (o : HT16S) (s : State) : Host.Outcome State Fault Refusal :=
  finish (do
    let net ← barrierOf o
    modify fun s => s.arrive net o.id.val 1 0) s

def execBarexp (o : HT16S) (s : State) : Host.Outcome State Fault Refusal :=
  finish (do
    let net ← barrierOf o
    let w ← reg o.s
    trapIf (!expectOk w) Cause.barrier
    modify fun s => s.expect net o.id.val w) s

def execBarwait (o : HT16S) (s : State) : Host.Outcome State Fault Refusal :=
  finish (do
    let net ← barrierOf o
    let w ← reg o.s
    trapIf (bits w.toNat 32 32 != 0) Cause.barrier
    waitPhase net o.id.val (BitVec.ofNat 32 w.toNat) false) s

/-- The arrival that a stream's BAR has made and whose phase it waits for (R302). -/
def StreamRec.arrival (r : StreamRec) : Option BarRec :=
  match r.bar with
  | some b => if b.arrived then some b else none
  | none => none

/-- BAR (R302): an arrival that is made is not made again, and its wait is for the phase of the barrier where it was made, also when
its task goes on on another core. -/
def execBar (o : HT16S) (s : State) : Host.Outcome State Fault Refusal :=
  finish (do
    match (← get).curSt.arrival with
    | some r =>
      barrierChecks r.network r.id
      waitPhase r.network r.id r.phase true
    | none =>
      let net ← barrierOf o
      let s ← get
      let p := (s.barrier net o.id.val).phase
      set (s.arrive net o.id.val 1 0)
      waitPhase net o.id.val p true) s

/-! ### BARCTL (R297, R298) and pod messages (R304) -/

/-- One stream of a hart takes the barrier trap in its wait on a barrier. -/
def Hart.trapWaiter (x : Hart) (st : Stream) (net id : Nat) : Hart :=
  match (x.st st).bar with
  | some r =>
    if r.network == net && r.id == id && (x.st st).wait.isSome then
      (x.setSt st { x.st st with bar := none }).takeTrap st { cause := Cause.barrier }
    else x
  | none => x

/-- Every wait on a barrier raises the barrier trap at once (R298); expectations of a cycle not yet ended are discarded with the
counts. -/
def State.trapBarrier (s : State) (net id : Nat) : State :=
  { s with harts := s.harts.map fun (k, x) => (k, if x.halted then x else (x.trapWaiter .a net id).trapWaiter .x net id)
           expects := s.expects.filter fun e => !(e.1 == net && e.2.1 == id) }

/-- A write of BARCTL. -/
def State.writeBarctl (s : State) (net id : Nat) (v : BitVec 64) : State :=
  let b := s.barrier net id
  let asid := BitVec.ofNat 16 (bits v.toNat 48 16)
  let root : BitVec 9 := if net = podNetwork then BitVec.ofNat 9 (bits v.toNat 32 9) else 0
  let en := v.getLsbD 47
  if b.en then
    if en then s
    else
      let s := (s.setBarrier net id { b with en := false, arr := 0, byt := 0, memb := 0, xarr := 0, xbyt := 0 }).trapBarrier net id
      if net = podNetwork ∧ b.root = s.podIndex then s.sendPod (.phase id .disable) else s
  else if en then s.setBarrier net id { asid := asid, en := true, root := root }
  else s.setBarrier net id { b with asid := asid, root := root }

/-- BARRIER_ENABLE: a write of BARCTL of barrier `req.barrier` of instance `req.network` with EN = 1. -/
def execBarrierEnable (s : State) : Host.Outcome State Fault Refusal :=
  .next (s.writeBarctl s.req.network.val s.req.barrier.val (s.req.value ||| 2 ^ 47))

/-- BARRIER_DISABLE: one with EN = 0. -/
def execBarrierDisable (s : State) : Host.Outcome State Fault Refusal :=
  .next (s.writeBarctl s.req.network.val s.req.barrier.val (s.req.value &&& ~~~ (2 ^ 47)))

/-- POD_BARRIER_MESSAGE: `req.arrival` for barrier `req.barrier` reaches ROOT. -/
def execPodBarrierMessage (s : State) : Host.Outcome State Fault Refusal :=
  let id := s.req.barrier.val
  let m := s.req.arrival
  .next (if (s.barrier podNetwork id).en && s.isRoot podNetwork id then
    let s := s.arriveAt podNetwork id m.arrivals.toNat m.bytes.toNat
    match m.expect with
    | some w => if expectOk w then s.expectAt podNetwork id w else s
    | none => s
  else s)

/-- POD_PHASE_MESSAGE: `req.phase` for barrier `req.barrier` reaches a member. -/
def execPodPhaseMessage (s : State) : Host.Outcome State Fault Refusal :=
  let id := s.req.barrier.val
  let b := s.barrier podNetwork id
  .next (if b.en && !s.isRoot podNetwork id then
    match s.req.phase with
    | .phase p => s.setBarrier podNetwork id { b with phase := p }
    | .disable => s.trapBarrier podNetwork id
  else s)

/-! ### VWAITF (R306) -/

/-- The flag-wait entries that the other harts of the core hold. -/
def State.flagsHeld (s : State) : Nat :=
  (List.range 8).foldl (fun n k =>
    let h : HartId := ⟨s.curHart.die, s.curHart.core, Fin.ofNat 8 k⟩
    if h = s.curHart then n else n + match (s.hart h).flagWait with | some f => f.armed.length | none => 0) 0

/-- The address of flag e. -/
def flagAddr (base : Int) (n e : Nat) : Int := base + (e * n : Nat)

/-- The pages of flags: HBM-tier pages, or the permission fault. Each check of a flag translates it anew, so an invalidation never comes
between what this finds and its use (R85). -/
def flagPages (base : Int) (n : Nat) (es : List Nat) : Act (List (Nat × Mapped) × Option Halt) := allPages do
  passed (hbmPages (flagAddr base n) (← sortPages (flagAddr base n) n .read [] es))

/-- The entries to arm: F, then the prefix that finds free entries, or, where there is none, the element that waits for one. -/
def armFlags (base : Int) (n vl : Nat) (es : List Nat) (bad : Option (Nat × BitVec 64)) : Act FlagWait := do
  let (l, stop) := belowBad bad (← flagPages base n es)
  let fault : Option TrapInfo := match stop with | some (.fault i) => some i | _ => none
  let top := match fault with | some i => i.elem.getD vl | none => vl
  let below := l.map Prod.fst
  let free := 64 - (← get).flagsHeld
  let f : Option (BitVec 16 × BitVec 64) := fault.map fun i => (i.cause, i.addr)
  match below[free]? with
  | some e => return ⟨decide (free = 0), below.take free, e, none, below.headD 0⟩
  | none => return ⟨false, below, top, f, below.headD 0⟩

/-- What the armed flags say, the lowest first: the lowest that is not yet satisfied, or the lowest whose access faults; none where
every one is satisfied. A fault is taken only when every flag below it is satisfied (R306). -/
def watchFlags (f : Fmt) (base : Int) (n v : Nat) : List Nat → Act (Option (Nat × Option TrapInfo))
  | [] => pure none
  | e :: es => do
    let g := flagAddr base n e
    match ← tryAct (do
        let m ← translateAligned g n .read
        if entTier m.leaf != 0 then faultAt Cause.permission (vaOfInt g) else readPa (some m.key) m.pa n (vaOfInt g)) with
    | .error i => return some (e, some i.hbmOnly)
    | .ok y => if fmtInt f (elemAt f.width v e) ≤ fmtInt f (leNat y) then watchFlags f base n v es else return some (e, none)

/-- VWAITF ends with j elements done, and with a fault when the prefix has reached it. -/
def endFlags (s : Fin 32) (j : Nat) (fault : Option TrapInfo) : Act Unit := do
  modCur fun x => { x with flagWait := none, vstart := 0 }
  setReg s (BitVec.ofNat 64 j)
  match fault with
  | some i => throw (.trap i)
  | none => pure ()

/-- A trap that names no element leaves everything as it was; a wait keeps what is done. -/
def wholeTrap (m : Act Unit) : Act Unit := fun s =>
  match m s with
  | (.error (.trap i), s') => (.error (.trap i), if i.elem.isSome then s' else s)
  | r => r

/-- VWAITF. -/
def vwaitfBody (o : HT48VM) : Act Unit := do
  let n := o.fmt.width / 8
  let src : Operand := ⟨o.v.val, o.group.size, o.fmt.width⟩
  checkLength (← countOf o.group o.fmt)
  let mk ← govMask o.mask
  openOperands [src] []
  let v ← readOperand src
  let base := scalarAddr (← reg o.base) o.disp
  let x ← getCur
  let w ← match x.flagWait.filter fun w => !w.arming with
    | some w => pure w
    | none => do
      let (es, bad) ← remaining [src] mk
      let w ← armFlags base n x.vl.toNat es bad
      modCur fun x => { x with flagWait := some w }
      waitFor !w.arming
      pure w
  match ← watchFlags o.fmt base n v w.armed with
  | some (e, none) =>
    modCur fun x => { x with flagWait := some { w with low := e } }
    throw .wait
  | some (e, some i) => endFlags o.s e (some (faultOf e i))
  | none => endFlags o.s w.stop (w.fault.map fun (c, a) => { cause := c, addr := a, elem := some w.stop })

def execVwaitf (o : HT48VM) (s : State) : Host.Outcome State Fault Refusal := finish (wholeTrap (vwaitfBody o)) s

end Sys2Proof.Machine
end

