-- ==== Sys2Proof/Machine/Control.lean ====
section
/-! DEFINITION. Control: queues, rendezvous, FORK, branches, jumps, control registers, system instructions
(R278 to R295, R307). HALT stands in Launch.lean, where a task retires. -/

namespace Sys2Proof.Machine

/-! ### Branches and jumps (R34, R288 to R290) -/

/-- The target of R34 from the line of the branch. -/
def branchTarget (pc off : BitVec 64) (head : Fin 32) : BitVec 64 :=
  (((pc >>> 6) + off) <<< 6) + BitVec.ofNat 64 (2 * head.val)

/-- A taken branch (R34): instruction-address when the target is not canonical, and the branch is not performed. -/
def jumpTo (t : BitVec 64) : Act Unit := do
  trapIf (!canonical t) Cause.instructionAddress
  goTo t

def curPc : Act (BitVec 64) := do return (← get).curSt.pc

/-- A conditional branch (R288). -/
def branchIf (taken : BitVec 64 → BitVec 64 → Bool) (o : HT32B) (s : State) : Host.Outcome State Fault Refusal :=
  finish (do
    let x ← reg o.a
    let y ← reg o.b
    if taken x y then jumpTo (branchTarget (← curPc) (o.off.signExtend 64) o.head) else pure ()) s

def execBeq (o : HT32B) (s : State) : Host.Outcome State Fault Refusal := branchIf (fun a b => a == b) o s
def execBne (o : HT32B) (s : State) : Host.Outcome State Fault Refusal := branchIf (fun a b => a != b) o s
def execBlt (o : HT32B) (s : State) : Host.Outcome State Fault Refusal := branchIf (fun a b => decide (a.toInt < b.toInt)) o s
def execBge (o : HT32B) (s : State) : Host.Outcome State Fault Refusal := branchIf (fun a b => decide (b.toInt ≤ a.toInt)) o s
def execBltn (o : HT32B) (s : State) : Host.Outcome State Fault Refusal := branchIf (fun a b => decide (a.toNat < b.toNat)) o s
def execBgen (o : HT32B) (s : State) : Host.Outcome State Fault Refusal := branchIf (fun a b => decide (b.toNat ≤ a.toNat)) o s

/-- BQ (R288): waits for the branch queue, removes its oldest bit; a branch that is not performed removes nothing (R34). -/
def execBq (o : HT32B) (s : State) : Host.Outcome State Fault Refusal :=
  finish (do
    let x ← getCur
    match x.bq with
    | [] => throw .wait
    | b :: rest =>
      if b then jumpTo (branchTarget (← curPc) (o.off.signExtend 64) o.head) else pure ()
      modCur fun x => { x with bq := rest }) s

/-- JMP (R289). -/
def execJmp (o : HT48J) (s : State) : Host.Outcome State Fault Refusal :=
  finish (do jumpTo (branchTarget (← curPc) (o.off.signExtend 64) o.head)) s

/-- JAL (R289). -/
def execJal (o : HT48J) (s : State) : Host.Outcome State Fault Refusal :=
  finish (do
    let link := (← get).fallPc
    jumpTo (branchTarget (← curPc) (o.off.signExtend 64) o.head)
    setReg o.d link) s

/-- LOOP (R289). -/
def execLoop (o : HT48J) (s : State) : Host.Outcome State Fault Refusal :=
  finish (do
    let d := (← reg o.d) - 1
    if d = 0 then pure () else jumpTo (branchTarget (← curPc) (o.off.signExtend 64) o.head)
    setReg o.d d) s

/-- JR (R290, R34). -/
def execJr (o : HT16R) (s : State) : Host.Outcome State Fault Refusal :=
  finish (do
    let t ← reg o.a
    trapIf (t.getLsbD 0) Cause.instructionAddress
    jumpTo t) s

/-! ### Queues (R279 to R282) -/

/-- Depths of the data queues and the branch queue (R279). -/
def queueDepth : Nat := 16
def branchDepth : Nat := 32

def execQput (o : HT16Q) (s : State) : Host.Outcome State Fault Refusal :=
  finish (do
    let x ← getCur
    let l := x.queue o.q.val
    waitFor (decide (l.length < queueDepth))
    let v ← reg o.s
    modCur fun x => x.setQueue o.q.val (l ++ [v])) s

def execQget (o : HT16Q) (s : State) : Host.Outcome State Fault Refusal :=
  finish (do
    let x ← getCur
    match x.queue o.q.val with
    | [] => throw .wait
    | v :: rest =>
      modCur fun x => x.setQueue o.q.val rest
      setReg o.s v) s

/-- The data queues that a QDRAIN names (R282). -/
def qsetOf (o : HT16Q) : List Nat := (List.range 8).filter fun k => o.qset.getLsbD k

/-- QDRAIN on the A-stream (R282). -/
def execQdrainA (o : HT16Q) (s : State) : Host.Outcome State Fault Refusal :=
  finish (do
    let x ← getCur
    waitFor ((qsetOf o).all (fun k => (x.queue k).isEmpty) && (o.q.val % 2 == 0 || x.bq.isEmpty))) s

/-- QDRAIN on the X-stream (R282). -/
def execQdrainX (o : HT16Q) (s : State) : Host.Outcome State Fault Refusal :=
  finish (do
    let x ← getCur
    let n := (qsetOf o).foldl (fun n k => n + (x.queue k).length) 0
    let b := if o.q.val % 2 = 1 then x.bq.length else 0
    modCur fun x => (qsetOf o).foldl (fun x k => x.setQueue k []) (if o.q.val % 2 = 1 then { x with bq := [] } else x)
    setReg o.s (BitVec.ofNat 64 (n + b))) s

def execBqput (o : HT16Q) (s : State) : Host.Outcome State Fault Refusal :=
  finish (do
    let x ← getCur
    waitFor (decide (x.bq.length < branchDepth))
    let v ← reg o.s
    modCur fun x => { x with bq := x.bq ++ [v != 0] }) s

/-! ### Rendezvous and FORK (R283, R284) -/

/-- When all three streams stand at RDV they have met: the A-stream goes on past its RDV (R283). -/
def Hart.meet (x : Hart) : Hart :=
  if x.sa.stat = .atRdv ∧ x.sx.stat = .atRdv ∧ x.sc.stat = .atRdv ∧ !x.met then
    { x with met := true, lastRdv := true, sa := { x.sa with stat := .running, pc := x.sa.after, wait := none } }
  else x

/-- The X- and C-streams leave the rendezvous past their RDVs once the A-stream issues its next instruction (R283). -/
def Hart.release (x : Hart) : Hart :=
  if x.met then
    { x with met := false, popped := [], popBad := []
             sx := { x.sx with stat := .running, pc := x.sx.after, wait := none }
             sc := { x.sc with stat := .running, pc := x.sc.after, wait := none } }
  else x

/-- RDV (R283): the rendezvous trap when another stream has halted; otherwise the stream stands at RDV, and waits unless it
is the last to come. -/
def execRdv (s : State) : Host.Outcome State Fault Refusal :=
  let x := s.cur
  if [Stream.a, .x, .c].any fun t => (x.st t).stat == .halted then settle (trap Cause.rendezvous) s
  else
    let r := { x.st s.curStream with stat := .atRdv, after := s.fallPc }
    let s := s.setCur (x.setSt s.curStream r)
    let y := s.cur.meet
    if y.met && !x.met then .next ((s.setCur y).countHart s.curHart 0x01 1)
    else .next (beginWait s)

/-- The descriptor of a code object (Table 20.2). -/
structure CodeObject where
  aent  : BitVec 64
  xent  : BitVec 64
  cent  : BitVec 64
  featm : BitVec 3
  deriving DecidableEq, Repr

/-- Reads Table 20.2 from 32 bytes: none where a reserved bit is set or an entry is not canonical or not a multiple of 64
(R284 check 3). -/
def codeObject (b : List Byte) : Option CodeObject :=
  let v := leNat b
  let e (lo : Nat) : BitVec 64 := BitVec.ofNat 64 (bits v lo 64)
  let ok (w : BitVec 64) : Bool := canonical w && w.toNat % 64 == 0
  if bits v 195 61 = 0 ∧ ok (e 0) ∧ ok (e 64) ∧ ok (e 128) then
    some ⟨e 0, e 64, e 128, BitVec.ofNat 3 (bits v 192 3)⟩
  else none

/-- The three streams start at the entries of a code object, the C registers and the ruling state as R132, R133 and R284
give; a line held from before is fetched anew (R36). -/
def Hart.startAt (x : Hart) (k : CodeObject) (regs : Nat → BitVec 64) : Hart :=
  let go (r : StreamRec) (pc : BitVec 64) : StreamRec := { r with pc := pc, stat := .running, wait := none, bar := none, line := none, sector := none }
  { x with sa := go x.sa k.aent, sx := go x.sx k.xent, sc := go x.sc k.cent
           met := false, lastRdv := false, popped := [], popBad := []
           c := (List.range 8).foldl (fun t i => if i = 0 then tput t 0 0 else tput t i (regs i)) x.c
           ruling := {}, featm := k.featm }

/-- FORK (R284): the checks in their order, then the start of all three streams. -/
def forkBody (o : HT16Q) : Act Unit := do
  let x ← getCur
  trapIf (!x.lastRdv) Cause.fork
  let a ← reg o.s
  let b ← asKind 5 0 0 (do
    if !canonical a then faultAt Cause.nonCanonical a
    else if a.toNat % 32 != 0 then faultAt Cause.misalignment a
    else readBlockCur a 32)
  match codeObject b with
  | none => trap Cause.fork
  | some k =>
    let core ← getCore
    trapIf (k.featm &&& core.feat != k.featm) Cause.featureAbsent
    modCur fun x => x.startAt k x.getA
    modify fun s => s.countHart s.curHart 0x01 1

def execFork (o : HT16Q) (s : State) : Host.Outcome State Fault Refusal := settle (forkBody o) s

/-! ### Control registers (R167, R168, R293) -/

/-- HARTID (Table 11.9). -/
def State.hartId (s : State) : BitVec 64 :=
  BitVec.ofNat 64 (s.podIndex.toNat * 2 ^ 48 + s.cur.asid.toNat * 2 ^ 32 + s.curHart.die.val * 2 ^ 10 + s.curHart.core.val * 2 ^ 3 + s.curHart.hart.val)

/-- VCFG (Table 11.5). -/
def vcfgOf (x : Hart) (c : Core) : BitVec 64 :=
  BitVec.ofNat 64 (x.tce.toNat * 32 + x.ftz.toNat * 16 + c.harts.toNat)

/-- The value of a control register (Table 11.2). -/
def State.ctl (s : State) (n : Nat) : BitVec 64 :=
  let x := s.cur
  match n with
  | 0 => x.vl.zeroExtend 64
  | 1 => x.vstart.zeroExtend 64
  | 2 => vcfgOf x s.curCore
  | 3 => x.vstat.zeroExtend 64
  | 4 => x.waitlim.zeroExtend 64
  | 5 => s.curCore.feat.zeroExtend 64
  | 6 => s.hartId
  | 0x10 => (x.st s.curStream).cause.zeroExtend 64
  | 0x11 => (x.st s.curStream).taddr
  | _ => 0

/-- A write of a control register (Tables 11.3 to 11.7): VL clamps at 4,096, VSTAT is write-one-to-clear. -/
def Hart.ctlWrite (x : Hart) (n : Nat) (w : BitVec 64) : Hart :=
  match n with
  | 0 => { x with vl := if 4096 < w.toNat then 4096 else w.truncate 13 }
  | 1 => { x with vstart := w.truncate 13 }
  | 2 => { x with tce := w.getLsbD 5, ftz := w.getLsbD 4 }
  | 3 => { x with vstat := x.vstat &&& ~~~ w.truncate 8 }
  | 4 => { x with waitlim := w.truncate 32 }
  | _ => x

def execCtlr (o : HT32I) (s : State) : Host.Outcome State Fault Refusal :=
  .next (s.setR o.d (s.ctl o.imm.toNat)).complete

def execCtlw (o : HT32I) (s : State) : Host.Outcome State Fault Refusal :=
  .next (s.setCur (s.cur.ctlWrite o.imm.toNat (s.getR o.a))).complete

/-- FEATQ (R294). -/
def execFeatq (o : HT32I) (s : State) : Host.Outcome State Fault Refusal :=
  let m := o.imm.truncate 3
  .next (s.setR o.d (if m &&& s.curCore.feat = m then 1 else 0)).complete

/-! ### System instructions (R294) -/

/-- A call to the microkernel (R294, R331): the record names the next instruction and carries the code and register 1 of
the calling stream. -/
def callTrap (cause code : BitVec 16) (s : State) : State :=
  let arg := s.cur.getR s.curStream 1
  let st := s.curStream
  let s := takeTrap { cause := cause } s.complete
  s.setCur { s.cur with halt := { s.cur.halt with code := code, arg := arg, caller := if cause = Cause.serviceCall then some st else none } }

def execSvcall (o : HT32I) (s : State) : Host.Outcome State Fault Refusal := .next (callTrap Cause.serviceCall o.imm s)
def execTrap (o : HT32I) (s : State) : Host.Outcome State Fault Refusal := .next (callTrap Cause.software o.imm s)

/-- BRK (R294): the record names the BRK itself. -/
def execBrk (s : State) : Host.Outcome State Fault Refusal := .next (takeTrap { cause := Cause.breakpoint } s)

/-- A reassignment of the hart is pending: a pre-emption request, or a balancer's mark (R294, R325). -/
def State.reassignPending (s : State) : Bool :=
  s.cur.preempt.isSome || (tget {} (s.die s.curHart.die).assign (8 * s.curHart.core.val + s.curHart.hart.val)).mark.isSome

/-- YIELD (R294): at this boundary the hart stops for its swap-out when a reassignment is pending. -/
def execYield (s : State) : Host.Outcome State Fault Refusal :=
  let pending := s.reassignPending
  let s := s.complete
  let x := s.cur
  .next (if pending then s.setCur { x.stop with preempt := some (x.preempt.getD .balancer) } else s)

def execNop (s : State) : Host.Outcome State Fault Refusal := .next s.complete
/-- The hints (R46, R51) have no effect. -/
def execHint (s : State) : Host.Outcome State Fault Refusal := .next s.complete
def execHintMajor3E (s : State) : Host.Outcome State Fault Refusal := .next s.complete
/-- FENCE (R307): every earlier access of the stream is performed before the step ends (log 7), so the fence only goes on; its
scope, in the head, labels its event in Consistency.lean. -/
def execFence (s : State) : Host.Outcome State Fault Refusal := .next s.complete

end Sys2Proof.Machine
end

