-- ==== Sys2Proof/Machine/Notices.lean ====
section
/-! DEFINITION. Notices to the supervisor (R333) and the freezing of the hub's engines (R340). -/

namespace Sys2Proof.Machine

/-! ### The notice ring of a die (Tables 24.5, 24.6) -/

/-- A notice entry is free. -/
def Die.noticeFree (d : Die) : Bool := (d.nqHead - d.nqTail).toNat != 4095

/-- A device's own write that replaces only part of a sector (R111): into a sector that fails its check it is not performed, and
the device has no access to report a fault of. -/
def State.merge (s : State) (pa : Nat) (bytes : List Byte) : State :=
  match (writePa none pa bytes 0).run s with
  | (.ok _, s') => s'
  | (.error _, s') => s'

/-- Writes a notice at NQHEAD. DESIGN CHOICE (log 77): NQHEAD advances also where the sector's failing check keeps the notice from
being written. -/
def State.writeNotice (s : State) (d : Fin 4) (w : BitVec 64) : State :=
  let x := s.die d
  let s := s.merge (x.nqBase.toNat * 2 ^ 15 + 8 * x.nqHead.toNat) (leBytes 8 w.toNat)
  s.setDie d { s.die d with nqHead := x.nqHead + 1 }

/-- Writes the oldest notice that waits, when an entry is free. -/
def State.flushNotice (s : State) (d : Fin 4) : State :=
  match (s.die d).nqHeld with
  | [] => s
  | w :: rest =>
    if (s.die d).noticeFree then
      let s := s.writeNotice d w
      s.setDie d { s.die d with nqHeld := rest }
    else s

/-- Posts a notice behind those that wait. -/
def State.postNotice (s : State) (d : Fin 4) (w : BitVec 64) : State :=
  let held := (s.die d).nqHeld
  let s := s.setDie d { s.die d with nqHeld := held ++ [w] }
  if held.isEmpty then s.flushNotice d else s

/-- The notice of an engine (Table 24.6). -/
def engineNotice (cause : BitVec 16) (src idx : Nat) (frz : Bool) : BitVec 64 :=
  BitVec.ofNat 64 (cause.toNat * 2 ^ 48 + src * 2 ^ 45 + frz.toNat * 2 ^ 44 + idx % 32 * 2 ^ 17)

/-- The die whose notice ring takes the notices of the hub's engines (log 19). -/
def engineDie : Fin 4 := 0

/-! ### Frozen engines (R340) -/

def engineKey (src idx : Nat) : Nat := 32 * src + idx % 32

/-- The operation with which an engine is frozen. -/
def State.frozenOp (s : State) (src idx : Nat) : Option (Instr × Request) := tget none s.hub.frozen (engineKey src idx)

/-- An engine stops whole in an operation, and a notice is posted. -/
def State.freezeEngine (s : State) (src idx : Nat) (i : Instr) (r : Request) : State :=
  { s with hub := { s.hub with frozen := tput s.hub.frozen (engineKey src idx) (some (i, r)) } }.postNotice engineDie
    (engineNotice Cause.violation src idx true)

/-- The outcome of an operation of an engine: a frozen one does nothing; a violation freezes it before the operation has done
anything; any other fault, for which the spec gives the engine no report of its own, leaves the operation to be tried again
(log 19). -/
def engineStep (src idx : Nat) (i : Instr) (m : Act Unit) (s : State) : Host.Outcome State Fault Refusal :=
  if (s.frozenOp src idx).isSome then .next s
  else match m s with
    | (.ok _, s') => .next s'
    | (.error (.refuse r), _) => .refused r
    | (.error .wait, _) | (.error .again, _) => .next s
    | (.error (.trap t), _) => .next (if t.cause = Cause.violation then s.freezeEngine src idx i s.req else s)

/-- The work of an engine within an instruction of a hart: the hart waits at a frozen engine, and the hart waits while a violation
freezes the engine (R340). -/
def engineWithin {α : Type} (src idx : Nat) (i : Instr) (r : Request) (m : Act α) : Act α := fun s =>
  if (s.frozenOp src idx).isSome then (.error .wait, s)
  else match m s with
    | (.error (.trap t), s') => if t.cause = Cause.violation then (.error .wait, s.freezeEngine src idx i r) else (.error (.trap t), s')
    | x => x

/-! ### Reads of the hub on behalf of an address space -/

/-- Reads bytes of HBM-tier pages (R67, R272), with the translations that die 0 holds (log 8). -/
def hubRead (asid : BitVec 16) (va : BitVec 64) (n : Nat) : Act (List Byte) := do
  let ps ← translateBlock 0 asid va n .read
  if ps.any fun p => entTier p.2.2.leaf != 0 then faultAt Cause.nonexistent va
  else
    let bs ← ps.mapM fun (a, len, m) => readPa (some m.key) m.pa len a
    return bs.flatten

/-- Reads an object: none when it does not translate or is not HBM-tier. A violation (R89), and a sector that fails its check
(R341), still stop. -/
def hubObject {α : Type} (m : Act α) : Act (Option α) := do
  match ← tryAct m with
  | .ok a => return some a
  | .error i => if i.cause = Cause.violation ∨ i.cause = Cause.integrity then throw (.trap i) else return none

end Sys2Proof.Machine
end

