-- ==== Sys2Proof/Machine/Text.lean ====
section
/-! DEFINITION. Text ingress, the ligature engines, stage queues and vocabularies (R55 to R69). -/

namespace Sys2Proof.Machine

/-! ### Well-formed UTF-8 -/

/-- The bytes that a lead byte asks for; 0 where it leads nothing. -/
def utf8Need (b : Byte) : Nat :=
  let v := b.toNat
  if v < 0x80 then 1 else if v < 0xC2 then 0 else if v < 0xE0 then 2 else if v < 0xF0 then 3 else if v < 0xF5 then 4 else 0

/-- The range of the second byte that a lead allows. -/
def utf8Second (lead b : Byte) : Bool :=
  let v := b.toNat
  let lo := if lead = 0xE0 then 0xA0 else if lead = 0xF0 then 0x90 else 0x80
  let hi := if lead = 0xED then 0x9F else if lead = 0xF4 then 0x8F else 0xBF
  decide (lo ≤ v) && decide (v ≤ hi)

def utf8Tail (b : Byte) : Bool := decide (0x80 ≤ b.toNat) && decide (b.toNat ≤ 0xBF)

/-- The bytes lie at the start of a well-formed sequence. -/
def utf8Start : List Byte → Bool
  | [] => true
  | [l] => utf8Need l != 0
  | l :: c :: rest => decide (rest.length + 2 ≤ utf8Need l) && utf8Second l c && rest.all utf8Tail

/-- The bytes are a proper part of a well-formed sequence, from its start (R271). -/
def utf8Proper (l : List Byte) : Bool :=
  match l with
  | [] => false
  | b :: _ => utf8Start l && decide (l.length < utf8Need b)

/-- Takes one byte behind the bytes of an unfinished sequence: what is unfinished then, and the ill-formed bytes found. -/
def utf8Step (part : List Byte) (b : Byte) : List Byte × Nat :=
  let l := part ++ [b]
  if utf8Start l then (if utf8Proper l then l else [], 0)
  else if utf8Need b = 0 then ([], part.length + 1)
  else if utf8Proper [b] then ([b], part.length) else ([], part.length)

def utf8Scan (part : List Byte) : List Byte → Nat → List Byte × Nat
  | [], n => (part, n)
  | b :: rest, n => utf8Scan (utf8Step part b).1 rest (n + (utf8Step part b).2)

/-! ### Vocabulary objects (R67) -/

/-- A vocabulary as its object holds it (Table 5.5). -/
structure Vocab where
  tokens   : Nat
  k        : Nat
  cls      : List Nat
  split    : Nat
  bytemap  : List Nat
  specials : List (List Byte × Nat)
  slots    : List Nat
  deriving DecidableEq, Repr

/-- Offset i of a header: class table, split matrix, byte map, special table, merge table. -/
def vocabOffset (h i : Nat) : Nat := bits h (128 + 32 * i) 32

/-- The limits of a header. -/
def vocabHeaderOk (h : Nat) : Bool :=
  bits h 0 32 == 0x56434F42 && decide (1 ≤ bits h 32 32) && decide (bits h 32 32 ≤ 262144) && decide (bits h 64 32 ≤ 262143) &&
  decide (bits h 96 16 ≤ 1024) && decide (1 ≤ bits h 112 8) && decide (bits h 112 8 ≤ 20) && bits h 120 8 == 0 && bits h 288 224 == 0 &&
  (List.range 5).all fun i => vocabOffset h i % 64 == 0

/-- Entry i of a table of n-byte entries. -/
def tableEntry (b : List Byte) (n i : Nat) : List Byte := (b.drop (n * i)).take n

/-- A vocabulary from its header and its five tables. -/
def vocabOf (h : Nat) (cls split bm sp mt : List Byte) : Vocab :=
  { tokens := bits h 32 32, k := bits h 112 8
    cls := cls.map BitVec.toNat
    split := leNat split
    bytemap := (List.range 256).map fun i => leNat (tableEntry bm 4 i) % 2 ^ 18
    specials := (List.range (bits h 96 16)).map fun i =>
      let e := tableEntry sp 72 i
      let w := leNat (e.drop 64)
      (e.take (min 64 (bits w 0 16)), bits w 16 18)
    slots := (List.range (2 ^ bits h 112 8)).map fun i => leNat (tableEntry mt 16 i) }

/-- The lengths of the special strings lie in 1 to 64. -/
def specialLengthsOk (h : Nat) (sp : List Byte) : Bool :=
  (List.range (bits h 96 16)).all fun i =>
    let n := bits (leNat ((tableEntry sp 72 i).drop 64)) 0 16
    decide (1 ≤ n) && decide (n ≤ 64)

/-- A list holds no value twice. -/
def distinct {α : Type} [DecidableEq α] : List α → Bool
  | [] => true
  | x :: xs => !xs.contains x && distinct xs

/-- The limits on what the tables hold (R67, R68). -/
def Vocab.ok (v : Vocab) : Bool :=
  let valid := v.slots.filter fun e => e.testBit 127
  v.cls.all (fun c => decide (c < 16)) && v.bytemap.all (fun t => decide (t < v.tokens)) &&
  v.specials.all (fun x => decide (x.2 < v.tokens)) && distinct (v.specials.map Prod.fst) &&
  valid.all (fun e => decide (bits e 0 18 < v.tokens) && decide (bits e 18 18 < v.tokens) && decide (bits e 36 18 < v.tokens)) &&
  distinct (valid.map fun e => bits e 64 18)

/-- The result and rank of a pair: the home slot and the slots that follow it, to the first that matches or is not valid. -/
def Vocab.probe (v : Vocab) (x y : Nat) : (fuel j : Nat) → Option (Nat × Nat)
  | 0, _ => none
  | fuel + 1, j =>
    let e := v.slots.getD (j % 2 ^ v.k) 0
    if !e.testBit 127 then none
    else if bits e 0 18 = x ∧ bits e 18 18 = y then some (bits e 36 18, bits e 64 18)
    else v.probe x y fuel (j + 1)

def Vocab.lookup (v : Vocab) (x y : Nat) : Option (Nat × Nat) :=
  v.probe x y 32 ((x * 262144 + y) * 0x9E3779B97F4A7C15 % 2 ^ 64 / 2 ^ (64 - v.k))

/-! ### Tokenising (R59) -/

/-- A boundary stands between two adjacent bytes. -/
def Vocab.boundary (v : Vocab) (a b : Byte) : Bool := v.split.testBit (16 * v.cls.getD a.toNat 0 + v.cls.getD b.toNat 0)

/-- Cuts a run at its class boundaries. -/
def Vocab.cut (v : Vocab) : List Byte → List (List Byte)
  | [] => []
  | b :: rest =>
    match v.cut rest with
    | (c :: p) :: ps => if v.boundary b c then [b] :: (c :: p) :: ps else (b :: c :: p) :: ps
    | ps => [b] :: ps

/-- Cuts a piece after every 1,024 bytes. -/
def chop : (fuel : Nat) → List Byte → List (List Byte)
  | 0, l => [l]
  | fuel + 1, l => if l.length ≤ 1024 then [l] else l.take 1024 :: chop fuel (l.drop 1024)

/-- The pre-tokens of a run (step 2). -/
def Vocab.pieces (v : Vocab) (run : List Byte) : List (List Byte) := (v.cut run).flatMap fun p => chop (p.length / 1024) p

/-- The leftmost pair of lowest rank: its index, rank and result. -/
def Vocab.best (v : Vocab) : List Nat → Nat → Option (Nat × Nat × Nat) → Option (Nat × Nat × Nat)
  | x :: y :: rest, i, b =>
    let b' := match v.lookup x y with
      | some (res, rank) => if (match b with | some (_, r, _) => decide (rank < r) | none => true) then some (i, rank, res) else b
      | none => b
    v.best (y :: rest) (i + 1) b'
  | _, _, b => b

/-- Step 4; the fuel is the number of tokens. -/
def Vocab.merge (v : Vocab) : (fuel : Nat) → List Nat → List Nat
  | 0, t => t
  | fuel + 1, t =>
    match v.best t 0 none with
    | none => t
    | some (i, _, res) => v.merge fuel (t.take i ++ res :: t.drop (i + 2))

/-- The tokens of a pre-token (steps 3 and 4). -/
def Vocab.tokensOf (v : Vocab) (piece : List Byte) : List Nat :=
  v.merge piece.length (piece.map fun b => v.bytemap.getD b.toNat 0)

/-- What stands at a byte position (step 1). -/
inductive SpecialAt where
  | none
  /-- A longer string could still match when more text comes. -/
  | hold
  | found (len tok : Nat)
  deriving DecidableEq, Repr

/-- The longest special string at the start of the text. -/
def Vocab.specialAt (v : Vocab) (final : Bool) (t : List Byte) : SpecialAt :=
  if !final && v.specials.any (fun s => decide (t.length < s.1.length) && s.1.take t.length == t) then .hold
  else v.specials.foldl (fun b s =>
    if s.1.isPrefixOf t then
      match b with
      | .found n _ => if n < s.1.length then .found s.1.length s.2 else b
      | _ => .found s.1.length s.2
    else b) .none

/-- The bytes at the end of a text that are a partial UTF-8 sequence. -/
def utf8Open (t : List Byte) : Nat :=
  (([3, 2, 1] : List Nat).find? fun k => decide (k ≤ t.length) && utf8Proper (t.drop (t.length - k))).getD 0

/-- Splits pre-tokens, the last first, into those that go on and the bytes held back: the last one, and more until `need` bytes are
held. -/
def holdBack (need : Nat) : List (List Byte) → List Byte → List (List Byte) × List Byte
  | [], held => ([], held)
  | p :: ps, held => if !held.isEmpty && decide (need ≤ held.length) then (p :: ps, held) else holdBack need ps (p ++ held)

/-- Ends a run at the end of the text at hand, or before a special string that could still match: what could still grow is held
back, a partial UTF-8 sequence with it. -/
def Vocab.closeRun (v : Vocab) (final : Bool) (run t : List Byte) : List Nat × List Byte :=
  let ps := v.pieces run.reverse
  if final then (ps.flatMap v.tokensOf, [])
  else
    let r := holdBack (utf8Open (run.reverse ++ t) - t.length) ps.reverse []
    (r.1.reverse.flatMap v.tokensOf, r.2 ++ t)

/-- The tokens of the text so far, and what the engine holds back: unless the text is final, the last pre-token, a special string
that could still match, and a partial UTF-8 sequence. `run` is the unmatched run before the position, reversed. -/
def Vocab.scan (v : Vocab) (nospec final : Bool) : (fuel : Nat) → (run t : List Byte) → List Nat × List Byte
  | 0, run, t => ([], run.reverse ++ t)
  | fuel + 1, run, t =>
    match t with
    | [] => v.closeRun final run []
    | b :: rest =>
      match if nospec then SpecialAt.none else v.specialAt final t with
      | .none => v.scan nospec final fuel (b :: run) rest
      | .hold => v.closeRun final run t
      | .found n tok =>
        let r := v.scan nospec final fuel [] (t.drop n)
        ((v.pieces run.reverse).flatMap v.tokensOf ++ tok :: r.1, r.2)
/-- The engine's algorithm on the text at hand. -/
def Vocab.advance (v : Vocab) (nospec final : Bool) (t : List Byte) : List Nat × List Byte :=
  v.scan nospec final (t.length + 1) [] t

/-! ### Reading a vocabulary -/

/-- Reads the tables of an object whose header is h. -/
def readTables (asid : BitVec 16) (va : BitVec 64) (h : Nat) : Act (Vocab × Bool) := do
  let part (i n : Nat) : Act (List Byte) := hubRead asid (va + BitVec.ofNat 64 (vocabOffset h i)) n
  let cls ← part 0 256
  let split ← part 1 32
  let bm ← part 2 1024
  let sp ← part 3 (72 * bits h 96 16)
  let mt ← part 4 (16 * 2 ^ bits h 112 8)
  let v := vocabOf h cls split bm sp mt
  return (v, specialLengthsOk h sp && v.ok)

/-- Reads a vocabulary in use. -/
def readVocab (asid : BitVec 16) (va : BitVec 64) : Act Vocab := do
  let h := leNat (← hubRead asid va 64)
  return (← readTables asid va h).1

/-- The versions of an id, newest first. -/
def Hub.versions (h : Hub) (id : Nat) : List VocabVersion := tget [] h.vocabs id

def Hub.currentVersion (h : Hub) (id : Nat) : BitVec 32 :=
  match h.versions id with
  | v :: _ => v.version
  | [] => 0

/-! ### Frames (R56, R57) -/

/-- The fields of a header (Table 5.1). -/
def headerBits (f : TextFrame) (lo n : Nat) : Nat := bits f.header.toNat lo n
def frameKind (f : TextFrame) : Nat := headerBits f 24 8
def frameSession (f : TextFrame) : BitVec 64 := BitVec.ofNat 64 (headerBits f 64 64)

/-- Row 1 of Table 5.2, and R55: the frame has no meaning. -/
def frameBad (f : TextFrame) : Bool :=
  !f.rod || headerBits f 0 16 != 0x5446 || headerBits f 16 8 != 1 || headerBits f 144 16 != 0 || headerBits f 224 32 != 0 ||
  (frameKind f == 0 && headerBits f 34 14 != 0) || decide (2 < frameKind f) ||
  decide (8192 < headerBits f 160 32) || headerBits f 160 32 != f.payload.length

/-- The ingress queue that a model id is mapped to (R320): slot and queue. -/
def Hub.ingress (h : Hub) (model : BitVec 16) : Option (Nat × Nat) :=
  (h.pipes.find? fun (_, p) => p.state == 1 && p.maps == some model).map fun (k, p) => (k, p.inq.toNat)

def Hub.openOf (h : Hub) (session : BitVec 64) : Option OpenRequest := h.requests.find? fun r => r.session == session
def Hub.closedOf (h : Hub) (session : BitVec 64) : Option ClosedRec := h.closed.find? fun r => r.session == session

def Hub.setRequest (h : Hub) (r : OpenRequest) : Hub :=
  { h with requests := h.requests.map fun x => if x.session = r.session then r else x }

/-- The enabled engine with the fewest open requests, the lowest number on a tie (R58). -/
def Hub.leastLoaded (h : Hub) : Fin 16 :=
  let load (e : Fin 16) : Nat := (h.requests.filter fun r => r.engine == e).length
  (List.finRange 16).foldl (fun b e => if load e < load b then e else b) 0

/-- An end frame that the hub sends with no ring and 0 positions (R271). DESIGN CHOICE (log 85): its MODEL and VOCAB, which a ring's
descriptor would give, are those of the frame or the request that it answers. -/
def endFrame (status : Nat) (session : BitVec 64) (model vocab : BitVec 16) : OutFrame :=
  { flow := none, kind := 4, eot := true, model := model, vocab := vocab, session := session, offset := 0, payload := leBytes 8 status }

def Hub.send (h : Hub) (f : OutFrame) : Hub := { h with frames := h.frames ++ [f] }

def State.onHub (s : State) (f : Hub → Hub) : State := { s with hub := f s.hub }

/-- A frame is dropped and counted. -/
def State.dropFrame (s : State) : State := s.countHub 0x30 1

/-- Stops a request as a cancel frame does (R60). -/
def OpenRequest.stop (r : OpenRequest) : OpenRequest := { r with cancelled := true, pending := [], held := [], ready := false }

/-- Passes a payload to the request's engine (R59). -/
def OpenRequest.feed (r : OpenRequest) (f : TextFrame) : OpenRequest :=
  { r with received := r.received + f.payload.length, held := r.held ++ f.payload, ready := true, eot := headerBits f 32 1 == 1 }

/-- The kinds of Table 5.1 that arrive, past row 1 of Table 5.2. -/
def State.requestFrame (s : State) (f : TextFrame) : State :=
  let session := frameSession f
  let model := BitVec.ofNat 16 (headerBits f 48 16)
  let vocab := BitVec.ofNat 16 (headerBits f 128 16)
  if (s.hub.openOf session).isSome then s.dropFrame.onHub fun h => h.send (endFrame 1 session model vocab)
  else match s.hub.ingress model, s.hub.versions vocab.toNat with
    | some (slot, queue), v :: _ =>
      if headerBits f 192 32 != 0 then s.onHub fun h => h.send (endFrame 2 session model vocab)
      else s.onHub fun h =>
        let r : OpenRequest := { session := session, engine := h.leastLoaded, slot := slot, queue := queue, model := model
                                 vocab := vocab, version := v.version, nospec := headerBits f 33 1 == 1 }
        { h with requests := h.requests ++ [r.feed f], closed := h.closed.filter fun c => c.session != session }
    | _, _ => s.onHub fun h => h.send (endFrame 2 session model vocab)

def State.continuationFrame (s : State) (f : TextFrame) : State :=
  let session := frameSession f
  match s.hub.openOf session with
  | none => s.dropFrame
  | some r =>
    if r.eot || r.cancelled then s.dropFrame
    else if headerBits f 192 32 != r.received then s.onHub fun h => (h.setRequest r.stop).send (endFrame 3 session r.model r.vocab)
    else s.onHub fun h => h.setRequest (r.feed f)

/-- A cancel frame (R60). DESIGN CHOICE (log 70): a further one for a request that is still open, whose cancel entry is not yet
pushed, is accepted and adds no entry of its own. -/
def State.cancelFrame (s : State) (f : TextFrame) : State :=
  let session := frameSession f
  match s.hub.openOf session, s.hub.closedOf session with
  | some r, _ => s.onHub fun h => h.setRequest r.stop
  | none, some c => s.onHub fun h => { h with cancels := h.cancels ++ [c] }
  | none, none => s.dropFrame

/-- An inbound frame under Table 5.2: the first row that matches. -/
def State.frameIn (s : State) (f : TextFrame) : State :=
  if frameBad f then s.dropFrame
  else if frameKind f = 0 then s.requestFrame f
  else if frameKind f = 1 then s.continuationFrame f
  else s.cancelFrame f

/-- TEXT_FRAME_REQUEST, with `req.frame`. -/
def execTextFrameRequest (s : State) : Host.Outcome State Fault Refusal :=
  .next (if frameKind s.req.frame = 0 then s.frameIn s.req.frame else s)

def execTextFrameContinuation (s : State) : Host.Outcome State Fault Refusal :=
  .next (if frameKind s.req.frame = 1 then s.frameIn s.req.frame else s)

def execTextFrameCancel (s : State) : Host.Outcome State Fault Refusal :=
  .next (if frameKind s.req.frame = 2 then s.frameIn s.req.frame else s)

/-- INGRESS_ERROR_FRAME: a frame of row 1 of Table 5.2, or one over RUD. -/
def execIngressErrorFrame (s : State) : Host.Outcome State Fault Refusal :=
  .next (if frameBad s.req.frame then s.frameIn s.req.frame else s)

/-! ### Stage queues (R61, Table 23.3) -/

def Hub.pipe (h : Hub) (k : Nat) : Pipeline := tget {} h.pipes k
def Hub.setPipe (h : Hub) (k : Nat) (p : Pipeline) : Hub := { h with pipes := tput h.pipes k p }

/-- Queue q of a pipeline. -/
def Pipeline.queue (p : Pipeline) (q : Nat) : Option StageQueue := p.queues[q]?
def Pipeline.setQueue (p : Pipeline) (q : Nat) (x : StageQueue) : Pipeline := { p with queues := p.queues.set q x }

def StageQueue.full (q : StageQueue) : Bool := decide (q.depth ≤ q.entries.length)

/-- The physical address of place i of the ring of queue q (R319). -/
def Pipeline.ringAddr (p : Pipeline) (q i : Nat) : Nat :=
  p.qbase.toNat + 16 * ((p.queues.take q).foldl (fun n x => n + x.depth) 0 + i)

/-- Appends an entry to queue q of slot k, and writes it to the queue's storage (log 20). A queue that is gone takes nothing. -/
def State.pushEntry (s : State) (k q : Nat) (e : BitVec 128) : State :=
  let p := s.hub.pipe k
  match p.queue q with
  | none => s
  | some x =>
    let s := s.poke none (p.ringAddr q (x.pushed % x.depth)) (leBytes 16 e.toNat)
    s.onHub fun h => h.setPipe k (p.setQueue q { x with entries := x.entries ++ [e], pushed := x.pushed + 1 })

/-- The push of an entry by a stream or an engine: half a sector, so a sector of the queue's storage that fails its check takes no
entry, and the push has an integrity fault (R111). -/
def pushStage (k q : Nat) (e : BitVec 128) : Act Unit := do
  let p := (← get).hub.pipe k
  match p.queue q with
  | none => pure ()
  | some x =>
    let pa := p.ringAddr q (x.pushed % x.depth)
    checkWrite none pa 16 (BitVec.ofNat 64 pa)
  modify fun s => s.pushEntry k q e

/-- Table 5.3. -/
def stageEntry (version : BitVec 32) (kind token position : Nat) (session : BitVec 64) : BitVec 128 :=
  BitVec.ofNat 128 (version.toNat % 256 * 2 ^ 120 + kind * 2 ^ 114 + token % 2 ^ 18 * 2 ^ 96 + position % 2 ^ 32 * 2 ^ 64 + session.toNat)

/-- Queue q of slot k can take an entry; one that is gone takes and discards it. -/
def State.queueRoom (s : State) (k q : Nat) : Bool :=
  match (s.hub.pipe k).queue q with
  | some x => !x.full
  | none => true

/-! ### The ligature engine (R59, R60, R63) -/

/-- The closed-request record of a request, the oldest of 65,536 making room (R60). -/
def Hub.close (h : Hub) (r : OpenRequest) : Hub :=
  let l := (h.closed.filter fun c => c.session != r.session) ++ [⟨r.session, r.slot, r.queue, r.engine, r.pushed, r.version.truncate 8⟩]
  { h with requests := h.requests.filter (fun x => x.session != r.session), closed := l.drop (l.length - 65536) }

/-- Tokenises the text at hand; ill-formed bytes are counted per engine. -/
def tokeniseRequest (r : OpenRequest) : Act OpenRequest := do
  match ((← get).hub.versions r.vocab.toNat).find? fun v => v.version == r.version with
  | none => return r
  | some v =>
    let voc ← readVocab v.asid v.va
    let (toks, held) := voc.advance r.nospec r.eot r.held
    let (utf, n) := utf8Scan r.utf (r.held.take (r.held.length - held.length)) 0
    let n := if r.eot then n + utf.length else n
    modHub fun h => { h with illFormed := tput h.illFormed r.engine.val (tget 0 h.illFormed r.engine.val + n) }
    modify fun s => s.countHub 0x31 n
    return { r with held := held, ready := false, utf := if r.eot then [] else utf, pending := r.pending ++ toks }

/-- The next push of a request, when its queue has room. -/
def pushRequest (r : OpenRequest) : Act Unit := do
  let s ← get
  let put (kind token : Nat) (f : Hub → Hub) : Act Unit := do
    pushStage r.slot r.queue (stageEntry r.version kind token r.pushed r.session)
    modHub f
  if !s.queueRoom r.slot r.queue then modHub fun h => h.setRequest r
  else if r.cancelled then put 2 0 fun h => h.close r
  else match r.pending with
    | t :: rest => put 0 t fun h => h.setRequest { r with pending := rest, pushed := r.pushed + 1 }
    | [] => if r.eot then put 1 0 fun h => h.close r else modHub fun h => h.setRequest r

/-- A cancel entry for a closed request (R60). -/
def pushCancel (c : ClosedRec) : Act Unit := do
  pushStage c.slot c.queue (stageEntry (c.vver.zeroExtend 32) 2 0 c.count c.session)
  modHub fun h => { h with cancels := h.cancels.erase c }

/-- LIGATURE_PUSH: engine `req.engine` goes on with session `req.value`: a cancel entry that it owes for a closed request and whose
queue has room; else it tokenises what has come and pushes the next entry of the open request. A queue that is full stalls only
what goes to it (R63). -/
def execLigaturePush (s : State) : Host.Outcome State Fault Refusal :=
  engineStep 1 s.req.engine.val .ligaturePush (do
    let s ← get
    match s.hub.cancels.find? fun c => c.session == s.req.value && c.engine == s.req.engine && s.queueRoom c.slot c.queue with
    | some c => pushCancel c
    | none =>
      match s.hub.openOf s.req.value with
      | none => pure ()
      | some r =>
        if r.engine != s.req.engine then pure ()
        else
          let r ← if r.ready && !r.cancelled then tokeniseRequest r else pure r
          pushRequest r) s

/-- OP 6 on a ligature engine (R340): the request is aborted as by a cancel, with an end frame of status "refused". -/
def State.dropLigature (s : State) (r : Request) : State :=
  match s.hub.openOf r.value with
  | some x => s.onHub fun h => (h.setRequest x.stop).send (endFrame 2 x.session x.model x.vocab)
  | none => s

/-! ### Stage-queue instructions (R64 to R66) -/

/-- The queue that an index register names in the hart's pipeline, with the slot. -/
def ownQueue (i : BitVec 64) : Act (Task × StageQueue) := do
  let s ← get
  match s.cur.task with
  | none => trap Cause.stageQueue
  | some t =>
    match if i.toNat < 32 then (s.hub.pipe t.slot).queue i.toNat else none with
    | none => trap Cause.stageQueue
    | some q => return (t, q)

def execSqpush (o : HT16R) (s : State) : Host.Outcome State Fault Refusal :=
  finish (do
    let i ← reg o.a
    let lo ← reg o.b
    let hi ← reg (o.b + 1)
    let (t, q) ← ownQueue i
    trapIf (q.prod == 31 || q.prod != t.stage || bits hi.toNat 50 2 == 3) Cause.stageQueue
    waitFor (!q.full)
    asScalar (pushStage t.slot i.toNat (hi ++ lo))) s

/-- SQPOP: the oldest entry, read from the queue's storage, where a sector that fails its check is an integrity fault of the load (R64,
R114, R309, R319; log 20). -/
def execSqpop (o : HT16R) (s : State) : Host.Outcome State Fault Refusal :=
  finish (do
    let i ← reg o.a
    let (t, q) ← ownQueue i
    trapIf (q.cons != t.stage) Cause.stageQueue
    match q.entries with
    | [] => throw .wait
    | _ :: rest =>
      let pa := ((← get).hub.pipe t.slot).ringAddr i.toNat ((q.pushed - q.entries.length) % q.depth)
      let e := BitVec.ofNat 128 (leNat (← asScalar (readPa none pa 16 (BitVec.ofNat 64 pa))))
      modHub fun h => h.setPipe t.slot ((h.pipe t.slot).setQueue i.toNat { q with entries := rest })
      modCur fun x => { x with task := some { t with popped := true } }
      setReg o.d (e.truncate 64)
      setReg (o.d + 1) ((e >>> 64).truncate 64)) s

def execSqcnt (o : HT16R) (s : State) : Host.Outcome State Fault Refusal :=
  finish (do
    let (_, q) ← ownQueue (← reg o.a)
    setReg o.d (BitVec.ofNat 64 q.entries.length)) s

/-! ### VOCSWAP (R68, R69) -/

/-- The result of an install: the new version, or the code of the first failure. DESIGN CHOICE (log 71): −2 also where one of the
object's tables does not translate or is not HBM-tier, which is found only after the header has passed its limits. -/
def vocInstall (id va : BitVec 64) : Act (BitVec 64) := do
  let asid := (← getCur).asid
  if va.toNat % 64 != 0 then return BitVec.ofInt 64 (-2)
  else match ← hubObject (hubRead asid va 64) with
    | none => return BitVec.ofInt 64 (-2)
    | some hb =>
      let h := leNat hb
      if !vocabHeaderOk h then return BitVec.ofInt 64 (-1)
      else match ← hubObject (readTables asid va h) with
        | none => return BitVec.ofInt 64 (-2)
        | some (_, false) => return BitVec.ofInt 64 (-1)
        | some (_, true) =>
          let v := (← get).hub.currentVersion id.toNat + 1
          modHub fun h => { h with vocabs := tput h.vocabs id.toNat (⟨v, asid, va⟩ :: h.versions id.toNat) }
          return v.zeroExtend 64

def vocswapBody (o : HT16R) : Act Unit := do
  let s ← get
  let id ← reg o.a
  let va ← reg o.b
  let voc := match ← astEntry s.cur.asid va with | some a => a.voc | none => false
  trapIf (!voc) Cause.violation
  if 63 < id.toNat then setReg o.d (BitVec.ofInt 64 (-3))
  else if va = 0 then
    setReg o.d (BitVec.ofNat 64 (s.hub.requests.filter fun r => r.vocab.toNat == id.toNat && decide (r.version.toNat < (s.hub.currentVersion id.toNat).toNat)).length)
  else setReg o.d (← vocInstall id va)

def execVocswap (o : HT16R) (s : State) : Host.Outcome State Fault Refusal := finish (asKind 5 0 0 (vocswapBody o)) s

end Sys2Proof.Machine
end

