-- ==== Sys2Proof/Machine/Egress.lean ====
section
/-! DEFINITION. Blotter rings, the scribe and the stencil engines (R259 to R277). -/

namespace Sys2Proof.Machine

/-! ### Blotter rings (R259 to R261) -/

def State.ring (s : State) (k : Nat) : Ring := tget {} s.hub.rings k
def State.setRing (s : State) (k : Nat) (r : Ring) : State := s.onHub fun h => { h with rings := tput h.rings k r }
def modRing (k : Nat) (f : Ring → Ring) : Act Unit := modify fun s => s.setRing k (f (s.ring k))

/-- The descriptor as software reads it (Table 19.1). -/
def Ring.image (r : Ring) : BitVec 512 :=
  r.session ++ r.app ++ r.rel ++ r.vp ++ r.emit ++ r.ign ++ r.asid ++ r.flow ++ r.vocab ++ r.model ++ r.rtab ++ (0 : BitVec 168) ++
    r.scribe ++ (0 : BitVec 12) ++ BitVec.ofBool r.closed ++ BitVec.ofBool r.veto ++ BitVec.ofBool r.notice ++ BitVec.ofBool r.en

/-- Writes the RW fields other than EN. -/
def Ring.setFields (r : Ring) (v : BitVec 512) : Ring :=
  { r with session := v.extractLsb' 448 64, asid := v.extractLsb' 272 16, flow := v.extractLsb' 256 16, vocab := v.extractLsb' 250 6
           model := v.extractLsb' 234 16, rtab := v.extractLsb' 188 46, scribe := v.extractLsb' 16 4, notice := v.getLsbD 1 }

/-- EN goes from 0 to 1. -/
def Ring.enable (r : Ring) : Ring :=
  { r with en := true, app := 0, rel := 0, vp := 0, emit := 0, ign := 0, veto := false, closed := false
           entries := [], held := [], sent := 0, ended := false }

/-- A frame that a ring sends, at the reply bytes sent before it (R271). -/
def Ring.frame (r : Ring) (kind : Nat) (payload : List Byte) : OutFrame :=
  { flow := some r.flow, kind := BitVec.ofNat 8 kind, eot := kind == 4, model := r.model, vocab := r.vocab.zeroExtend 16
    session := r.session, offset := BitVec.ofNat 32 r.sent, payload := payload }

def State.sendRing (s : State) (k kind : Nat) (payload : List Byte) : State :=
  let r := s.ring k
  (s.onHub fun h => h.send (r.frame kind payload)).setRing k (if kind = 3 then { r with sent := r.sent + payload.length } else r)

/-- The end frame of a ring. -/
def State.sendEnd (s : State) (k status : Nat) : State :=
  s.sendRing k 4 (leBytes 8 (status + (s.ring k).emit.toNat * 2 ^ 32))

/-- EN is cleared (R261): every BLAPP or BLREAD that waits on the ring traps at once. -/
def State.disableRing (s : State) (k : Nat) : State :=
  let r := s.ring k
  let s := if r.closed then s else s.sendEnd k 4
  (s.setRing k { s.ring k with en := false, entries := [], held := [] }).trapWaiters (.ring k) Cause.blotter fun _ => true

/-- A write of the descriptor's words: `v` holds the words as written, and the other words as they stand. -/
def State.writeRing (s : State) (k : Nat) (v : BitVec 512) : State :=
  let r := s.ring k
  if r.en then (if v.getLsbD 0 then s else s.disableRing k)
  else s.setRing k (if v.getLsbD 0 then (r.setFields v).enable else r.setFields v)

/-- BLOTTER_RING_ENABLE: ring `req.ring` is written with the descriptor `req.block` and EN = 1. -/
def execBlotterRingEnable (s : State) : Host.Outcome State Fault Refusal := .next (s.writeRing s.req.ring.val (s.req.block ||| 1))

/-- BLOTTER_RING_DISABLE: EN of ring `req.ring` is written with 0. -/
def execBlotterRingDisable (s : State) : Host.Outcome State Fault Refusal :=
  .next (s.writeRing s.req.ring.val ((s.ring s.req.ring.val).image &&& ~~~ 1))

/-! ### Blotter instructions (R262 to R267) -/

/-- Checks 1 and 2 of R263: the ring number. -/
def ownRing (o : HT16R) : Act Nat := do
  let k := (← reg o.a).toNat
  let s ← get
  trapIf (decide (8191 < k) || !(s.ring k).en) Cause.blotter
  trapIf ((s.ring k).asid != s.cur.asid) Cause.violation
  return k

/-- The operand of BLAPP sets a bit that Table 19.3 marks zero, or combines END, CANCEL and TOKEN wrongly (R263). -/
def entryBad (w : BitVec 64) : Bool :=
  let v := w.toNat
  bits v 35 29 != 0 || bits v 18 14 != 0 || (!w.getLsbD 32 && w.getLsbD 34) || (w.getLsbD 32 && bits v 0 18 != 0)

/-- The entry word of a position (Table 19.3), ACK zero. -/
def BlEntry.word (e : BlEntry) : BitVec 64 :=
  BitVec.ofNat 64 (e.cancel.toNat * 2 ^ 34 + e.fin.toNat * 2 ^ 32 + e.token.toNat)

def Ring.entry (r : Ring) (p : Nat) : BlEntry := tget ⟨0, false, false⟩ r.entries (p % 256)

def execBlapp (o : HT16R) (s : State) : Host.Outcome State Fault Refusal :=
  finish (do
    let k ← ownRing o
    let w ← reg o.b
    let r := (← get).ring k
    trapIf (r.closed || entryBad w) Cause.blotter
    awaits (.ring k)
    waitFor (decide ((r.app - r.emit).toNat < 256) || r.veto)
    if r.veto && !w.getLsbD 33 then setReg o.d (BitVec.ofNat 64 (2 ^ 63 + r.vp.toNat))
    else
      let e : BlEntry := ⟨w.truncate 18, w.getLsbD 32, w.getLsbD 34⟩
      modRing k fun r => { r with veto := false, entries := tput r.entries (r.app.toNat % 256) e, app := r.app + 1 }
      setReg o.d (r.app.zeroExtend 64)) s

/-- The status form of BLREAD (R265). -/
def Ring.status (r : Ring) (sel : Nat) : BitVec 64 :=
  match sel with
  | 0 => BitVec.ofNat 64 (r.veto.toNat * 2 ^ 63 + r.app.toNat)
  | 1 => r.rel.zeroExtend 64
  | 2 => r.vp.zeroExtend 64
  | _ => r.emit.zeroExtend 64

def execBlread (o : HT16R) (s : State) : Host.Outcome State Fault Refusal :=
  finish (do
    let k ← ownRing o
    let w ← reg o.b
    let r := (← get).ring k
    if w.getLsbD 63 then
      trapIf (bits w.toNat 2 61 != 0) Cause.blotter
      setReg o.d (r.status (bits w.toNat 0 2))
    else
      trapIf (bits w.toNat 32 31 != 0) Cause.blotter
      let p := w.toNat
      awaits (.ring k)
      waitFor (decide (p < r.app.toNat) || decide (p < r.rel.toNat))
      setReg o.d (if p < r.rel.toNat then -1 else (r.entry p).word)) s

/-- A release or veto that is ignored. -/
def ignoreAt (o : HT16R) (k : Nat) (code : BitVec 64) : Act Unit := do
  modRing k fun r => { r with ign := r.ign + 1 }
  modify fun s => s.countHub 0x32 1
  setReg o.d code

/-- Positions lo to hi − 1 hold an end entry. -/
def Ring.endIn (r : Ring) (lo hi : Nat) : Bool := (List.range (hi - lo)).any fun i => (r.entry (lo + i)).fin

def execBlrel (o : HT16R) (s : State) : Host.Outcome State Fault Refusal :=
  finish (do
    let k ← ownRing o
    let w ← reg o.b
    let n := w.toNat
    trapIf (bits n 32 32 != 0) Cause.blotter
    let r := (← get).ring k
    if decide (n ≤ r.rel.toNat) || decide (r.app.toNat < n) || (r.veto && decide (r.vp.toNat < n)) then ignoreAt o k 0
    else
      modRing k fun r => { r with rel := w.truncate 32, closed := r.closed || r.endIn r.rel.toNat n }
      setReg o.d 1) s

def execBlveto (o : HT16R) (s : State) : Host.Outcome State Fault Refusal :=
  finish (do
    let k ← ownRing o
    let w ← reg o.b
    let n := w.toNat
    trapIf (bits n 32 32 != 0) Cause.blotter
    let r := (← get).ring k
    if decide (n < r.rel.toNat) || decide (r.app.toNat < n) || (r.veto && decide (r.vp.toNat ≤ n)) then ignoreAt o k (-1)
    else
      let gone := r.app.toNat - n
      modRing k fun r => { r with app := w.truncate 32, vp := w.truncate 32, veto := true
                                  entries := (List.range gone).foldl (fun t i => tdel ((n + i) % 256) t) r.entries }
      setReg o.d (BitVec.ofNat 64 gone)
      if r.notice then modify fun s => s.sendRing k 5 (leBytes 8 (n + gone * 2 ^ 32)) else pure ()) s

/-! ### The scribe (R270, R271) -/

/-- The replacement bytes. -/
def replacement : List Byte := [0xEF, 0xBF, 0xBD]

/-- The longest suffix of 1 to 3 bytes that is a proper part of a well-formed sequence: its length, 0 for none. -/
def heldSuffix (l : List Byte) : Nat :=
  match [3, 2, 1].find? fun k => decide (k ≤ l.length) && utf8Proper (l.drop (l.length - k)) with
  | some k => k
  | none => 0

/-- A checked read at exit (R113): none when a sector fails. -/
def exitRead (pa n : Nat) : Act (Option (List Byte)) := do
  if n = 0 then return some []
  else match ← tryAct (readPa none pa n 0) with
    | .ok b => return some b
    | .error _ => return none

/-- The bytes of a token (R270): none when a sector fails its check at exit. -/
def renderToken (r : Ring) (tok : Nat) : Act (Option (List Byte)) := do
  let base := r.rtab.toNat * 64
  let bad : Act (Option (List Byte)) := do
    modify fun s => s.countHub 0x33 1
    return some replacement
  match ← exitRead base 16 with
  | none => return none
  | some h =>
    let v := leNat h
    let pool := bits v 64 64
    let count := if bits v 0 32 = 0x52444E52 ∧ pool % 64 = 0 then bits v 32 32 else 0
    if count ≤ tok then bad
    else match ← exitRead (base + 64 + 8 * tok) 8 with
      | none => return none
      | some e =>
        let w := leNat e
        if bits w 40 24 != 0 then bad else exitRead (base + pool + bits w 0 32) (bits w 32 8)

/-- Emits the positions EMIT to REL − 1 in order: the bytes ready to be sent, and the status of the end frame that follows them.
The fuel is the number of entries. -/
def emitAll (k : Nat) : (fuel : Nat) → List Byte → Act (List Byte × Option Nat)
  | 0, buf => return (buf, none)
  | fuel + 1, buf => do
    let r := (← get).ring k
    if r.rel.toNat ≤ r.emit.toNat then return (buf, none)
    else
      let e := r.entry r.emit.toNat
      if e.fin then
        modRing k fun r => { r with emit := r.emit + 1, held := [], entries := tdel (r.emit.toNat % 256) r.entries }
        return (buf ++ (if r.held.isEmpty then [] else replacement), some (if e.cancel then 4 else 0))
      else match ← renderToken r e.token.toNat with
        | none => return (buf, some 5)
        | some b =>
          let l := r.held ++ b
          let n := l.length - heldSuffix l
          modRing k fun r => { r with emit := r.emit + 1, held := l.drop n, entries := tdel (r.emit.toNat % 256) r.entries }
          emitAll k fuel (buf ++ l.take n)

/-- Reply frames of up to 8,192 bytes. -/
def replies (k : Nat) : (fuel : Nat) → List Byte → State → State
  | 0, _, s => s
  | fuel + 1, b, s => if b.isEmpty then s else replies k fuel (b.drop 8192) (s.sendRing k 3 (b.take 8192))

/-- Closes a ring's answer with an end frame. -/
def State.endRing (s : State) (k status : Nat) : State :=
  let s := s.sendEnd k status
  s.setRing k { s.ring k with closed := true, ended := true }

/-- SCRIBE_EMIT, for ring `req.ring`: every released position, in frames. A sector that fails ends the answer with status 5 and a
record for the session server. -/
def execScribeEmit (s : State) : Host.Outcome State Fault Refusal :=
  let k := s.req.ring.val
  engineStep 2 (s.ring k).scribe.toNat .scribeEmit (do
    let r := (← get).ring k
    if !r.en || r.ended then pure ()
    else
      let (b, fin) ← emitAll k 256 []
      modify (replies k (b.length / 8192 + 1) b)
      match fin with
      | none => pure ()
      | some st =>
        modify fun s => s.endRing k st
        if st = 5 then modHub fun h => { h with scribeReports := h.scribeReports ++ [(k, 5)] } else pure ()) s

/-- OP 6 on a scribe engine (R340): the ring is closed with an end frame of status "refused". -/
def State.dropScribe (s : State) (r : Request) : State := s.endRing r.ring.val 2

/-! ### Stencil contexts and objects (R272, R273) -/

def State.ctx (s : State) (n : Nat) : StencilCtx := tget {} s.hub.ctxs n
def State.setCtx (s : State) (n : Nat) (c : StencilCtx) : State := s.onHub fun h => { h with ctxs := tput h.ctxs n c }

/-- The engine of a context. -/
def stencilEngine (n : Nat) : Nat := n / 1024

/-- A write of a context control word. -/
def State.writeCtx (s : State) (n : Nat) (v : BitVec 64) : State :=
  s.setCtx n { s.ctx n with owner := v.truncate 16, limit := v.extractLsb' 16 7 }

/-- STENCIL_CONTEXT_CONTROL: the control word of context `req.ctx` is written with `req.value`. -/
def execStencilContextControl (s : State) : Host.Outcome State Fault Refusal := .next (s.writeCtx s.req.ctx.val s.req.value)

/-- LIMIT as the engine reads it. -/
def StencilCtx.bound (c : StencilCtx) : Nat := min c.limit.toNat 64

/-- The chunks of a state's mask. -/
def StencilObj.chunks (o : StencilObj) : Nat := (o.tokens + 511) / 512

/-- Reads a part of an object. -/
def StencilObj.read (o : StencilObj) (off n : Nat) : Act Nat := do
  return leNat (← hubRead o.asid (o.va + BitVec.ofNat 64 off) n)

/-- Checks 1 and 2 of R274: the context number. -/
def ownCtx (r : Fin 32) : Act Nat := do
  let n := (← reg r).toNat
  trapIf (decide (4095 < n)) Cause.stencil
  let s ← get
  trapIf ((s.ctx n).owner != s.cur.asid) Cause.violation
  return n

/-- Runs an operation of a context's engine for instruction i (R340). -/
def stencilAct {α : Type} (n : Nat) (i : Instr) (m : Act α) : Act α :=
  engineWithin 3 (stencilEngine n) i { ctx := Fin.ofNat 4096 n } m

/-- The word of R275: depth and state. -/
def StencilCtx.word (c : StencilCtx) : BitVec 64 := BitVec.ofNat 64 (c.stack.length * 2 ^ 16 + c.state)

/-- The fields of a transition entry (Table 19.8). -/
def transVal (e : Nat) : Bool := e.testBit 63
def transSym (e : Nat) : BitVec 8 := BitVec.ofNat 8 (bits e 26 8)
def transOp (e : Nat) : Nat := bits e 24 2
def transNextE (e : Nat) : Nat := bits e 12 12
def transNext (e : Nat) : Nat := bits e 0 12

/-- A step's effect on state and stack (R275): none for a reject. An OP or next state that no installed object holds also
rejects. -/
def StencilCtx.move (c : StencilCtx) (e states : Nat) : Act (Option StencilCtx) := do
  let go (stack : List (BitVec 8)) (next : Nat) : Option StencilCtx :=
    if next < states then some { c with stack := stack, state := next } else none
  match transOp e with
  | 0 => return go c.stack (transNext e)
  | 1 =>
    trapIf (decide (c.bound ≤ c.stack.length)) Cause.stackOverflow
    return go (transSym e :: c.stack) (transNext e)
  | 2 =>
    match c.stack with
    | [] => return none
    | top :: rest => return if top = transSym e then go rest (if rest.isEmpty then transNextE e else transNext e) else none
  | _ => return none

def gmstepBody (o : HT16R) : Act Unit := do
  let n ← ownCtx o.a
  let t := (← reg o.b).toNat
  let c := (← get).ctx n
  match c.obj with
  | none => trap Cause.stencil
  | some obj =>
    trapIf (decide (2 ^ 18 ≤ t) || o.d.val % 2 != 0 || decide (o.d.val < 2) || decide (14 < o.d.val)) Cause.stencil
    let r ← stencilAct n (.gmstep o) (do
      if obj.tokens ≤ t then return none
      else
        let cl ← obj.read (obj.classOff + t) 1
        let e ← obj.read (obj.transOff + 8 * (c.state * obj.classes + cl)) 8
        let mk ← obj.read (obj.maskOff + 64 * obj.chunks * c.state + t / 8) 1
        if obj.classes ≤ cl ∨ !transVal e ∨ !mk.testBit (t % 8) then return none
        else c.move e obj.states)
    match r with
    | none =>
      setReg o.d (-1)
      setReg (o.d + 1) (-1)
    | some c' =>
      modify fun s => s.setCtx n c'
      setReg o.d c'.word
      setReg (o.d + 1) (match obj.forced.getD c'.state none with | some f => BitVec.ofNat 64 f | none => -1)

def execGmstep (o : HT16R) (s : State) : Host.Outcome State Fault Refusal := finish (gmstepBody o) s

/-! ### Installing an object (R273, R277) -/

/-- The object that a header describes. -/
def objectOf (asid : BitVec 16) (va : BitVec 64) (h : Nat) : StencilObj :=
  { asid := asid, va := va, states := bits h 32 16, classes := bits h 48 16, tokens := bits h 64 32, start := bits h 96 16
    limit := bits h 112 8, classOff := bits h 128 64, transOff := bits h 192 64, maskOff := bits h 256 64 }

/-- The limits of a header (Table 19.7). -/
def objectHeaderOk (h : Nat) : Bool :=
  let o := objectOf 0 0 h
  bits h 0 32 == 0x47524D31 && decide (1 ≤ o.states) && decide (o.states ≤ 4096) && decide (1 ≤ o.classes) && decide (o.classes ≤ 256) &&
  decide (1 ≤ o.tokens) && decide (o.tokens ≤ 262144) && decide (o.start < o.states) && decide (1 ≤ o.limit) && decide (o.limit ≤ 64) &&
  bits h 120 8 == 0 && bits h 320 192 == 0

/-- A transition keeps the limits of Table 19.8. -/
def transOk (states e : Nat) : Bool :=
  !(transVal e && (transOp e == 3 || decide (states ≤ transNext e))) && !(transOp e == 2 && decide (states ≤ transNextE e))

/-- The one set bit of a mask, when there is exactly one. -/
def forcedOf (m : Nat) : Option Nat := if m ≠ 0 ∧ m = 2 ^ Nat.log2 m then some (Nat.log2 m) else none

/-- Analyses an object: none when its tables break a limit. -/
def analyse (o : StencilObj) : Act (Option StencilObj) := do
  let cls ← hubRead o.asid (o.va + BitVec.ofNat 64 o.classOff) o.tokens
  let tr ← hubRead o.asid (o.va + BitVec.ofNat 64 o.transOff) (8 * o.states * o.classes)
  let n := 64 * o.chunks
  let mk ← hubRead o.asid (o.va + BitVec.ofNat 64 o.maskOff) (n * o.states)
  let masks := (List.range o.states).map fun i => leNat (tableEntry mk n i)
  if cls.all (fun c => decide (c.toNat < o.classes)) && (List.range (o.states * o.classes)).all (fun i => transOk o.states (leNat (tableEntry tr 8 i))) &&
      masks.all (fun m => decide (m < 2 ^ o.tokens)) then return some { o with forced := masks.map forcedOf }
  else return none

/-- The objects installed on an engine. -/
def Hub.installed (h : Hub) (e : Nat) : List StencilObj := tget [] h.objects e

/-- Some context of the engine binds the object. -/
def Hub.isBound (h : Hub) (e : Nat) (o : StencilObj) : Bool :=
  h.ctxs.any fun (n, c) => n / 1024 == e && (match c.obj with | some x => x.asid == o.asid && x.va == o.va | none => false)

/-- Places an object on an engine, in the place of one that no context binds where all 16 are taken. -/
def Hub.place (h : Hub) (e : Nat) (o : StencilObj) : Option Hub :=
  let l := h.installed e
  if l.length < 16 then some { h with objects := tput h.objects e (l ++ [o]) }
  else match l.find? fun x => !h.isBound e x with
    | none => none
    | some x => some { h with objects := tput h.objects e (l.erase x ++ [o]) }

/-- The object at an address, installed; or the code of the first failure (R277). -/
def installObject (e : Nat) (asid : BitVec 16) (va : BitVec 64) : Act (Except Int StencilObj) := do
  if va.toNat % 64 != 0 then return .error (-2)
  else match ← hubObject (hubRead asid va 64) with
    | none => return .error (-2)
    | some hb =>
      let s ← get
      match (s.hub.installed e).find? fun x => x.asid == asid && x.va == va with
      | some o => return .ok o
      | none =>
        let h := leNat hb
        if !objectHeaderOk h then return .error (-1)
        else match ← hubObject (analyse (objectOf asid va h)) with
          | none => return .error (-2)
          | some none => return .error (-1)
          | some (some o) =>
            match (← get).hub.place e o with
            | none => return .error (-3)
            | some hub =>
              modify fun s => { s with hub := hub }
              return .ok o

def gmresetBody (o : HT16R) : Act Unit := do
  let n ← ownCtx o.a
  let va ← reg o.b
  let s ← get
  let c := s.ctx n
  if va = 0 then
    match c.obj with
    | none => trap Cause.stencil
    | some obj =>
      let c := { c with state := obj.start, stack := [] }
      modify fun s => s.setCtx n c
      setReg o.d c.word
  else
    match ← stencilAct n (.gmreset o) (installObject (stencilEngine n) s.cur.asid va) with
    | .error code => setReg o.d (BitVec.ofInt 64 code)
    | .ok obj =>
      let c := { c with obj := some obj, state := obj.start, stack := [], limit := BitVec.ofNat 7 obj.limit }
      modify fun s => s.setCtx n c
      setReg o.d c.word

def execGmreset (o : HT16R) (s : State) : Host.Outcome State Fault Refusal := finish (gmresetBody o) s

/-- GMMASK (R276); of its limits, the decoder leaves that on Sb[63:32] (R274, log 44). -/
def gmmaskBody (o : HT32V) : Act Unit := do
  let n ← ownCtx (Fin.ofNat 32 o.a.val)
  let w ← reg (Fin.ofNat 32 o.b.val)
  let c := (← get).ctx n
  match c.obj with
  | none => trap Cause.stencil
  | some obj =>
    trapIf (bits w.toNat 32 32 != 0) Cause.stencil
    let dst : Operand := ⟨o.d.val, o.group.size, 8⟩
    openOperands [] [dst] true
    let m ← stencilAct n (.gmmask o) (
      if obj.chunks ≤ w.toNat then pure 0 else atElem 0 (obj.read (obj.maskOff + 64 * (c.state * obj.chunks + w.toNat)) 64))
    writeDest dst m

def execGmmask (o : HT32V) (s : State) : Host.Outcome State Fault Refusal := finish (gmmaskBody o) s

/-- OP 6 on a stencil engine (R340): the context is unbound. -/
def State.dropStencil (s : State) (r : Request) : State := s.setCtx r.ctx.val { s.ctx r.ctx.val with obj := none }

end Sys2Proof.Machine
end

