-- ==== Sys2Proof/Machine/Faults.lean ====
section
/-! DEFINITION. The events that the fetch of an instruction ends in when it gives none: reserved encodings, line-format,
faults of the fetch (R31, R32, R35, R49). -/

namespace Sys2Proof.Machine

/-- A reserved encoding raises illegal-instruction precisely on its stream (R49). -/
def execReservedEncoding (s : State) : Host.Outcome State Fault Refusal := .next (takeTrap { cause := Cause.illegal } s)

/-- Reaching a defective head, or a PC that names no instruction, raises line-format (R31, R33). -/
def execLineFormat (s : State) : Host.Outcome State Fault Refusal := .next (takeTrap { cause := Cause.lineFormat } s)

/-- The faults of a translation and a read (R70 to R76, R89, R112). -/
def fetchCauses : List (BitVec 16) :=
  [Cause.nonCanonical, Cause.nonexistent, Cause.notPresent, Cause.malformed, Cause.permission, Cause.notResident, Cause.key, Cause.integrity, Cause.violation]

/-- A fault in translating or reading a line, precise on the stream that fetched it (R35); the request carries its cause, one that a
fetch can have (R330), and its address. -/
def execLineFetchFault (s : State) : Host.Outcome State Fault Refusal :=
  if !fetchCauses.contains s.req.cause then .next s
  else .next (takeTrap { cause := s.req.cause, addr := s.req.addr } s)

end Sys2Proof.Machine
end

