-- ==== Sys2Proof/Machine/Matrix.lean ====
section
/-! DEFINITION. The matrix unit: tiles, codebooks, rows, drains (R225 to R242, R178, R179, R187 to R190). -/

namespace Sys2Proof.Machine

/-! ### Tile images (R225, R227) -/

/-- The header of an image (Table 15.2). -/
structure TileHeader where
  magic : Nat
  fmt   : Nat
  b32   : Bool
  bank  : Nat
  k     : Nat
  n     : Nat
  mcnt  : Nat
  reserved : Bool
  deriving DecidableEq, Repr

def headerOf (v : Nat) : TileHeader :=
  { magic := bits v 0 16, fmt := bits v 16 5, b32 := v.testBit 24, bank := bits v 25 1, k := bits v 32 10, n := bits v 48 7, mcnt := bits v 64 8
    reserved := bits v 21 3 != 0 || bits v 26 6 != 0 || bits v 42 6 != 0 || bits v 55 9 != 0 || bits v 72 440 != 0 }

/-- K and N limits (Table 15.1). -/
def tileLimits : Fmt → Nat × Nat
  | .fp8a | .fp8b | .i8 => (256, 64)
  | .fp4 | .i4 | .cb2 => (512, 64)
  | .fp16 | .bf16 => (128, 32)
  | _ => (0, 0)

/-- The activation formats that a tile accepts (Table 15.1). -/
def tileAccepts (t fa : Fmt) : Bool :=
  match t with
  | .fp16 | .bf16 => fa == .fp16 || fa == .bf16
  | _ => fa == .fp8a || fa == .fp8b || fa == .i8 || fa == .fp4 || fa == .i4

/-- Check 1 of R229. -/
def headerOk (h : TileHeader) (f : Fmt) : Bool :=
  h.magic == 0x4D54 && !h.reserved && h.fmt == f.code && decide (128 ≤ h.k) && h.k % 128 == 0 && decide (h.k ≤ (tileLimits f).1) &&
  decide (1 ≤ h.n) && decide (h.n ≤ (tileLimits f).2) && (f == .cb2 || h.bank == 0)

def TileHeader.blk (h : TileHeader) : Nat := if h.b32 then 32 else 128
def TileHeader.scales (h : TileHeader) : Nat := h.n * h.k / h.blk

/-- Bytes of codes. -/
def TileHeader.codeBytes (h : TileHeader) (f : Fmt) : Nat := if f = .cb2 then h.n * h.k / 4 else h.n * h.k * f.width / 8

/-- The first code byte C, the first margin byte M, and the size of the image (R227). -/
def TileHeader.codeAt (h : TileHeader) : Nat := 64 + 64 * ((h.scales + 63) / 64)
def TileHeader.marginAt (h : TileHeader) (f : Fmt) : Nat := h.codeAt + 64 * ((h.codeBytes f + 63) / 64)
def TileHeader.size (h : TileHeader) (f : Fmt) : Nat := h.marginAt f + 4 * h.mcnt

/-! ### Weights (R228, R178, R179) -/

def fmtOf (code : Nat) : Fmt := (Fmt.ofCode code).getD .i8

/-- A latched tile, opened: its header, format, and the image as one number. -/
structure OpenTile where
  h    : TileHeader
  f    : Fmt
  img  : Nat
  book : Nat
  deriving DecidableEq, Repr

def openImage (bytes : List Byte) (book : BitVec 16384) : OpenTile :=
  let v := leNat bytes
  let h := headerOf (v % 2 ^ 512)
  ⟨h, fmtOf h.fmt, v, book.toNat⟩

def Tile.opened (t : Tile) : OpenTile := openImage t.image t.book

/-- The scale of column n in scale block j. -/
def OpenTile.scale (t : OpenTile) (j n : Nat) : Nat := bits t.img (8 * (64 + j * t.h.n + n)) 8

/-- Margin entry i, and the first that names a weight index. -/
def OpenTile.entry (t : OpenTile) (i : Nat) : Nat := bits t.img (8 * t.h.marginAt t.f + 32 * i) 32
def OpenTile.marginOf (t : OpenTile) (i : Nat) : Option Nat := ((List.range t.h.mcnt).map t.entry).find? fun e => e % 2 ^ 15 == i

/-- A format has a margin code (Table 12.4). -/
def hasMargin : Fmt → Bool
  | .fp8a | .fp8b | .fp4 | .i8 | .i4 => true
  | _ => false

/-- A CB2 weight (R179): base point, then sign. -/
def cb2Weight (book c j : Nat) : FVal :=
  let p := bits book (64 * (c / 256)) 64
  let m := bits p (4 * j) 4
  let s := if j ≤ 6 then c.testBit (j + 1)
    else [1, 2, 3, 4, 5, 6, 7].foldl (fun b i => b != c.testBit i) (p.testBit 32)
  if m = 0 then .fin false 0 0 else .fin s m (-2)

/-- The value of weight index i before scaling (R228). -/
def OpenTile.weight (t : OpenTile) (i : Nat) : FVal :=
  let margin : FVal := match t.marginOf i with | some e => decodeF .fp16 (e / 2 ^ 16) | none => .fin false 0 0
  if t.f = .cb2 then
    let c := bits t.img (8 * t.h.codeAt + 16 * (i / 8)) 16
    if c = 0xFFFF then margin else cb2Weight t.book c (i % 8)
  else
    let c := bits t.img (8 * t.h.codeAt + t.f.width * i) t.f.width
    if hasMargin t.f && c == marginCode t.f then margin else narrowValue t.f c

def FVal.special : FVal → Bool
  | .fin _ _ _ => false
  | _ => true

/-- CF (R230). -/
def OpenTile.columnWord (t : OpenTile) : BitVec 64 :=
  BitVec.ofNat 64 ((List.range t.h.n).foldl (fun v n =>
    if ((List.range t.h.k).any fun k => (t.weight (n * t.h.k + k)).special) || ((List.range (t.h.k / t.h.blk)).any fun j => t.scale j n == 0xFF)
    then v + 2 ^ n else v) 0)

/-! ### Loading (R229, R233 to R235) -/

/-- Every trap of an action, a violation too, is one at element 0 (R233). -/
def atFirst {α : Type} (m : Act α) : Act α := fun s =>
  match m s with
  | (.error (.trap i), s') => (.error (.trap { i with elem := some 0 }), s')
  | r => r

/-- Reads n bytes of a scratchpad whole: the scratchpad-range trap where a byte is out of range, every fault at element 0. -/
def padBlock (sa : Int) (n : Nat) : Act (List Byte) := do
  let s ← get
  if (s.padRef sa).isNone || (s.padRef (sa + n - 1)).isNone then throw (.trap { cause := Cause.padRange, addr := vaOfInt sa, elem := some 0 })
  else
    let l ← (sectorPieces sa.toNat n).mapM fun (o, len) => do
      match s.padRef o with
      | none => pure []
      | some r => atFirst (do
        padGuard o r
        padRead r.core r.off len (vaOfInt o))
    return l.flatten

/-- The alignment of R233. -/
def padAligned (sa : Int) : Act Unit :=
  if sa % 64 != 0 then throw (.trap { cause := Cause.misalignment, addr := vaOfInt sa, elem := some 0 }) else pure ()

/-- The shadow is swapped in: no row is in progress between steps (R226). -/
def Core.swapTile (c : Core) : Core :=
  match c.shadow with
  | some t => { c with tile := some t, shadow := none }
  | none => c

/-- Reads and checks an image (R229). -/
def readTile (f : Fmt) (sa : Int) : Act Tile := do
  padAligned sa
  let h := headerOf (leNat (← padBlock sa 64))
  trapIf (!headerOk h f) Cause.tileFormat
  trapIf (decide (128 < h.mcnt)) Cause.marginOverflow
  trapIf ((f == .fp16 || f == .bf16) && h.mcnt != 0) Cause.tileFormat
  if f = .cb2 then needFeature 1 else pure ()
  if h.mcnt != 0 then needFeature 0 else pure ()
  let img ← padBlock sa (h.size f)
  let c ← getCore
  let book := if f = .cb2 then (if h.bank = 1 then c.book1 else c.book0) else 0
  let t := openImage img book
  trapIf (((List.range h.mcnt).map t.entry).any fun e => e.testBit 15 || decide (h.n * h.k ≤ e % 2 ^ 15)) Cause.tileFormat
  return ⟨img, book, t.columnWord, (← getCur).asid⟩

/-- MTLOAD (R233). -/
def execMtload (o : HT48VM) (s : State) : Host.Outcome State Fault Refusal :=
  finish (do
    modCore Core.swapTile
    let t ← readTile o.fmt (scalarAddr (← reg o.base) o.disp)
    modCore fun c => { c with shadow := some t }
    modCur fun x => { x with tile := some t, tileHeld := false }) s

/-- A tile latches at a member of a quire, wherever its task is (R234, R147). -/
def State.latchAt (s : State) (d : Fin 4) (members : List Nat) (t : Tile) : State :=
  let member (x : Hart) : Bool := match x.task with | some k => members.contains k.number | none => false
  let s := s.harts.foldl (fun s (k, x) =>
    if k / 768 == d.val && member x then
      let id : CoreId := ⟨d, Fin.ofNat 96 (k / 8 % 96)⟩
      let s := s.setCore id { (s.core id).swapTile with tile := some t }
      { s with harts := tput s.harts k { x with tile := some t, tileHeld := false } }
    else s) s
  let x := s.die d
  s.setDie d { x with frames := x.frames.map fun (k, f) => (k, f.map fun y => if member y.hart then { y with hart := { y.hart with tile := some t } } else y) }

/-- MTLOADQ (R234). -/
def execMtloadq (o : HT48VM) (s : State) : Host.Outcome State Fault Refusal :=
  finish (do
    match (← getCur).quire with
    | none => trap Cause.matrix
    | some (q, _) =>
      modCore Core.swapTile
      let t ← readTile o.fmt (scalarAddr (← reg o.base) o.disp)
      modify fun s => s.latchAt s.curHart.die (tget {} (s.die s.curHart.die).quires q : Quire).members t) s

/-- TILE_SHADOW_SWAP, on core `req.core`. -/
def execTileShadowSwap (s : State) : Host.Outcome State Fault Refusal := .next (s.setCore s.req.core (s.core s.req.core).swapTile)

/-- CBLOAD (R235). -/
def execCbload (o : HT48VM) (s : State) : Host.Outcome State Fault Refusal :=
  finish (do
    needFeature 1
    let sa := scalarAddr (← reg o.base) o.disp
    padAligned sa
    let v := leNat (← padBlock sa 2048)
    trapIf ((List.range 256).any fun p => bits v (64 * p + 33) 31 != 0) Cause.codebookFormat
    modCore fun c => if o.v.val = 1 then { c with book1 := BitVec.ofNat 16384 v } else { c with book0 := BitVec.ofNat 16384 v }) s

/-! ### Rows (R236 to R238) -/

/-- What a row instruction knows of its activations (R237). -/
structure RowIn where
  codes : Nat
  buf   : Nat
  cap   : Nat
  am    : Bool
  fa    : Fmt
  /-- The activation scales, byte j for K-block j; none when every scale is 0x7F. -/
  scales : Option Nat
  vstart : Nat
  /-- The elements that exist: min(VL, N_el). -/
  top   : Nat
  deriving DecidableEq, Repr

def RowIn.scale (r : RowIn) (j : Nat) : Nat := match r.scales with | some v => bits v (8 * j) 8 | none => 0x7F

/-- Element k is read. -/
def RowIn.reads (r : RowIn) (k : Nat) : Bool := decide (r.vstart ≤ k) && decide (k < r.top)

/-- The buffer entry that names an element (R237, R228). -/
def RowIn.marginEntry (r : RowIn) (k : Nat) : Option Nat := ((List.range r.cap).map (elemAt 32 r.buf)).find? fun e => e % 2 ^ 15 == k

/-- Element k is a margin code that the buffer resolves. -/
def RowIn.resolved (r : RowIn) (k : Nat) : Bool :=
  r.am && r.reads k && hasMargin r.fa && elemAt r.fa.width r.codes k == marginCode r.fa && (r.marginEntry k).isSome

/-- The activation value of element k before scaling (R228). -/
def RowIn.value (r : RowIn) (k : Nat) : FVal :=
  if !r.reads k then .fin false 0 0
  else
    let c := elemAt r.fa.width r.codes k
    if hasMargin r.fa && c == marginCode r.fa then
      (if r.am then match r.marginEntry k with | some e => decodeF .fp16 (e / 2 ^ 16) | none => .fin false 0 0 else .fin false 0 0)
    else narrowValue r.fa c

/-- An exact number s × 2^e. -/
structure Fixed where
  s : Int := 0
  e : Int := 0
  deriving DecidableEq, Repr

def Fixed.add (a : Fixed) (neg : Bool) (m : Nat) (e : Int) : Fixed :=
  if m = 0 then a
  else if a.s = 0 then ⟨atExp neg m e e, e⟩
  else
    let lo := min a.e e
    ⟨a.s * 2 ^ (a.e - lo).toNat + atExp neg m e lo, lo⟩

/-- Adds the exact product of two elements; specials enter as zero (R190). -/
def Fixed.mulAdd (a : Fixed) (x y : FVal) : Fixed :=
  match x, y with
  | .fin n m e, .fin n' m' e' => a.add (n != n') (m * m') (e + e')
  | _, _ => a

/-- The block partial P of column n (R188). -/
def blockPartial (r : RowIn) (t : OpenTile) (n j : Nat) : Fixed :=
  let b := t.h.blk
  if t.scale j n = 0xFF ∨ r.scale j = 0xFF then {}
  else (List.range b).foldl (fun a i => if r.reads (b * j + i) then a.mulAdd (r.value (b * j + i)) (t.weight (n * t.h.k + (b * j + i))) else a) {}

/-- One update of an accumulator (R189). -/
def accStep (acc : Nat) (p : Fixed) (e : Int) : Nat :=
  if p.s = 0 then acc
  else match decodeF .acc80 acc with
    | .fin n m k =>
      let q := (Fixed.mk p.s (p.e + e)).add n m k
      if q.s = 0 then 0 else (roundF .acc80 .rne false false (exactOfInt q.s q.e)).1
    | _ => acc

/-- Column n of a row after the multiply (R236). -/
def accColumn (r : RowIn) (t : OpenTile) (n acc : Nat) : Nat :=
  (List.range (t.h.k / t.h.blk)).foldl (fun acc j =>
    accStep acc (blockPartial r t n j) ((r.scale j : Int) - 127 + ((t.scale j n : Int) - 127))) acc

/-- s_a and m_a (R236). -/
def rowSpecial (r : RowIn) (t : OpenTile) : Bool :=
  (List.range t.h.k).any fun k => r.reads k && ((r.value k).special || r.scale (k / t.h.blk) == 0xFF)
def rowMargins (r : RowIn) (t : OpenTile) : Nat := ((List.range t.h.k).filter r.resolved).length

/-- The columns of a row. -/
def AccRow.col (a : AccRow) (n : Nat) : Nat := elemAt 80 a.cols.toNat n

/-- MROW and MROWZ: the row after the instruction, and the free value used when MROWZ counts more than 255 margins (log 13). -/
def rowAfter (zero : Bool) (r : RowIn) (t : OpenTile) (cf : BitVec 64) (a : AccRow) (free : Nat) : AccRow :=
  let cols := (List.range 64).foldl (fun v n =>
    let old := if zero then 0 else a.col n
    putElem 80 v n (if n < t.h.n then accColumn r t n old else old)) 0
  let m := rowMargins r t
  { cols := BitVec.ofNat 5120 cols
    rsf := (!zero && a.rsf) || rowSpecial r t
    csf := if zero then cf else a.csf ||| cf
    amc := if zero then (if 255 < m then Config.freeMarginCount free else BitVec.ofNat 8 m) else BitVec.ofNat 8 (min 255 (a.amc.toNat + m)) }

/-- MROW and MROWZ (R236): the traps in their order, then the whole effect. -/
def rowBody (zero : Bool) (o : HT48MX) : Act Unit :=
  whole (do
    let am := o.count.val % 2 = 1
    if am || (← getCur).tileHeld then needFeature 0 else pure ()
    let nel ← countOf o.group o.fa
    checkLength nel
    let g := o.group.size
    let src : Operand := ⟨o.v.val, g, o.fa.width⟩
    let buf : Operand := ⟨o.v.val + g, g, 32⟩
    let x ← getCur
    trapIf (badSource x src || (am && x.bindings.any fun (v, b) => overlaps buf v b)) Cause.stream
    modCore Core.swapTile
    match (← getCore).tile with
    | none => trap Cause.matrix
    | some tile =>
      let t := tile.opened
      trapIf (tile.asid != x.asid || !tileAccepts t.f o.fa || (t.h.b32 && o.s.val % 2 == 1)) Cause.matrix
      openOperands [src] []
      let x ← getCur
      guardWhole [src] ((activeList x.vstart.toNat x.vl.toNat (2 ^ nel - 1)).filter fun k => decide (k < t.h.k))
      let codes ← readOperand src
      let b ← readOperand buf
      let sc : Option Nat := if o.s = 0 then none
        else if t.h.b32 then some ((x.getS o.s.val).toNat + (x.getS (o.s.val + 1)).toNat * 2 ^ 64)
        else some (x.getS o.s.val).toNat
      let r : RowIn := { codes := codes, buf := b, cap := 2 * (← get).lanes * g, am := am, fa := o.fa, scales := sc, vstart := x.vstart.toNat, top := min x.vl.toNat nel }
      let free := (← get).freeCtr
      if zero && decide (255 < rowMargins r t) then modify fun s => { s with freeCtr := free + 1 } else pure ()
      modCur fun x => { x.setAc o.row.val (rowAfter zero r t tile.cf (x.getAc o.row.val) free) with tile := some tile }
      clearVstart)

def execMrow (o : HT48MX) (s : State) : Host.Outcome State Fault Refusal := finish (rowBody false o) s
def execMrowz (o : HT48MX) (s : State) : Host.Outcome State Fault Refusal := finish (rowBody true o) s

/-! ### Draining, clearing, status (R240, R241) -/

/-- The flagged value of a destination (R190). -/
def flaggedValue (fd : Fmt) (sat : Bool) : Nat :=
  if fd = .fp8a ∧ sat then 0x7E else canonicalNaN fd

/-- MDRAIN (R240). -/
def execMdrain (o : HT48MX) (s : State) : Host.Outcome State Fault Refusal :=
  finish (do
    let n := min 64 (← countOf o.group o.fd)
    let m ← govMask o.mask
    let row := (← getCur).getAc o.row.val
    elementwise n m [] ⟨o.v.val, o.group.size, o.fd.width⟩ fun _ _ e =>
      if row.rsf || row.csf.getLsbD e then (flaggedValue o.fd o.sat, flagNV)
      else convert .acc80 o.fd o.rm o.sat (row.col e)) s

/-- MCLR (R241). -/
def execMclr (o : HT48MX) (s : State) : Host.Outcome State Fault Refusal :=
  finish (modCur fun x => (List.range o.count.val).foldl (fun x k => x.setAc (o.row.val + k) {}) x) s

/-- The word of MSTAT (R241). -/
def mstatWord (sel : Nat) (a : AccRow) (t : Option Tile) : BitVec 64 :=
  match sel with
  | 0 => a.csf
  | 1 =>
    let tile := match t with
      | some t => let o := t.opened; o.h.mcnt * 2 ^ 16 + o.h.k * 2 ^ 32 + o.h.n * 2 ^ 48 + o.h.fmt * 2 ^ 56 + 2 ^ 61
      | none => 0
    BitVec.ofNat 64 (a.rsf.toNat + a.amc.toNat * 2 ^ 8 + tile)
  | _ => match t with | some t => t.cf | none => 0

/-- MSTAT (R241). -/
def execMstat (o : HT48MX) (s : State) : Host.Outcome State Fault Refusal :=
  finish (do
    modCore Core.swapTile
    let x ← getCur
    let t := match (← getCore).tile with | some t => if t.asid = x.asid then some t else none | none => none
    setReg o.s (mstatWord o.count.val (x.getAc o.row.val) t)) s

end Sys2Proof.Machine
end

