-- ==== Sys2Proof/Machine/Launch.lean ====
section
/-! DEFINITION. Pipelines, tasks, dispatch, retirement, frames, resumption, the balancer and pre-emption (R285, R318 to R340). -/

namespace Sys2Proof.Machine

/-! ### Harts as the launch controller sees them -/

/-- The hart positions of a core under its partition. -/
def hartsOf (c : CoreId) (k : Core) : List HartId := (List.range k.numHarts).map fun i => ⟨c.die, c.core, Fin.ofNat 8 i⟩

/-- The assignment of a position (R322). -/
def Die.assignOf (d : Die) (h : HartId) : Assign := tget {} d.assign (8 * h.core.val + h.hart.val)
def State.assignOf (s : State) (h : HartId) : Assign := (s.die h.die).assignOf h
def State.setAssign (s : State) (h : HartId) (a : Assign) : State :=
  s.setDie h.die { s.die h.die with assign := tput (s.die h.die).assign (8 * h.core.val + h.hart.val) a }

/-- The frames whose home is a core (R334). -/
def State.homeFrames (s : State) (c : CoreId) : List Frame :=
  (s.die c.die).frames.filterMap fun (_, f) => match f with
    | some f => if f.id.core = c.core then some f else none
    | none => none

/-- The address spaces that a core is bound to: those of its tasks and of the frames whose home it is (R322, R334). -/
def State.boundTo (s : State) (c : CoreId) : List (BitVec 16) :=
  (s.tasksOn c).map (fun t => t.asid) ++ (s.homeFrames c).map fun f => f.hart.asid

/-- A core holds no task and is home to no frame. -/
def State.vacant (s : State) (c : CoreId) : Bool := (s.boundTo c).isEmpty

/-- All streams of a hart have halted (R285): its task retires. -/
def Hart.retiring (x : Hart) : Bool := x.task.isSome && x.sa.stat == .halted && x.sx.stat == .halted && x.sc.stat == .halted

def dieCores (d : Fin 4) : List CoreId := (List.finRange 96).map fun c => ⟨d, c⟩

/-- A core meets the needs of a task of an address space, feature mask and partition as it stands (R322). -/
def State.coreMeets (s : State) (c : CoreId) (asid : BitVec 16) (featm : BitVec 3) (hpc : BitVec 2) : Bool :=
  let k := s.core c
  k.harts == hpc && (s.boundTo c).all (· == asid) && featm &&& k.feat == featm && !k.swapHeld

/-- A hart holds no task and belongs to no stage (log 21). -/
def State.freeHart (s : State) (h : HartId) : Bool := (s.hart h).task.isNone && (s.assignOf h).stage.isNone

/-- A core that can be repartitioned (R322, R334; log 21). -/
def State.coreOpen (s : State) (c : CoreId) (featm : BitVec 3) : Bool :=
  let k := s.core c
  s.vacant c && featm &&& k.feat == featm && !k.swapHeld && (hartsOf c k).all fun h => (s.assignOf h).stage.isNone

/-- A free hart of no stage that meets the needs: on the lowest core already partitioned, else hart 0 of the lowest core that can
be repartitioned. -/
def State.pickFree (s : State) (d : Fin 4) (asid : BitVec 16) (featm : BitVec 3) (hpc : BitVec 2) : Option HartId :=
  match (dieCores d).findSome? fun c => if s.coreMeets c asid featm hpc then (hartsOf c (s.core c)).find? s.freeHart else none with
  | some h => some h
  | none => ((dieCores d).find? fun c => s.coreOpen c featm).map fun c => ⟨c.die, c.core, 0⟩

/-- The hart for a first-start record (R322). -/
def State.pickFirst (s : State) (d : Fin 4) (slot stage : Nat) : Option HartId :=
  let p := s.hub.pipe slot
  match p.stages[stage]? with
  | none => none
  | some st =>
    match (dieCores d).findSome? fun c => if s.coreMeets c p.asid st.featm st.hpc then
        (hartsOf c (s.core c)).find? fun h => (s.hart h).task.isNone && (s.assignOf h).stage == some (slot, stage) else none with
    | some h => some h
    | none => s.pickFree d p.asid st.featm st.hpc

/-! ### Starting a task (R120, R166, R321) -/

/-- Repartitions a core when it stands otherwise. -/
def State.partition (s : State) (c : CoreId) (hpc : BitVec 2) : State :=
  if (s.core c).harts = hpc then s else s.setCore c { s.core c with harts := hpc }

/-- The scratchpad is zeroed before a task of another address space than the last, or the first since reset (R120). -/
def State.zeroPad (s : State) (c : CoreId) (asid : BitVec 16) : State :=
  let k := s.core c
  if k.lastAsid = some asid then s else s.setCore c { k with scratch := [], badSp := [], lastAsid := some asid }

/-- Starts a task of a stage on a hart. -/
def State.startTask (s : State) (h : HartId) (slot stage : Nat) : State :=
  let p := s.hub.pipe slot
  match p.stages[stage]? with
  | none => s
  | some st =>
    let s := (s.partition (coreOf h) st.hpc).zeroPad (coreOf h) p.asid
    let t : Task := { number := s.taskCtr + 1, asid := p.asid, slot := slot, stage := stage, prio := p.prio }
    let x : Hart := ({ task := some t } : Hart).startAt ⟨st.aent, st.xent, st.cent, st.featm⟩ (fun _ => 0)
    ({ s with taskCtr := s.taskCtr + 1 }.setHart h x).setAssign h { s.assignOf h with stage := some (slot, stage) }

/-- The filled entries of the queues whose consumer is the stage (FQ of R322). -/
def Pipeline.filled (p : Pipeline) (stage : Nat) : Nat := p.queues.foldl (fun n q => if q.cons = stage then n + q.entries.length else n) 0

/-- The tasks of the stage on the die that run and have completed no SQPOP (WT). -/
def State.waitingTasks (s : State) (d : Fin 4) (slot stage : Nat) : Nat :=
  (s.harts.filter fun (k, x) => k / 768 == d.val && (match x.task with
    | some t => t.slot == slot && t.stage == stage && !t.popped
    | none => false)).length

/-- A free hart assigned to a stage starts a task of it while FQ > WT (R322). -/
def State.queueStart (s : State) (h : HartId) : State :=
  match (s.assignOf h).stage with
  | none => s
  | some (slot, stage) =>
    let p := s.hub.pipe slot
    match p.stages[stage]? with
    | none => s
    | some st =>
      if (s.hart h).task.isNone && p.state == 1 && s.coreMeets (coreOf h) p.asid st.featm st.hpc &&
          decide (s.waitingTasks h.die slot stage < p.filled stage) then s.startTask h slot stage
      else s

/-- QUEUE_TASK_START, on hart `req.hart`. -/
def execQueueTaskStart (s : State) : Host.Outcome State Fault Refusal := .next (s.queueStart s.req.hart)

/-! ### Retirement (R321) -/

/-- A task has a place in the module: on a hart, or in a frame. -/
def State.tasksOf (s : State) (slot : Nat) : Nat :=
  (s.harts.filter fun (_, x) => match x.task with | some t => t.slot == slot | none => false).length +
  (allDies.map fun d => ((s.die d).frames.filter fun (_, f) => match f with
    | some f => (match f.hart.task with | some t => t.slot == slot | none => false)
    | none => false).length).sum

/-- A draining slot whose last task has retired becomes empty (R320): unpopped entries are discarded, no hart belongs to its
stages, and the requests bound to its ingress queue have nowhere to push (log 20). -/
def State.emptySlot (s : State) (slot : Nat) : State :=
  let p := s.hub.pipe slot
  if p.state = 2 ∧ s.tasksOf slot = 0 then
    let s := s.onHub fun h =>
      { h.setPipe slot { p with state := 0, maps := none, stages := [], queues := [] } with
        requests := h.requests.map fun r => if r.slot = slot then { r with slot := 32 } else r
        closed := h.closed.map fun r => if r.slot = slot then { r with slot := 32 } else r
        cancels := h.cancels.map fun r => if r.slot = slot then { r with slot := 32 } else r }
    allDies.foldl (fun s d => s.setDie d { s.die d with
      assign := (s.die d).assign.map fun (k, a) => (k, match a.stage with | some (x, _) => if x = slot then {} else a | none => a)
      launch := (s.die d).launch.map fun (k, l) => (k, l.filter fun r => match r.kind with | .first x _ => x != slot | .resume _ _ => true) }) s
  else s

/-- Discards the COPYQ entries that a task has still to receive, and counts them (R147, R150). -/
def State.dropDeliveries (s : State) (d : Fin 4) (t : Nat) : State :=
  s.cores.foldl (fun s (k, c) =>
    if k / 96 == d.val then
      c.wells.foldl (fun s (h, w) =>
        match w.copy with
        | some cp =>
          if cp.dest.isSome && cp.members.contains t then
            let s := s.countDie d 0x20 (cp.entries - tget 0 cp.landed t)
            let id : CoreId := ⟨d, Fin.ofNat 96 (k % 96)⟩
            let cp := { cp with members := cp.members.filter (· != t) }
            if w.state == .filling && !cp.frozen then s.keepCopy id h w cp
            else s.setCore id ((s.core id).setWell h { w with copy := some cp })
          else s
        | none => s) s
    else s) s

/-- The wells that a task owns on its die. -/
def State.ownedWells (s : State) (d : Fin 4) (t : Nat) : List (CoreId × Nat × Well) :=
  s.cores.flatMap fun (k, c) => if k / 96 == d.val then
    (c.wells.filter fun (_, w) => w.owner == some t).map fun (h, w) => (⟨d, Fin.ofNat 96 (k % 96)⟩, h, w) else []

/-- Frees the wells of a task that pass a test. -/
def State.freeWells (s : State) (d : Fin 4) (t : Nat) (p : Well → Bool) : State :=
  (s.ownedWells d t).foldl (fun s (c, h, w) => if p w then s.setCore c ((s.core c).setWell h {}) else s) s

/-- What a retiring hart keeps none of; the task's copies go on to their end. -/
def Hart.bare (x : Hart) : Hart :=
  { x with binds := [], quire := none, joining := none, flagWait := none, window := none, q := [], bq := [], keys := [] }

/-- The entries of a task's bindings, those in flight among them, which its end discards (R150, R321). -/
def Hart.boundEntries (x : Hart) : Nat := x.bindings.foldl (fun n (_, b) => n + b.entries.length + b.inFlight.toNat) 0

/-- The first part of retirement: stash regions, the quire, window, queues and keys, and faulted copies. -/
def State.beginRetire (s : State) (h : HartId) (x : Hart) : State :=
  let t := x.taskNo
  let c := coreOf h
  let s := ((s.core c).stash.filter fun r => r.owner == t).foldl (fun s r => (s.unmapRegion c r).1) s
  let s := match x.quire with | some (q, _) => s.leaveQuire h.die q t | none => s
  (s.dropDeliveries h.die t).freeWells h.die t fun w => w.state == .faulted

/-- No copy of a task is attached any more: each that was not filling-faulted when retirement began has become full, one that
faulted later after its resumption (R139, R321; log 26). -/
def State.copiesDone (s : State) (d : Fin 4) (t : Nat) : Bool :=
  (s.ownedWells d t).all fun x => x.2.2.copy.isNone

/-- A hart becomes free; a mark takes effect, and the next task of its stage starts if the count allows (R322, R325). Its counters keep
their values until a placement zeroes them (R368). -/
def State.freePosition (s : State) (h : HartId) : State :=
  let a := s.assignOf h
  let s := s.setHart h { counters := (s.hart h).counters }
  match a.mark with
  | some m => s.setAssign h { stage := some m }
  | none => s

/-- The end of retirement, once every copy is full: owned wells are freed and the hart is free. -/
def State.finishRetire (s : State) (h : HartId) : State :=
  let x := s.hart h
  if x.retiring && s.copiesDone h.die x.taskNo then
    let slot := match x.task with | some t => t.slot | none => 32
    let s := s.freeWells h.die x.taskNo fun _ => true
    ((s.freePosition h).emptySlot slot).queueStart h
  else s

/-- HALT (R285); the stream's earlier instructions have completed (log 7). A stream that stands at an RDV takes the rendezvous trap (R283); when the last stream halts, the task retires. -/
def haltBody : Act Unit := do
  let s ← get
  let st := s.curStream
  modCur fun x => x.setSt st { x.st st with stat := .halted }
  modify State.complete
  modCur fun x => [Stream.a, .x, .c].foldl (fun x t =>
    if (x.st t).stat == .atRdv then (x.setSt t { x.st t with stat := .running }).takeTrap t { cause := Cause.rendezvous } else x) x
  let y ← getCur
  if y.retiring then
    modify fun s => s.countHart s.curHart 0x20 y.boundEntries
    modify fun s => s.beginRetire s.curHart s.cur
    modCur Hart.bare
    modify fun s => s.finishRetire s.curHart
  else pure ()

def execHalt (s : State) : Host.Outcome State Fault Refusal := settle haltBody s

/-! ### Installing and draining a pipeline (R318 to R320) -/

/-- The fields of a stage entry (Table 23.2), none where one breaks its limits. -/
def stageOf (v : Nat) : Option Stage :=
  let st : Stage := { hpc := BitVec.ofNat 2 (bits v 8 2), minh := bits v 16 16, maxh := bits v 32 16, desc := BitVec.ofNat 64 (bits v 128 64),
                      aent := 0, xent := 0, cent := 0, featm := 0 }
  if bits v 192 64 = 0 ∧ bits v 48 80 = 0 ∧ bits v 10 6 = 0 ∧ bits v 0 8 = 0 ∧ canonical st.desc ∧ st.desc.toNat % 32 = 0 ∧ 1 ≤ st.minh ∧
      (st.maxh = 0 ∨ st.minh ≤ st.maxh) then some st else none

/-- The fields of a queue entry (Table 23.3). -/
def queueOf (v nstg : Nat) : Option StageQueue :=
  let q : StageQueue := { depth := bits v 32 13, cons := bits v 16 5, prod := bits v 8 5 }
  if bits v 45 83 = 0 ∧ bits v 21 11 = 0 ∧ bits v 13 3 = 0 ∧ bits v 0 8 = 0 ∧ 1 ≤ q.depth ∧ q.depth ≤ 4096 ∧ q.cons < nstg ∧
      (q.prod < nstg ∨ q.prod = 31) then some q else none

/-- The header keeps the limits of Table 23.1. -/
def headerFits (v : Nat) : Bool :=
  bits v 0 16 == 0x4C50 && bits v 64 448 == 0 && bits v 42 6 == 0 && bits v 30 10 == 0 && bits v 21 3 == 0 &&
  decide (1 ≤ bits v 16 5) && decide (bits v 16 5 ≤ 16) && decide (bits v 24 6 ≤ 32) && decide (bits v 48 16 ≤ 1024)

/-- A failed check of an install. -/
def reject {α : Type} : Act α := trap Cause.malformed

def orReject {α : Type} : Option α → Act α
  | some a => pure a
  | none => reject

/-- Reads an object and the descriptors of its stages under an address space, with every check of its fields. -/
def readPipeline (asid : BitVec 16) (va : BitVec 64) : Act (Nat × List Stage × List StageQueue) := do
  if va.toNat % 64 != 0 then reject
  else
    let h := leNat (← hubRead asid va 64)
    if !headerFits h then reject
    else
      let ns := bits h 16 5
      let nq := bits h 24 6
      let b ← hubRead asid (va + 64) (32 * ns + 16 * nq)
      let stages ← (List.range ns).mapM fun i => do
        let st ← orReject (stageOf (leNat (tableEntry b 32 i)))
        let k ← orReject (codeObject (← readBlock 0 asid st.desc 32))
        return ({ st with aent := k.aent, xent := k.xent, cent := k.cent, featm := k.featm } : Stage)
      let queues ← (List.range nq).mapM fun i => orReject (queueOf (leNat (tableEntry (b.drop (32 * ns)) 16 i)) ns)
      return (h, stages, queues)

/-- The free harts of a die cover the fewest harts of the stages at each partition: harts of cores in use first, then whole cores
that can be repartitioned (R320; log 21). -/
def State.covers (s : State) (d : Fin 4) (asid : BitVec 16) (stages : List Stage) : Bool :=
  let used := (dieCores d).filter fun c => !s.coreOpen c 0
  let cores := ([0, 1, 2, 3] : List Nat).map fun h =>
    let hpc := BitVec.ofNat 2 h
    let need := (stages.filter fun st => st.hpc == hpc).foldl (fun n st => n + st.minh) 0
    let have' := (used.filter fun c => s.coreMeets c asid 0 hpc).foldl (fun n c => n + ((hartsOf c (s.core c)).filter s.freeHart).length) 0
    (need - have' + 2 ^ h - 1) / 2 ^ h
  decide (cores.sum ≤ ((dieCores d).filter fun c => s.coreOpen c 0).length)

/-- The dies of a placement. -/
def placement (p : Pipeline) : List (Fin 4) := allDies.filter fun d => p.dies.getLsbD d.val

/-- The checks of R320 on the slot's own fields and on the harts. -/
def State.installOk (s : State) (slot : Nat) (p : Pipeline) : Bool :=
  p.dies != 0 &&
  (!p.ing || ((match p.queue p.inq.toNat with | some q => q.prod == 31 | none => false) &&
    !(s.hub.pipes.any fun (k, o) => k != slot && o.maps == some p.model))) &&
  (placement p).all fun d => s.covers d p.asid p.stages

def Die.enqueue (d : Die) (prio : Nat) (r : List LaunchRec) : Die := { d with launch := tput d.launch prio (tget [] d.launch prio ++ r) }

/-- Assigns a hart of a die to a stage, chosen as R322 chooses one; where only cores without the stage's features have free
harts, one of those, which stands for the stage in the counts (R320; log 21). -/
def State.assignOne (s : State) (d : Fin 4) (p : Pipeline) (slot i : Nat) (st : Stage) : State :=
  match s.pickFree d p.asid st.featm st.hpc <|> s.pickFree d p.asid 0 st.hpc with
  | some h => (s.partition (coreOf h) st.hpc).setAssign h { stage := some (slot, i) }
  | none => s

/-- What an install does on a die of its placement: MINH harts of each stage are assigned, and a first-start record for each
enters the launch queue of the pipeline's priority (R320). -/
def State.placeOn (s : State) (slot : Nat) (p : Pipeline) (d : Fin 4) : State :=
  let want := p.stages.zipIdx.flatMap fun (st, i) => List.replicate st.minh (st, i)
  let s := want.foldl (fun s (st, i) => s.assignOne d p slot i st) s
  s.setDie d ((s.die d).enqueue p.prio (want.map fun (_, i) => { kind := .first slot i }))

/-- The reads of an install and the check of its address space's entry (R83, R320). -/
def installReads (asid : BitVec 16) (va : BitVec 64) : Act (Nat × List Stage × List StageQueue) := do
  let r ← readPipeline asid va
  if (← astEntry asid va).isNone then reject else return r

/-- The install of a slot whose registers are written (R320). -/
def State.install (s : State) (slot : Nat) : State :=
  let p := s.hub.pipe slot
  let bad (s : State) : State := s.onHub fun h => h.setPipe slot { p with state := 3, en := false }
  match (installReads p.asid p.addr).run s with
  | (.ok (h, stages, queues), s') =>
    let p' := { p with stages := stages, queues := queues, prio := bits h 40 2, thr := if bits h 48 16 = 0 then 256 else bits h 48 16,
                       maps := if p.ing then some p.model else none }
    if s'.installOk slot p' then
      (placement p').foldl (fun s d => s.placeOn slot p' d) (s'.onHub fun h => h.setPipe slot { p' with state := 1, en := true })
    else bad s'
  | (.error _, s') => bad s'

/-- A write of PLCTL (R320). DESIGN CHOICE (log 72): R320 gives EN = 1 a meaning in STATE 0, and STATE 3 wants EN = 0 first; a write
of EN = 1 in STATE 2 or 3 installs nothing, EN stays 0, and the other fields are stored, as they are by any write while EN is 0. -/
def State.writePlctl (s : State) (slot : Nat) (v : BitVec 64) : State :=
  let p := s.hub.pipe slot
  let en := v.getLsbD 0
  if p.en then
    if en then s
    else
      let s := s.onHub fun h => h.setPipe slot { p with en := false, state := 2 }
      let drop (l : List LaunchRec) : List LaunchRec := l.filter fun r => match r.kind with | .first x _ => x != slot | .resume _ _ => true
      (allDies.foldl (fun s d => s.setDie d { s.die d with launch := (s.die d).launch.map fun (k, l) => (k, drop l) }) s).emptySlot slot
  else
    let p := { p with asid := v.extractLsb' 48 16, model := v.extractLsb' 32 16, inq := v.extractLsb' 22 5, ing := v.getLsbD 21, dies := v.extractLsb' 17 4 }
    if en then
      let s := s.onHub fun h => h.setPipe slot p
      if p.state = 0 then s.install slot else s
    else s.onHub fun h => h.setPipe slot { p with state := if p.state = 3 then 0 else p.state }

/-- A write of PLADDR or PLQBASE. -/
def State.writePladdr (s : State) (slot : Nat) (v : BitVec 64) : State :=
  let p := s.hub.pipe slot
  if p.en then s else s.onHub fun h => h.setPipe slot { p with addr := v }
def State.writePlqbase (s : State) (slot : Nat) (v : BitVec 64) : State :=
  let p := s.hub.pipe slot
  if p.en then s else s.onHub fun h => h.setPipe slot { p with qbase := v }

/-- PIPELINE_INSTALL: PLCTL of slot `req.slot` is written with `req.value` and EN = 1. -/
def execPipelineInstall (s : State) : Host.Outcome State Fault Refusal := .next (s.writePlctl s.req.slot.val (s.req.value ||| 1))

/-- PIPELINE_DRAIN: it is written with EN = 0. -/
def execPipelineDrain (s : State) : Host.Outcome State Fault Refusal := .next (s.writePlctl s.req.slot.val (s.req.value &&& ~~~ 1))

/-! ### The restart record (R331) -/

/-- The barrier wait that the record shows: that of a BAR that has made its arrival, which BARM concerns, before any other; of two such,
that of the stream that trapped in it, else the X-stream's. -/
def Hart.shownBar (x : Hart) : Option BarRec :=
  let l := (if x.halt.acause ≠ 0 ∧ x.halt.xcause = 0 then [x.sa.bar, x.sx.bar] else [x.sx.bar, x.sa.bar]).filterMap id
  l.find? (·.arrived) <|> l.head?

/-- Table 24.2, for a hart of position h under a partition. -/
def restartRecord (x : Hart) (h : HartId) (harts : BitVec 2) : Nat :=
  let r := x.halt
  let b := x.shownBar
  let bf (f : BarRec → Nat) : Nat := match b with | some y => f y | none => 0
  r.arg.toNat * 2 ^ 704 + r.code.toNat * 2 ^ 640 + bf (fun y => y.phase.toNat) * 2 ^ 544 + bf (fun y => y.network) * 2 ^ 535 +
  bf (fun y => y.id) * 2 ^ 530 + r.abind.toNat * 2 ^ 506 + r.aent.toNat * 2 ^ 474 + r.akind.toNat * 2 ^ 471 + x.asid.toNat * 2 ^ 432 +
  h.die.val * 2 ^ 430 + h.core.val * 2 ^ 423 + h.hart.val * 2 ^ 420 + x.vstart.toNat * 2 ^ 400 + r.aelem.toNat * 2 ^ 384 +
  r.xcause.toNat * 2 ^ 368 + r.acause.toNat * 2 ^ 352 + r.ccause.toNat * 2 ^ 336 + r.xdone.toNat * 2 ^ 335 + r.frz.toNat * 2 ^ 334 +
  bf (fun y => y.arrived.toNat) * 2 ^ 333 + x.featm.toNat * 2 ^ 330 + harts.toNat * 2 ^ 328 + r.aaddr.toNat * 2 ^ 256 +
  r.xaddr.toNat * 2 ^ 192 + x.sc.pc.toNat * 2 ^ 128 + x.sa.pc.toNat * 2 ^ 64 + x.sx.pc.toNat

/-- CAUSE of the notice (Table 24.6). -/
def HaltRec.first (r : HaltRec) : BitVec 16 := if r.xcause ≠ 0 then r.xcause else if r.acause ≠ 0 then r.acause else r.ccause

/-- The notice of a hart. -/
def hartNotice (x : Hart) (h : HartId) (slot : Nat) : BitVec 64 :=
  BitVec.ofNat 64 (x.halt.first.toNat * 2 ^ 48 + x.halt.frz.toNat * 2 ^ 44 + h.core.val * 2 ^ 25 + h.hart.val * 2 ^ 22 + slot)

/-! ### Swapping out (R334) -/

def Die.frame (d : Die) (slot : Nat) : Option Frame := tget none d.frames slot
def Die.setFrame (d : Die) (slot : Nat) (f : Option Frame) : Die := { d with frames := tput d.frames slot f }

/-- The lowest free slot. -/
def Die.freeSlot (d : Die) : Option Nat :=
  if d.frEn then (List.range (min d.frNslot.toNat 4096)).find? fun k => (d.frame k).isNone else none

/-- The address of a slot (R333). -/
def Die.slotAddr (d : Die) (slot : Nat) : Nat := d.frBase.toNat * 2 ^ 16 + 323584 * slot

/-- The hart may leave its core: it has halted, and does not retire (R327, R334, R338). -/
def Hart.leaving (x : Hart) : Bool := x.task.isSome && !x.retiring && x.halted

/-- The stash mappings of a task on a core. -/
def Core.mappings (c : Core) (t : Nat) : List (Nat × BitVec 64) := (c.stash.filter fun r => r.owner == t).map fun r => (r.offset, r.va)

/-- The resume record of a task that was pre-empted by the balancer or the launch controller is entered at once (R325, R327). -/
def Hart.autoResumes (x : Hart) : Bool := x.halt.first == 0 && (x.preempt == some .balancer || x.preempt == some .launch)

/-- The size of a frame, its record included (Table 24.3). -/
def frameBytes (harts : BitVec 2) : Nat :=
  1024 * match harts.toNat with | 0 => 316 | 1 => 200 | 2 => 140 | _ => 112

/-- Whole lines of memory take bytes that the spec leaves open: every copy of them elsewhere is gone, and every sector is new
(R111, R124). -/
def State.fillFree (s : State) (pa n : Nat) : State :=
  let inside (a : Nat) : Bool := decide (pa ≤ a) && decide (a < pa + n)
  let c := s.freeCtr
  { s with freeCtr := c + n
           mem := s.mem.fill pa n fun k => Config.freeFrameByte (c + k)
           badSectors := s.badSectors.filter fun k => !inside (32 * k)
           keyTags := s.keyTags.filter fun p => !inside (32 * p.1)
           hub := { s.hub with snoop := s.hub.snoop.filter fun e => !inside (64 * e.line) }
           cores := s.cores.map fun (k, y) => (k, { y with stash := y.stash.map fun r =>
             { r with lines := r.lines.map fun (i, l) => (i, l.filter fun x => !inside x.pa) } }) }

/-- HART_SWAP_OUT of a hart, where a slot and a notice entry are free: the frame is the record, and a body whose layout is not
architectural (R332, log 22). -/
def State.swapOut (s : State) (h : HartId) : State :=
  let x := s.hart h
  let d := s.die h.die
  match d.freeSlot with
  | none => s
  | some slot =>
    if !x.leaving || !d.noticeFree || !d.nqHeld.isEmpty then s
    else
      let harts := (s.core (coreOf h)).harts
      let maps := (s.core (coreOf h)).mappings x.taskNo
      let s := ((s.core (coreOf h)).stash.filter fun r => r.owner == x.taskNo).foldl (fun s r => (s.unmapRegion (coreOf h) r).1) s
      let s := s.poke none (d.slotAddr slot) (leBytes 128 (restartRecord x h harts))
      let s := s.fillFree (d.slotAddr slot + 128) (frameBytes harts - 128)
      let f : Frame := { hart := { x with preempt := none }, id := h, stash := maps, queued := x.autoResumes, auto := x.autoResumes }
      let s := s.setDie h.die ((s.die h.die).setFrame slot (some f))
      let s := s.writeNotice h.die (hartNotice x h slot)
      let s := s.freePosition h
      let s := if x.preempt = some .launch then s.setAssign h {} else s
      let prio := match x.task with | some t => t.prio | none => 0
      if x.autoResumes then s.setDie h.die ((s.die h.die).enqueue prio [{ kind := .resume slot false }]) else s

/-- HART_SWAP_OUT, of hart `req.hart`. -/
def execHartSwapOut (s : State) : Host.Outcome State Fault Refusal := .next (s.swapOut s.req.hart)

/-! ### Resumption (R335, R337) -/

/-- The streams and record of a hart as it resumes: every wait starts anew, a line is fetched again, and a stream at an RDV that
the rendezvous has not met comes to it again. -/
def Hart.wake (x : Hart) (after : Bool) : Hart :=
  let go (r : StreamRec) : StreamRec :=
    { r with wait := none, line := none, sector := none, stat := if r.stat == .atRdv && !x.met then .running else r.stat }
  let sx := go x.sx
  let sx := if after || x.halt.xdone then { sx with pc := sx.after, bar := if after then none else sx.bar } else sx
  { x with halted := false, halt := {}, preempt := none, sa := go x.sa, sx := sx, sc := go x.sc
           vstart := if after then 0 else x.again.getD x.vstart
           again := none
           pend := if after || x.halt.xdone then 0 else x.pend
           popped := if after || x.halt.xdone then [] else x.popped
           popBad := if after || x.halt.xdone then [] else x.popBad
           done := if after || x.halt.xdone then [] else x.done }

/-- The return value of a service call goes to register 1 of the calling stream (R335). -/
def Hart.giveArg (x : Hart) (arg : BitVec 64) : Hart :=
  match x.halt.caller with
  | some st => x.setR st 1 arg
  | none => x

/-- Maps a task's stash regions again, but where another region stands in the way or the core's 64 entries are taken (R123; log
22). -/
def Core.remap (c : Core) (asid : BitVec 16) (t : Nat) : List (Nat × BitVec 64) → Core
  | [] => c
  | (off, va) :: rest =>
    let c := if c.stash.any (fun r => r.offset == off || r.va == va) || decide (64 ≤ c.stash.length) then c
      else { c with stash := c.stash ++ [⟨off, va, asid, t, []⟩] }
    c.remap asid t rest

/-- Latches a resumed hart's tile: one with margins only where the core has the feature (R242, R339). -/
def Core.latch (c : Core) (t : Option Tile) : Core × Bool :=
  match t with
  | none => (c, false)
  | some t => if t.opened.h.mcnt = 0 ∨ c.feat.getLsbD 0 then ({ c with tile := some t, shadow := none }, false) else (c, true)

/-- The wells of a task move with it, under their numbers where those are free (log 22). -/
def State.moveWells (s : State) (src dst : CoreId) (t : Nat) : State :=
  if src = dst then s
  else ((s.core src).wells.filter fun (_, w) => w.owner == some t).foldl (fun s (h, w) =>
    if ((s.core dst).well h).state == .free then
      let s := s.setCore src ((s.core src).setWell h {})
      s.setCore dst ((s.core dst).setWell h w)
    else s) s

/-- Resumes the frame of a slot on a hart of its die. -/
def State.resumeOn (s : State) (d : Fin 4) (slot : Nat) (h : HartId) (after : Bool) : State :=
  match (s.die d).frame slot with
  | none => s
  | some f =>
    let s := s.recallAll ((s.die d).slotAddr slot) 128 false none
    let arg := BitVec.ofNat 64 (leNat (s.peek ((s.die d).slotAddr slot + 88) 8))
    let x := (f.hart.giveArg arg).wake after
    let s := s.moveWells (coreOf f.id) (coreOf h) x.taskNo
    let (c, held) := ((s.core (coreOf h)).remap x.asid x.taskNo f.stash).latch x.tile
    let s := s.setCore (coreOf h) { c with lastAsid := some x.asid }
    let s := s.setDie d ((s.die d).setFrame slot none)
    let s := s.setHart h { x with tileHeld := held }
    s.setAssign h { s.assignOf h with stage := x.task.map fun t => (t.slot, t.stage) }

/-- A sector of a frame fails its check (R114): the device that reads the frame to resume the task would consume it. DESIGN CHOICE (log
83): the task does not resume until the sector is rewritten; the spec names no report. -/
def State.frameFails (s : State) (d : Fin 4) (slot : Nat) : Bool :=
  let a := (s.die d).slotAddr slot
  s.badSectors.any fun k => decide (a ≤ 32 * k) && decide (32 * k < a + 323584)

/-- A resume record can be dispatched: its own hart is free, and the core has its features (R322, R339). -/
def State.canResume (s : State) (f : Frame) : Bool :=
  (s.hart f.id).task.isNone && f.hart.featm &&& (s.core (coreOf f.id)).feat == f.hart.featm &&
  (s.boundTo (coreOf f.id)).all (· == f.hart.asid) && !(s.core (coreOf f.id)).swapHeld

/-! ### Dispatch (R322) -/

/-- The stage of a record. -/
def State.stageOfRec (s : State) (d : Fin 4) (r : LaunchRec) : Option (Nat × Nat) :=
  match r.kind with
  | .first slot stage => some (slot, stage)
  | .resume k _ => ((s.die d).frame k).bind fun f => f.hart.task.map fun t => (t.slot, t.stage)

/-- The hart on which a record can start now. -/
def State.hartFor (s : State) (d : Fin 4) (r : LaunchRec) : Option HartId :=
  match r.kind with
  | .first slot stage => s.pickFirst d slot stage
  | .resume k _ => ((s.die d).frame k).bind fun f => if s.canResume f && !s.frameFails d k then some f.id else none

/-- The first record of a queue that can start, no older record of its stage being queued; `older` are the stages seen. -/
def State.firstReady (s : State) (d : Fin 4) : List (Option (Nat × Nat)) → List LaunchRec → Option (LaunchRec × HartId)
  | _, [] => none
  | older, r :: rest =>
    let st := s.stageOfRec d r
    match if older.contains st then none else s.hartFor d r with
    | some h => some (r, h)
    | none => s.firstReady d (st :: older) rest

/-- Removes the oldest record equal to r. -/
def dropRec (r : LaunchRec) : List LaunchRec → List LaunchRec
  | [] => []
  | x :: xs => if x = r then xs else x :: dropRec r xs

/-- One dispatch on a die: the highest priority first. -/
def State.dispatch (s : State) (d : Fin 4) : State :=
  match ([3, 2, 1, 0] : List Nat).findSome? fun p => (s.firstReady d [] (tget [] (s.die d).launch p)).map fun x => (p, x) with
  | none => s
  | some (p, r, h) =>
    let s := s.setDie d { s.die d with launch := tput (s.die d).launch p (dropRec r (tget [] (s.die d).launch p)) }
    match r.kind with
    | .first slot stage => s.startTask h slot stage
    | .resume k after => s.resumeOn d k h after

/-! ### RESCTL (Table 24.7, R335, R340) -/

/-- OP 2 is accepted: XCAUSE is a nonzero cause of class H that is precise on the X-stream (Table 24.1). A BAR that has arrived,
and a VWAITF, that reached WAITLIM are of other classes. -/
def Hart.afterOk (x : Hart) : Bool :=
  let c := x.halt.xcause
  ([0x01, 0x02, 0x03, 0x20, 0x21, 0x22, 0x23, 0x24, 0x25, 0x26, 0x28, 0x29, 0x30, 0x31, 0x32, 0x33, 0x34, 0x36, 0x37, 0x38, 0x39, 0x3A, 0x3B,
    0x41, 0x43, 0x46] : List (BitVec 16)).contains c ||
  (c == Cause.waitLimit && !x.halt.xe && (match x.sx.bar with | some b => !b.arrived | none => true))

/-- OP 1 and OP 2: a resume record enters the launch queue of the task's priority. -/
def State.enqueueResume (s : State) (d : Fin 4) (slot : Nat) (f : Frame) (after : Bool) : State :=
  let prio := match f.hart.task with | some t => t.prio | none => 0
  s.setDie d (((s.die d).setFrame slot (some { f with queued := true })).enqueue prio [{ kind := .resume slot after }])

/-- The frame that a write names, on which no write has acted before: a record that no OP 1 entered is no such write (log 73). -/
def Die.idleFrame (d : Die) (slot : Nat) : Option Frame :=
  match d.frame slot with
  | some f => if (f.queued && !f.auto) || f.retiring then none else some f
  | none => none

/-- The record that no OP 1 entered leaves its launch queue, when OP 3 or OP 4 takes its frame (R335; log 73). -/
def Die.unqueue (d : Die) (slot : Nat) : Die :=
  { d with launch := d.launch.map fun (k, l) => (k, l.filter fun r => match r.kind with | .resume x _ => x != slot | .first _ _ => true) }

/-- OP 1 and OP 2. A frame whose record is already in the queue keeps that one record (log 73). -/
def State.resumeOp (s : State) (d : Fin 4) (slot : Nat) (after : Bool) : State :=
  match (s.die d).idleFrame slot with
  | some f =>
    if f.hart.halt.frz || (after && !f.hart.afterOk) then s.ignoredDie d
    else if f.queued then s.setDie d ((s.die d).setFrame slot (some { f with auto := false }))
    else s.enqueueResume d slot f after
  | none => s.ignoredDie d

/-- OP 3: a named hart of the die, whatever its features. -/
def State.forceOp (s : State) (d : Fin 4) (slot core hart : Nat) : State :=
  match (s.die d).idleFrame slot with
  | some f =>
    let h : HartId := ⟨d, Fin.ofNat 96 core, Fin.ofNat 8 hart⟩
    let k := s.core (coreOf h)
    if decide (core < 96) && (s.hart h).task.isNone && decide (hart < k.numHarts) && k.harts == (s.core (coreOf f.id)).harts && !k.swapHeld && !s.frameFails d slot &&
        (s.boundTo (coreOf h)).all (· == f.hart.asid) then (s.setDie d ((s.die d).unqueue slot)).resumeOn d slot h false
    else s.ignoredDie d
  | none => s.ignoredDie d

/-- The end of a cancelled task, once its copies are full. -/
def State.finishCancel (s : State) (d : Fin 4) (slot : Nat) : State :=
  match (s.die d).frame slot with
  | some f =>
    if f.retiring && s.copiesDone d f.hart.taskNo then
      let s := s.freeWells d f.hart.taskNo fun _ => true
      (s.setDie d ((s.die d).setFrame slot none)).emptySlot (match f.hart.task with | some t => t.slot | none => 32)
    else s
  | none => s

/-- The retirements of a die that wait for copies: retiring harts, and cancelled frames. -/
def State.retirements (s : State) (d : Fin 4) : List HartId × List Nat :=
  ((s.harts.filter fun (k, x) => k / 768 == d.val && x.retiring && s.copiesDone d x.taskNo).map fun (k, _) =>
      (⟨d, Fin.ofNat 96 (k / 8 % 96), Fin.ofNat 8 (k % 8)⟩ : HartId),
   ((s.die d).frames.filter fun (_, f) => match f with
      | some f => f.retiring && s.copiesDone d f.hart.taskNo
      | none => false).map Prod.fst)

/-- LAUNCH_DISPATCH, on die `req.die`: retirements whose copies are full end, then one record is dispatched. -/
def execLaunchDispatch (s : State) : Host.Outcome State Fault Refusal :=
  let d := s.req.die
  let (hs, fs) := s.retirements d
  let s := hs.foldl (fun s h => s.finishRetire h) s
  let s := fs.foldl (fun s k => s.finishCancel d k) s
  .next (s.dispatch d)

/-- OP 4: the task is cancelled and its state retired. -/
def State.cancelOp (s : State) (d : Fin 4) (slot : Nat) : State :=
  match (s.die d).idleFrame slot with
  | some f =>
    let s := s.setDie d (((s.die d).unqueue slot).setFrame slot (some { f with hart := f.hart.bare, retiring := true, stash := [] }))
    ((s.countDie d 0x20 f.hart.boundEntries).beginRetire f.id f.hart).finishCancel d slot
  | none => s.ignoredDie d

/-- OP 5: an engine's operation is tried again from its start. -/
def State.unfreezeOp (s : State) (d : Fin 4) (src idx : Nat) : State :=
  match s.frozenOp src idx with
  | some (i, r) =>
    let s := s.onHub fun h => { h with frozen := tput h.frozen (engineKey src idx) none }
    if i.encode.isNone then { s with agenda := .event i r :: s.agenda } else s
  | none => s.ignoredDie d

/-- RESCTL's write (Table 24.7); OP 0 and 7 are ignored and counted (Table 29.5), and OP 6 needs the engines' own ways of dropping an operation. -/
def State.resctl (s : State) (d : Fin 4) (drop : State → Nat → Request → State) (v : BitVec 64) : State :=
  let n := v.toNat
  let slot := bits n 0 13
  let src := bits n 37 3
  let idx := bits n 32 5
  match bits n 61 3 with
  | 1 => s.resumeOp d slot false
  | 2 => s.resumeOp d slot true
  | 3 => s.forceOp d slot (bits n 23 7) (bits n 20 3)
  | 4 => s.cancelOp d slot
  | 5 => s.unfreezeOp d src idx
  | 6 =>
    match s.frozenOp src idx with
    | some (_, r) => (drop s src r).onHub fun h => { h with frozen := tput h.frozen (engineKey src idx) none }
    | none => s.ignoredDie d
  | _ => s.ignoredDie d

/-- RESUME: RESCTL of die `req.die` is written with `req.value`, OP 1. -/
def execResume (s : State) : Host.Outcome State Fault Refusal := .next (s.resumeOp s.req.die (bits s.req.value.toNat 0 13) false)
/-- RESUME_AFTER: OP 2. -/
def execResumeAfter (s : State) : Host.Outcome State Fault Refusal := .next (s.resumeOp s.req.die (bits s.req.value.toNat 0 13) true)
/-- FORCE: OP 3. -/
def execForce (s : State) : Host.Outcome State Fault Refusal :=
  .next (s.forceOp s.req.die (bits s.req.value.toNat 0 13) (bits s.req.value.toNat 23 7) (bits s.req.value.toNat 20 3))
/-- CANCEL: OP 4. -/
def execCancel (s : State) : Host.Outcome State Fault Refusal := .next (s.cancelOp s.req.die (bits s.req.value.toNat 0 13))
/-- UNFREEZE_ENGINE: OP 5. -/
def execUnfreezeEngine (s : State) : Host.Outcome State Fault Refusal :=
  .next (s.unfreezeOp s.req.die (bits s.req.value.toNat 37 3) (bits s.req.value.toNat 32 5))

/-! ### Pre-emption (R327) -/

/-- A request reaches a hart: its streams stop at an instruction boundary and it halts in place (R327, R334). A hart that retires
or has halted is left as it is. -/
def State.askPreempt (s : State) (h : HartId) (p : Preempt) : State :=
  let x := s.hart h
  if x.task.isNone || x.retiring || x.halted then s else s.setHart h { x.stop with halt := {}, preempt := some p }

/-- A write of PREEMPT (Table 23.6). -/
def State.writePreempt (s : State) (d : Fin 4) (v : BitVec 64) : State :=
  let core := bits v.toNat 3 7
  let c : CoreId := ⟨d, Fin.ofNat 96 core⟩
  let named := (hartsOf c (s.core c)).filter fun h => (v.getLsbD 10 || h.hart.val == bits v.toNat 0 3) && (s.hart h).task.isSome
  if 96 ≤ core ∨ named = [] then s.ignoredDie d else named.foldl (fun s h => s.askPreempt h .supervisor) s

/-- PREEMPT: the register of die `req.die` is written with `req.value`. -/
def execPreempt (s : State) : Host.Outcome State Fault Refusal := .next (s.writePreempt s.req.die s.req.value)

/-- The needs of a record: address space, feature mask, partition, and its own hart for a resume record. -/
def State.needsOf (s : State) (d : Fin 4) (r : LaunchRec) : Option (BitVec 16 × BitVec 3 × BitVec 2 × Option HartId) :=
  match r.kind with
  | .first slot stage => ((s.hub.pipe slot).stages[stage]?).map fun st => ((s.hub.pipe slot).asid, st.featm, st.hpc, none)
  | .resume k _ => ((s.die d).frame k).map fun f => (f.hart.asid, f.hart.featm, (s.core (coreOf f.id)).harts, some f.id)

/-- The task that a waiting record pre-empts: of lower priority, on a core that meets the record's needs; the lowest priority, then
the highest core and hart. -/
def State.victim (s : State) (d : Fin 4) (prio : Nat) (r : LaunchRec) : Option HartId :=
  match s.needsOf d r with
  | none => none
  | some (asid, featm, hpc, own) =>
    let l := (dieCores d).flatMap fun c => if s.coreMeets c asid featm hpc then hartsOf c (s.core c) else []
    let l := l.filterMap fun h =>
      let x := s.hart h
      match x.task with
      | some t => if t.prio < prio && !x.retiring && !x.halted && (own.isNone || own == some h) then some (t.prio, h) else none
      | none => none
    (l.foldl (fun b (p, h) => match b with
      | some (q, g) => if p ≤ q then some (p, h) else some (q, g)
      | none => some (p, h)) (none : Option (Nat × HartId))).map Prod.snd

/-- One record of a queue: when it has waited through one whole sample period, its victim is asked to leave, at most one in each
period. -/
def State.preemptFor (s : State) (d : Fin 4) (prio : Nat) : List LaunchRec → State × List LaunchRec
  | [] => (s, [])
  | r :: rest =>
    match if 2 ≤ r.waited then s.victim d prio r else none with
    | some h =>
      let (s, l) := (s.askPreempt h .launch).preemptFor d prio rest
      (s, { r with waited := 1 } :: l)
    | none =>
      let (s, l) := s.preemptFor d prio rest
      (s, r :: l)

/-- LAUNCH_PRIORITY_PREEMPT, on die `req.die`. -/
def execLaunchPriorityPreempt (s : State) : Host.Outcome State Fault Refusal :=
  let d := s.req.die
  .next (([3, 2, 1] : List Nat).foldl (fun s p =>
    let (s, l) := s.preemptFor d p (tget [] (s.die d).launch p)
    s.setDie d { s.die d with launch := tput (s.die d).launch p l }) s)

/-! ### The balancer (R325) -/

/-- F of a queue. -/
def StageQueue.load (q : StageQueue) : Nat := q.entries.length * 1024 / q.depth

/-- P of a stage. -/
def Pipeline.pressure (p : Pipeline) (st : Nat) : Int :=
  let top (f : StageQueue → Nat) : Nat := (p.queues.filter fun q => f q == st).foldl (fun m q => max m q.load) 0
  (top fun q => q.cons : Int) - top fun q => q.prod

/-- The harts of a die assigned to a stage, by core, then hart. -/
def State.stageHarts (s : State) (d : Fin 4) (slot st : Nat) : List HartId :=
  (dieCores d).flatMap fun c => (hartsOf c (s.core c)).filter fun h => (s.assignOf h).stage == some (slot, st)

/-- The stage with the greatest P that may grow, lowest index on ties. -/
def State.hungry (s : State) (d : Fin 4) (slot : Nat) (p : Pipeline) : Option (Nat × Stage) :=
  (p.stages.zipIdx.foldl (fun b (st, i) =>
    if st.maxh = 0 ∨ (s.stageHarts d slot i).length < st.maxh then
      match b with
      | some (j, _) => if p.pressure j < p.pressure i then some (i, st) else b
      | none => some (i, st)
    else b) (none : Option (Nat × Stage)))

/-- The stage that may give a hart to `hi`: the least P, highest index on ties. -/
def State.giver (s : State) (d : Fin 4) (slot : Nat) (p : Pipeline) (hi : Nat) (hpc : BitVec 2) : Option Nat :=
  (p.stages.zipIdx.foldl (fun b (st, i) =>
    if i ≠ hi ∧ st.hpc = hpc ∧ st.minh < (s.stageHarts d slot i).length then
      match b with
      | some j => if p.pressure i ≤ p.pressure j then some i else b
      | none => some i
    else b) (none : Option Nat))

/-- At most one move for a pipeline. -/
def State.balance (s : State) (d : Fin 4) (slot : Nat) (p : Pipeline) : State :=
  match s.hungry d slot p with
  | none => s
  | some (hi, st) =>
    match s.pickFree d p.asid st.featm st.hpc with
    | some h => (s.partition (coreOf h) st.hpc).setAssign h { stage := some (slot, hi) }
    | none =>
      match s.giver d slot p hi st.hpc with
      | none => s
      | some lo =>
        if (p.thr : Int) ≤ p.pressure hi - p.pressure lo then
          match (s.stageHarts d slot lo).getLast? with
          | none => s
          | some h => if (s.hart h).task.isNone then s.setAssign h { stage := some (slot, hi) } else s.setAssign h { s.assignOf h with mark := some (slot, hi) }
        else s

/-- The harts marked at the last sample: a free one changes stage, and the task of another is pre-empted and its hart reassigned, before
this sample counts. -/
def State.dueMarks (s : State) (d : Fin 4) : State :=
  (dieCores d).foldl (fun s c => (hartsOf c (s.core c)).foldl (fun s h =>
    match (s.assignOf h).mark with
    | none => s
    | some m => if (s.hart h).task.isNone then s.setAssign h { stage := some m } else (s.askPreempt h .balancer).setAssign h { stage := some m }) s) s

/-- BALANCER_SAMPLE, on die `req.die`. -/
def execBalancerSample (s : State) : Host.Outcome State Fault Refusal :=
  let d := s.req.die
  let s := s.dueMarks d
  let s := s.hub.pipes.foldl (fun s (k, _) =>
    let p := s.hub.pipe k
    if p.state == 1 && p.dies.getLsbD d.val then s.balance d k p else s) s
  .next (s.setDie d { s.die d with samples := (s.die d).samples + 1
                                   launch := (s.die d).launch.map fun (k, l) => (k, l.map fun r => { r with waited := r.waited + 1 }) })

end Sys2Proof.Machine
end

