-- ==== Sys2Proof/Machine/Storage.lean ====
section
/-! DEFINITION. Flash rings and durability, promotion, the receive engine, hosts over CXL (R91, R92, R353 to R363). -/

namespace Sys2Proof.Machine

/-! ### Moving ranges of bytes -/

/-- The bytes of a range replaced by the n bytes of another store from an address. -/
def Memory.blit (dst : Memory) (at' : Nat) (src : Memory) (start n : Nat) : Memory :=
  (src.filter fun c => decide (start ≤ c.1) && decide (c.1 < start + n)).foldl (fun m c => m.write (c.1 - start + at') c.2)
    (dst.filter fun c => !(decide (at' ≤ c.1) && decide (c.1 < at' + n)))

/-- The 4,096 bytes of a flash block. -/
def Memory.block (m : Memory) (blk : Nat) : List Byte := readBytes m (4096 * blk) 4096
def Memory.setBlock (m : Memory) (blk : Nat) (b : List Byte) : Memory := writeBytes m (4096 * blk) b

/-- Whole sectors of memory take bytes of the flash under a key: their checks are made on entry (R113). -/
def State.fromFlash (s : State) (key : Option (BitVec 512)) (pa start n : Nat) : State :=
  let s := s.recallAll pa n true none
  let inside (k : Nat) : Bool := decide (pa ≤ 32 * k) && decide (32 * k < pa + n)
  { s with mem := s.mem.blit pa s.hub.flash start n
           badSectors := s.badSectors.filter fun k => !inside k
           keyTags := (sectorsOf pa n).foldl (fun t k => match key with | some _ => tput t k key | none => tdel k t) s.keyTags }

/-! ### Flash rings (R356 to R358) -/

def State.flashRing (s : State) (k : Nat) : FlashRing := tget {} s.hub.flashRings k
def State.setFlashRing (s : State) (k : Nat) (r : FlashRing) : State := { s with hub := { s.hub with flashRings := tput s.hub.flashRings k r } }

/-- IDLE (Table 28.1). -/
def FlashRing.idle (r : FlashRing) : Bool := r.inflight.isEmpty

/-- A write of FLRCTL: one that sets EN while a request is in flight is ignored and counted (R357). -/
def State.writeFlrctl (s : State) (k : Nat) (v : BitVec 64) : State :=
  let r := s.flashRing k
  let asid := v.extractLsb' 48 16
  if r.en then (if v.getLsbD 47 then s else s.setFlashRing k { r with en := false })
  else if v.getLsbD 47 then (if r.idle then s.setFlashRing k { r with en := true, asid := asid, tags := [], done := [] } else s.ignoredHub)
  else s.setFlashRing k { r with asid := asid }

/-- A write of FLRLBA or FLRNLB: ignored while EN = 1, and ignored and counted while a request is in flight (R356, R357). -/
def State.writeFlrlba (s : State) (k : Nat) (v : BitVec 64) : State :=
  let r := s.flashRing k
  if !r.idle then s.ignoredHub else if r.en then s else s.setFlashRing k { r with lba := v.truncate 33 }
def State.writeFlrnlb (s : State) (k : Nat) (v : BitVec 64) : State :=
  let r := s.flashRing k
  if !r.idle then s.ignoredHub else if r.en then s else s.setFlashRing k { r with nlb := v.truncate 33 }

/-- FLASH_RING_ENABLE: FLRCTL of ring `req.fring` is written with `req.value` and EN = 1. -/
def execFlashRingEnable (s : State) : Host.Outcome State Fault Refusal := .next (s.writeFlrctl s.req.fring.val (s.req.value ||| 2 ^ 47))

/-- FLASH_RING_DISABLE: it is written with EN = 0. -/
def execFlashRingDisable (s : State) : Host.Outcome State Fault Refusal := .next (s.writeFlrctl s.req.fring.val (s.req.value &&& ~~~ (2 ^ 47)))

/-- The fields of a request entry (Table 28.2). -/
structure FlashOp where
  op  : Nat
  fua : Bool
  bcr : Bool
  bid : Nat
  binst : Nat
  nlb : Nat
  lba : Nat
  va  : BitVec 64
  deriving DecidableEq, Repr

def flashOp (e : BitVec 512) : FlashOp :=
  let v := e.toNat
  ⟨bits v 0 8, e.getLsbD 8, e.getLsbD 9, bits v 18 5, bits v 23 9, bits v 32 12, bits v 64 32, e.extractLsb' 128 64⟩

/-- An entry is invalid for a partition of `size` blocks (R358). -/
def flashInvalid (e : BitVec 512) (size : Nat) : Bool :=
  let v := e.toNat
  let o := flashOp e
  bits v 192 320 != 0 || bits v 96 32 != 0 || bits v 44 20 != 0 || bits v 10 8 != 0 || o.op == 0 || decide (3 < o.op) ||
  (o.fua && o.op != 2) || (!o.bcr && (o.bid != 0 || o.binst != 0)) ||
  (if o.op = 3 then o.va != 0 || o.lba != 0 || o.nlb != 0
   else o.nlb == 0 || decide (2048 < o.nlb) || decide (size < o.lba + o.nlb) || !canonical o.va || o.va.toNat % 4096 != 0)

/-! ### FLPOST and FLPOLL (R359) -/

/-- The ring that a register names: none where the number is too high or EN is 0. A ring of another address space is a
violation. -/
def ownFlashRing (o : HT16R) : Act (Option Nat) := do
  let k := (← reg o.a).toNat
  let s ← get
  if decide (255 < k) || !(s.flashRing k).en then return none
  else
    trapIf ((s.flashRing k).asid != s.cur.asid) Cause.violation
    return some k

/-- The next tag. -/
def nextTag (t : BitVec 32) : BitVec 32 := if t + 1 = 0 then 1 else t + 1

def flpostBody (o : HT16R) : Act Unit := do
  match ← ownFlashRing o with
  | none => setReg o.d (BitVec.ofInt 64 (-3))
  | some k =>
    let va ← reg o.b
    let e ← loadBlock va
    let s ← get
    let r := s.flashRing k
    if flashInvalid e r.nlb.toNat then setReg o.d (BitVec.ofInt 64 (-2))
    else if 64 ≤ r.inflight.length then setReg o.d (BitVec.ofInt 64 (-1))
    else
      let q : FlashReq := { tag := r.next, entry := e, die := s.curHart.die, asid := s.cur.asid, lba := r.lba.toNat, size := r.nlb.toNat, mark := s.hub.flashWrites }
      set (s.setFlashRing k { r with next := nextTag r.next, tags := (r.next :: r.tags).take 256, inflight := r.inflight ++ [q] })
      setReg o.d (r.next.zeroExtend 64)
where
  loadBlock (va : BitVec 64) : Act (BitVec 512) := do
    if !canonical va then faultAt Cause.nonCanonical va
    else if va.toNat % 64 != 0 then faultAt Cause.misalignment va
    else return BitVec.ofNat 512 (leNat (← readBlockCur va 64))

def execFlpost (o : HT16R) (s : State) : Host.Outcome State Fault Refusal := finish (asKind 5 0 0 (flpostBody o)) s

/-- The completion word that a ring holds for a tag. -/
def FlashRing.word (r : FlashRing) (t : BitVec 32) : BitVec 64 :=
  match r.done.find? fun x => x.1 == t with
  | some x => x.2
  | none => 0

def execFlpoll (o : HT16R) (s : State) : Host.Outcome State Fault Refusal :=
  finish (do
    match ← ownFlashRing o with
    | none => setReg o.d (BitVec.ofInt 64 (-3))
    | some k =>
      let b ← reg o.b
      let r := (← get).flashRing k
      let t : BitVec 32 := b.truncate 32
      if bits b.toNat 32 32 != 0 || !r.tags.contains t then setReg o.d (BitVec.ofInt 64 (-1))
      else setReg o.d (r.word t)) s

/-! ### The engine (R360, R361) -/

/-- A block's buffer, line by line: HBM-tier pages only. -/
def flashBuffer (q : FlashReq) (va : BitVec 64) (k : AccessKind) : Act (List (BitVec 64 × Nat × Mapped)) := do
  let ps ← translateBlock q.die q.asid va 4096 k
  if ps.any fun p => entTier p.2.2.leaf != 0 then faultAt Cause.permission va else return ps

/-- A completed WRITE gives a block new content: durable with FUA, else pending beside the contents that are not durable yet (R361). -/
def Hub.wrote (h : Hub) (blk : Nat) (b : List Byte) (durable : Bool) : Hub :=
  let h := { h with flash := h.flash.setBlock blk b, flashWrites := h.flashWrites + 1 }
  if durable then { h with flashPending := tdel blk h.flashPending, flashDurable := h.flashDurable.setBlock blk b }
  else { h with flashPending := tput h.flashPending blk (tget [] h.flashPending blk ++ [(h.flashWrites, b)]) }

/-- A FLUSH makes durable what the WRITEs up to the `mark`-th gave a block; a later one stays pending. -/
def Hub.flushBlock (h : Hub) (mark blk : Nat) : Hub :=
  let l := tget [] h.flashPending blk
  match (l.filter fun x => decide (x.1 ≤ mark)).getLast? with
  | none => h
  | some x =>
    let rest := l.filter fun x => decide (mark < x.1)
    { h with flashDurable := h.flashDurable.setBlock blk x.2
             flashPending := if rest.isEmpty then tdel blk h.flashPending else tput h.flashPending blk rest }

/-- A FLUSH of a partition. -/
def Hub.flush (h : Hub) (q : FlashReq) : Hub :=
  ((h.flashPending.map Prod.fst).filter fun b => decide (q.lba ≤ b) && decide (b < q.lba + q.size)).foldl (fun h b => h.flushBlock q.mark b) h

/-- Moves block i of a request: the status where it fails, with the cause of a buffer fault. -/
def moveBlock (q : FlashReq) (i : Nat) : Act (Option (Nat × BitVec 16)) := do
  let o := flashOp q.entry
  let blk := q.lba + o.lba + i
  let va := o.va + BitVec.ofNat 64 (4096 * i)
  match ← tryAct (flashBuffer q va (if o.op = 1 then .write else .read)) with
  | .error t => return some (1, t.cause)
  | .ok ps =>
    if (← get).hub.flashBad.contains blk then return some (2, 0)
    else if o.op = 1 then
      forEach ps fun (a, n, m) => modify fun s => s.fromFlash (some m.key) m.pa (4096 * blk + (a - va).toNat) n
      return none
    else match ← tryAct (ps.mapM fun (a, n, m) => readPa (some m.key) m.pa n a) with
      | .error _ => return some (3, 0)
      | .ok bs =>
        modHub fun h => h.wrote blk bs.flatten o.fua
        return none

/-- Moves blocks in ascending order up to the first that fails. -/
def moveBlocks (q : FlashReq) : (n i : Nat) → Act (Nat × Option (Nat × BitVec 16))
  | 0, i => return (i, none)
  | n + 1, i => do
    match ← moveBlock q i with
    | some f => return (i, some f)
    | none => moveBlocks q n (i + 1)

/-- Table 28.3. -/
def completionWord (blk status : Nat) (cause : BitVec 16) : BitVec 64 :=
  BitVec.ofNat 64 (2 ^ 62 + cause.toNat * 2 ^ 32 + blk * 2 ^ 8 + status)

/-- FLASH_REQUEST_COMPLETE: the request of tag `req.tag` of ring `req.fring` moves its blocks, credits its barrier and completes; the
media cannot deliver the blocks `req.media` (log 78). -/
def execFlashRequestComplete (s : State) : Host.Outcome State Fault Refusal :=
  let k := s.req.fring.val
  match (s.flashRing k).inflight.find? fun q => q.tag == s.req.tag with
  | none => .next s
  | some q =>
    happen (do
      let o := flashOp q.entry
      modHub fun h => { h with flashBad := s.req.media }
      let (n, f) ← if o.op = 3 then (do
          modHub fun h => h.flush q
          return (0, none)) else moveBlocks q o.nlb 0
      if o.bcr && f.isNone then modify fun s => s.credit o.binst o.bid (o.nlb * 4096) else pure ()
      modify fun s =>
        let r := s.flashRing k
        let w := match f with | none => completionWord n 0 0 | some (st, c) => completionWord n st c
        s.setFlashRing k { r with inflight := r.inflight.filter (fun x => x.tag != q.tag)
                                  done := ((q.tag, w) :: r.done).filter fun x => r.tags.contains x.1 }) s

/-- The content that a block keeps: that of the last WRITE, or of one before it, or what was durable, by free choices from the
newest down. -/
def survivor (c : Nat) : List (Nat × List Byte) → Option (List Byte)
  | [] => none
  | x :: older => if Config.freeBlockIsNew c then some x.2 else survivor (c + 1) older

/-- The content of the flash once power is lost: each block that was not durable holds one of its contents whole (R361). -/
def Hub.powerLoss (h : Hub) (c : Nat) : Hub :=
  let (f, _) := h.flashPending.foldl (fun (f, c) (b, l) => (match survivor c l.reverse with | some x => f.setBlock b x | none => f, c + l.length)) (h.flashDurable, c)
  { h with flash := f, flashDurable := f, flashPending := [] }

/-- The free choices that a loss of power takes. -/
def Hub.pendingWrites (h : Hub) : Nat := h.flashPending.foldl (fun n (_, l) => n + l.length) 0

/-- The module goes dark, and only the flash and the microcontroller's store remain. -/
def State.dark (s : State) : State :=
  { s with powered := false, sup0 := false, hub := s.hub.powerLoss s.freeCtr, freeCtr := s.freeCtr + s.hub.pendingWrites }

/-- POWER_LOSS. -/
def execPowerLoss (s : State) : Host.Outcome State Fault Refusal := .next s.dark

/-! ### Promotion (R91, R92) -/

/-- PROMOTION_REQUEST: the pager starts promotion `req.promotion`. -/
def execPromotionRequest (s : State) : Host.Outcome State Fault Refusal :=
  .next { s with hub := { s.hub with promotions := s.hub.promotions ++ [s.req.promotion] } }

/-- The resident value of a leaf: TIER 0, the new frame, LATE as the deadline says. -/
def residentLeaf (p : Promotion) (late : Bool) : BitVec 64 :=
  let v := p.expected.toNat
  BitVec.ofNat 64 (late.toNat * 2 ^ 56 + bits v 54 2 * 2 ^ 54 + bits p.frame.toNat 16 36 * 2 ^ 16 + v % 2 ^ 16)

/-- What a promotion does once its data can be written: the page is written; the deadline word is read, the leaf is swapped if it
still holds the expected value, and the well goes full. DESIGN CHOICE (log 75, log 76): the deadline word is 8 bytes, compared
unsigned; the frame is written under the leaf's key slot if that is loaded, else under no key. -/
def promote (p : Promotion) : Act Unit := do
  let slot : KeySlot := tget {} (← get).hub.keys (entKey p.expected)
  let level := match ← tryAct (walk p.asid p.leafVa) with | .ok l => l.level | .error _ => 0
  modify fun s => s.fromFlash (if slot.loaded then some slot.key else none) (p.frame.toNat / 2 ^ 16 * 2 ^ 16) (4096 * p.lba.toNat) (2 ^ pageBits level)
  let word ← readPlain p.deadline.toNat 8 p.leafVa
  let swapped ← match ← tryAct (walk p.asid p.leafVa) with
    | .ok l => swapEntry l.addr p.expected (residentLeaf p (decide (p.layer.toNat ≤ word)))
    | .error i => if i.cause = Cause.integrity then throw (.trap i) else pure false
  modHub fun h => { h with promotions := h.promotions.erase p, superseded := if swapped then h.superseded else h.superseded ++ [p] }
  modify fun s => s.setCore p.core ((s.core p.core).setWell p.handle.val { (s.core p.core).well p.handle.val with state := .full })

/-- PROMOTION_COMPLETE, of promotion `req.promotion`. A sector of a table or of the deadline word that fails its check leaves the
promotion to be tried again (R114, log 19). -/
def execPromotionComplete (s : State) : Host.Outcome State Fault Refusal :=
  if s.hub.promotions.contains s.req.promotion then
    happen (do modify fun s => { s with fresh := true }; promote s.req.promotion; modify fun s => { s with fresh := false }) s
  else .next s

/-! ### The receive engine (R363) -/

/-- Table 28.4. -/
def receiveRecord (m : PodMessage) (status landed : Nat) : BitVec 128 :=
  m.tag ++ BitVec.ofNat 64 (m.src.val * 2 ^ 55 + status * 2 ^ 48 + landed)

/-- Lands a message in a posted buffer. A payload whose check fails on entry lands as it is, its sectors failing (R113, R114). DESIGN
CHOICE (log 77): where the buffer's end would merge into a sector that fails its check, nothing lands and the status is 3; a record
that would do so is not written. -/
def State.land (s : State) (m : PodMessage) (b : NetBuffer) : State :=
  let data := m.payload.take b.size
  let (ok, s) := match (writePa none b.pa data 0).run s with
    | (.ok _, s') => (true, s')
    | (.error _, s') => (false, s')
  let landed := if ok then data.length else 0
  let s := if ok && m.integrity then { s with badSectors := (sectorsOf b.pa data.length).filter (fun k => !s.badSectors.contains k) ++ s.badSectors } else s
  let status := if m.integrity || !ok then 3 else if b.size < m.payload.length then 2 else 1
  let s := s.merge b.record (leBytes 16 (receiveRecord m status landed).toNat)
  match b.barrier with
  | some (net, id) => s.credit net id landed
  | none => s

/-- Lands every message that has a buffer, in the order in which they came, but none before an earlier message of its flow (R363);
`blocked` are the flows whose earlier messages wait. -/
def State.landReady (s : State) (blocked : List Nat) : List PodMessage → State × List PodMessage
  | [] => (s, [])
  | m :: rest =>
    match if blocked.contains m.flow then none else tget none s.hub.netBufs m.buffer with
    | some b =>
      let s := s.land m b
      State.landReady { s with hub := { s.hub with netBufs := tput s.hub.netBufs m.buffer none } } blocked rest
    | none =>
      let (s, l) := s.landReady (m.flow :: blocked) rest
      (s, m :: l)

/-- The receive engine lands what it can. -/
def State.receive (s : State) : State :=
  let (s, l) := s.landReady [] s.hub.netIn
  { s with hub := { s.hub with netIn := l } }

/-- NETWORK_RECEIVE: message `req.message` arrives; it lands in the buffer it goes to, and waits while none is posted. -/
def execNetworkReceive (s : State) : Host.Outcome State Fault Refusal :=
  engineStep 4 0 .networkReceive (modify fun s =>
    State.receive { s with hub := { s.hub with netIn := s.hub.netIn ++ [s.req.message] } }) s

/-- The network server posts a message (R362): its payload leaves with the state of its checks, which are made again at the exit
(R113). -/
def State.sendMessage (s : State) (flow : Nat) (dest : Fin 512) (buffer : Nat) (tag : BitVec 64) (pa size : Nat) : State :=
  let s := s.recallAll pa size false none
  let bad := (sectorsOf pa size).any fun k => s.badSectors.contains k
  s.sendPod (.message dest ⟨buffer, s.member, tag, s.peek pa size, bad, flow⟩)

/-! ### Hosts over CXL (R353 to R355) -/

/-- A decoder exposes one range of one die's window (R353). -/
def HdmDecoder.fits (d : HdmDecoder) : Bool := decide (d.pa / 2 ^ 38 = (d.pa + d.size - 1) / 2 ^ 38)

/-- The physical address of a host address through a link's decoders. -/
def State.hostPa (s : State) (link : Fin 2) (a n : Nat) : Option Nat :=
  ((List.range 4).map fun k => tget {} s.hub.hdm (4 * link.val + k)).findSome? fun d =>
    if d.en && d.fits && decide (d.host ≤ a) && decide (a + n ≤ d.host + d.size) && s.inHbm (d.pa + (a - d.host)) && s.inHbm (d.pa + (a - d.host) + n - 1)
    then some (d.pa + (a - d.host)) else none

/-- A host's access meets a sector whose check fails: a completer abort, and a notice with cause integrity (R355). -/
def State.hostAbort (s : State) (link : Fin 2) : State :=
  { s with hostValue := tput s.hostValue link.val none }.postNotice engineDie (engineNotice Cause.integrity 5 link.val false)

/-- The entries of the snoop filters that a host's access to a line recalls first: those of the other link, for a read only the
lines that the other host has modified (R354). -/
def recalls (link ln : Nat) (write : Bool) (e : SnoopEntry) : Bool := e.line == ln && e.link != link && (write || e.dirty.isSome)

/-- What a host's access finds done before it: the other host's copies and the stash copies of the line are recalled; its own copy
stays with it, and is up to date with memory once it has been taken back. -/
def State.hostRecall (s : State) (link ln : Nat) (write : Bool) : State :=
  let s := (s.hub.snoop.filter (recalls link ln write)).foldl State.takeBack s
  let s := (s.hub.snoop.filter fun e => e.line == ln && e.link == link).foldl State.takeBack s
  let l := (s.hub.snoop.filter fun e => !recalls link ln write e).map fun e => if e.line = ln then { e with dirty := none } else e
  ({ s with hub := { s.hub with snoop := l } }).recallStash ln write none

/-- The bytes that a host reads, none where a sector fails its check. -/
def State.hostBytes (s : State) (pa n : Nat) : Option (List Byte) :=
  if (sectorsOf pa n).any fun k => s.badSectors.contains k then none else some (s.peek pa n)

/-- A host's bytes take their place: whole sectors get a new check, under no key. -/
def State.hostPut (s : State) (pa : Nat) (bytes : List Byte) : State :=
  let part := partialSectors pa bytes.length
  let whole := (sectorsOf pa bytes.length).filter fun k => !part.contains k
  { s with mem := writeBytes s.mem pa bytes, badSectors := s.badSectors.filter fun k => !whole.contains k
           keyTags := whole.foldl (fun t k => tdel k t) s.keyTags }

/-- A host's write reaches the home slices (R355): a merge into a failing sector is not performed. -/
def State.hostStore (s : State) (pa : Nat) (bytes : List Byte) : Option State :=
  if (partialSectors pa bytes.length).any fun k => s.badSectors.contains k then none else some (s.hostPut pa bytes)

/-- The snoop filter's entry for a line that the host now caches; when the filter is full, the line whose entry is oldest is
back-invalidated first (R354). -/
def State.track (s : State) (link ln : Nat) (dirty : Option (List Byte)) : State :=
  let mine := s.hub.snoop.filter fun e => e.link == link && e.line != ln
  let (s, out) := match if 16777216 ≤ mine.length then mine.head? else none with
    | some e => (s.takeBack e, some e)
    | none => (s, none)
  { s with hub := { s.hub with snoop := (s.hub.snoop.filter fun e => !(e.link == link && e.line == ln) && out != some e) ++ [⟨link, ln, dirty⟩] } }

/-- A host modifies bytes of a line in its own cache: it holds the whole line, and no other copy of it is left (R354). -/
def State.hostModify (s : State) (link : Fin 2) (pa : Nat) (bytes : List Byte) : State :=
  let s := s.hostRecall link.val (pa / 64) true
  match s.hostBytes (64 * (pa / 64)) 64 with
  | some b => s.track link.val (pa / 64) (some (b.take (pa % 64) ++ bytes ++ b.drop (pa % 64 + bytes.length)))
  | none => s.hostAbort link

/-- A write of link `link` at a physical address that its decoders expose. -/
def State.hostWrite (s : State) (link : Fin 2) (pa : Nat) (bytes : List Byte) (caches : Bool) : State :=
  if caches && decide (pa % 64 + bytes.length ≤ 64) then s.hostModify link pa bytes
  else
    let s := (linesOf pa bytes.length).foldl (fun s ln => s.hostRecall link.val ln true) s
    match s.hostStore pa bytes with
    | some s' => s'
    | none => s.hostAbort link

/-- A read of link `link`: the line is cached when `caches`. -/
def State.hostRead (s : State) (link : Fin 2) (pa n : Nat) (caches : Bool) : State :=
  let s := (linesOf pa n).foldl (fun s ln => s.hostRecall link.val ln false) s
  match s.hostBytes pa n with
  | some b =>
    let s := { s with hostValue := tput s.hostValue link.val (some b) }
    if caches then s.track link.val (pa / 64) none else s
  | none => s.hostAbort link

/-- HOST_CXL_MEM_WRITE: link `req.link` writes `req.bytes` at host address `req.addr`, in its own cache when `req.caches`. With
`req.atHost` the host writes its own memory, which the device reaches at address `req.addr` of the host window (R353). -/
def execHostCxlMemWrite (s : State) : Host.Outcome State Fault Refusal :=
  let r := s.req
  if r.atHost then
    .next (if inHost r.addr.toNat && inHost (r.addr.toNat + r.bytes.length - 1) then s.hostPut r.addr.toNat r.bytes else s)
  else
    engineStep 5 r.link.val .hostCxlMemWrite (modify fun s =>
      match s.hostPa r.link r.addr.toNat r.bytes.length with
      | none => s
      | some pa => s.hostWrite r.link pa r.bytes r.caches) s

/-- HOST_CXL_MEM_READ: link `req.link` reads `req.len` bytes at host address `req.addr`, and caches the line when `req.caches`. -/
def execHostCxlMemRead (s : State) : Host.Outcome State Fault Refusal :=
  let r := s.req
  engineStep 5 r.link.val .hostCxlMemRead (modify fun s =>
    match s.hostPa r.link r.addr.toNat r.len.val with
    | none => s
    | some pa => s.hostRead r.link pa r.len.val r.caches) s

end Sys2Proof.Machine
end

