-- ==== Sys2Proof/Machine/Hub.lean ====
section
/-! DEFINITION. The hub control space: walks and invalidation, keys, spares, counters, power, reset, and the supervisor's accesses
(R5, R76 to R84, R316, R363 to R371). -/

namespace Sys2Proof.Machine

/-! ### Walks and invalidation (R76 to R82) -/

/-- PAGE_WALK: the walk unit of die `req.die` walks for address `req.addr` of address space `req.asid` and an access of kind
`req.kind`; the translation is cached (R81), and the hub holds the address-space entry with it (R83). A walk that faults caches
nothing. -/
def execPageWalk (s : State) : Host.Outcome State Fault Refusal :=
  happen (do
    let r := (← get).req
    modify fun s => { s with fresh := true }
    if !canonical r.addr then faultAt Cause.nonCanonical r.addr
    else
      let (leaf, level) ← translateLeaf r.die r.asid r.addr r.kind
      let c : Cached := ⟨r.asid, vpageOf r.addr level, level, leaf⟩
      let a ← readAst r.asid r.addr
      modHub fun h => { h with asts := tput h.asts r.asid.toNat (BitVec.ofNat 256 a) }
      modDie r.die fun x => { x with tlb := c :: x.tlb.filter fun y => !(y.asid == c.asid && y.level == c.level && y.vpage == c.vpage) }
      modify fun s => { s with fresh := false }) s

def State.port (s : State) (p : Nat) : InvPort := tget {} s.hub.inv p
def State.setPort (s : State) (p : Nat) (x : InvPort) : State := s.onHub fun h => { h with inv := tput h.inv p x }

/-- A write of INVCTL (Table 6.6): while DONE = 0 it is ignored and counted. -/
def State.writeInvctl (s : State) (p : Nat) (v : BitVec 64) : State :=
  let x := s.port p
  if x.done then s.setPort p { x with asid := v.extractLsb' 48 16, allas := v.getLsbD 47, pages := v.truncate 32, done := false }
  else s.ignoredHub

/-- INVALIDATION: INVCTL of port `req.port` is written with `req.value`. -/
def execInvalidation (s : State) : Host.Outcome State Fault Refusal := .next (s.writeInvctl s.req.port.val s.req.value)

/-- A cached translation lies in the range of an invalidation: any of its 64 KiB pages is named (R81). -/
def InvPort.covers (x : InvPort) (c : Cached) : Bool :=
  let first := x.va.toNat % 2 ^ 41
  let size := 2 ^ (pageBits c.level - 16)
  let lo := c.vpage * size
  (x.allas || x.asid == c.asid) && (x.pages == 0 || (decide (first < lo + size) && decide (lo < first + x.pages.toNat)))

/-- A stash line of a region was translated by a page of the range. -/
def InvPort.coversLine (x : InvPort) (r : StashRegion) (i : Nat) (l : StashLine) : Bool :=
  x.covers ⟨r.asid, vpageOf (r.lineVa i) l.level, l.level, 0⟩

/-- The stash lines of the range leave: dirty sectors are written back under the old translation, and the next access fills the line
anew (R125, R127). -/
def State.invalidateStash (s : State) (x : InvPort) : State :=
  s.cores.foldl (fun s (k, c) =>
    if c.stash.any fun r => r.valid.any fun p => x.coversLine r p.1 p.2 then
      let s := c.stash.foldl (fun s r => r.valid.foldl (fun s (i, l) => if x.coversLine r i l then s.writeBackLine c r i l else s) s) s
      { s with cores := tput s.cores k { c with stash := c.stash.map fun r =>
          { r with lines := r.lines.map fun (i, l) => (i, l.filter fun y => !x.coversLine r i y) } } }
    else s) s

/-- The address-space entry that an invalidation of a whole space renews (R83). -/
def InvPort.renews (x : InvPort) (asid : Nat) : Bool := x.pages == 0 && (x.allas || x.asid.toNat == asid)

/-- INVALIDATION_DONE, on port `req.port`: no cached translation of the range remains on any die, and no stash line that was filled
through one (every access of a step is already performed, log 7). DESIGN CHOICE (log 74): the range starts at INVADDR as it stands
now, also where it was written since the start. -/
def execInvalidationDone (s : State) : Host.Outcome State Fault Refusal :=
  let x := s.port s.req.port.val
  .next (if x.done then s
    else
      let s := s.invalidateStash x
      let s := allDies.foldl (fun s d => s.setDie d { s.die d with tlb := (s.die d).tlb.filter fun c => !x.covers c }) s
      let s := s.onHub fun h => { h with asts := h.asts.filter fun a => !x.renews a.1 }
      s.setPort s.req.port.val { x with done := true })

/-! ### Key slots (R84) -/

def State.keySlot (s : State) (k : Nat) : KeySlot := tget {} s.hub.keys k
def State.setKeySlot (s : State) (k : Nat) (x : KeySlot) : State := s.onHub fun h => { h with keys := tput h.keys k x }

/-- A write of KCTL: LD = 1 loads the slot from the key words unless it is loaded; LD = 0 clears the slot and the words. -/
def State.writeKctl (s : State) (k : Nat) (ld : Bool) : State :=
  let x := s.keySlot k
  if ld then (if x.loaded then s else s.setKeySlot k { x with loaded := true, key := x.words }) else s.setKeySlot k {}

/-- A write of key word i: ignored while LD = 1. -/
def State.writeKeyWord (s : State) (k i : Nat) (v : BitVec 64) : State :=
  let x := s.keySlot k
  if x.loaded then s
  else s.setKeySlot k { x with words := (x.words &&& ~~~ ((BitVec.allOnes 64).zeroExtend 512 <<< (64 * i))) ||| (v.zeroExtend 512 <<< (64 * i)) }

/-- KEY_SLOT_LOAD and KEY_SLOT_CLEAR, of slot `req.key`. -/
def execKeySlotLoad (s : State) : Host.Outcome State Fault Refusal := .next (s.writeKctl s.req.key.val true)
def execKeySlotClear (s : State) : Host.Outcome State Fault Refusal := .next (s.writeKctl s.req.key.val false)

/-! ### Waits (R25, R168) -/

/-- A wait of a hart's stream reaches its limit. -/
def State.expire (s : State) (h : HartId) (st : Stream) : State :=
  let x := s.hart h
  if x.task.isNone || x.halted || (x.st st).wait.isNone then s
  else (s.setHart h (x.takeTrap st (x.limitTrap st))).countHart h 0x15 1

/-- WAIT_LIMIT_EXPIRY: the wait of stream `req.stream` of hart `req.hart` (the cycles it takes are not modelled, log 2). -/
def execWaitLimitExpiry (s : State) : Host.Outcome State Fault Refusal := .next (s.expire s.req.hart s.req.stream)

/-! ### Spares (R364 to R366) -/

/-- SPREQ refuses a core request: the core holds a task or is home to a frame; an engine request: an open request or a bound ring. -/
def State.unitBusy (s : State) (kind : Nat) (die : Fin 4) (unit : Nat) : Bool :=
  match kind with
  | 1 => !s.vacant ⟨die, Fin.ofNat 96 unit⟩
  | 2 => s.hub.requests.any fun r => r.engine.val == unit
  | _ => s.hub.rings.any fun (_, r) => r.en && r.scribe.toNat == unit

/-- The spares left of a kind. -/
def State.sparesLeft (s : State) (kind : Nat) (die : Fin 4) : Nat :=
  match kind with
  | 1 => 8 - tget 0 s.hub.spareCores die.val
  | 2 => s.hub.spareLigature
  | _ => s.hub.spareScribe

/-- A write of SPREQ (Table 29.2, R365): one that is ignored is counted (Table 29.5). A unit that does not exist is ignored as another
KIND is. -/
def State.writeSpreq (s : State) (v : BitVec 64) : State :=
  let kind := bits v.toNat 17 3
  let die : Fin 4 := Fin.ofNat 4 (bits v.toNat 15 2)
  let unit := bits v.toNat 8 7
  if s.hub.spreq.busy then s.ignoredHub
  else if kind = 0 ∨ 3 < kind ∨ 96 ≤ unit ∨ (kind ≠ 1 ∧ 16 ≤ unit) then s.ignoredHub
  else
    let q : SpareReq := { busy := false, kind := BitVec.ofNat 3 kind, die := BitVec.ofNat 2 die.val, unit := BitVec.ofNat 7 unit, stat := 0 }
    let answer (s : State) (q : SpareReq) : State := s.onHub fun h => { h with spreq := q }
    if s.unitBusy kind die unit then answer s { q with stat := 1 }
    else if s.sparesLeft kind die = 0 then answer s { q with stat := 2 }
    else
      let s := if kind = 1 then s.setCore ⟨die, Fin.ofNat 96 unit⟩ { s.core ⟨die, Fin.ofNat 96 unit⟩ with swapHeld := true } else s
      answer s { q with busy := true }

/-- A write of SPREQ with a given KIND and the other fields of `req.value`. -/
def spareValue (v : BitVec 64) (kind : BitVec 64) : BitVec 64 := (v &&& ~~~ 0xE0000#64) ||| (kind <<< 17)

/-- SPARE_CORE_SWAP, SPARE_LIGATURE_SWAP and SPARE_SCRIBE_SWAP: SPREQ is written with `req.value` and the KIND of each. -/
def execSpareCoreSwap (s : State) : Host.Outcome State Fault Refusal := .next (s.writeSpreq (spareValue s.req.value 1))
def execSpareLigatureSwap (s : State) : Host.Outcome State Fault Refusal := .next (s.writeSpreq (spareValue s.req.value 2))
def execSpareScribeSwap (s : State) : Host.Outcome State Fault Refusal := .next (s.writeSpreq (spareValue s.req.value 3))

/-- SPARE_SWAP_DONE: a spare takes the unit's place; a core comes with nothing of the one that it replaces (R120), and with every
feature (R169): nothing was placed on it since the request (R365). -/
def execSpareSwapDone (s : State) : Host.Outcome State Fault Refusal :=
  let q := s.hub.spreq
  .next (if !q.busy then s
    else
      let die : Fin 4 := Fin.ofNat 4 q.die.toNat
      let id : CoreId := ⟨die, Fin.ofNat 96 q.unit.toNat⟩
      let s := s.onHub fun h => { h with spreq := { q with busy := false } }
      match q.kind.toNat with
      | 1 =>
        let used := tget 0 s.hub.spareCores die.val
        let s := s.setCore id { harts := (s.core id).harts }
        let s := s.setDie die { s.die die with coreMap := tput (s.die die).coreMap id.core.val (96 + used) }
        (s.onHub fun h => { h with spareCores := tput h.spareCores die.val (used + 1) }).countDie die 0x42 1
      | 2 => (s.onHub fun h => { h with spareLigature := h.spareLigature - 1 }).countHub 0x42 1
      | _ => (s.onHub fun h => { h with spareScribe := h.spareScribe - 1 }).countHub 0x42 1)

/-- A spare lane of a die-to-die link is counted by each die that it joins (R9; log 79). -/
def State.countLink (s : State) (l : Fin 8) : State :=
  if l.val < 4 then (s.countDie (Fin.ofNat 4 l.val) 0x42 1).countDie (Fin.ofNat 4 (l.val + 1)) 0x42 1
  else (s.countDie (Fin.ofNat 4 l.val) 0x42 1).countHub 0x42 1

/-- LANE_RETRAINING: lane `req.lane` is replaced by a spare, one of the four of its group of ports while one is left (Table 29.1); nothing
else is seen but the counter. The spec gives no number of lanes of a die-to-die link, of which 4 % are spares (log 79). -/
def execLaneRetraining (s : State) : Host.Outcome State Fault Refusal :=
  .next (match s.req.lane with
    | .serdes g _ =>
      let used := tget 0 s.hub.laneSpares g.val
      if used < 4 then (s.onHub fun h => { h with laneSpares := tput h.laneSpares g.val (used + 1) }).countHub 0x42 1 else s
    | .dieLink l _ => s.countLink l)

/-- CORE_KEPT_DEGRADED: the bit `req.feature` of FEAT of core `req.core` is cleared, while the core holds no task and is home to no
frame (R169, R334, R366). -/
def execCoreKeptDegraded (s : State) : Host.Outcome State Fault Refusal :=
  let c := s.req.core
  .next (if s.vacant c then s.setCore c { s.core c with feat := (s.core c).feat &&& ~~~ BitVec.twoPow 3 s.req.feature.val } else s)

/-! ### Event counters (R367, R368) -/

/-- The counter that an id names. -/
def State.counter (s : State) : CounterId → Counter
  | .hart h k => tget {} (s.hart h).counters k.val
  | .die d k => tget {} (s.die d).counters k.val
  | .hub k => tget {} s.hub.counters k.val

def State.setCounter (s : State) (i : CounterId) (c : Counter) : State :=
  match i with
  | .hart h k => s.setHart h { s.hart h with counters := tput (s.hart h).counters k.val c }
  | .die d k => s.setDie d { s.die d with counters := tput (s.die d).counters k.val c }
  | .hub k => s.onHub fun h => { h with counters := tput h.counters k.val c }

/-- The events of a source are left to timing: cycles, grants, MACs, L2 and multicast events, checks, limiter cycles. -/
def openSource (src : BitVec 8) : Bool :=
  ([0x00, 0x02, 0x03, 0x04, 0x10, 0x11, 0x13, 0x41, 0x43] : List (BitVec 8)).contains src

/-- A counter as an access finds it: one that counts such events has counted some, as free values say (log 23). -/
def State.countNow (s : State) (i : CounterId) : State :=
  let c := s.counter i
  if c.en && openSource c.src then
    { s.setCounter i { c with count := Config.freeEventCount s.freeCtr, ovf := c.ovf || Config.freeEventWrap s.freeCtr } with freeCtr := s.freeCtr + 1 }
  else s

/-- EVENT_COUNTER_WRAP: counter `req.counter` counts an event at its last value. -/
def execEventCounterWrap (s : State) : Host.Outcome State Fault Refusal :=
  let c := s.counter s.req.counter
  .next (if c.en && c.count == BitVec.allOnes 48 then s.setCounter s.req.counter { c with count := 0, ovf := true } else s)

/-! ### Soft errors (R369) -/

/-- SOFT_ERROR at `req.site`: corrected and counted, or a sector whose check fails. -/
def execSoftError (s : State) : Host.Outcome State Fault Refusal :=
  .next (match s.req.site with
    | .memory pa =>
      let sec := pa.toNat / 32
      if s.req.corrected then s.countDie (Fin.ofNat 4 (pa.toNat / 2 ^ 38)) 0x40 1
      else if s.badSectors.contains sec then s else { s with badSectors := sec :: s.badSectors }
    | .scratchpad c off =>
      if s.req.corrected then s.countDie c.die 0x40 1 else s.setCore c ((s.core c).markPad (off.val / 32) true))

/-! ### Power, heat, reset (R370, R371) -/

/-- The module limit, and the budget of the core domain (Table 1.3), in milliwatts. -/
def moduleLimit : Nat := 3000000
def coreBudget : Nat := 1350000

/-- POWER_SAMPLE: the module draws `req.power` and its cores `req.corePower` milliwatts. -/
def execPowerSample (s : State) : Host.Outcome State Fault Refusal :=
  let above := decide (moduleLimit < s.req.power) || decide (coreBudget < s.req.corePower)
  .next (allDies.foldl (fun s d => s.setDie d { s.die d with limitedPower := above }) s)

/-- THERMAL_LIMIT and THERMAL_LIMIT_END, of die `req.die`. -/
def execThermalLimit (s : State) : Host.Outcome State Fault Refusal := .next (s.setDie s.req.die { s.die s.req.die with limitedHeat := true })
def execThermalLimitEnd (s : State) : Host.Outcome State Fault Refusal := .next (s.setDie s.req.die { s.die s.req.die with limitedHeat := false })

/-- THERMAL_SHUTDOWN: the module powers down, and the store records die `req.die`. -/
def execThermalShutdown (s : State) : Host.Outcome State Fault Refusal :=
  .next { s.dark with mcStore := s.mcStore ++ [.thermal s.req.die] }

/-- The map from units to parts where the first n replacements of a list have brought in spares, numbered from `base`. -/
def spareMap (base n : Nat) (l : List Nat) : Tab Nat := (l.take n).zipIdx.foldl (fun t (k, j) => tput t k (base + j)) []

/-- The slice map of a die and the supervisor-core map that the microcontroller's store gives (R110, R370). -/
def sliceMapOf (store : List McEvent) (d : Fin 4) : Tab Nat :=
  spareMap 128 4 (store.filterMap fun e => match e with | .repair (.slice x k) => if x = d then some k.val else none | _ => none)
def supMapOf (store : List McEvent) : Tab Nat :=
  spareMap 32 2 (store.filterMap fun e => match e with | .repair (.supervisor k) => some k.val | _ => none)

/-- The populated size of a die after a reset: it shrinks when a pseudo-channel of one of its stacks is newly retired (R72, R82), to
a size that the part gives (log 80). -/
def State.populated (s : State) (d : Fin 4) : BitVec 38 :=
  let old := (s.die d).popBytes
  if s.req.repairs.any fun r => match r with | .channel st _ => st.val / 3 == d.val | _ => false then
    let new := s.req.sizes.getD d.val old
    if new < old then new else old
  else old

/-- RESET: the state of State.reset, with the pod index `req.value`, once the repairs and retirements of the microcontroller's store,
`req.repairs` among them, are applied; the flash, the spares that are used, the degraded features and the store stay (R370; log 4). -/
def execReset (s : State) : Host.Outcome State Fault Refusal :=
  let store := s.mcStore ++ s.req.repairs.map .repair
  .next { State.reset with
    podIndex := s.req.value.truncate 9, mcStore := store, agenda := s.agenda, rr := s.rr, freeCtr := s.freeCtr, taskCtr := s.taskCtr
    copyCtr := s.copyCtr
    cores := s.cores.map fun (k, c) => (k, { feat := c.feat })
    dies := allDies.map fun d => (d.val, { popBytes := s.populated d, sliceMap := sliceMapOf store d, coreMap := (s.die d).coreMap })
    hub := { flash := s.hub.flash, flashDurable := s.hub.flashDurable, flashPending := s.hub.flashPending, flashWrites := s.hub.flashWrites
             flashBad := s.hub.flashBad, spareCores := s.hub.spareCores, spareLigature := s.hub.spareLigature, spareScribe := s.hub.spareScribe
             laneSpares := s.hub.laneSpares, supMap := supMapOf store } }

/-! ### Interrupts of the supervisor cores (R140, R333) -/

/-- A supervisor core is interrupted while a copy-fault queue or a notice ring that names it holds something to read. -/
def State.interrupted (s : State) (core : Fin 32) : Bool :=
  allDies.any fun d =>
    let x := s.die d
    (x.cfqHead != x.cfqTail && x.cfqIcore.toNat == core.val) || (x.nqHead != x.nqTail && x.nqIcore.toNat == core.val)

/-! ### The register map (R5, R82 to R84, R96, R139, R259, R273, R297, R319, R333, R356, R365, R367) -/

/-- The registers of the hub control space. -/
inductive HubReg where
  | invaddr (p : Nat) | invctl (p : Nat) | popsz (d : Fin 4)
  | keyWord (k i : Nat) | kctl (k : Nat) | astbase
  | fparena (d : Fin 4) | fpctl (d : Fin 4)
  | cpctl (d : Fin 4) | cfqbase (d : Fin 4) | cfqhead (d : Fin 4) | cfqtail (d : Fin 4)
  | ring (r i : Nat) | ctx (c : Nat) | barctl (net id : Nat)
  | pladdr (k : Nat) | plctl (k : Nat) | plqbase (k : Nat) | preempt (d : Fin 4)
  | frbase (d : Fin 4) | nqbase (d : Fin 4) | nqhead (d : Fin 4) | nqtail (d : Fin 4) | resctl (d : Fin 4)
  | flrctl (r : Nat) | flrlba (r : Nat) | flrnlb (r : Nat)
  | evsel (c : CounterId) | evcnt (c : CounterId) | spreq
  deriving DecidableEq, Repr

/-- The counter at an offset from the counters' base. -/
def counterAt (o : Nat) : Option CounterId :=
  let d := o / 0x100000
  let r := o % 0x100000
  if 4 < d then none
  else if r < 0x200 then some (if d = 4 then .hub (Fin.ofNat 32 (r / 16)) else .die (Fin.ofNat 4 d) (Fin.ofNat 32 (r / 16)))
  else if d < 4 ∧ 0x1000 ≤ r ∧ r < 0x1000 + 0x100 * 768 ∧ (r - 0x1000) % 0x100 < 0x80 then
    let n := (r - 0x1000) / 0x100
    some (.hart ⟨Fin.ofNat 4 d, Fin.ofNat 96 (n / 8), Fin.ofNat 8 (n % 8)⟩ (Fin.ofNat 8 (r % 0x100 / 16)))
  else none

/-- The register at an address, which is 8-byte aligned. -/
def hubReg (pa : Nat) : Option HubReg :=
  let o := pa - hubBase
  let die (base : Nat) : Fin 4 := Fin.ofNat 4 ((o - base) / 0x1000)
  if pa % 8 ≠ 0 ∨ !inHub pa then none
  else if 0x10000 ≤ o ∧ o < 0x10100 then
    (match o % 0x20 with | 0 => some (.invaddr ((o - 0x10000) / 0x20)) | 8 => some (.invctl ((o - 0x10000) / 0x20)) | _ => none)
  else if 0x10100 ≤ o ∧ o < 0x10120 then some (.popsz (Fin.ofNat 4 ((o - 0x10100) / 8)))
  else if 0x20000 ≤ o ∧ o < 0x24000 then
    (let r := o % 0x80; let k := (o - 0x20000) / 0x80
     if r < 0x40 then some (.keyWord k (r / 8)) else if r = 0x40 then some (.kctl k) else none)
  else if o = 0x30000 then some .astbase
  else if 0x100000 ≤ o ∧ o < 0x104000 then
    (match o % 0x1000 with | 0 => some (.fparena (die 0x100000)) | 8 => some (.fpctl (die 0x100000)) | _ => none)
  else if 0x200000 ≤ o ∧ o < 0x204000 then
    (match o % 0x1000 with
      | 0 => some (.cpctl (die 0x200000)) | 0x10 => some (.cfqbase (die 0x200000))
      | 0x18 => some (.cfqhead (die 0x200000)) | 0x20 => some (.cfqtail (die 0x200000)) | _ => none)
  else if 0x300000 ≤ o ∧ o < 0x380000 then some (.ring ((o - 0x300000) / 64) (o % 64 / 8))
  else if 0x380000 ≤ o ∧ o < 0x390000 ∧ o % 16 = 0 then some (.ctx ((o - 0x380000) / 16))
  else if 0x400000 ≤ o ∧ o < 0x400000 + 8 * 32 * 486 then some (.barctl ((o - 0x400000) / 256) ((o - 0x400000) / 8 % 32))
  else if 0x500000 ≤ o ∧ o < 0x500400 then
    (let k := (o - 0x500000) / 32
     match o % 32 with | 0 => some (.pladdr k) | 8 => some (.plctl k) | 16 => some (.plqbase k) | _ => none)
  else if 0x510000 ≤ o ∧ o < 0x510020 then some (.preempt (Fin.ofNat 4 ((o - 0x510000) / 8)))
  else if 0x600000 ≤ o ∧ o < 0x604000 then
    (match o % 0x1000 with
      | 0 => some (.frbase (die 0x600000)) | 8 => some (.nqbase (die 0x600000)) | 0x10 => some (.nqhead (die 0x600000))
      | 0x18 => some (.nqtail (die 0x600000)) | 0x20 => some (.resctl (die 0x600000)) | _ => none)
  else if 0x700000 ≤ o ∧ o < 0x702000 then
    (let r := (o - 0x700000) / 32
     match o % 32 with | 0 => some (.flrctl r) | 8 => some (.flrlba r) | 16 => some (.flrnlb r) | _ => none)
  else if 0x800000 ≤ o ∧ o < 0xD00000 then (counterAt (o - 0x800000)).map fun c => if o % 16 = 0 then .evsel c else .evcnt c
  else if o = 0xD00000 then some .spreq
  else none

/-- OP 6 on each kind of engine (R340). -/
def dropOp (s : State) (src : Nat) (r : Request) : State :=
  match src with
  | 1 => s.dropLigature r
  | 2 => s.dropScribe r
  | 3 => s.dropStencil r
  | 4 => { s with hub := { s.hub with netIn := s.hub.netIn.erase r.message } }
  | 5 => { s with hostValue := tput s.hostValue r.link.val none }
  | _ => s

/-- DROP_ENGINE_OPERATION: RESCTL of die `req.die` is written with OP 6 for the engine of `req.value`. -/
def execDropEngineOperation (s : State) : Host.Outcome State Fault Refusal :=
  .next (s.resctl s.req.die dropOp ((s.req.value &&& 0x1FFFFFFFFFFFFFFF) ||| 0xC000000000000000))

/-- Writes as many held notices as find free entries. -/
def State.flushNotices (s : State) (d : Fin 4) : State := (s.die d).nqHeld.foldl (fun s _ => s.flushNotice d) s

/-- A write of a register under its access codes (R5). -/
def State.writeReg (s : State) (r : HubReg) (v : BitVec 64) : State :=
  match r with
  | .invaddr p => s.setPort p { s.port p with va := v.extractLsb' 16 48 }
  | .invctl p => s.writeInvctl p v
  | .popsz _ => s
  | .keyWord k i => s.writeKeyWord k i v
  | .kctl k => s.writeKctl k (v.getLsbD 0)
  | .astbase => s.onHub fun h => { h with astEn := v.getLsbD 0, astBase := if h.astEn then h.astBase else v.extractLsb' 21 31 }
  | .fparena d => s.writeFparena d v
  | .fpctl d => s.writeFpctl d v
  | .cpctl d => s.cpctl d (bits v.toNat 0 7) (Fin.ofNat 64 (bits v.toNat 7 6)) (bits v.toNat 13 2)
  | .cfqbase d =>
    let x := s.die d
    s.setDie d (if x.cfqEn then { x with cfqEn := v.getLsbD 5 }
      else { x with cfqEn := v.getLsbD 5, cfqBase := v.extractLsb' 15 37, cfqIcore := v.truncate 5 })
  | .cfqhead _ => s
  | .cfqtail d => s.setDie d { s.die d with cfqTail := v.truncate 10 }
  | .ring k i => s.writeRing k (((s.ring k).image &&& ~~~ ((BitVec.allOnes 64).zeroExtend 512 <<< (64 * i))) ||| (v.zeroExtend 512 <<< (64 * i)))
  | .ctx c => s.writeCtx c v
  | .barctl net id => s.writeBarctl net id v
  | .pladdr k => s.writePladdr k v
  | .plctl k => s.writePlctl k v
  | .plqbase k => s.writePlqbase k v
  | .preempt d => s.writePreempt d v
  | .frbase d =>
    let x := s.die d
    s.setDie d (if x.frEn then { x with frEn := v.getLsbD 15 }
      else { x with frEn := v.getLsbD 15, frBase := v.extractLsb' 16 36, frNslot := v.truncate 13 })
  | .nqbase d => s.setDie d { s.die d with nqBase := v.extractLsb' 15 37, nqIcore := v.truncate 5 }
  | .nqhead _ => s
  | .nqtail d => (s.setDie d { s.die d with nqTail := v.truncate 12 }).flushNotices d
  | .resctl d => s.resctl d dropOp v
  | .flrctl k => s.writeFlrctl k v
  | .flrlba k => s.writeFlrlba k v
  | .flrnlb k => s.writeFlrnlb k v
  | .evsel c =>
    let s := s.countNow c
    let x := s.counter c
    s.setCounter c { x with src := v.truncate 8, en := v.getLsbD 8, ovf := x.ovf && !v.getLsbD 9 }
  | .evcnt c =>
    let s := s.countNow c
    s.setCounter c { s.counter c with count := v.truncate 48 }
  | .spreq => s.writeSpreq v

/-- What a register reads as: reserved fields and write-only fields read zero (R5). -/
def State.regValue (s : State) (r : HubReg) : Nat :=
  match r with
  | .invaddr p => (s.port p).va.toNat * 2 ^ 16
  | .invctl p => let x := s.port p; x.asid.toNat * 2 ^ 48 + x.allas.toNat * 2 ^ 47 + x.done.toNat * 2 ^ 46 + x.pages.toNat
  | .popsz d => (s.die d).popBytes.toNat
  | .keyWord _ _ => 0
  | .kctl k => (s.keySlot k).loaded.toNat
  | .astbase => s.hub.astBase.toNat * 2 ^ 21 + s.hub.astEn.toNat
  | .fparena d => (s.die d).fpAsid.toNat * 2 ^ 48 + (s.die d).fpBase.toNat
  | .fpctl d => (s.die d).fpReserve.toNat * 2 ^ 32 + (s.die d).fpSize.toNat * 2 + (s.die d).fpEn.toNat
  | .cpctl _ => 0
  | .cfqbase d => (s.die d).cfqBase.toNat * 2 ^ 15 + (s.die d).cfqEn.toNat * 2 ^ 5 + (s.die d).cfqIcore.toNat
  | .cfqhead d => (s.die d).cfqHead.toNat
  | .cfqtail d => (s.die d).cfqTail.toNat
  | .ring k i => bits (s.ring k).image.toNat (64 * i) 64
  | .ctx c => (s.ctx c).limit.toNat * 2 ^ 16 + (s.ctx c).owner.toNat
  | .barctl net id => let b := s.barrier net id; b.asid.toNat * 2 ^ 48 + b.en.toNat * 2 ^ 47 + b.root.toNat * 2 ^ 32 + b.phase.toNat
  | .pladdr k => (s.hub.pipe k).addr.toNat
  | .plctl k => let p := s.hub.pipe k
    p.asid.toNat * 2 ^ 48 + p.model.toNat * 2 ^ 32 + p.inq.toNat * 2 ^ 22 + p.ing.toNat * 2 ^ 21 + p.dies.toNat * 2 ^ 17 + p.state.toNat * 2 + p.en.toNat
  | .plqbase k => (s.hub.pipe k).qbase.toNat
  | .preempt _ => 0
  | .frbase d => (s.die d).frBase.toNat * 2 ^ 16 + (s.die d).frEn.toNat * 2 ^ 15 + (s.die d).frNslot.toNat
  | .nqbase d => (s.die d).nqBase.toNat * 2 ^ 15 + (s.die d).nqIcore.toNat
  | .nqhead d => (s.die d).nqHead.toNat
  | .nqtail d => (s.die d).nqTail.toNat
  | .resctl _ => 0
  | .flrctl k => let r := s.flashRing k; r.asid.toNat * 2 ^ 48 + r.en.toNat * 2 ^ 47 + r.idle.toNat * 2 ^ 46
  | .flrlba k => (s.flashRing k).lba.toNat
  | .flrnlb k => (s.flashRing k).nlb.toNat
  | .evsel c => let x := s.counter c; x.ovf.toNat * 2 ^ 9 + x.en.toNat * 2 ^ 8 + x.src.toNat
  | .evcnt c => (s.counter c).count.toNat
  | .spreq => let q := s.hub.spreq; q.busy.toNat * 2 ^ 63 + q.kind.toNat * 2 ^ 17 + q.die.toNat * 2 ^ 15 + q.unit.toNat * 2 ^ 8 + q.stat.toNat

/-- A supervisor's read of a register; a counter that counts what is left to timing has counted first (log 23). -/
def readReg (r : HubReg) : Act (BitVec 64) := do
  match r with
  | .evsel c | .evcnt c => modify fun s => s.countNow c
  | _ => pure ()
  return BitVec.ofNat 64 ((← get).regValue r)

/-- REGISTER_WRITE: the register at `req.addr` is written with `req.value`. -/
def execRegisterWrite (s : State) : Host.Outcome State Fault Refusal :=
  match hubReg s.req.addr.toNat with
  | some r => .next (s.writeReg r s.req.value)
  | none => .refused (.noSuchRegister s.req.addr.toNat)

/-! ### Supervisor accesses (R316) -/

/-- Reads n bytes for a supervisor core: memory, or a register of the hub control space. -/
def supLoad (pa n : Nat) : Act Nat := do
  if inHub pa then
    match hubReg pa with
    | some r => if n = 8 then return (← readReg r).toNat else throw (.refuse (.noSuchRegister pa))
    | none => throw (.refuse (.noSuchRegister pa))
  else
    let s ← get
    if !(s.inHbm pa || inHost pa) || pa % n != 0 then throw .wait
    else return leNat (← readPa none pa n (BitVec.ofNat 64 pa))

def supStore (pa n v : Nat) : Act Unit := do
  if inHub pa then
    match hubReg pa with
    | some r => if n = 8 then modify fun s => s.writeReg r (BitVec.ofNat 64 v) else throw (.refuse (.noSuchRegister pa))
    | none => throw (.refuse (.noSuchRegister pa))
  else
    let s ← get
    if !(s.inHbm pa || inHost pa) || pa % n != 0 then throw .wait
    else writePa none pa (leBytes n v) (BitVec.ofNat 64 pa)

/-- What the access of a supervisor core returns. -/
def supReturn (v : Nat) : Act Unit := modify fun s => { s with supValue := tput s.supValue s.req.supCore.val (BitVec.ofNat 64 v) }

/-- An atomic access of a supervisor core. -/
def supAtomic (pa n : Nat) (f : Nat → Option Nat) : Act Unit := do
  let old ← supLoad pa n
  match f old with
  | some v => supStore pa n v
  | none => pure ()
  supReturn old

/-- SUPERVISOR_ACCESS: access `req.op` of supervisor core `req.supCore`. An access that the core's own translation or alignment rules
stop, or that meets a failing sector, is a fault of the supervisor core, whose state the spec does not give: the module stays as it
is. -/
def execSupervisorAccess (s : State) : Host.Outcome State Fault Refusal :=
  happen (match s.req.op with
    | .load n pa => do supReturn (← supLoad pa.toNat n.val)
    | .store n pa v => supStore pa.toNat n.val v.toNat
    | .swap n pa v => supAtomic pa.toNat n.val fun _ => some (v.toNat % 256 ^ n.val)
    | .add n pa v => supAtomic pa.toNat n.val fun old => some ((old + v.toNat) % 256 ^ n.val)
    | .cas n pa old new => supAtomic pa.toNat n.val fun x => if x = old.toNat % 256 ^ n.val then some (new.toNat % 256 ^ n.val) else none
    | .fence => pure ()
    | .post k pa size record barrier => modify fun s => State.receive { s with hub :=
        { s.hub with netBufs := tput s.hub.netBufs k (some ⟨pa, size, record, barrier.map fun x => (x.1.val, x.2.val)⟩) } }
    | .send flow dest buffer tag pa size => modify fun s => s.sendMessage flow dest buffer tag pa size
    | .decoder link k host size pa => modHub fun h =>
        { h with hdm := tput h.hdm (4 * link.val + k.val) ⟨decide (0 < size), host, size, pa⟩ }) s

end Sys2Proof.Machine
end

