-- ==== Sys2Proof/Machine/Stash.lean ====
section
/-! DEFINITION. The stash instructions, major 0x0E minors 00 to 03 (R126 to R131). -/

namespace Sys2Proof.Machine

/-- The region offset of R126: a multiple of 4,096 below 0x8_0000, or the stash trap. -/
def stashOffset (w : BitVec 64) : Act Nat := do
  trapIf (w.toNat % 4096 != 0 || decide (0x80000 ≤ w.toNat)) Cause.stash
  return w.toNat

/-- SPMAP (R127). DESIGN CHOICE (log 69): the permission fault names no element, since a stash instruction leaves VSTART unchanged
(R126), where Fault (R25) sets it. -/
def spmapBody (o : HT16R) : Act Unit := do
  let off ← stashOffset (← reg o.a)
  let va ← reg o.b
  trapIf (!canonical va || va.toNat % 4096 != 0) Cause.stash
  let s ← get
  let k := s.curCore
  if k.stash.any fun r => r.offset == off || (r.va == va && r.asid == s.cur.asid) then setReg o.d (BitVec.ofInt 64 (-2))
  else if 64 ≤ k.stash.length then setReg o.d (BitVec.ofInt 64 (-1))
  else
    let m ← translateCur va .read
    if !m.leaf.getLsbD 54 || entTier m.leaf != 0 then faultAt Cause.permission va
    else
      modCore fun k => { k with stash := k.stash ++ [{ offset := off, va := va, asid := s.cur.asid, owner := s.cur.taskNo }] }
      setReg o.d 0

def execSpmap (o : HT16R) (s : State) : Host.Outcome State Fault Refusal := finish (spmapBody o) s

/-- SPUNMAP (R128). -/
def spunmapBody (o : HT16R) : Act Unit := do
  let off ← stashOffset (← reg o.a)
  let s ← get
  match s.curCore.regionAt off with
  | none => setReg o.d (BitVec.ofInt 64 (-1))
  | some r =>
    let (s', n) := s.unmapRegion s.curCoreId r
    set s'
    setReg o.d (BitVec.ofNat 64 n)

def execSpunmap (o : HT16R) (s : State) : Host.Outcome State Fault Refusal := finish (spunmapBody o) s

/-- SPFLUSH (R129). -/
def spflushBody (o : HT16R) : Act Unit := do
  let off ← stashOffset (← reg o.a)
  let s ← get
  match s.curCore.regionAt off with
  | none => setReg o.d (BitVec.ofInt 64 (-1))
  | some r =>
    let (s', n) := s.flushRegion s.curCoreId r
    set s'
    setReg o.d (BitVec.ofNat 64 n)

def execSpflush (o : HT16R) (s : State) : Host.Outcome State Fault Refusal := finish (spflushBody o) s

/-- SPINV (R130). -/
def spinvBody (o : HT16R) : Act Unit := do
  let off ← stashOffset (← reg o.a)
  let s ← get
  match s.curCore.regionAt off with
  | none => setReg o.d (BitVec.ofInt 64 (-1))
  | some r =>
    modCore fun k => k.setRegion { r with lines := [] }
    setReg o.d (BitVec.ofNat 64 r.valid.length)

def execSpinv (o : HT16R) (s : State) : Host.Outcome State Fault Refusal := finish (spinvBody o) s

end Sys2Proof.Machine
end

