-- ==== Sys2Proof/Machine/Tree.lean ====
section
/-! DEFINITION. The tree unit, major 0x14 (R211 to R223). -/

namespace Sys2Proof.Machine

/-! ### Forests (R211) -/

/-- Parent index e of a topology group: L × 8 indices of 16 bits in each register (Table 11.1, R163). An index that nothing has
written since placement equals its own position, that in the group which the instruction names, so that every element is a root
(R166; DEDUCED, log 12). -/
def Hart.parent (x : Hart) (lanes t e : Nat) : Nat :=
  let r := t + e / (8 * lanes)
  let i := e % (8 * lanes)
  if (tget 0 x.tset r).getLsbD i then elemAt 16 (x.getT r).toNat i else e

/-- Writes parent index e of a topology group. -/
def Hart.setParent (x : Hart) (lanes t e p : Nat) : Hart :=
  let r := t + e / (8 * lanes)
  let i := e % (8 * lanes)
  let x := x.setT r (BitVec.ofNat 4096 (putElem 16 (x.getT r).toNat i p))
  { x with tset := tput x.tset r (tget 0 x.tset r ||| BitVec.ofNat 256 (2 ^ i)) }

/-- The chain of an element up to its first root or external root, none where it never reaches one; the fuel is VL. -/
def chainOf (p : Nat → Nat) (vl : Nat) : (fuel e : Nat) → Option (List Nat)
  | 0, _ => none
  | n + 1, e => if p e = e ∨ vl ≤ p e then some [e] else (chainOf p vl n (p e)).map (e :: ·)

/-- A forest: VL, the parents and the path of each element, none where it is unrooted. -/
structure Forest where
  vl    : Nat
  par   : List Nat
  paths : List (Option (List Nat))
  deriving DecidableEq, Repr

def forestOf (p : Nat → Nat) (vl : Nat) : Forest :=
  { vl := vl, par := (List.range vl).map p, paths := (List.range vl).map (chainOf p vl vl) }

def Forest.parent (f : Forest) (e : Nat) : Nat := f.par.getD e e
def Forest.path (f : Forest) (e : Nat) : Option (List Nat) := f.paths.getD e none
def Forest.root (f : Forest) (e : Nat) : Option Nat := (f.path e).bind List.getLast?
def Forest.external (f : Forest) (e : Nat) : Bool := decide (f.vl ≤ f.parent e)
def Forest.unrooted (f : Forest) (e : Nat) : Bool := (f.path e).isNone

/-- The subtree of an element (R211). -/
def Forest.subtree (f : Forest) (e : Nat) : List Nat :=
  (List.range f.vl).filter fun j => match f.path j with | some l => l.contains e | none => false

/-- The status word (R214). -/
def Forest.status (f : Forest) (kept : Nat) : BitVec 64 :=
  BitVec.ofNat 64 (kept * 2 ^ 32 + ((List.range f.vl).filter f.external).length * 2 ^ 16 + ((List.range f.vl).filter f.unrooted).length)

/-! ### Reductions (Table 14.3) -/

/-- A reduction over the encodings of a set. -/
def treeReduce (op : Nat) (f : Fmt) (xs : List Nat) : Res :=
  match op with
  | 0 =>
    if isFloat f then (xs.foldl (fun s x => s.add (decodeF f x)) ({} : ExactSum)).round f .rne false false
    else (wrapI f (xs.foldl (fun s x => s + decodeI f x) 0), 0)
  | 1 => satI f (xs.foldl (fun s x => s + decodeI f x) 0)
  | 2 => (xs.foldl (fun a x => a &&& x) (2 ^ f.width - 1), 0)
  | 3 => (xs.foldl (fun a x => a ||| x) 0, 0)
  | k =>
    let mx := k == 5
    if isFloat f then xs.foldl (fun (a : Res) x => let r := minmaxF f mx (decodeF f a.1) (decodeF f x); (r.1, a.2 ||| r.2)) (canonicalNaN f, 0)
    else match xs with
      | [] => (0, 0)
      | y :: ys => (ys.foldl (fun a x => if (decide (decodeI f x < decodeI f a)) != mx && decodeI f x != decodeI f a then x else a) y, 0)

/-- A value moved as an encoding: a NaN becomes canonical (R219, R182). -/
def moveVal (f : Fmt) (x : Nat) : Nat := if isFloat f && (decodeF f x).isNan then canonicalNaN f else x

/-! ### The common rules (R213, R214) -/

/-- What a tree instruction writes at its last step. -/
structure TreeOut where
  vec   : Option (Nat × Flags) := none
  topo  : List (Nat × Nat) := []
  masks : List (Nat × Nat) := []
  kept  : Nat := 0
  deriving DecidableEq, Repr

/-- What a tree instruction reads. -/
structure TreeIn where
  f    : Forest
  a    : Nat
  old  : Nat
  mask : Nat
  /-- The elements from VSTART to VL − 1. -/
  es   : List Nat
  act  : List Nat
  deriving DecidableEq, Repr

def treeSrc (o : HT48T) : Operand := ⟨o.a.val, o.group.size, o.fmt.width⟩
def treeDst (o : HT48T) : Operand := ⟨o.d.val, o.group.size, o.fmt.width⟩

/-- Runs a tree instruction and answers whether its forest is broken. `reads` gives the elements of a that it reads. -/
def treeBody (o : HT48T) (hasA hasD status : Bool) (reads : TreeIn → List Nat) (f : TreeIn → Hart → Nat → TreeOut) : Act Bool := do
  let s0 ← get
  let vl := s0.cur.vl.toNat
  let srcs := if hasA then [treeSrc o] else []
  let dsts := if hasD then [treeDst o] else []
  checkLength (← countOf o.group o.fmt)
  openOperands srcs dsts
  let x ← getCur
  let lanes := (← get).lanes
  let a ← if hasA then readOperand (treeSrc o) else pure 0
  let old ← if hasD then readDest (treeDst o) false else pure 0
  if vl ≤ x.vstart.toNat then
    clearVstart
    return false
  else
    let mask ← govMask o.mask
    let t : TreeIn := { f := forestOf (x.parent lanes o.t.val) vl, a := a, old := old, mask := mask
                        es := activeList x.vstart.toNat vl (2 ^ vl - 1), act := activeList x.vstart.toNat vl mask }
    guardWhole srcs (reads t)
    let r := f t x lanes
    match r.vec with
    | some (v, fl) =>
      writeDest (treeDst o) v
      raiseFlags fl
    | none => pure ()
    modCur fun x => r.topo.foldl (fun x (e, p) => x.setParent lanes o.u.val e p) x
    modCur fun x => r.masks.foldl (fun x (m, v) => x.setM m (BitVec.ofNat 4096 v)) x
    clearVstart
    if status then
      modCur fun x => x.setS o.s.val (t.f.status r.kept)
      let broken := (List.range vl).any t.f.unrooted
      if broken then raiseFlags flagTCY else pure ()
      return broken && x.tce
    else return false

/-- The topology-cycle trap, after every write (R214): the instruction counts as completed, XPC still names it. -/
def cycleTrap (s : State) : State :=
  let s := s.countHart s.curHart 0x01 1
  let s := takeTrap { cause := Cause.topologyCycle } s
  s.setCur { s.cur with halt := { s.cur.halt with xdone := true } }

def wholeBool (m : Act Bool) : Act Bool := fun s =>
  match m s with
  | (.error (.trap i), s') => (.error (.trap i), if i.elem.isSome then s' else s)
  | (.error e, _) => (.error e, s)
  | r => r

/-- The outcome of a tree instruction. -/
def tree (o : HT48T) (hasA hasD status : Bool) (reads : TreeIn → List Nat) (f : TreeIn → Hart → Nat → TreeOut) (s : State) : Host.Outcome State Fault Refusal :=
  settle (do
    let broken ← wholeBool (treeBody o hasA hasD status reads f)
    if broken then modify cycleTrap else modify State.complete) s

/-- Vector results written element by element. -/
def treeVec (w : Nat) (t : TreeIn) (es : List Nat) (g : Nat → Res) : Option (Nat × Flags) := some (foldElems w g es t.old 0)

/-! ### The instructions (R217 to R223) -/

/-- TFROM (R217). -/
def execTfrom (o : HT48T) (s : State) : Host.Outcome State Fault Refusal :=
  tree o true false false (·.act) (fun t _ _ =>
    { topo := t.act.map fun e =>
        let v := decodeI o.fmt (elemAt o.fmt.width t.a e)
        (e, if 0 ≤ v ∧ v ≤ 65535 then v.toNat else 0xFFFF) }) s

/-- TTO (R217). -/
def execTto (o : HT48T) (s : State) : Host.Outcome State Fault Refusal :=
  tree o false true false (fun _ => []) (fun t x lanes =>
    { vec := treeVec o.fmt.width t t.act fun e => (x.parent lanes o.t.val e, 0) }) s

/-- TUP (R218). -/
def execTup (o : HT48T) (s : State) : Host.Outcome State Fault Refusal :=
  tree o true true true (fun t => List.range t.f.vl) (fun t _ _ =>
    { vec := treeVec o.fmt.width t t.act fun e =>
        if t.f.unrooted e then (0, 0) else treeReduce o.op.val o.fmt ((t.f.subtree e).map (elemAt o.fmt.width t.a)) }) s

/-- TDOWN (R218). -/
def execTdown (o : HT48T) (s : State) : Host.Outcome State Fault Refusal :=
  tree o true true true (fun t => List.range t.f.vl) (fun t _ _ =>
    { vec := treeVec o.fmt.width t t.act fun e => match t.f.path e with
        | none => (0, 0)
        | some l => treeReduce o.op.val o.fmt (l.map (elemAt o.fmt.width t.a)) }) s

/-- TBCAST (R219): the nearest marked element of the path, else the root. -/
def execTbcast (o : HT48T) (s : State) : Host.Outcome State Fault Refusal :=
  tree o true true true (fun t => List.range t.f.vl) (fun t _ _ =>
    { vec := treeVec o.fmt.width t t.es fun e => match t.f.path e with
        | none => (0, 0)
        | some l =>
          let a := match l.find? t.mask.testBit with | some a => a | none => (t.f.root e).getD e
          (moveVal o.fmt (elemAt o.fmt.width t.a a), 0) }) s

/-- TBCAST.ROOT (R219). -/
def execTbcastRoot (o : HT48T) (s : State) : Host.Outcome State Fault Refusal :=
  tree o true true true (fun t => List.range t.f.vl) (fun t _ _ =>
    { vec := treeVec o.fmt.width t t.es fun e => match t.f.root e with
        | none => (0, 0)
        | some a => (moveVal o.fmt (elemAt o.fmt.width t.a a), 0) }) s

/-- TDEPTH (R220). -/
def execTdepth (o : HT48T) (s : State) : Host.Outcome State Fault Refusal :=
  tree o false true true (fun _ => []) (fun t _ _ =>
    { vec := treeVec o.fmt.width t t.act fun e => (match t.f.path e with | some l => l.length - 1 | none => 65535, 0) }) s

/-- TANC (R221). -/
def execTanc (o : HT48T) (s : State) : Host.Outcome State Fault Refusal :=
  tree o true true true (·.act) (fun t _ _ =>
    { vec := treeVec o.fmt.width t t.act fun e => (match t.f.path e with
        | some l => l.getD (min (elemAt o.fmt.width t.a e) (l.length - 1)) e
        | none => 65535, 0) }) s

/-- TANC.ISA (R221). -/
def execTancIsa (o : HT48T) (s : State) : Host.Outcome State Fault Refusal :=
  tree o false true true (fun _ => []) (fun t x lanes =>
    { vec := treeVec o.fmt.width t t.act fun e =>
        let q := x.parent lanes o.u.val e
        ((match t.f.path e with | some l => (decide (q < t.f.vl) && l.contains q).toNat | none => 0), 0) }) s

/-- A report mask: bits 0 to VL − 1 replaced. -/
def reportMask (x : Hart) (m vl : Nat) (b : Nat → Bool) : Nat × Nat :=
  (m, (List.range vl).foldl (fun v e => putBit v e (b e)) (x.getM m).toNat)

/-- TROOT (R220). -/
def execTroot (o : HT48T) (s : State) : Host.Outcome State Fault Refusal :=
  tree o false true true (fun _ => []) (fun t x _ =>
    { vec := treeVec o.fmt.width t t.act fun e => ((t.f.root e).getD e, 0)
      masks := [reportMask x (o.u.val % 8) t.f.vl t.f.unrooted] }) s

/-- The new parent of a kept element (R222). -/
def newParent (f : Forest) (mask : Nat) (num : Nat → Nat) (e : Nat) : Nat :=
  match f.path e with
  | none => num e
  | some l =>
    match (l.drop 1).find? mask.testBit with
    | some a => num a
    | none => if f.external ((f.root e).getD e) then 0xFFFF else num e

/-- TCONTR (R222). -/
def execTcontr (o : HT48T) (s : State) : Host.Outcome State Fault Refusal :=
  tree o true true true (fun t => List.range t.f.vl) (fun t _ _ =>
    let kept := (List.range t.f.vl).filter t.mask.testBit
    let num (e : Nat) : Nat := ((List.range e).filter t.mask.testBit).length
    { vec := some ((List.range t.f.vl).foldl (fun v j => putElem o.fmt.width v j (match kept[j]? with
          | some e => elemAt o.fmt.width t.a e
          | none => 0)) t.old, 0)
      topo := (List.range t.f.vl).map fun j => (j, match kept[j]? with
          | some e => newParent t.f t.mask num e
          | none => j)
      kept := kept.length }) s

/-- TCHK (R223). -/
def execTchk (o : HT48T) (s : State) : Host.Outcome State Fault Refusal :=
  tree o false false true (fun _ => []) (fun t x _ =>
    { masks := [reportMask x (o.d.val % 8) t.f.vl t.f.external, reportMask x (o.u.val % 8) t.f.vl t.f.unrooted] }) s

end Sys2Proof.Machine
end

