-- ==== Sys2Proof/Machine/VecMove.lean ====
section
/-! DEFINITION. Reductions and data movement, major 0x13 (R203 to R208). -/

namespace Sys2Proof.Machine

/-- The operations of VRED and VSCAN (R204). -/
inductive RedOp where
  | add | min | max | and | or | xor
  deriving DecidableEq, Repr

/-- One step of an integer or bitwise reduction, or a floating MIN or MAX. -/
def redStep (op : RedOp) (f : Fmt) (ftz : Bool) (acc : Res) (x : Nat) : Res :=
  match op with
  | .and => (acc.1 &&& x, acc.2)
  | .or => (acc.1 ||| x, acc.2)
  | .xor => (acc.1 ^^^ x, acc.2)
  | .add => (wrapI f (decodeI f acc.1 + decodeI f x), acc.2)
  | .min =>
    if isFloat f then let r := minmaxF f false (readF f ftz acc.1) (readF f ftz x); (r.1, acc.2 ||| r.2)
    else (if decodeI f acc.1 ≤ decodeI f x then acc.1 else x, acc.2)
  | .max =>
    if isFloat f then let r := minmaxF f true (readF f ftz acc.1) (readF f ftz x); (r.1, acc.2 ||| r.2)
    else (if decodeI f acc.1 ≤ decodeI f x then x else acc.1, acc.2)

/-- The reduction of a list with the start value: a floating ADD is an exact sum rounded once (R204, R186); a floating MIN or MAX of
the start value alone is that value as VFMIN gives it, flushed or made canonical (R182, R184). -/
def reduce (op : RedOp) (f : Fmt) (ftz : Bool) (start : Nat) (xs : List Nat) : Res :=
  if isFloat f && op == .add then
    ((start :: xs).foldl (fun (t : ExactSum) x => t.add (readF f ftz x)) {}).round f .rne false ftz
  else if isFloat f && xs.isEmpty && (op == .min || op == .max) then minmaxF f (op == .max) (readF f ftz start) (readF f ftz start)
  else xs.foldl (redStep op f ftz) (start, 0)

/-- VRED (R204): element 0 of Vd, whenever VSTART < VL. -/
def vecRed (op : RedOp) (o : HT32V) (s : State) : Host.Outcome State Fault Refusal :=
  finish (whole (do
    let n ← countOf o.group o.fmt
    checkLength n
    let mask ← govMask o.mask
    openOperands [srcA o, srcB o] [dstD o]
    let x ← getCur
    let act := activeList x.vstart.toNat x.vl.toNat mask
    if x.vstart.toNat < x.vl.toNat then
      guardWhole [srcA o] act
      guardWhole [srcB o] [0]
      let a ← readOperand (srcA o)
      let b ← readOperand (srcB o)
      let old ← readDest (dstD o) false
      let w := o.fmt.width
      let r := reduce op o.fmt x.ftz (elemAt w b 0) (act.map (elemAt w a))
      writeDest (dstD o) (putElem w old 0 r.1)
      raiseFlags r.2
    else pure ()
    clearVstart)) s

/-- VSCAN (R204): each active element gets the reduction up to it. -/
def vecScan (op : RedOp) (o : HT32V) (s : State) : Host.Outcome State Fault Refusal :=
  finish (whole (do
    let n ← countOf o.group o.fmt
    checkLength n
    let mask ← govMask o.mask
    openOperands [srcA o, srcB o] [dstD o]
    let x ← getCur
    let act := activeList x.vstart.toNat x.vl.toNat mask
    guardWhole [srcA o] act
    guardWhole [srcB o] (if act.isEmpty then [] else [0])
    let a ← readOperand (srcA o)
    let b ← readOperand (srcB o)
    let old ← readDest (dstD o) false
    let w := o.fmt.width
    let (v, fl) := foldElems w (fun e => reduce op o.fmt x.ftz (elemAt w b 0) ((act.filter fun k => decide (k ≤ e)).map (elemAt w a))) act old 0
    writeResult (dstD o) v
    raiseFlags fl
    clearVstart)) s

def execVredAdd (o : HT32V) (s : State) : Host.Outcome State Fault Refusal := vecRed .add o s
def execVredMin (o : HT32V) (s : State) : Host.Outcome State Fault Refusal := vecRed .min o s
def execVredMax (o : HT32V) (s : State) : Host.Outcome State Fault Refusal := vecRed .max o s
def execVredAnd (o : HT32V) (s : State) : Host.Outcome State Fault Refusal := vecRed .and o s
def execVredOr (o : HT32V) (s : State) : Host.Outcome State Fault Refusal := vecRed .or o s
def execVredXor (o : HT32V) (s : State) : Host.Outcome State Fault Refusal := vecRed .xor o s
def execVscanAdd (o : HT32V) (s : State) : Host.Outcome State Fault Refusal := vecScan .add o s
def execVscanMin (o : HT32V) (s : State) : Host.Outcome State Fault Refusal := vecScan .min o s
def execVscanMax (o : HT32V) (s : State) : Host.Outcome State Fault Refusal := vecScan .max o s
def execVscanAnd (o : HT32V) (s : State) : Host.Outcome State Fault Refusal := vecScan .and o s
def execVscanOr (o : HT32V) (s : State) : Host.Outcome State Fault Refusal := vecScan .or o s
def execVscanXor (o : HT32V) (s : State) : Host.Outcome State Fault Refusal := vecScan .xor o s

/-- An instruction whose elements come from other places of Va: `reads` lists the elements of Va it reads. -/
def vecGather (srcs : List Operand) (reads : Nat → List Nat → List Nat → List Nat) (f : Nat → List Nat → Nat → Nat → Nat)
    (o : HT32V) (s : State) : Host.Outcome State Fault Refusal :=
  finish (whole (do
    let n ← countOf o.group o.fmt
    checkLength n
    let mask ← govMask o.mask
    openOperands srcs [dstD o]
    let x ← getCur
    let act := activeList x.vstart.toNat x.vl.toNat mask
    let vals ← srcs.mapM readOperand
    guardWhole (srcs.drop 1) act
    guardWhole (srcs.take 1) (reads n vals act)
    let old ← readDest (dstD o) false
    let (v, _) := foldElems o.fmt.width (fun e => (f n vals old e, 0)) act old 0
    writeResult (dstD o) v
    clearVstart)) s

/-- VPERM (Table 13.5). -/
def execVperm (o : HT32V) (s : State) : Host.Outcome State Fault Refusal :=
  let w := o.fmt.width
  vecGather [srcA o, srcB o] (fun n vs act => (act.map fun e => elemAt w (val vs 1) e).filter fun i => decide (i < n))
    (fun n vs _ e => let i := elemAt w (val vs 1) e; if i < n then elemAt w (val vs 0) i else 0) o s

/-- VSLIDE.UP (R206): elements below the distance keep their values. -/
def execVslideUp (o : HT32V) (s : State) : Host.Outcome State Fault Refusal :=
  let w := o.fmt.width
  let d := (s.cur.getS o.b.val).toNat
  vecGather [srcA o] (fun _ _ act => (act.filter fun e => decide (d ≤ e)).map fun e => e - d)
    (fun _ vs old e => if d ≤ e then elemAt w (val vs 0) (e - d) else elemAt w old e) o s

/-- VSLIDE.DOWN (R206). -/
def execVslideDown (o : HT32V) (s : State) : Host.Outcome State Fault Refusal :=
  let w := o.fmt.width
  let d := (s.cur.getS o.b.val).toNat
  vecGather [srcA o] (fun n _ act => (act.map fun e => e + d).filter fun i => decide (i < n))
    (fun n vs _ e => if e + d < n then elemAt w (val vs 0) (e + d) else 0) o s

/-- VPERMW (R205): the window of a kind-0 binding that VLDW fills; E is that of the format that filled the entry (R148). -/
def execVpermw (o : HT32V) (s : State) : Host.Outcome State Fault Refusal :=
  finish (whole (do
    let s0 ← get
    let n := s0.numElems o.group.size 64
    checkLength n
    let mask ← govMask o.mask
    let w := o.fmt.width
    match s0.cur.bind o.a.val with
    | none => trap Cause.stream
    | some b =>
      trapIf (b.kind != 0) Cause.stream
      let src : Operand := ⟨o.a.val, b.grp.size, w⟩
      let idx : Operand := ⟨o.b.val, o.group.size, 64⟩
      let dst := mixedOperand o.d.val o.group o.fmt .i64
      openOperands [src, idx] [dst]
      let x ← getCur
      match (x.bind o.a.val).bind fun b => b.tag.map fun t => (t, b.tagWidth) with
      | none => trap Cause.stream
      | some (tag, tw) =>
        let act := activeList x.vstart.toNat x.vl.toNat mask
        guardWhole [idx] act
        let a ← readOperand src
        let ix ← readOperand idx
        let e0 := s0.regBits * b.grp.size / tw
        let off (e : Nat) : Int := (BitVec.ofNat 64 (elemAt 64 ix e)).toInt - tag.toInt
        trapIf (act.any fun e => off e % (w / 8 : Nat) != 0) Cause.stream
        let hit (e : Nat) : Bool := decide (0 ≤ off e) && decide (off e < (e0 * (w / 8) : Nat))
        let elem (e : Nat) : Nat := (off e).toNat / (w / 8)
        let hits := act.filter hit
        guardWhole [src] (hits.map elem)
        let old ← readDest dst false
        let (v, _) := foldElems w (fun e => (elemAt w a (elem e), 0)) hits old 0
        writeResult dst v
        let (m, _) := foldBits (fun e => (!hit e, 0)) act (x.getM o.mask.val).toNat 0
        writeMask o.mask.val m
        clearVstart)) s

/-- VCOMP (R206): the selected elements packed from element 0, zeros after them up to VL. -/
def execVcomp (o : HT32V) (s : State) : Host.Outcome State Fault Refusal :=
  finish (whole (do
    let n ← countOf o.group o.fmt
    checkLength n
    let mask ← govMask o.mask
    openOperands [srcA o] [dstD o] true
    let x ← getCur
    let sel := activeList 0 x.vl.toNat mask
    guardWhole [srcA o] sel
    let a ← readOperand (srcA o)
    let old ← readDest (dstD o) false
    let w := o.fmt.width
    let (v, _) := foldElems w (fun j => (match sel[j]? with | some e => elemAt w a e | none => 0, 0)) (List.range x.vl.toNat) old 0
    writeDest (dstD o) v
    clearVstart)) s

/-- VEXPD (R206): the elements of Va in order into the selected places. -/
def execVexpd (o : HT32V) (s : State) : Host.Outcome State Fault Refusal :=
  finish (whole (do
    let n ← countOf o.group o.fmt
    checkLength n
    let mask ← govMask o.mask
    openOperands [srcA o] [dstD o] true
    let x ← getCur
    let sel := activeList 0 x.vl.toNat mask
    guardWhole [srcA o] (List.range sel.length)
    let a ← readOperand (srcA o)
    let old ← readDest (dstD o) false
    let w := o.fmt.width
    let (v, _) := foldElems w (fun e => (elemAt w a (sel.idxOf e), 0)) sel old 0
    writeDest (dstD o) v
    clearVstart)) s

/-- An instruction with no vector source. -/
def vecGen (f : Nat → Nat) (o : HT32V) (s : State) : Host.Outcome State Fault Refusal :=
  finish (do
    let n ← countOf o.group o.fmt
    let m ← govMask o.mask
    elementwise n m [] (dstD o) fun _ _ e => (f e % 2 ^ o.fmt.width, 0)) s

def execVid (o : HT32V) (s : State) : Host.Outcome State Fault Refusal := vecGen (fun e => e) o s
def execVsplat (o : HT32V) (s : State) : Host.Outcome State Fault Refusal := vecGen (fun _ => (s.cur.getS o.a.val).toNat) o s
def execVmv (o : HT32V) (s : State) : Host.Outcome State Fault Refusal := vecUn (fun _ a => (a, 0)) o s

/-- VMVS to a scalar (R207): signed formats sign-extend, the others zero-extend; 0 at or above N. -/
def execVmvsToScalar (o : HT32V) (s : State) : Host.Outcome State Fault Refusal :=
  finish (whole (do
    let n ← countOf o.group o.fmt
    let i := (s.cur.getS o.b.val).toNat
    openOperands [srcA o] []
    guardWhole [srcA o] (if i < n then [i] else [])
    let a ← readOperand (srcA o)
    let e := elemAt o.fmt.width a i
    let r : BitVec 64 := if n ≤ i then 0
      else if isFloat o.fmt then BitVec.ofNat 64 e else BitVec.ofInt 64 (decodeI o.fmt e)
    modCur fun x => x.setS o.d.val r)) s

/-- VMVS to a vector (R207): nothing is written at or above N. -/
def execVmvsToVector (o : HT32V) (s : State) : Host.Outcome State Fault Refusal :=
  finish (whole (do
    let n ← countOf o.group o.fmt
    let i := (s.cur.getS o.b.val).toNat
    openOperands [] [dstD o] true
    if n ≤ i then pure ()
    else
      let old ← readDest (dstD o) false
      writeDest (dstD o) (putElem o.fmt.width old i ((s.cur.getS o.a.val).toNat)))) s

/-- The carry-less product of two numbers of n bits. -/
def clmul (a b : Nat) : (n : Nat) → Nat
  | 0 => 0
  | n + 1 => (if b.testBit n then a * 2 ^ n else 0) ^^^ clmul a b n

def execVclmul (o : HT32V) (s : State) : Host.Outcome State Fault Refusal :=
  vecBin (fun f a b _ => (clmul a b f.width % 2 ^ f.width, 0)) o s
def execVclmulh (o : HT32V) (s : State) : Host.Outcome State Fault Refusal :=
  vecBin (fun f a b _ => (clmul a b f.width / 2 ^ f.width, 0)) o s
def execVpopc (o : HT32V) (s : State) : Host.Outcome State Fault Refusal := vecUn (fun f a => (popBits a f.width, 0)) o s
def execVfirst (o : HT32V) (s : State) : Host.Outcome State Fault Refusal :=
  vecUn (fun f a => ((lowestBit a f.width).getD f.width, 0)) o s

/-- Mix (R208, Table 13.6). -/
def mixStep (x k : BitVec 64) (h : Nat) : BitVec 64 := let y := x * k; y ^^^ (y >>> h)
def mix (key ctr : BitVec 64) : BitVec 64 :=
  mixStep (mixStep (mixStep (mixStep (key ^^^ ctr) 0xA3B195354A39B70D 31) 0x8F4E1C2BD9A763E5 27) 0xD1B54A32D192ED03 33) 0xB7E151628AED2A6B 29

/-- VRAND (R208). -/
def execVrand (o : HT32V) (s : State) : Host.Outcome State Fault Refusal :=
  vecGen (fun e => (mix (s.cur.getS o.a.val) (s.cur.getS o.b.val + BitVec.ofNat 64 e)).toNat) o s

end Sys2Proof.Machine
end

