-- ==== Sys2Proof/Machine/Dispatch.lean ====
section
/-! DEFINITION. One arm per constructor of Instr, each one direct call of its meaning. -/

namespace Sys2Proof.Machine

def exec (i : Instr) (s : State) : Host.Outcome State Fault Refusal :=
  match i with
  | .nop => Sys2Proof.Machine.execNop s
  | .halt => Sys2Proof.Machine.execHalt s
  | .rdv => Sys2Proof.Machine.execRdv s
  | .brk => Sys2Proof.Machine.execBrk s
  | .yield => Sys2Proof.Machine.execYield s
  | .fence => Sys2Proof.Machine.execFence s
  | .hint => Sys2Proof.Machine.execHint s
  | .hintMajor3E => Sys2Proof.Machine.execHintMajor3E s
  | .bararr o => Sys2Proof.Machine.execBararr o s
  | .barexp o => Sys2Proof.Machine.execBarexp o s
  | .barwait o => Sys2Proof.Machine.execBarwait o s
  | .bar o => Sys2Proof.Machine.execBar o s
  | .qput o => Sys2Proof.Machine.execQput o s
  | .qget o => Sys2Proof.Machine.execQget o s
  | .qdrainA o => Sys2Proof.Machine.execQdrainA o s
  | .qdrainX o => Sys2Proof.Machine.execQdrainX o s
  | .bqput o => Sys2Proof.Machine.execBqput o s
  | .fork o => Sys2Proof.Machine.execFork o s
  | .wset o => Sys2Proof.Machine.execWset o s
  | .wwait o => Sys2Proof.Machine.execWwait o s
  | .wget o => Sys2Proof.Machine.execWget o s
  | .wfree o => Sys2Proof.Machine.execWfree o s
  | .copy o => Sys2Proof.Machine.execCopy o s
  | .copyres o => Sys2Proof.Machine.execCopyres o s
  | .copycan o => Sys2Proof.Machine.execCopycan o s
  | .add o => Sys2Proof.Machine.execAdd o s
  | .sub o => Sys2Proof.Machine.execSub o s
  | .and o => Sys2Proof.Machine.execAnd o s
  | .or o => Sys2Proof.Machine.execOr o s
  | .xor o => Sys2Proof.Machine.execXor o s
  | .sll o => Sys2Proof.Machine.execSll o s
  | .srl o => Sys2Proof.Machine.execSrl o s
  | .sra o => Sys2Proof.Machine.execSra o s
  | .mul o => Sys2Proof.Machine.execMul o s
  | .mulh o => Sys2Proof.Machine.execMulh o s
  | .mulhn o => Sys2Proof.Machine.execMulhn o s
  | .div o => Sys2Proof.Machine.execDiv o s
  | .divn o => Sys2Proof.Machine.execDivn o s
  | .rem o => Sys2Proof.Machine.execRem o s
  | .remn o => Sys2Proof.Machine.execRemn o s
  | .min o => Sys2Proof.Machine.execMin o s
  | .max o => Sys2Proof.Machine.execMax o s
  | .minn o => Sys2Proof.Machine.execMinn o s
  | .maxn o => Sys2Proof.Machine.execMaxn o s
  | .slt o => Sys2Proof.Machine.execSlt o s
  | .sltn o => Sys2Proof.Machine.execSltn o s
  | .mov o => Sys2Proof.Machine.execMov o s
  | .clz o => Sys2Proof.Machine.execClz o s
  | .popc o => Sys2Proof.Machine.execPopc o s
  | .jr o => Sys2Proof.Machine.execJr o s
  | .addi o => Sys2Proof.Machine.execAddi o s
  | .andi o => Sys2Proof.Machine.execAndi o s
  | .ori o => Sys2Proof.Machine.execOri o s
  | .xori o => Sys2Proof.Machine.execXori o s
  | .slli o => Sys2Proof.Machine.execSlli o s
  | .srli o => Sys2Proof.Machine.execSrli o s
  | .srai o => Sys2Proof.Machine.execSrai o s
  | .ctlr o => Sys2Proof.Machine.execCtlr o s
  | .ctlw o => Sys2Proof.Machine.execCtlw o s
  | .svcall o => Sys2Proof.Machine.execSvcall o s
  | .trap o => Sys2Proof.Machine.execTrap o s
  | .featq o => Sys2Proof.Machine.execFeatq o s
  | .limm o => Sys2Proof.Machine.execLimm o s
  | .jmp o => Sys2Proof.Machine.execJmp o s
  | .jal o => Sys2Proof.Machine.execJal o s
  | .loop o => Sys2Proof.Machine.execLoop o s
  | .beq o => Sys2Proof.Machine.execBeq o s
  | .bne o => Sys2Proof.Machine.execBne o s
  | .blt o => Sys2Proof.Machine.execBlt o s
  | .bge o => Sys2Proof.Machine.execBge o s
  | .bltn o => Sys2Proof.Machine.execBltn o s
  | .bgen o => Sys2Proof.Machine.execBgen o s
  | .bq o => Sys2Proof.Machine.execBq o s
  | .ldb o => Sys2Proof.Machine.execLdb o s
  | .ldh o => Sys2Proof.Machine.execLdh o s
  | .ldw o => Sys2Proof.Machine.execLdw o s
  | .ldd o => Sys2Proof.Machine.execLdd o s
  | .ldbn o => Sys2Proof.Machine.execLdbn o s
  | .ldhn o => Sys2Proof.Machine.execLdhn o s
  | .ldwn o => Sys2Proof.Machine.execLdwn o s
  | .stb o => Sys2Proof.Machine.execStb o s
  | .sth o => Sys2Proof.Machine.execSth o s
  | .stw o => Sys2Proof.Machine.execStw o s
  | .std o => Sys2Proof.Machine.execStd o s
  | .waiteq o => Sys2Proof.Machine.execWaiteq o s
  | .waitne o => Sys2Proof.Machine.execWaitne o s
  | .amoadd o => Sys2Proof.Machine.execAmoadd o s
  | .amomin o => Sys2Proof.Machine.execAmomin o s
  | .amomax o => Sys2Proof.Machine.execAmomax o s
  | .amoand o => Sys2Proof.Machine.execAmoand o s
  | .amoor o => Sys2Proof.Machine.execAmoor o s
  | .amoswp o => Sys2Proof.Machine.execAmoswp o s
  | .amocas o => Sys2Proof.Machine.execAmocas o s
  | .sbind o => Sys2Proof.Machine.execSbind o s
  | .sfree o => Sys2Proof.Machine.execSfree o s
  | .sskip o => Sys2Proof.Machine.execSskip o s
  | .sstat o => Sys2Proof.Machine.execSstat o s
  | .copyq o => Sys2Proof.Machine.execCopyq o s
  | .rule o => Sys2Proof.Machine.execRule o s
  | .rbase o => Sys2Proof.Machine.execRbase o s
  | .spmap o => Sys2Proof.Machine.execSpmap o s
  | .spunmap o => Sys2Proof.Machine.execSpunmap o s
  | .spflush o => Sys2Proof.Machine.execSpflush o s
  | .spinv o => Sys2Proof.Machine.execSpinv o s
  | .qjoin o => Sys2Proof.Machine.execQjoin o s
  | .qleave o => Sys2Proof.Machine.execQleave o s
  | .mand o => Sys2Proof.Machine.execMand o s
  | .mor o => Sys2Proof.Machine.execMor o s
  | .mxor o => Sys2Proof.Machine.execMxor o s
  | .mnot o => Sys2Proof.Machine.execMnot o s
  | .mpopc o => Sys2Proof.Machine.execMpopc o s
  | .mfirst o => Sys2Proof.Machine.execMfirst o s
  | .mset o => Sys2Proof.Machine.execMset o s
  | .vadd o => Sys2Proof.Machine.execVadd o s
  | .vsub o => Sys2Proof.Machine.execVsub o s
  | .vmul o => Sys2Proof.Machine.execVmul o s
  | .vmulh o => Sys2Proof.Machine.execVmulh o s
  | .vmacc o => Sys2Proof.Machine.execVmacc o s
  | .vadds o => Sys2Proof.Machine.execVadds o s
  | .vsubs o => Sys2Proof.Machine.execVsubs o s
  | .vavg o => Sys2Proof.Machine.execVavg o s
  | .vabs o => Sys2Proof.Machine.execVabs o s
  | .vneg o => Sys2Proof.Machine.execVneg o s
  | .vmin o => Sys2Proof.Machine.execVmin o s
  | .vmax o => Sys2Proof.Machine.execVmax o s
  | .vand o => Sys2Proof.Machine.execVand o s
  | .vor o => Sys2Proof.Machine.execVor o s
  | .vxor o => Sys2Proof.Machine.execVxor o s
  | .vnot o => Sys2Proof.Machine.execVnot o s
  | .vsll o => Sys2Proof.Machine.execVsll o s
  | .vsrl o => Sys2Proof.Machine.execVsrl o s
  | .vsra o => Sys2Proof.Machine.execVsra o s
  | .vrot o => Sys2Proof.Machine.execVrot o s
  | .vcmpEqInt o => Sys2Proof.Machine.execVcmpEqInt o s
  | .vcmpNeInt o => Sys2Proof.Machine.execVcmpNeInt o s
  | .vcmpLtInt o => Sys2Proof.Machine.execVcmpLtInt o s
  | .vcmpGeInt o => Sys2Proof.Machine.execVcmpGeInt o s
  | .vsel o => Sys2Proof.Machine.execVsel o s
  | .vfadd o => Sys2Proof.Machine.execVfadd o s
  | .vfsub o => Sys2Proof.Machine.execVfsub o s
  | .vfmul o => Sys2Proof.Machine.execVfmul o s
  | .vfma o => Sys2Proof.Machine.execVfma o s
  | .vfms o => Sys2Proof.Machine.execVfms o s
  | .vfnma o => Sys2Proof.Machine.execVfnma o s
  | .vfdiv o => Sys2Proof.Machine.execVfdiv o s
  | .vfsqrt o => Sys2Proof.Machine.execVfsqrt o s
  | .vfrcp o => Sys2Proof.Machine.execVfrcp o s
  | .vfrsq o => Sys2Proof.Machine.execVfrsq o s
  | .vfexp2 o => Sys2Proof.Machine.execVfexp2 o s
  | .vflog2 o => Sys2Proof.Machine.execVflog2 o s
  | .vfmin o => Sys2Proof.Machine.execVfmin o s
  | .vfmax o => Sys2Proof.Machine.execVfmax o s
  | .vfabs o => Sys2Proof.Machine.execVfabs o s
  | .vfneg o => Sys2Proof.Machine.execVfneg o s
  | .vfclass o => Sys2Proof.Machine.execVfclass o s
  | .vcmpEqFp o => Sys2Proof.Machine.execVcmpEqFp o s
  | .vcmpNeFp o => Sys2Proof.Machine.execVcmpNeFp o s
  | .vcmpLtFp o => Sys2Proof.Machine.execVcmpLtFp o s
  | .vcmpGeFp o => Sys2Proof.Machine.execVcmpGeFp o s
  | .vcvt o => Sys2Proof.Machine.execVcvt o s
  | .vqmarg o => Sys2Proof.Machine.execVqmarg o s
  | .vqmargClamp o => Sys2Proof.Machine.execVqmargClamp o s
  | .vdq o => Sys2Proof.Machine.execVdq o s
  | .vscale o => Sys2Proof.Machine.execVscale o s
  | .vredAdd o => Sys2Proof.Machine.execVredAdd o s
  | .vredMin o => Sys2Proof.Machine.execVredMin o s
  | .vredMax o => Sys2Proof.Machine.execVredMax o s
  | .vredAnd o => Sys2Proof.Machine.execVredAnd o s
  | .vredOr o => Sys2Proof.Machine.execVredOr o s
  | .vredXor o => Sys2Proof.Machine.execVredXor o s
  | .vscanAdd o => Sys2Proof.Machine.execVscanAdd o s
  | .vscanMin o => Sys2Proof.Machine.execVscanMin o s
  | .vscanMax o => Sys2Proof.Machine.execVscanMax o s
  | .vscanAnd o => Sys2Proof.Machine.execVscanAnd o s
  | .vscanOr o => Sys2Proof.Machine.execVscanOr o s
  | .vscanXor o => Sys2Proof.Machine.execVscanXor o s
  | .vperm o => Sys2Proof.Machine.execVperm o s
  | .vpermw o => Sys2Proof.Machine.execVpermw o s
  | .vslideUp o => Sys2Proof.Machine.execVslideUp o s
  | .vslideDown o => Sys2Proof.Machine.execVslideDown o s
  | .vcomp o => Sys2Proof.Machine.execVcomp o s
  | .vexpd o => Sys2Proof.Machine.execVexpd o s
  | .vid o => Sys2Proof.Machine.execVid o s
  | .vsplat o => Sys2Proof.Machine.execVsplat o s
  | .vmv o => Sys2Proof.Machine.execVmv o s
  | .vmvsToScalar o => Sys2Proof.Machine.execVmvsToScalar o s
  | .vmvsToVector o => Sys2Proof.Machine.execVmvsToVector o s
  | .vclmul o => Sys2Proof.Machine.execVclmul o s
  | .vclmulh o => Sys2Proof.Machine.execVclmulh o s
  | .vpopc o => Sys2Proof.Machine.execVpopc o s
  | .vfirst o => Sys2Proof.Machine.execVfirst o s
  | .vrand o => Sys2Proof.Machine.execVrand o s
  | .tfrom o => Sys2Proof.Machine.execTfrom o s
  | .tto o => Sys2Proof.Machine.execTto o s
  | .tup o => Sys2Proof.Machine.execTup o s
  | .tdown o => Sys2Proof.Machine.execTdown o s
  | .tbcast o => Sys2Proof.Machine.execTbcast o s
  | .tbcastRoot o => Sys2Proof.Machine.execTbcastRoot o s
  | .tdepth o => Sys2Proof.Machine.execTdepth o s
  | .tanc o => Sys2Proof.Machine.execTanc o s
  | .tancIsa o => Sys2Proof.Machine.execTancIsa o s
  | .troot o => Sys2Proof.Machine.execTroot o s
  | .tcontr o => Sys2Proof.Machine.execTcontr o s
  | .tchk o => Sys2Proof.Machine.execTchk o s
  | .mrow o => Sys2Proof.Machine.execMrow o s
  | .mrowz o => Sys2Proof.Machine.execMrowz o s
  | .mdrain o => Sys2Proof.Machine.execMdrain o s
  | .mclr o => Sys2Proof.Machine.execMclr o s
  | .mstat o => Sys2Proof.Machine.execMstat o s
  | .mrldff o => Sys2Proof.Machine.execMrldff o s
  | .mtload o => Sys2Proof.Machine.execMtload o s
  | .mtloadq o => Sys2Proof.Machine.execMtloadq o s
  | .cbload o => Sys2Proof.Machine.execCbload o s
  | .vldp o => Sys2Proof.Machine.execVldp o s
  | .vstp o => Sys2Proof.Machine.execVstp o s
  | .vld o => Sys2Proof.Machine.execVld o s
  | .vlds o => Sys2Proof.Machine.execVlds o s
  | .vldff o => Sys2Proof.Machine.execVldff o s
  | .vldw o => Sys2Proof.Machine.execVldw o s
  | .vldch o => Sys2Proof.Machine.execVldch o s
  | .vldx o => Sys2Proof.Machine.execVldx o s
  | .vldt o => Sys2Proof.Machine.execVldt o s
  | .vstx o => Sys2Proof.Machine.execVstx o s
  | .vaacc o => Sys2Proof.Machine.execVaacc o s
  | .vst o => Sys2Proof.Machine.execVst o s
  | .vsts o => Sys2Proof.Machine.execVsts o s
  | .awin o => Sys2Proof.Machine.execAwin o s
  | .amerge => Sys2Proof.Machine.execAmerge s
  | .vwaitf o => Sys2Proof.Machine.execVwaitf o s
  | .kins o => Sys2Proof.Machine.execKins o s
  | .klook o => Sys2Proof.Machine.execKlook o s
  | .kacc o => Sys2Proof.Machine.execKacc o s
  | .kdrain o => Sys2Proof.Machine.execKdrain o s
  | .kclr => Sys2Proof.Machine.execKclr s
  | .gmmask o => Sys2Proof.Machine.execGmmask o s
  | .kvmap o => Sys2Proof.Machine.execKvmap o s
  | .kvxl o => Sys2Proof.Machine.execKvxl o s
  | .kvapp o => Sys2Proof.Machine.execKvapp o s
  | .kvtrunc o => Sys2Proof.Machine.execKvtrunc o s
  | .fpop o => Sys2Proof.Machine.execFpop o s
  | .fpush o => Sys2Proof.Machine.execFpush o s
  | .fpcnt o => Sys2Proof.Machine.execFpcnt o s
  | .sqpush o => Sys2Proof.Machine.execSqpush o s
  | .sqpop o => Sys2Proof.Machine.execSqpop o s
  | .sqcnt o => Sys2Proof.Machine.execSqcnt o s
  | .vocswap o => Sys2Proof.Machine.execVocswap o s
  | .blapp o => Sys2Proof.Machine.execBlapp o s
  | .blread o => Sys2Proof.Machine.execBlread o s
  | .blrel o => Sys2Proof.Machine.execBlrel o s
  | .blveto o => Sys2Proof.Machine.execBlveto o s
  | .gmstep o => Sys2Proof.Machine.execGmstep o s
  | .gmreset o => Sys2Proof.Machine.execGmreset o s
  | .flpost o => Sys2Proof.Machine.execFlpost o s
  | .flpoll o => Sys2Proof.Machine.execFlpoll o s
  | .textFrameRequest => Sys2Proof.Machine.execTextFrameRequest s
  | .textFrameContinuation => Sys2Proof.Machine.execTextFrameContinuation s
  | .textFrameCancel => Sys2Proof.Machine.execTextFrameCancel s
  | .ligaturePush => Sys2Proof.Machine.execLigaturePush s
  | .scribeEmit => Sys2Proof.Machine.execScribeEmit s
  | .pageWalk => Sys2Proof.Machine.execPageWalk s
  | .invalidation => Sys2Proof.Machine.execInvalidation s
  | .invalidationDone => Sys2Proof.Machine.execInvalidationDone s
  | .keySlotLoad => Sys2Proof.Machine.execKeySlotLoad s
  | .keySlotClear => Sys2Proof.Machine.execKeySlotClear s
  | .folioPoolEnable => Sys2Proof.Machine.execFolioPoolEnable s
  | .folioReserveSet => Sys2Proof.Machine.execFolioReserveSet s
  | .folioPoolDisable => Sys2Proof.Machine.execFolioPoolDisable s
  | .folioListsDiscard => Sys2Proof.Machine.execFolioListsDiscard s
  | .mailboxRequest => Sys2Proof.Machine.execMailboxRequest s
  | .promotionComplete => Sys2Proof.Machine.execPromotionComplete s
  | .copyIteration => Sys2Proof.Machine.execCopyIteration s
  | .copyFaultRecordPending => Sys2Proof.Machine.execCopyFaultRecordPending s
  | .cpctlResume => Sys2Proof.Machine.execCpctlResume s
  | .cpctlCancel => Sys2Proof.Machine.execCpctlCancel s
  | .copyqDelivery => Sys2Proof.Machine.execCopyqDelivery s
  | .streamFill => Sys2Proof.Machine.execStreamFill s
  | .mrldffRowFill => Sys2Proof.Machine.execMrldffRowFill s
  | .tileShadowSwap => Sys2Proof.Machine.execTileShadowSwap s
  | .waitLimitExpiry => Sys2Proof.Machine.execWaitLimitExpiry s
  | .barrierEnable => Sys2Proof.Machine.execBarrierEnable s
  | .barrierDisable => Sys2Proof.Machine.execBarrierDisable s
  | .podBarrierMessage => Sys2Proof.Machine.execPodBarrierMessage s
  | .podPhaseMessage => Sys2Proof.Machine.execPodPhaseMessage s
  | .blotterRingEnable => Sys2Proof.Machine.execBlotterRingEnable s
  | .blotterRingDisable => Sys2Proof.Machine.execBlotterRingDisable s
  | .stencilContextControl => Sys2Proof.Machine.execStencilContextControl s
  | .pipelineInstall => Sys2Proof.Machine.execPipelineInstall s
  | .pipelineDrain => Sys2Proof.Machine.execPipelineDrain s
  | .launchDispatch => Sys2Proof.Machine.execLaunchDispatch s
  | .queueTaskStart => Sys2Proof.Machine.execQueueTaskStart s
  | .balancerSample => Sys2Proof.Machine.execBalancerSample s
  | .launchPriorityPreempt => Sys2Proof.Machine.execLaunchPriorityPreempt s
  | .preempt => Sys2Proof.Machine.execPreempt s
  | .hartSwapOut => Sys2Proof.Machine.execHartSwapOut s
  | .resume => Sys2Proof.Machine.execResume s
  | .resumeAfter => Sys2Proof.Machine.execResumeAfter s
  | .force => Sys2Proof.Machine.execForce s
  | .cancel => Sys2Proof.Machine.execCancel s
  | .unfreezeEngine => Sys2Proof.Machine.execUnfreezeEngine s
  | .dropEngineOperation => Sys2Proof.Machine.execDropEngineOperation s
  | .flashRingEnable => Sys2Proof.Machine.execFlashRingEnable s
  | .flashRingDisable => Sys2Proof.Machine.execFlashRingDisable s
  | .flashRequestComplete => Sys2Proof.Machine.execFlashRequestComplete s
  | .networkReceive => Sys2Proof.Machine.execNetworkReceive s
  | .hostCxlMemWrite => Sys2Proof.Machine.execHostCxlMemWrite s
  | .hostCxlMemRead => Sys2Proof.Machine.execHostCxlMemRead s
  | .spareCoreSwap => Sys2Proof.Machine.execSpareCoreSwap s
  | .spareLigatureSwap => Sys2Proof.Machine.execSpareLigatureSwap s
  | .spareScribeSwap => Sys2Proof.Machine.execSpareScribeSwap s
  | .spareSwapDone => Sys2Proof.Machine.execSpareSwapDone s
  | .laneRetraining => Sys2Proof.Machine.execLaneRetraining s
  | .eventCounterWrap => Sys2Proof.Machine.execEventCounterWrap s
  | .powerSample => Sys2Proof.Machine.execPowerSample s
  | .thermalLimit => Sys2Proof.Machine.execThermalLimit s
  | .thermalShutdown => Sys2Proof.Machine.execThermalShutdown s
  | .reset => Sys2Proof.Machine.execReset s
  | .registerWrite => Sys2Proof.Machine.execRegisterWrite s
  | .reservedEncoding => Sys2Proof.Machine.execReservedEncoding s
  | .lineFormat => Sys2Proof.Machine.execLineFormat s
  | .lineFetchFault => Sys2Proof.Machine.execLineFetchFault s
  | .ingressErrorFrame => Sys2Proof.Machine.execIngressErrorFrame s
  | .promotionRequest => Sys2Proof.Machine.execPromotionRequest s
  | .supervisorAccess => Sys2Proof.Machine.execSupervisorAccess s
  | .coreKeptDegraded => Sys2Proof.Machine.execCoreKeptDegraded s
  | .softError => Sys2Proof.Machine.execSoftError s
  | .powerLoss => Sys2Proof.Machine.execPowerLoss s
  | .thermalLimitEnd => Sys2Proof.Machine.execThermalLimitEnd s

end Sys2Proof.Machine
end

