-- ==== Sys2Proof/Machine/Fetch.lean ====
section
/-! DEFINITION. Fetching: a stream's line, through its held copy or a translated read (R30, R35, R36), and what the PC
names in it (R31, R33). -/

namespace Sys2Proof.Machine

/-- The address of the line of a PC, and the head index (R33). -/
def lineOf (pc : BitVec 64) : BitVec 64 := (pc >>> 6) <<< 6
def headOf (pc : BitVec 64) : Nat := bits pc.toNat 1 5

/-- The PC of the next head position (R33). -/
def nextPc (pc : BitVec 64) : BitVec 64 := if headOf pc = 31 then lineOf pc + 64 else pc + 2

/-- The line that a stream holds serves its PC (R36): the line is one unit, kept until the stream leaves it; a `fresh` turn fetches anew
where the stream comes to its first head. -/
def StreamRec.holds (r : StreamRec) (fresh : Bool) : Option HeldLine :=
  r.line.filter fun l => l.addr == lineOf r.pc && !(fresh && headOf r.pc == 0 && r.wait.isNone)

/-- Reads n bytes of the line at `la`, from `off`, by a translated fetch of the stream in execution (R35). -/
def fetchBytes (la : BitVec 64) (off n : Nat) : Act (List Byte) := do
  let s ← get
  if !canonical la then faultAt Cause.nonCanonical la
  else
    let m ← translate s.curHart.die s.cur.asid la .fetch
    readPa (some m.key) (m.pa + off) n la

/-- Reads the line of the PC of the stream in execution (R35, R36): the held line, else a translated fetch, of the other sector where
one was fetched ahead; the stream then holds it. -/
def fetchLine : Act (List Byte) := do
  let s ← get
  let r := s.curSt
  let la := lineOf r.pc
  match r.holds s.fresh with
  | some l => return l.bytes
  | none =>
    let b ← match r.sector.filter fun x => x.addr == la with
      | none => fetchBytes la 0 64
      | some x => do
        let y ← fetchBytes la (if x.upper then 0 else 32) 32
        pure (if x.upper then y ++ x.bytes else x.bytes ++ y)
    modify fun s => s.setCurSt { s.curSt with line := some ⟨la, b⟩, sector := none }
    return b

/-- A sector of the line of the PC is fetched ahead of the other, where the line is not held (R36); a fault raises nothing (R35). -/
def fetchAhead (upper : Bool) : Act Unit := do
  let r := (← get).curSt
  let la := lineOf r.pc
  if (r.holds false).isSome then pure ()
  else
    let b ← fetchBytes la (if upper then 32 else 0) 32
    modify fun s => s.setCurSt { s.curSt with sector := some ⟨la, upper, b⟩ }

/-- What the fetch of the stream in execution gives. -/
inductive Fetched where
  /-- A head and tail with the PC that follows by fall-through. -/
  | head (hd tail : Nat) (next : BitVec 64)
  /-- The PC goes to head 0 of the next line, and nothing executes. -/
  | skip (next : BitVec 64)
  | badLine
  deriving DecidableEq, Repr

def fetch : Act Fetched := do
  let b ← fetchLine
  let pc := (← get).curSt.pc
  match slotted (scanLine b) (headOf pc) with
  | .head hd tail last => return .head hd tail (if last then lineOf pc + 64 else pc + 2)
  | .nextLine => return .skip (lineOf pc + 64)
  | .lineFormat => return .badLine

/-- The state in which an instruction executes: its head, its tail and its fall-through PC (R33); an A-stream issue lets X and C leave
the rendezvous (R283), but FORK itself sends them to its entries (R284). -/
def State.issue (s : State) (i : Instr) (hd tail : Nat) (next : BitVec 64) : State :=
  let s := { s with head := BitVec.ofNat 16 hd, tail := BitVec.ofNat 48 tail, fallPc := next }
  let isFork := match i with | .fork _ => true | _ => false
  if s.curStream = .a ∧ !isFork ∧ s.cur.met then
    (s.setCur s.cur.release).countHart s.curHart 0x01 2
  else s

/-- One cycle of a die's clock passes with a turn of one of its streams (R10; log 2). -/
def State.tick (s : State) (d : Fin 4) : State :=
  s.setDie d { s.die d with cycle := (s.die d).cycle + 1 }

/-- A stream of a hart may move: the hart holds a task and is not halted, and the stream runs (R278, R329). -/
def State.canRun (s : State) (h : HartId) (st : Stream) : Bool :=
  let x := s.hart h
  x.task.isSome && !x.halted && (x.st st).stat == .running

/-- The hart of a key of State.harts. -/
def hartOfKey (k : Nat) : HartId := ⟨Fin.ofNat 4 (k / 768), Fin.ofNat 96 (k / 8 % 96), Fin.ofNat 8 (k % 8)⟩
def coreOfKey (k : Nat) : CoreId := ⟨Fin.ofNat 4 (k / 96), Fin.ofNat 96 (k % 96)⟩

/-- The streams that may move, in key order. -/
def State.runnable (s : State) : List Turn :=
  s.harts.flatMap fun (k, _) =>
    ([Stream.a, .x, .c].filter fun t => s.canRun (hartOfKey k) t).map fun t => .run (hartOfKey k) t false

end Sys2Proof.Machine
end

