-- ==== Sys2Proof/Machine/Turns.lean ====
section
/-! DEFINITION. What the module's engines have to do of their own, when no agenda says what moves next (log 2). -/

namespace Sys2Proof.Machine

def turnOf (i : Instr) (r : Request) : Turn := .event i r

/-- Copies that can move and COPYQ entries that can be delivered (R134, R146). -/
def State.copyTurns (s : State) : List Turn :=
  s.cores.flatMap fun (k, c) =>
    let id := coreOfKey k
    c.wells.flatMap fun (h, w) =>
      match w.copy with
      | none => []
      | some cp =>
        if (s.activeCopy id h).isNone then []
        else
          (if cp.iter < cp.total then [turnOf .copyIteration { core := id, handle := Fin.ofNat 64 h }] else []) ++
          (if cp.dest.isSome then cp.members.filterMap fun t => (s.hartOfTask t).map fun m =>
            turnOf .copyqDelivery { core := id, handle := Fin.ofNat 64 h, hart := m } else [])

/-- Bindings that can be filled (R153, R239). -/
def State.fillTurns (s : State) : List Turn :=
  s.harts.flatMap fun (k, x) =>
    let h := hartOfKey k
    if !s.fillable h then []
    else x.bindings.flatMap fun (v, b) =>
      let r : Request := { hart := h, reg := Fin.ofNat 64 v }
      if !b.rows.isEmpty && (b.filling.isSome || b.room) then [turnOf .mrldffRowFill r]
      else if (b.kind == 1 || b.kind == 2) && (b.filling.isSome || (b.room && decide (b.cursor < b.total))) then [turnOf .streamFill r] else []

/-- A launch record of a die has a hart to start or resume on (R322). -/
def State.launchReady (s : State) (d : Fin 4) : Bool :=
  ([3, 2, 1, 0] : List Nat).any fun p => (s.firstReady d [] (tget [] (s.die d).launch p)).isSome

/-- What a core and a die have to do: tile swaps, held records, discarded lists, launches, samples, swap-outs. -/
def State.dieTurns (s : State) (d : Fin 4) : List Turn :=
  let x := s.die d
  let r : Request := { die := d }
  let (hs, fs) := s.retirements d
  (if !x.cfqHeld.isEmpty && x.cfqReady then [turnOf .copyFaultRecordPending r] else []) ++
  (if !x.fpEn && !x.free.isEmpty then [turnOf .folioListsDiscard r] else []) ++
  (if !hs.isEmpty || !fs.isEmpty || s.launchReady d then [turnOf .launchDispatch r] else []) ++
  (if 4096 * (x.samples + 1) ≤ x.cycle then [turnOf .balancerSample r] else []) ++
  (if ([3, 2, 1] : List Nat).any fun p => (tget [] x.launch p).any fun l => decide (2 ≤ l.waited) && (s.victim d p l).isSome then [turnOf .launchPriorityPreempt r] else [])

def State.coreTurns (s : State) : List Turn :=
  s.cores.filterMap fun (k, c) => if c.shadow.isSome then some (turnOf .tileShadowSwap { core := coreOfKey k }) else none

/-- Swap-outs, and tasks that queue entries start: a launch record takes its hart before a queue entry does (log 21). -/
def State.hartTurns (s : State) : List Turn :=
  (s.harts.filterMap fun (k, x) =>
    let h := hartOfKey k
    if x.leaving && (s.die h.die).freeSlot.isSome && (s.die h.die).noticeFree && (s.die h.die).nqHeld.isEmpty then some (turnOf .hartSwapOut { hart := h })
    else none) ++
  allDies.flatMap fun d => if s.launchReady d then [] else (s.die d).assign.filterMap fun (k, a) =>
    match a.stage with
    | some (slot, st) =>
      let h : HartId := ⟨d, Fin.ofNat 96 (k / 8), Fin.ofNat 8 (k % 8)⟩
      if (s.hart h).task.isNone && (s.hub.pipe slot).state == 1 && decide (s.waitingTasks d slot st < (s.hub.pipe slot).filled st) then
        some (turnOf .queueTaskStart { hart := h }) else none
    | none => none

/-- What the hub's engines have to do. -/
def State.hubTurns (s : State) : List Turn :=
  let h := s.hub
  (h.requests.filterMap fun r =>
    if r.ready || ((r.cancelled || r.eot || !r.pending.isEmpty) && s.queueRoom r.slot r.queue) then
      some (turnOf .ligaturePush { engine := r.engine, value := r.session }) else none) ++
  (h.cancels.filterMap fun c => if s.queueRoom c.slot c.queue then some (turnOf .ligaturePush { engine := c.engine, value := c.session }) else none) ++
  (h.rings.filterMap fun (k, r) => if r.en && !r.ended && decide (r.emit.toNat < r.rel.toNat) then some (turnOf .scribeEmit { ring := Fin.ofNat 8192 k }) else none) ++
  (h.flashRings.flatMap fun (k, r) => r.inflight.map fun q => turnOf .flashRequestComplete { fring := Fin.ofNat 256 k, tag := q.tag }) ++
  (h.inv.filterMap fun (k, p) => if p.done then none else some (turnOf .invalidationDone { port := Fin.ofNat 8 k })) ++
  (h.promotions.map fun p => turnOf .promotionComplete { promotion := p }) ++
  (if h.spreq.busy then [turnOf .spareSwapDone {}] else [])

/-- Every step that the module can make of itself: its runnable streams, then its engines. -/
def State.turns (s : State) : List Turn :=
  s.runnable ++ s.copyTurns ++ s.fillTurns ++ s.coreTurns ++ s.hartTurns ++ (allDies.flatMap s.dieTurns) ++ s.hubTurns

end Sys2Proof.Machine
end

