-- ==== Sys2Proof/Machine/Step.lean ====
section
/-! DEFINITION. One step of the module: the next turn of the agenda, or round robin when it is empty (log 2). -/

namespace Sys2Proof.Machine

/-- A turn of a stream: fetch, decode, execute (R30 to R36, R49); an invalidation may reach the core when `upto` pages of its vector
access are translated (R85). -/
def stepRun (h : HartId) (st : Stream) (fresh : Bool) (s : State) (upto : Option Nat := none) : Host.Outcome State Fault Refusal :=
  if s.canRun h st then
    let s := { s.tick h.die with curHart := h, curStream := st, fresh := fresh, upto := upto, fallPc := nextPc ((s.hart h).st st).pc }
    match fetch s with
    | (.ok (.head hd tail next), s) =>
      match decodeHead st s.curCore.harts.toNat hd tail with
      | some i => exec i (s.issue i hd tail next)
      | none => exec .reservedEncoding (s.issue .reservedEncoding hd tail next)
    | (.ok (.skip next), s) => .next (s.setCurSt { s.curSt with pc := next })
    | (.ok .badLine, s) => exec .lineFormat s
    | (.error (.trap i), s) => exec .lineFetchFault { s with req := { cause := i.cause, addr := i.addr } }
    | (.error _, s) => .next s
  else .next s

/-- A turn in which a stream fetches a sector of its line ahead (R36). -/
def stepAhead (h : HartId) (st : Stream) (upper : Bool) (s : State) : Host.Outcome State Fault Refusal :=
  if s.canRun h st then happen (fetchAhead upper) { s.tick h.die with curHart := h, curStream := st, fresh := false } else .next s

/-- A step of another agent; an instruction of a stream is no such step. -/
def stepEvent (i : Instr) (r : Request) (s : State) : Host.Outcome State Fault Refusal :=
  if i.encode.isNone then exec i { s with req := r, fresh := false, upto := none } else .next s

/-- A turn. A module that has powered down does nothing but a reset (R371). -/
def stepTurn (t : Turn) (s : State) : Host.Outcome State Fault Refusal :=
  if s.powered then
    match t with
    | .run h st fresh => stepRun h st fresh s
    | .part h st pages => stepRun h st false s (some pages)
    | .ahead h st upper => stepAhead h st upper s
    | .event i r => stepEvent i r s
    | .barrierCycle true => .next { s with oneCycle := true }
    | .barrierCycle false => .next s.endCycle
  else
    match t with
    | .event .reset r => stepEvent .reset r s
    | _ => .next s

/-- One step: the first turn of the agenda; with an empty agenda the module's own streams and engines in turn (log 2). -/
def step (s : State) : Host.Outcome State Fault Refusal :=
  match s.agenda with
  | t :: rest => stepTurn t { s with agenda := rest }
  | [] =>
    match s.turns[s.rr % s.turns.length]? with
    | some t => stepTurn t { s with rr := s.rr + 1 }
    | none => .next s

/-- The stream on which a table word runs: the first of A, X and C that decodes it. -/
def streamOfWord (nbits w : Nat) : Stream :=
  let line := singleLine (tableHead nbits w) (tableTail nbits w)
  if (decodeLineHead .a line).isSome then .a else if (decodeLineHead .x line).isSome then .x
  else if (decodeLineHead .c line).isSome then .c else .a

/-- The state with a table word as the next instruction (log 1): hart 0 of core 0 of die 0 holds a task, all three streams run,
the stream that decodes the word stands at head 0 of its line and holds that line with the word in it, and the next turn is
that stream's. -/
def State.withFetchWord (s : State) (nbits w : Nat) : State :=
  let h : HartId := ⟨0, 0, 0⟩
  let st := streamOfWord nbits w
  let x := s.hart h
  let go (r : StreamRec) : StreamRec := { r with stat := .running }
  let x := { x with halted := false, sa := go x.sa, sx := go x.sx, sc := go x.sc
                    task := match x.task with | some t => some t | none => some ⟨s.taskCtr + 1, 0, 0, 0, 0, false⟩ }
  let la := lineOf (x.st st).pc
  let x := x.setSt st { x.st st with pc := la, line := some ⟨la, singleLine (tableHead nbits w) (tableTail nbits w)⟩ }
  { s.setHart h x with agenda := [.run h st false], taskCtr := s.taskCtr + 1 }

end Sys2Proof.Machine
end

