-- ==== Sys2Proof/Safety.lean ====
section
/-! DEFINITION. The terms in which statements speak of a step: what a step leaves unchanged, what it means that an instruction
completes, that an access needs no change of state, and the invariant of every step. -/

namespace Sys2Proof.Machine

/-! ### Frames -/

/-- A hart without its event counters: harts that agree in this differ in no register (R367 counts events only). -/
def Hart.uncounted (x : Hart) : Hart := { x with counters := [] }
def Die.uncounted (x : Die) : Die := { x with counters := [] }

/-- Nothing of the module changes but harts, event counters and the fall-through PC: memory, its checks and keys, cores, dies and
the hub are as they were. -/
def OnlyHarts (s t : State) : Prop :=
  (∃ hs ds pc, t = { s with harts := hs, dies := ds, fallPc := pc }) ∧ ∀ d, (t.die d).uncounted = (s.die d).uncounted

/-- The hart in execution becomes x, and nothing else changes but event counters. -/
def Becomes (s t : State) (x : Hart) : Prop :=
  OnlyHarts s t ∧ t.cur.uncounted = x.uncounted ∧ ∀ h, h ≠ s.curHart → t.hart h = s.hart h

/-- Hart x with a stream past its instruction, at pc: no wait and no recorded barrier remains, on the A-stream the instruction
before is no RDV, on the X-stream no popped entry is outstanding and no element performed before an invalidation, and VSTAT has the
flags that an instruction which a fault had stopped kept for its completion (R33, R85, R149, R168, R284). -/
def Hart.past (x : Hart) (st : Stream) (pc : BitVec 64) : Hart :=
  match st with
  | .a => { x with sa := { x.sa with pc := pc, wait := none, on := none, bar := none }, lastRdv := false }
  | .x => { x with sx := { x.sx with pc := pc, wait := none, on := none, bar := none }, popped := [], popBad := [], vstat := x.vstat ||| x.pend, pend := 0, done := [] }
  | .c => { x with sc := { x.sc with pc := pc, wait := none, on := none, bar := none } }

/-- The instruction of the stream in execution completes: its stream stands at the fall-through PC of t (a branch's target, R33,
R34), waits for nothing, and the hart halts no stream that it had not halted. -/
def Completes (s t : State) : Prop :=
  t.curHart = s.curHart ∧ t.curStream = s.curStream ∧ t.curSt.pc = t.fallPc ∧ t.curSt.wait = none ∧ t.cur.halted = s.cur.halted

/-- An instruction completes on s: the hart becomes x past it, at pc, and nothing else changes but event counters. -/
def Done (i : Instr) (s : State) (x : Hart) (pc : BitVec 64) : Prop :=
  ∃ t, exec i s = .next t ∧ Becomes s t (x.past s.curStream pc) ∧ Completes s t

/-- An instruction ends in a trap on s: its entry (R329, Table 24.1) changes the hart in execution alone, and the PC stays at the
instruction. -/
def Traps (i : Instr) (s : State) (k : TrapInfo) : Prop :=
  ∃ t, exec i s = .next t ∧ OnlyHarts s t ∧ (∀ h, h ≠ s.curHart → t.hart h = s.hart h) ∧ t.cur.halted = true ∧ t.curSt.pc = s.curSt.pc ∧
    t.curSt.cause = k.cause ∧ t.curSt.taddr = k.addr

/-- An instruction is not performed on s: nothing is written, and the hart in execution takes the trap k alone (R329; what a trap
changes, Obligations.ExceptionEntries says). -/
def TrapsAlone (i : Instr) (s : State) (k : TrapInfo) : Prop :=
  ∃ t, exec i s = .next t ∧ Becomes s t (takeTrap k s).cur

/-- An instruction waits on s (R25): only the stream's wait is recorded, and the PC stays at the instruction. -/
def Waits (i : Instr) (s : State) : Prop :=
  ∃ t, exec i s = .next t ∧ Becomes s t (s.cur.setSt s.curStream { s.curSt with wait := t.curSt.wait, on := t.curSt.on, after := t.curSt.after }) ∧
    t.curSt.wait.isSome = true ∧ t.curSt.pc = s.curSt.pc

/-! ### Memory -/

/-- No stash of a core and no host cache holds a line, so that an access recalls none (R124, R354). -/
def Quiet (s : State) : Prop := (∀ p ∈ s.cores, p.2.stash = []) ∧ s.hub.snoop = []

/-- The sectors of n bytes pass their checks under a key (R89, R112). -/
def Passes (s : State) (key : Option (BitVec 512)) (pa n : Nat) : Prop :=
  ∀ k ∈ sectorsOf pa n, k ∉ s.badSectors ∧ s.otherKey key k = false

/-- The hart in execution becomes x, the bytes from pa on become `bytes`, every other byte of memory is unchanged, and nothing else
changes but the checks and key tags of sectors and event counters. -/
def BecomesMem (s t : State) (x : Hart) (pa : Nat) (bytes : List Byte) : Prop :=
  (∃ hs ds pc m bad tags, t = { s with harts := hs, dies := ds, fallPc := pc, mem := m, badSectors := bad, keyTags := tags }) ∧
  (∀ d, (t.die d).uncounted = (s.die d).uncounted) ∧ t.cur.uncounted = x.uncounted ∧ (∀ h, h ≠ s.curHart → t.hart h = s.hart h) ∧
  ∀ a, t.mem.read a = if pa ≤ a ∧ a < pa + bytes.length then bytes.getD (a - pa) 0 else s.mem.read a

/-! ### Actions on a state -/

/-- An effect succeeds from s with value a and leaves s'. -/
def Runs {α : Type} (m : Act α) (s : State) (a : α) (s' : State) : Prop := m s = (.ok a, s')

/-- An effect succeeds from s and leaves it as it is: the page's A and D bits stand already, and no stash holds the line. -/
def Steady {α : Type} (m : Act α) (s : State) (a : α) : Prop := m s = (.ok a, s)

/-! ### Operands of the X-stream -/

/-- The operands can be opened (R149, R154): no source or destination breaks the rules of bound registers, every source that is
bound has an entry, whose sectors all passed their checks, every kind-3 destination has room, no entry is outstanding, and no element
has been performed before an invalidation (R85). -/
structure Opens (x : Hart) (srcs dsts : List Operand) : Prop where
  source : ∀ o ∈ srcs, badSource x o = false
  dest : ∀ o ∈ dsts, badDest x o = false
  popped : x.popped = []
  popBad : x.popBad = []
  done : x.done = []
  entry : ∀ p ∈ x.toPop srcs, ∃ e rest, p.2.entries = e :: rest ∧ e.bad = []
  room : ∀ p ∈ x.toPush dsts, p.2.entries.length < p.2.depth

/-- The hart with the oldest entry of each bound source in the register's own storage (R149). -/
def Hart.opened (x : Hart) (wb : Nat) (srcs : List Operand) : Hart := (x.toPop srcs).foldl (fun x p => x.pop wb p.1 p.2) x

/-- The bits that an operand reads. -/
def Hart.bits (x : Hart) (wb : Nat) (o : Operand) : Nat := x.group wb o.reg o.n

/-- VSTART stands at or above VL, so that an instruction performs nothing and writes nothing (R164, R204, R213; log 56). -/
def Hart.spent (x : Hart) : Bool := decide (x.vl.toNat ≤ x.vstart.toNat)

/-- What a destination holds before its elements are written: zero where a kind-3 binding takes the result (R149). -/
def Hart.before (x : Hart) (wb : Nat) (o : Operand) : Nat := if (x.toPush [o]).isEmpty || x.spent then x.bits wb o else 0

/-- The hart with a destination written: its registers, and an entry in the queue of a kind-3 binding that takes the result
(R149). -/
def Hart.wrote (x : Hart) (wb : Nat) (o : Operand) (v : Nat) : Hart :=
  let y := x.setGroup wb o.reg o.n v
  (y.toPush [o]).foldl (fun x p =>
    x.setBind p.1 (some { p.2 with entries := p.2.entries ++ [{ data := BitVec.ofNat 16384 (x.group wb p.1 p.2.grp.size) }] })) y

/-- The hart with the result of an instruction written, from VSTART up. -/
def Hart.resulted (x : Hart) (wb : Nat) (o : Operand) (v : Nat) : Hart := if x.spent then x else x.wrote wb o v

/-- The elements that an instruction performs (R25): from VSTART to VL − 1, where the governing mask is 1. -/
def State.active (s : State) (mask : Nat) : List Nat := activeList s.cur.vstart.toNat s.cur.vl.toNat mask

/-- Element e of an operand. -/
def Hart.elem (x : Hart) (wb : Nat) (o : Operand) (e : Nat) : Nat := elemAt o.w (x.bits wb o) e

/-! ### The invariant of every step -/

/-- Every byte store of the module is in its canonical form. -/
def MemoriesWf (s : State) : Prop :=
  s.mem.wf = true ∧ (∀ p ∈ s.cores, p.2.scratch.wf = true) ∧ s.hub.flash.wf = true ∧ s.hub.flashDurable.wf = true

end Sys2Proof.Machine
end

