-- ==== Sys2Proof/Certificates/Slice0/Obligations.lean ====
section
/-! DEFINITION. The statements for the provers. -/

open Sys2Proof Sys2Proof.Machine

namespace Sys2Proof.Spec

/-! ### Scalar tables -/

/-- The results of Table 20.3 from the two sources. -/
def scalarRows : List ((HT16R → Instr) × (BitVec 64 → BitVec 64 → BitVec 64)) :=
  [(.add, fun a b => a + b), (.sub, fun a b => a - b), (.and, fun a b => a &&& b), (.or, fun a b => a ||| b), (.xor, fun a b => a ^^^ b),
   (.sll, fun a b => a <<< (b &&& 63)), (.srl, fun a b => a >>> (b &&& 63)), (.sra, fun a b => a.sshiftRight' (b &&& 63)),
   (.mul, fun a b => a * b), (.mulh, fun a b => ((a.signExtend 128 * b.signExtend 128) >>> 64).truncate 64),
   (.mulhn, fun a b => ((a.zeroExtend 128 * b.zeroExtend 128) >>> 64).truncate 64),
   (.div, fun a b => if b = 0 then BitVec.allOnes 64 else a.sdiv b), (.divn, fun a b => if b = 0 then BitVec.allOnes 64 else a / b),
   (.rem, fun a b => if b = 0 then a else a.srem b), (.remn, fun a b => if b = 0 then a else a % b),
   (.min, fun a b => if b.slt a then b else a), (.max, fun a b => if b.slt a then a else b),
   (.minn, fun a b => if b.ult a then b else a), (.maxn, fun a b => if b.ult a then a else b),
   (.slt, fun a b => if a.slt b then 1 else 0), (.sltn, fun a b => if a.ult b then 1 else 0), (.mov, fun a _ => a),
   (.clz, fun a _ => BitVec.ofNat 64 (((List.range 64).find? fun k => a.getMsbD k).getD 64)),
   (.popc, fun a _ => BitVec.ofNat 64 ((List.range 64).countP fun k => a.getLsbD k))]

/-- The results of Table 20.4 from the source and the sign-extended immediate. -/
def immediateRows : List ((HT32I → Instr) × (BitVec 64 → BitVec 64 → BitVec 64)) :=
  [(.addi, fun a i => a + i), (.andi, fun a i => a &&& i), (.ori, fun a i => a ||| i), (.xori, fun a i => a ^^^ i),
   (.slli, fun a i => a <<< (i &&& 63)), (.srli, fun a i => a >>> (i &&& 63)), (.srai, fun a i => a.sshiftRight' (i &&& 63))]

/-- When the branches of Table 20.5 are taken. -/
def branchRows : List ((HT32B → Instr) × (BitVec 64 → BitVec 64 → Bool)) :=
  [(.beq, fun a b => a == b), (.bne, fun a b => a != b), (.blt, fun a b => a.slt b), (.bge, fun a b => !a.slt b),
   (.bltn, fun a b => a.ult b), (.bgen, fun a b => !a.ult b)]

/-- The target of R34: the line of the branch, off lines on, at a head. -/
def target (pc : BitVec 64) (off : BitVec 64) (head : Fin 32) : BitVec 64 := (pc &&& ~~~ 63) + off * 64 + BitVec.ofNat 64 (2 * head.val)

/-- A canonical address (R25): bits 63 to 56 are equal. -/
def isCanonical (a : BitVec 64) : Prop := ∀ k, 56 ≤ k → k < 64 → a.getLsbD k = a.getLsbD 56

end Sys2Proof.Spec

open Sys2Proof.Spec

/-- R286, R287: every register–register and immediate instruction, and LIMM, writes d from its sources and touches nothing else; A0 and S0
discard the write. -/
def Obligations.ScalarResults : Prop :=
  (∀ p ∈ scalarRows, ∀ (o : HT16R) (s : State),
      Done (p.1 o) s (s.cur.setR s.curStream o.d.val (p.2 (s.getR o.a) (s.getR o.b))) s.fallPc) ∧
  ((∀ p ∈ immediateRows, ∀ (o : HT32I) (s : State),
      Done (p.1 o) s (s.cur.setR s.curStream o.d.val (p.2 (s.getR o.a) (o.imm.signExtend 64))) s.fallPc) ∧
    ∀ (o : HT48I) (s : State), Done (.limm o) s (s.cur.setR s.curStream o.d.val (o.imm.signExtend 64)) s.fallPc)

/-- R162: a scalar register reads as it was written, register 0 of the A- and X-streams reads zero, and no write of one register
changes another. -/
def Obligations.ScalarRegisterFile : Prop :=
  ∀ (x : Hart) (st : Stream) (r q : Nat) (w : BitVec 64),
    (x.setR st r w).getR st q = (if q = r then (if r = 0 ∧ st ≠ .c then 0 else w) else x.getR st q) ∧
    (∀ su, su ≠ st → (x.setR st r w).getR su q = x.getR su q) ∧ (st ≠ .c → x.getR st 0 = 0)

/-- R34, R289, R290: JMP, JAL, LOOP and JR; a target that is not canonical, or for JR has bit 0 set, raises instruction-address, and
nothing is written: no register, and neither the link of JAL nor the count of LOOP. That a target is computed modulo 2^64 is the model's reading (log 34). -/
def Obligations.Jumps : Prop :=
  ∀ (s : State) (o : HT48J) (j : HT16R),
    let t := target s.curSt.pc (o.off.signExtend 64) o.head
    let d := s.getR o.d - 1
    (isCanonical t → Done (.jmp o) s s.cur t ∧ Done (.jal o) s (s.cur.setR s.curStream o.d.val s.fallPc) t) ∧
    (¬ isCanonical t → TrapsAlone (.jmp o) s { cause := Cause.instructionAddress } ∧ TrapsAlone (.jal o) s { cause := Cause.instructionAddress } ∧
      (d ≠ 0 → TrapsAlone (.loop o) s { cause := Cause.instructionAddress })) ∧
    (isCanonical t ∨ d = 0 → Done (.loop o) s (s.cur.setR s.curStream o.d.val d) (if d = 0 then s.fallPc else t)) ∧
    ((s.getR j.a).getLsbD 0 = false → isCanonical (s.getR j.a) → Done (.jr j) s s.cur (s.getR j.a)) ∧
    ((s.getR j.a).getLsbD 0 = true ∨ ¬ isCanonical (s.getR j.a) → TrapsAlone (.jr j) s { cause := Cause.instructionAddress })

/-- R293, R294: CTLR reads a control register, CTLW writes it under its access codes (VL clamps at 4,096, VSTAT is write-one-to-clear,
and its other registers take their fields), FEATQ tests FEAT. R167, R49: a CTLR or CTLW head whose number is not listed, is not open
to its stream, or for CTLW has no writable field decodes to no instruction, which is illegal-instruction. That VL is clamped on all 64
bits and VSTART takes the low 13 is the model's reading (log 36). -/
def Obligations.ControlRegisters : Prop :=
  ∀ (o : HT32I) (s : State),
    let w := s.getR o.a
    let x := s.cur
    (o.imm = 0 → Done (.ctlr o) s (x.setR s.curStream o.d.val (x.vl.zeroExtend 64)) s.fallPc) ∧
    (o.imm = 1 → Done (.ctlr o) s (x.setR s.curStream o.d.val (x.vstart.zeroExtend 64)) s.fallPc) ∧
    (o.imm = 2 → Done (.ctlr o) s (x.setR s.curStream o.d.val
      (BitVec.ofNat 64 (32 * x.tce.toNat + 16 * x.ftz.toNat + s.curCore.harts.toNat))) s.fallPc) ∧
    (o.imm = 3 → Done (.ctlr o) s (x.setR s.curStream o.d.val (x.vstat.zeroExtend 64)) s.fallPc) ∧
    (o.imm = 4 → Done (.ctlr o) s (x.setR s.curStream o.d.val (x.waitlim.zeroExtend 64)) s.fallPc) ∧
    (o.imm = 5 → Done (.ctlr o) s (x.setR s.curStream o.d.val (s.curCore.feat.zeroExtend 64)) s.fallPc) ∧
    (o.imm = 6 → Done (.ctlr o) s (x.setR s.curStream o.d.val (BitVec.ofNat 64 (2 ^ 48 * s.podIndex.toNat + 2 ^ 32 * x.asid.toNat +
      1024 * s.curHart.die.val + 8 * s.curHart.core.val + s.curHart.hart.val))) s.fallPc) ∧
    (o.imm = 0x10 → Done (.ctlr o) s (x.setR s.curStream o.d.val (s.curSt.cause.zeroExtend 64)) s.fallPc) ∧
    (o.imm = 0x11 → Done (.ctlr o) s (x.setR s.curStream o.d.val s.curSt.taddr) s.fallPc) ∧
    (o.imm = 0 → Done (.ctlw o) s { x with vl := BitVec.ofNat 13 (min w.toNat 4096) } s.fallPc) ∧
    (o.imm = 1 → Done (.ctlw o) s { x with vstart := w.truncate 13 } s.fallPc) ∧
    (o.imm = 2 → Done (.ctlw o) s { x with tce := w.getLsbD 5, ftz := w.getLsbD 4 } s.fallPc) ∧
    (o.imm = 3 → Done (.ctlw o) s { x with vstat := x.vstat &&& ~~~ w.truncate 8 } s.fallPc) ∧
    (o.imm = 4 → Done (.ctlw o) s { x with waitlim := w.truncate 32 } s.fallPc) ∧
    (∀ (st : Stream) (h tail : Nat) (i : Instr),
      (decodeHead st h 0x8508 tail = some i → ∃ q : HT32I, i = .ctlr q ∧ st ≠ .c ∧ (q.imm.toNat < 4 → st = .x) ∧
        q.imm ∈ ([0, 1, 2, 3, 4, 5, 6, 0x10, 0x11] : List (BitVec 16))) ∧
      (decodeHead st h 0x8509 tail = some i → ∃ q : HT32I, i = .ctlw q ∧ st ≠ .c ∧ (q.imm.toNat < 4 → st = .x) ∧
        q.imm ∈ ([0, 1, 2, 3, 4] : List (BitVec 16)))) ∧ Traps .reservedEncoding s { cause := Cause.illegal } ∧
    Done (.featq o) s (x.setR s.curStream o.d.val (if (List.range 3).all fun k => !o.imm.getLsbD k || s.curCore.feat.getLsbD k then 1 else 0)) s.fallPc

/-- R281, R282: the queue instructions move one entry, first in, first out, and wait at a full or empty queue, or trap where WAITLIM is 0; QDRAIN
waits for the named queues on the A-stream, and empties and counts them on the X-stream.
A wait changes nothing and is tried again (the model's choice, log 58). -/
def Obligations.QueueInstructions : Prop :=
  (∀ (o : HT16Q) (s : State),
      let x := s.cur
      let l := x.queue o.q.val
      (l.length < 16 → Done (.qput o) s (x.setQueue o.q.val (l ++ [s.getR o.s])) s.fallPc) ∧
      (16 ≤ l.length → x.waitlim ≠ 0 → Waits (.qput o) s) ∧
      (∀ v rest, l = v :: rest → Done (.qget o) s ((x.setQueue o.q.val rest).setR s.curStream o.s.val v) s.fallPc) ∧
      (l = [] → x.waitlim ≠ 0 → Waits (.qget o) s) ∧
      (x.waitlim = 0 → s.curSt.wait = none → (16 ≤ l.length → Traps (.qput o) s { cause := Cause.waitLimit }) ∧
        (l = [] → Traps (.qget o) s { cause := Cause.waitLimit })) ∧
      (x.bq.length < 32 → Done (.bqput o) s { x with bq := x.bq ++ [s.getR o.s != 0] } s.fallPc)) ∧
  (∀ (o : HT16Q) (s : State),
      let x := s.cur
      ((∀ k, k < 8 → o.qset.getLsbD k = true → x.queue k = []) → (o.q.val % 2 = 1 → x.bq = []) → Done (.qdrainA o) s x s.fallPc) ∧
      ∃ t, exec (.qdrainX o) s = .next t ∧ OnlyHarts s t ∧ Completes s t ∧ t.curSt.pc = s.fallPc ∧
        (∀ k, k < 8 → t.cur.queue k = if o.qset.getLsbD k then [] else x.queue k) ∧ (t.cur.bq = if o.q.val % 2 = 1 then [] else x.bq) ∧
        (s.curStream = .x → o.s ≠ 0 → t.getR o.s =
          BitVec.ofNat 64 ((((List.range 8).filter fun k => o.qset.getLsbD k).map fun k => (x.queue k).length).sum + if o.q.val % 2 = 1 then x.bq.length else 0)))

/-- R288, R34: a conditional branch goes to the target of R34 when it is taken, and falls through when not; a taken branch whose target is
not canonical raises instruction-address and is not performed. BQ takes the oldest bit of the branch queue, goes to its target when
the bit is 1, and waits while the queue is empty. That a target is computed modulo 2^64 is the model's reading (log 34). -/
def Obligations.Branches : Prop :=
  (∀ p ∈ branchRows, ∀ (o : HT32B) (s : State),
      let t := target s.curSt.pc (o.off.signExtend 64) o.head
      (p.2 (s.getR o.a) (s.getR o.b) = false → Done (p.1 o) s s.cur s.fallPc) ∧
      (p.2 (s.getR o.a) (s.getR o.b) = true → isCanonical t → Done (p.1 o) s s.cur t) ∧
      (p.2 (s.getR o.a) (s.getR o.b) = true → ¬ isCanonical t → Traps (p.1 o) s { cause := Cause.instructionAddress })) ∧
  (∀ (o : HT32B) (s : State),
      let t := target s.curSt.pc (o.off.signExtend 64) o.head
      (∀ b rest, s.cur.bq = b :: rest → (b = true → isCanonical t) → Done (.bq o) s { s.cur with bq := rest } (if b then t else s.fallPc)) ∧
      (s.cur.bq = [] → s.cur.waitlim ≠ 0 → Waits (.bq o) s))

/-- R283: the last stream to reach RDV ends the rendezvous: the A-stream goes on past its RDV, and the X- and C-streams stay at theirs
until it issues; a stream that comes earlier waits; where another stream has halted, RDV is the rendezvous trap. -/
def Obligations.Rendezvous : Prop :=
  ∀ (s : State), (s.cur.st s.curStream).stat = .running → s.cur.met = false →
    ((∀ st, st ≠ s.curStream → (s.cur.st st).stat = .atRdv) →
      ∃ t, exec .rdv s = .next t ∧ OnlyHarts s t ∧ (∀ h, h ≠ s.curHart → t.hart h = s.hart h) ∧ t.cur.met = true ∧ t.cur.lastRdv = true ∧
        t.cur.sa.stat = .running ∧ t.cur.sa.pc = (if s.curStream = .a then s.fallPc else s.cur.sa.after) ∧
        t.cur.sx.stat = .atRdv ∧ t.cur.sc.stat = .atRdv ∧ t.cur.halted = s.cur.halted) ∧
    ((∀ st, (s.cur.st st).stat ≠ .halted) → (∃ st, st ≠ s.curStream ∧ (s.cur.st st).stat = .running) → s.cur.waitlim ≠ 0 →
      ∃ t, exec .rdv s = .next t ∧ OnlyHarts s t ∧ t.curSt.stat = .atRdv ∧ t.curSt.pc = s.curSt.pc ∧ t.curSt.wait.isSome = true ∧
        t.cur.met = false ∧ ∀ st, st ≠ s.curStream → t.cur.st st = s.cur.st st) ∧
    ((∃ st, (s.cur.st st).stat = .halted) → Traps .rdv s { cause := Cause.rendezvous })

/-- R284: FORK after an RDV starts the code object whose descriptor As names: all three streams at its entries, C0 zero and C1 to C7
from A1 to A7, the ruling state reset, the feature mask set, and no other state changed; without the RDV it is the fork trap. -/
def Obligations.ForkStarts : Prop :=
  ∀ (o : HT16Q) (s : State) (b : List Byte),
    let a := s.getR o.s
    let v := leNat b
    let ent (k : Nat) : BitVec 64 := BitVec.ofNat 64 (v / 2 ^ (64 * k))
    let fm := BitVec.ofNat 3 (v / 2 ^ 192)
    (s.cur.lastRdv = true → isCanonical a → a.toNat % 32 = 0 → Steady (readBlockCur a 32) s b → v < 2 ^ 195 →
      (∀ k, k < 3 → isCanonical (ent k) ∧ (ent k).toNat % 64 = 0) → fm &&& s.curCore.feat = fm →
      ∃ t, exec (.fork o) s = .next t ∧ OnlyHarts s t ∧ (∀ h, h ≠ s.curHart → t.hart h = s.hart h) ∧
        t.cur.sa.pc = ent 0 ∧ t.cur.sx.pc = ent 1 ∧ t.cur.sc.pc = ent 2 ∧ (∀ st, (t.cur.st st).stat = .running ∧ (t.cur.st st).wait = none) ∧
        t.cur.getC 0 = 0 ∧ (∀ k, 1 ≤ k → k < 8 → t.cur.getC k = s.cur.getA k) ∧ t.cur.ruling = {} ∧ t.cur.featm = fm ∧
        t.cur.uncounted = { s.cur.uncounted with sa := t.cur.sa, sx := t.cur.sx, sc := t.cur.sc, c := t.cur.c, met := false, lastRdv := false,
                                                 popped := [], popBad := [], ruling := {}, featm := fm }) ∧
    (s.cur.lastRdv = false → Traps (.fork o) s { cause := Cause.fork })

/-- R285: HALT stops its stream; while another stream runs, nothing else changes. The task of a hart with nothing attached retires with
its last stream, and the hart is free (R321); its event counters stay until another task is placed (R368). -/
def Obligations.HaltStops : Prop :=
  ∀ (s : State),
    ((∃ st, st ≠ s.curStream ∧ (s.cur.st st).stat ≠ .halted) → (∀ st, st ≠ s.curStream → (s.cur.st st).stat ≠ .atRdv) →
      Done .halt s (s.cur.setSt s.curStream { s.curSt with stat := .halted }) s.fallPc) ∧
    (s.cur.task.isSome = true → (∀ st, st ≠ s.curStream → (s.cur.st st).stat = .halted) → (∀ p ∈ s.cores, p.2.wells = [] ∧ p.2.stash = []) →
      s.cur.binds = [] → s.cur.quire = none → (tget {} (s.die s.curHart.die).assign (8 * s.curHart.core.val + s.curHart.hart.val) : Assign) = {} →
      (∀ p ∈ s.hub.pipes, p.2.state ≠ 2) → ∃ t, exec .halt s = .next t ∧ t.cur.uncounted = {} ∧ ∀ h, h ≠ s.curHart → t.hart h = s.hart h)

/-- R294, R51, R307: NOP, the hints, the fences and a YIELD without a pending reassignment only go on; a YIELD with one stops the hart
behind it. -/
def Obligations.InstructionsWithoutEffect : Prop :=
  ∀ (s : State),
    Done .nop s s.cur s.fallPc ∧ Done .hint s s.cur s.fallPc ∧ Done .hintMajor3E s s.cur s.fallPc ∧ Done .fence s s.cur s.fallPc ∧
    (s.cur.preempt = none → (tget {} (s.die s.curHart.die).assign (8 * s.curHart.core.val + s.curHart.hart.val) : Assign).mark = none →
      Done .yield s s.cur s.fallPc) ∧
    (s.cur.preempt.isSome = true → ∃ t, exec .yield s = .next t ∧ OnlyHarts s t ∧ t.cur.halted = true ∧ t.curSt.pc = s.fallPc ∧
      t.cur.preempt = s.cur.preempt)

/-- R294, R329, R331, R337: SVCALL and TRAP halt the hart with their code and register 1, the PC past the call; BRK and the reserved
encodings, defective lines and fetch faults (R31, R33, R35, R49) halt it at the instruction. Taking a trap stops the hart in execution
and no other, records cause and address (R167) and the restart record, leaves every register and every other part of the hart but what
waits end with (R145, R306), and touches VSTART only for an element fault on the X-stream. -/
def Obligations.ExceptionEntries : Prop :=
  (∀ (o : HT32I) (s : State),
      (∀ i c k, (i, c, k) ∈ [(Instr.svcall o, Cause.serviceCall, some s.curStream), (Instr.trap o, Cause.software, none)] →
        ∃ t, exec i s = .next t ∧ OnlyHarts s t ∧ (∀ h, h ≠ s.curHart → t.hart h = s.hart h) ∧ t.cur.halted = true ∧ t.curSt.pc = s.fallPc ∧
          t.curSt.cause = c ∧ t.cur.halt.code = o.imm ∧ t.cur.halt.arg = s.cur.getR s.curStream 1 ∧ t.cur.halt.caller = k) ∧
      Traps .brk s { cause := Cause.breakpoint } ∧ Traps .reservedEncoding s { cause := Cause.illegal } ∧
      Traps .lineFormat s { cause := Cause.lineFormat } ∧
      (s.req.cause ∈ [Cause.nonCanonical, Cause.nonexistent, Cause.notPresent, Cause.malformed, Cause.permission, Cause.notResident, Cause.key,
          Cause.integrity, Cause.violation] → Traps .lineFetchFault s { cause := s.req.cause, addr := s.req.addr })) ∧
  (∀ (i : TrapInfo) (s : State),
      let t := takeTrap i s
      let x := t.cur
      OnlyHarts s t ∧ (∀ h, h ≠ s.curHart → t.hart h = s.hart h) ∧ x.halted = true ∧ t.curSt.cause = i.cause ∧ t.curSt.taddr = i.addr ∧
      t.curSt.wait = none ∧ (∀ st, (x.st st).pc = (s.cur.st st).pc ∧ (st ≠ s.curStream → x.st st = s.cur.st st)) ∧
      x = { s.cur with halted := true, sa := x.sa, sx := x.sx, sc := x.sc, vstart := x.vstart, halt := x.halt, flagWait := x.flagWait, joining := x.joining } ∧
      x.a = s.cur.a ∧ x.s = s.cur.s ∧ x.c = s.cur.c ∧ x.v = s.cur.v ∧ x.t = s.cur.t ∧ x.tset = s.cur.tset ∧ x.m = s.cur.m ∧ x.ac = s.cur.ac ∧
      x.q = s.cur.q ∧ x.bq = s.cur.bq ∧ x.binds = s.cur.binds ∧ x.vl = s.cur.vl ∧ x.vstat = s.cur.vstat ∧ x.waitlim = s.cur.waitlim ∧
      x.tce = s.cur.tce ∧ x.ftz = s.cur.ftz ∧ x.featm = s.cur.featm ∧ x.ruling = s.cur.ruling ∧ x.keys = s.cur.keys ∧ x.window = s.cur.window ∧
      x.vstart = (match s.curStream, i.elem with | .x, some e => BitVec.ofNat 13 e | _, _ => s.cur.vstart) ∧
      (s.curStream = .a → x.halt.acause = i.cause ∧ x.halt.aaddr = i.addr ∧ x.halt.akind = i.akind ∧ x.halt.abind = i.abind ∧
        x.halt.aent = i.aent ∧ x.halt.aelem = BitVec.ofNat 13 (i.elem.getD 0)) ∧
      (s.curStream = .x → x.halt.xcause = i.cause ∧ x.halt.xaddr = i.addr) ∧ (s.curStream = .c → x.halt.ccause = i.cause) ∧
      (x.halt.frz = true ↔ s.cur.halt.frz = true ∨ i.cause = Cause.violation))

namespace Sys2Proof.Spec

/-- The loads of Table 20.6: their bytes, and whether the value is sign-extended. -/
def loadRows : List ((HT32M → Instr) × Nat × Bool) :=
  [(.ldb, 1, true), (.ldh, 2, true), (.ldw, 4, true), (.ldd, 8, true), (.ldbn, 1, false), (.ldhn, 2, false), (.ldwn, 4, false)]

/-- The stores of Table 20.6 and their bytes. -/
def storeRows : List ((HT32M → Instr) × Nat) := [(.stb, 1), (.sth, 2), (.stw, 4), (.std, 8)]

/-- The effective address of R291, exact. -/
def address (s : State) (o : HT32M) : Int := (s.getR o.base).toInt + o.disp.toInt

/-- The access can be made without a fault and without a change of state: the address is canonical and aligned (R70, R87), its page
translates and has been accessed before (R76, R79), its sectors pass their checks under the page's key (R89, R112), and no other
holder has the line. -/
structure Accessible (s : State) (g : Int) (n : Nat) (k : AccessKind) (m : Mapped) : Prop where
  canonical : -(2 ^ 56) ≤ g ∧ g < 2 ^ 56
  aligned : g % n = 0
  page : Steady (translateCur (BitVec.ofInt 64 g) k) s m
  passes : Passes s (some m.key) m.pa n
  quiet : Quiet s

/-- A value as n bytes, lowest first (R2). -/
def bytesOf (n v : Nat) : List Byte := (List.range n).map fun k => BitVec.ofNat 8 (v >>> (8 * k))

/-- The value of n bytes of memory, lowest first (R2). -/
def valueAt (m : Memory) (pa : Nat) : Nat → Nat
  | 0 => 0
  | n + 1 => valueAt m pa n + (m.read (pa + n)).toNat * 2 ^ (8 * n)

/-- What an atomic writes (R256), from the old word, the source and the destination register, as words of the format; none where
nothing is written. -/
def atomicRows : List ((HT48VM → Instr) × (Fmt → Nat → Nat → Nat → Option Nat)) :=
  [(.amoadd, fun f old x _ => some ((old + x) % 2 ^ f.width)),
   (.amomin, fun f old x _ => some (if fmtSigned f then (if (BitVec.ofNat f.width old).toInt ≤ (BitVec.ofNat f.width x).toInt then old else x) else min old x)),
   (.amomax, fun f old x _ => some (if fmtSigned f then (if (BitVec.ofNat f.width old).toInt ≤ (BitVec.ofNat f.width x).toInt then x else old) else max old x)),
   (.amoand, fun _ old x _ => some (old &&& x)), (.amoor, fun _ old x _ => some (old ||| x)), (.amoswp, fun _ _ x _ => some x),
   (.amocas, fun _ old x c => if old = c then some x else none)]

end Sys2Proof.Spec

/-- R291: a scalar load reads its bytes, lowest first, extends them into d, and changes nothing else; a scalar store writes the low bytes of
d, lowest first, and changes no register and no other byte; an address that is not canonical raises non-canonical, one that is no
multiple of the size misalignment, and nothing is accessed. -/
def Obligations.ScalarMemory : Prop :=
  (∀ p ∈ loadRows, ∀ (o : HT32M) (s : State) (m : Mapped), Accessible s (address s o) p.2.1 .read m →
      let v := BitVec.ofNat (8 * p.2.1) (valueAt s.mem m.pa p.2.1)
      Done (p.1 o) s (s.cur.setR s.curStream o.d.val (if p.2.2 then v.signExtend 64 else v.zeroExtend 64)) s.fallPc) ∧
  (∀ p ∈ storeRows, ∀ (o : HT32M) (s : State) (m : Mapped), Accessible s (address s o) p.2 .write m →
      ∃ t, exec (p.1 o) s = .next t ∧ BecomesMem s t (s.cur.past s.curStream s.fallPc) m.pa (bytesOf p.2 (s.getR o.d).toNat) ∧ Completes s t) ∧
  (∀ (f : HT32M → Instr) (n : Nat), (f, n) ∈ storeRows ++ loadRows.map (fun p => (p.1, p.2.1)) → ∀ (o : HT32M) (s : State),
      let g := address s o
      (¬ (-(2 ^ 56) ≤ g ∧ g < 2 ^ 56) → Traps (f o) s { cause := Cause.nonCanonical, addr := BitVec.ofInt 64 g }) ∧
      ((-(2 ^ 56) ≤ g ∧ g < 2 ^ 56) → g % n ≠ 0 → Traps (f o) s { cause := Cause.misalignment, addr := BitVec.ofInt 64 g }))

/-- R256: an atomic on a TIER 0 page reads the word into the destination register, extended by its format, and writes the new word
where there is one; no other byte or register changes. -/
def Obligations.Atomics : Prop :=
  ∀ p ∈ atomicRows, ∀ (o : HT48VM) (s : State) (m : Mapped), o.fmt ∈ [Fmt.i32, .n32, .i64, .n64] → o.v.val < 32 →
    let n := o.fmt.width / 8
    let g := (s.getR o.base).toInt + o.disp.toInt
    Accessible s g n .write m → entTier m.leaf = 0 →
    let d := Fin.ofNat 32 o.v.val
    let old := valueAt s.mem m.pa n
    let word (w : BitVec 64) : Nat := w.toNat % 2 ^ o.fmt.width
    let v := BitVec.ofNat (8 * n) old
    let x := s.cur.setR s.curStream d.val (if fmtSigned o.fmt then v.signExtend 64 else v.zeroExtend 64)
    ∃ t, exec (p.1 o) s = .next t ∧ Completes s t ∧
      match p.2 o.fmt old (word (s.getR o.s)) (word (s.getR d)) with
      | some w => BecomesMem s t (x.past s.curStream s.fallPc) m.pa (bytesOf n w)
      | none => Becomes s t (x.past s.curStream s.fallPc)

namespace Sys2Proof.Spec

/-- An instruction of the X-stream with sources `srcs` and destination `dst` completes: the entries of bound sources are popped
(R149), elements 0 to n − 1 of the destination become `new e`, the flags are raised, VSTART is cleared (or, with `clear` false,
left), and nothing else changes: no other vector register, no other register of the hart, no memory. -/
def Writes (i : Instr) (s : State) (srcs : List Operand) (dst : Operand) (n : Nat) (new : Nat → Nat) (flags : Flags) (clear : Bool := true) : Prop :=
  let wb := s.regBits
  let y := s.cur.opened wb srcs
  ∃ t, exec i s = .next t ∧ OnlyHarts s t ∧ (∀ h, h ≠ s.curHart → t.hart h = s.hart h) ∧ Completes s t ∧ t.curSt.pc = s.fallPc ∧
    (∀ e, e < n → t.cur.elem wb dst e = new e) ∧
    (∀ r, r < dst.reg ∨ dst.reg + dst.n ≤ r → t.cur.getV r = y.getV r) ∧
    (y.toPush [dst] = [] → t.cur.binds = y.binds) ∧
    t.cur.uncounted = ({ y with v := t.cur.v, binds := t.cur.binds, vstat := y.vstat ||| flags, vstart := if clear then 0 else y.vstart }.past
      s.curStream s.fallPc).uncounted

/-- The union of the flags of a list of elements. -/
def flagsOf (f : Nat → Flags) (es : List Nat) : Flags := es.foldl (fun fl e => fl ||| f e) 0

/-- An element-by-element instruction (R26): each active element gets `f e a`, where a lists element e of every source; every
other element keeps its value (zero where a kind-3 binding takes the result, R149). -/
def Elementwise (i : Instr) (s : State) (n mask : Nat) (srcs : List Operand) (dst : Operand) (f : Nat → List Nat → Res) : Prop :=
  let y := s.cur.opened s.regBits srcs
  let r (e : Nat) : Res := f e (srcs.map fun o => y.elem s.regBits o e)
  s.cur.vl.toNat ≤ n → Opens s.cur srcs [dst] →
    Writes i s srcs dst n (fun e => if e ∈ s.active mask then (r e).1 % 2 ^ dst.w else elemAt dst.w (y.before s.regBits dst) e)
      (flagsOf (fun e => (r e).2) (s.active mask))

/-- An instruction that writes a mask (R193): bit e of Md for each active element; M0 discards the write. -/
def WritesMask (i : Instr) (s : State) (n mask : Nat) (md : Nat) (srcs : List Operand) (f : List Nat → Bool × Flags) : Prop :=
  let wb := s.regBits
  let y := s.cur.opened wb srcs
  let r (e : Nat) : Bool × Flags := f (srcs.map fun o => y.elem wb o e)
  s.cur.vl.toNat ≤ n → Opens s.cur srcs [] →
    ∃ t, exec i s = .next t ∧ OnlyHarts s t ∧ (∀ h, h ≠ s.curHart → t.hart h = s.hart h) ∧ Completes s t ∧ t.curSt.pc = s.fallPc ∧
      (∀ e, e < 4096 → (t.cur.getM md).getLsbD e = if md = 0 then true else if e ∈ s.active mask then (r e).1 else (s.cur.getM md).getLsbD e) ∧
      (∀ k, k ≠ md → t.cur.getM k = s.cur.getM k) ∧
      t.cur.uncounted = ({ y with m := t.cur.m, vstat := y.vstat ||| flagsOf (fun e => (r e).2) (s.active mask), vstart := 0 }.past s.curStream s.fallPc).uncounted

/-- The value of an element in an integer format (R192), W and Sat of R25. -/
def int (f : Fmt) (a : Nat) : Int := if f ∈ [Fmt.n8, .n16, .n32, .n64] then a else (BitVec.ofNat f.width a).toInt
def wrap (f : Fmt) (x : Int) : Nat := (BitVec.ofInt f.width x).toNat
def lowest (f : Fmt) : Int := if f ∈ [Fmt.n8, .n16, .n32, .n64] then 0 else -(2 ^ (f.width - 1))
def highest (f : Fmt) : Int := if f ∈ [Fmt.n8, .n16, .n32, .n64] then 2 ^ f.width - 1 else 2 ^ (f.width - 1) - 1
def sat (f : Fmt) (x : Int) : Res :=
  (wrap f (max (lowest f) (min (highest f) x)), if lowest f ≤ x ∧ x ≤ highest f then 0 else flagSAT)

/-- The carry-less product of two encodings of n bits: bit k is the parity of the pairs of 1 bits whose places add to k. -/
def carryless (a b n : Nat) : Nat :=
  (List.range (2 * n)).foldl (fun acc k =>
    acc + (((List.range n).countP fun i => decide (i ≤ k) && b.testBit i && a.testBit (k - i)) % 2) * 2 ^ k) 0

/-- Mix of R208, with the constants of Table 13.6. -/
def mixRows : List (BitVec 64 × Nat) := [(0xA3B195354A39B70D, 31), (0x8F4E1C2BD9A763E5, 27), (0xD1B54A32D192ED03, 33), (0xB7E151628AED2A6B, 29)]
def mixed (key ctr : BitVec 64) : BitVec 64 := mixRows.foldl (fun x p => (x * p.1) ^^^ ((x * p.1) >>> p.2)) (key ^^^ ctr)

/-- The integer formats of R192. -/
def intFormats : List Fmt := [.i8, .i16, .i32, .i64, .n8, .n16, .n32, .n64]

/-- The two-source rows of Tables 13.1 and 13.5, on encodings. -/
def vectorRows : List ((HT32V → Instr) × (Fmt → Nat → Nat → Res)) :=
  [(.vadd, fun f a b => (wrap f (int f a + int f b), 0)), (.vsub, fun f a b => (wrap f (int f a - int f b), 0)),
   (.vmul, fun f a b => (wrap f (int f a * int f b), 0)), (.vmulh, fun f a b => (wrap f (int f a * int f b / 2 ^ f.width), 0)),
   (.vadds, fun f a b => sat f (int f a + int f b)), (.vsubs, fun f a b => sat f (int f a - int f b)),
   (.vavg, fun f a b => (wrap f ((int f a + int f b + 1) / 2), 0)),
   (.vmin, fun f a b => (wrap f (min (int f a) (int f b)), 0)), (.vmax, fun f a b => (wrap f (max (int f a) (int f b)), 0)),
   (.vand, fun _ a b => (a &&& b, 0)), (.vor, fun _ a b => (a ||| b, 0)), (.vxor, fun _ a b => (a ^^^ b, 0)),
   (.vsll, fun f a b => (a <<< (b % f.width), 0)), (.vsrl, fun f a b => (a >>> (b % f.width), 0)),
   (.vsra, fun f a b => (((BitVec.ofNat f.width a).sshiftRight (b % f.width)).toNat, 0)),
   (.vrot, fun f a b => (((BitVec.ofNat f.width a).rotateLeft b).toNat, 0)),
   (.vclmul, fun f a b => (carryless a b f.width % 2 ^ f.width, 0)), (.vclmulh, fun f a b => (carryless a b f.width / 2 ^ f.width, 0))]

/-- The one-source rows. -/
def vectorUnaryRows : List ((HT32V → Instr) × (Fmt → Nat → Nat)) :=
  [(.vabs, fun f a => wrap f (int f a).natAbs), (.vneg, fun f a => wrap f (-int f a)), (.vnot, fun f a => 2 ^ f.width - 1 - a),
   (.vpopc, fun f a => (List.range f.width).countP fun k => a.testBit k),
   (.vfirst, fun f a => ((List.range f.width).find? fun k => a.testBit k).getD f.width)]

/-- Operands of an HT32.V instruction. -/
def opA (o : HT32V) : Operand := ⟨o.a.val, o.group.size, o.fmt.width⟩
def opB (o : HT32V) : Operand := ⟨o.b.val, o.group.size, o.fmt.width⟩
def opD (o : HT32V) : Operand := ⟨o.d.val, o.group.size, o.fmt.width⟩

/-- N (R163), and the governing mask. -/
def elems (s : State) (o : HT32V) : Nat := s.regBits * o.group.size / o.fmt.width
def mask (s : State) (m : Fin 8) : Nat := (s.cur.getM m.val).toNat % 2 ^ (2 * s.regBits)

/-- The compares of R193 on integers. -/
def compareRows : List ((HT32V → Instr) × (Int → Int → Bool)) :=
  [(.vcmpEqInt, fun a b => decide (a = b)), (.vcmpNeInt, fun a b => decide (a ≠ b)), (.vcmpLtInt, fun a b => decide (a < b)),
   (.vcmpGeInt, fun a b => decide (a ≥ b))]

/-- Operands of an HT48.V instruction whose operands all have the width of fs. -/
def fpA (o : HT48V) : Operand := ⟨o.a.val, o.group.size, o.fs.width⟩
def fpB (o : HT48V) : Operand := ⟨o.b.val, o.group.size, o.fs.width⟩
def fpC (o : HT48V) : Operand := ⟨o.c.val, o.group.size, o.fs.width⟩
def fpD (o : HT48V) : Operand := ⟨o.d.val, o.group.size, o.fs.width⟩
def fpElems (s : State) (o : HT48V) : Nat := s.regBits * o.group.size / o.fs.width

/-- The rows of Table 13.2 by their sources, as the exact operations of the number formats (R181 to R186): format, rounding mode,
saturation, FTZ. -/
def floatRows1 : List ((HT48V → Instr) × (Fmt → Rm → Bool → Bool → FVal → Res)) :=
  [(.vfsqrt, sqrtF), (.vfrcp, fun f _ sat ftz a => rcpF f sat ftz a), (.vfrsq, fun f _ sat ftz a => rsqF f sat ftz a),
   (.vfexp2, fun f _ sat ftz a => exp2F f sat ftz a), (.vflog2, fun f _ sat ftz a => log2F f sat ftz a)]
def floatRows2 : List ((HT48V → Instr) × (Fmt → Rm → Bool → Bool → FVal → FVal → Res)) :=
  [(.vfadd, addF), (.vfsub, fun f rm sat ftz a b => addF f rm sat ftz a b.neg), (.vfmul, mulF), (.vfdiv, divF),
   (.vfmin, fun f _ _ _ a b => minmaxF f false a b), (.vfmax, fun f _ _ _ a b => minmaxF f true a b)]
def floatRows3 : List ((HT48V → Instr) × (Fmt → Rm → Bool → Bool → FVal → FVal → FVal → Res)) :=
  [(.vfma, fmaF), (.vfms, fun f rm sat ftz a b c => fmaF f rm sat ftz a b c.neg), (.vfnma, fun f rm sat ftz a b c => fmaF f rm sat ftz a.neg b c)]

/-- The compares of R193 on floating values. -/
def floatCompareRows : List ((HT48V → Instr) × FCmp) := [(.vcmpEqFp, .eq), (.vcmpNeFp, .ne), (.vcmpLtFp, .lt), (.vcmpGeFp, .ge)]

end Sys2Proof.Spec

namespace Sys2Proof.Spec

/-! ### Number formats (R170 to R186), on exact values -/

/-- The floating formats with their exponent and fraction widths and bias (Table 12.1, R180). -/
def layouts : List (Fmt × Nat × Nat × Nat) :=
  [(.fp32, 8, 23, 127), (.fp16, 5, 10, 15), (.bf16, 8, 7, 127), (.fp8a, 4, 3, 7), (.fp8b, 5, 2, 15), (.fp4, 2, 1, 1), (.acc80, 11, 68, 1023)]

/-- The formats with infinities, with the encoding of +∞ (Table 12.2). -/
def infinities : List (Fmt × Nat) := [(.fp32, 0x7F800000), (.fp16, 0x7C00), (.bf16, 0x7F80), (.fp8b, 0x7C), (.acc80, 0x7FF00000000000000000)]

/-- The canonical NaNs (Table 12.2, R180). -/
def nans : List (Fmt × Nat) :=
  [(.fp32, 0x7FC00000), (.fp16, 0x7E00), (.bf16, 0x7FC0), (.fp8a, 0x7F), (.fp8b, 0x7E), (.acc80, 0x7FF80000000000000000)]

/-- The largest finite encodings (Table 12.2). -/
def largestCodes : List (Fmt × Nat) :=
  [(.fp32, 0x7F7FFFFF), (.fp16, 0x7BFF), (.bf16, 0x7F7F), (.fp8a, 0x7E), (.fp8b, 0x7B), (.fp4, 0x7), (.acc80, 0x7FEFFFFFFFFFFFFFFFFF)]

def lookup (l : List (Fmt × Nat)) (f : Fmt) : Nat := ((l.find? fun p => p.1 == f).map Prod.snd).getD 0
def hasInf (f : Fmt) : Bool := infinities.any fun p => p.1 == f

/-- An encoding with a sign. -/
def signed (f : Fmt) (s : Bool) (c : Nat) : Nat := if s then 2 ^ (f.width - 1) + c else c

/-- The value of a finite operand: (−1)^s × m × 2^e (R170). -/
def value : FVal → ℚ
  | .fin n m e => (if n then -1 else 1) * m * 2 ^ e
  | _ => 0

/-- What R170 and R171 give an encoding by its sign, exponent and fraction fields. -/
def Decodes (f : Fmt) (ew fw b x : Nat) (v : FVal) : Prop :=
  let s := decide (x / 2 ^ (ew + fw) % 2 = 1)
  let ex := x / 2 ^ fw % 2 ^ ew
  let fr := x % 2 ^ fw
  if hasInf f = true ∧ ex = 2 ^ ew - 1 then v = (if fr = 0 then .inf s else .nan (decide (fr < 2 ^ (fw - 1)) && f != .acc80))
  else if f = .fp8a ∧ x % 128 = 0x7F then v = .nan false
  else ∃ m e, v = .fin s m e ∧
    value (.fin false m e) = if ex = 0 then (2 : ℚ) ^ (1 - (b : ℤ)) * (fr / 2 ^ fw) else (2 : ℚ) ^ ((ex : ℤ) - b) * (1 + fr / 2 ^ fw)

/-- The numbers of fw + 1 significant bits, whose last place is 2^lo or higher where a lowest place is given. -/
def Grid (fw : Nat) (lo : Option ℤ) (u : ℝ) : Prop := ∃ k q : ℤ, (∀ l ∈ lo, l ≤ q) ∧ |k| < 2 ^ (fw + 1) ∧ u = k * 2 ^ q

/-- Rounding to a set of numbers by a mode (R25, Table 3.6): toward zero, up, down, to nearest with ties away from zero, to nearest with
ties to the even one of two neighbours, which is a multiple of twice their distance. -/
def Rounds (G : ℝ → Prop) (rm : Rm) (v u : ℝ) : Prop :=
  G u ∧ match rm with
  | .rtz => |u| ≤ |v| ∧ 0 ≤ u * v ∧ ∀ w, G w → |w| ≤ |v| → |w| ≤ |u|
  | .rup => v ≤ u ∧ ∀ w, G w → v ≤ w → u ≤ w
  | .rdn => u ≤ v ∧ ∀ w, G w → w ≤ v → w ≤ u
  | .rna => ∀ w, G w → |v - u| ≤ |v - w| ∧ (|v - u| = |v - w| → |w| ≤ |u|)
  | .rne => ∀ w, G w → |v - u| ≤ |v - w| ∧ (w ≠ u → |v - u| = |v - w| → ∃ j : ℤ, u = j * (2 * (u - w)))

/-- Table 12.5 and R183: what an overflow of sign s gives. -/
def overflowed (f : Fmt) (rm : Rm) (sat s : Bool) : Res :=
  let away := match rm with
    | .rne | .rna => true
    | .rup => !s
    | .rdn => s
    | .rtz => false
  if sat then (signed f s (lookup largestCodes f), flagOF ||| flagNX ||| flagSAT)
  else if away && hasInf f then (signed f s (lookup infinities f), flagOF ||| flagNX)
  else if away && f == .fp8a then (0x7F, flagOF ||| flagNX)
  else (signed f s (lookup largestCodes f), flagOF ||| flagNX)

/-- An infinite result or operand of sign s: ±∞ where the format has it and sat is .WRAP, else an overflow of its sign (R181, R183). -/
def infinite (f : Fmt) (sat s : Bool) : Res :=
  if hasInf f && !sat then (signed f s (lookup infinities f), 0) else overflowed f .rne sat s

/-- r is the exact value v rounded once to the format (R25, R181, R183, R184): an overflow by Table 12.5 when the rounded magnitude
exceeds the largest finite value (for FP4 also from 7 up, the model's reading of R185's example, log 63); a nonzero subnormal is
flushed to a zero of its sign under FTZ; NX when the result is not v, and UF when it is then tiny, judged after rounding to an
unbounded exponent range. A result of zero has the sign of v, or `neg` where v is 0. -/
def RoundsTo (f : Fmt) (rm : Rm) (sat ftz neg : Bool) (v : ℝ) (r : Res) : Prop :=
  ∃ ew fw b, (f, ew, fw, b) ∈ layouts ∧
    let lo : ℤ := 1 - b - fw
    let small : ℝ := 2 ^ (lo + fw)
    let largest : ℝ := value (decodeF f (lookup largestCodes f))
    ∃ (s : Bool) (u t : ℝ), (s = true ↔ v < 0 ∨ (v = 0 ∧ neg = true)) ∧ Rounds (Grid fw (some lo)) rm v u ∧ Rounds (Grid fw none) rm v t ∧
      if largest < |u| ∨ (f = .fp4 ∧ 7 ≤ |v|) then r = overflowed f rm sat s
      else if ftz = true ∧ 0 < |u| ∧ |u| < small then r = (signed f s 0, flagUF ||| flagNX)
      else r.1 < 2 ^ f.width ∧ (∃ m e, decodeF f r.1 = .fin s m e ∧ (value (.fin s m e) : ℝ) = u) ∧
        r.2 = if u = v then 0 else if |t| < small then flagUF ||| flagNX else flagNX

/-- The canonical NaN, with NV when it comes from an invalid operation or a signalling operand (R182, R183). -/
def nanResult (f : Fmt) (invalid : Bool) : Res := (lookup nans f, if invalid then flagNV else 0)

def anyNan (l : List FVal) : Prop := ∃ v ∈ l, ∃ s, v = .nan s
def anySnan (l : List FVal) : Bool := l.any fun v => v == .nan true

/-- The arithmetic formats of the vector unit. -/
def vectorFloats : List Fmt := [.fp32, .fp16, .bf16]

/-- Round of an exact magnitude m × 2^e, or of a value that lies strictly above it and below the next where a `sticky` rest is
recorded. -/
def RoundLaw : Prop :=
  ∀ (f : Fmt) (rm : Rm) (sat ftz : Bool) (x : Exact) (v : ℝ) (ew fw b : Nat), (f, ew, fw, b) ∈ layouts →
    (if x.sticky then 2 ^ (fw + 1) ≤ x.m ∧ (x.m : ℝ) * 2 ^ x.e < |v| ∧ |v| < (x.m + 1) * 2 ^ x.e else |v| = x.m * 2 ^ x.e) →
    (v ≠ 0 → (v < 0 ↔ x.neg = true)) → RoundsTo f rm sat ftz x.neg v (roundF f rm sat ftz x)

/-- NaN operands (R182). -/
def NanLaw : Prop :=
  ∀ (f : Fmt) (rm : Rm) (sat ftz : Bool) (a b c : FVal), f ∈ vectorFloats →
    (anyNan [a, b] → (∀ g ∈ [addF, mulF, divF], g f rm sat ftz a b = nanResult f (anySnan [a, b]))) ∧
    (anyNan [a] → sqrtF f rm sat ftz a = nanResult f (anySnan [a]) ∧ ∀ g ∈ [rcpF, rsqF, exp2F, log2F], g f sat ftz a = nanResult f (anySnan [a])) ∧
    (anyNan [a, b] → fmaF f rm sat ftz a b c = nanResult f (anySnan [a, b, c])) ∧
    (c = .nan true → fmaF f rm sat ftz a b c = nanResult f true) ∧
    (c = .nan false → (∀ n m e n' m' e', a = .fin n m e → b = .fin n' m' e' → fmaF f rm sat ftz a b c = nanResult f false))

/-- Infinite operands, zero divisors and the square root of a negative number (R183, R195; what .SAT makes of an infinity is the
model's reading, log 15). -/
def SpecialLaw : Prop :=
  ∀ (f : Fmt) (rm : Rm) (sat ftz s p n : Bool) (m : Nat) (e : ℤ), f ∈ vectorFloats →
    let i := FVal.inf
    let x := FVal.fin n m e
    let z := FVal.fin p 0 0
    let invalid := nanResult f true
    let oflow (s : Bool) : Res := infinite f sat s
    addF f rm sat ftz (i s) x = oflow s ∧ addF f rm sat ftz x (i s) = oflow s ∧
    addF f rm sat ftz (i s) (i p) = (if s = p then oflow s else invalid) ∧
    mulF f rm sat ftz (i s) (i p) = oflow (s != p) ∧
    (∀ c, c ≠ .nan false → fmaF f rm sat ftz (i s) z c = invalid ∧ fmaF f rm sat ftz z (i s) c = invalid) ∧
    (∀ c, ¬ anyNan [c] → m ≠ 0 → (∀ a b, (a, b) ∈ [(i s, x), (x, i s), (i s, i n)] →
      fmaF f rm sat ftz a b c = if c = i (!(s != n)) then invalid else oflow (s != n))) ∧
    (∀ n' m' e', fmaF f rm sat ftz x (.fin n' m' e') (i s) = oflow s) ∧
    mulF f rm sat ftz (i s) x = (if m = 0 then invalid else oflow (s != n)) ∧ mulF f rm sat ftz x (i s) = (if m = 0 then invalid else oflow (s != n)) ∧
    divF f rm sat ftz (i s) (i p) = invalid ∧ divF f rm sat ftz (i s) x = oflow (s != n) ∧ divF f rm sat ftz x (i s) = (signed f (n != s) 0, 0) ∧
    divF f rm sat ftz x z = (if m = 0 then invalid else ((oflow (n != p)).1, (oflow (n != p)).2 ||| flagDZ)) ∧
    sqrtF f rm sat ftz (i s) = (if s then invalid else oflow false) ∧ sqrtF f rm sat ftz z = (signed f p 0, 0) ∧
    (m ≠ 0 → n = true → sqrtF f rm sat ftz x = invalid ∧ rsqF f sat ftz x = invalid ∧ log2F f sat ftz x = invalid) ∧
    rcpF f sat ftz (i s) = (signed f s 0, 0) ∧ rcpF f sat ftz z = ((infinite f sat p).1, (infinite f sat p).2 ||| flagDZ) ∧
    rsqF f sat ftz (i s) = (if s then invalid else (0, 0)) ∧ rsqF f sat ftz z = ((infinite f sat p).1, (infinite f sat p).2 ||| flagDZ) ∧
    exp2F f sat ftz (i s) = (if s then (0, 0) else infinite f sat false) ∧ log2F f sat ftz (i s) = (if s then invalid else infinite f sat false) ∧
    log2F f sat ftz z = ((infinite f sat true).1, (infinite f sat true).2 ||| flagDZ)

/-- The exact operations on finite operands, rounded once (Table 13.2); VFEXP2 and VFLOG2 round a value that lies within 2^−300 of the
power and 2^−100 of the logarithm (log 14). -/
def ArithmeticLaw : Prop :=
  ∀ (f : Fmt) (rm : Rm) (sat ftz n p q : Bool) (m k l : Nat) (e d h : ℤ), f ∈ vectorFloats →
    let a := FVal.fin n m e
    let b := FVal.fin p k d
    let c := FVal.fin q l h
    let x : ℝ := value a
    let y : ℝ := value b
    let z : ℝ := value c
    RoundsTo f rm sat ftz (if n = p then n else rm == .rdn) (x + y) (addF f rm sat ftz a b) ∧
    RoundsTo f rm sat ftz (n != p) (x * y) (mulF f rm sat ftz a b) ∧
    RoundsTo f rm sat ftz (if (n != p) = q then q else rm == .rdn) (x * y + z) (fmaF f rm sat ftz a b c) ∧
    (k ≠ 0 → RoundsTo f rm sat ftz (n != p) (x / y) (divF f rm sat ftz a b)) ∧
    (m ≠ 0 → RoundsTo f .rne sat ftz n (1 / x) (rcpF f sat ftz a)) ∧
    (m ≠ 0 → n = false → RoundsTo f rm sat ftz false (Real.sqrt x) (sqrtF f rm sat ftz a) ∧
      RoundsTo f .rne sat ftz false (1 / Real.sqrt x) (rsqF f sat ftz a)) ∧
    (∀ c, a = readF f ftz c → ∃ w : ℝ, |w - (2 : ℝ) ^ x| ≤ (2 : ℝ) ^ x * 2 ^ (-300 : ℤ) ∧ RoundsTo f .rne sat ftz false w (exp2F f sat ftz a)) ∧
    (∀ c, a = readF f ftz c → m ≠ 0 → n = false → ∃ w : ℝ, |w - Real.logb 2 x| ≤ 2 ^ (-100 : ℤ) ∧ (x = 1 → w = 0) ∧
      RoundsTo f .rne sat ftz false w (log2F f sat ftz a))

/-- Order of two values that are not NaN, with −∞ lowest and +∞ highest. -/
def Below : FVal → FVal → Prop
  | .inf n, .inf p => n = true ∧ p = false
  | .inf n, _ => n = true
  | _, .inf p => p = false
  | a, b => value a < value b

def isNeg : FVal → Bool
  | .inf n => n
  | .fin n _ _ => n
  | .nan _ => false

/-- a is at most b, −0 below +0. -/
def AtMost (a b : FVal) : Prop := Below a b ∨ (¬ Below b a ∧ (isNeg b = true → isNeg a = true))

/-- minimumNumber and maximumNumber (R195) and the compares: −0 lies below +0 for the one, and equals it for the other; what FTZ reads
(R184); the classes (Table 13.3). -/
def OrderLaw : Prop :=
  ∀ (f : Fmt) (ew fw b x y : Nat) (ftz : Bool), f ∈ vectorFloats → (f, ew, fw, b) ∈ layouts → x < 2 ^ f.width → y < 2 ^ f.width →
    let a := readF f ftz x
    let c := readF f ftz y
    let ex := x / 2 ^ fw % 2 ^ ew
    let fr := x % 2 ^ fw
    let neg := x / 2 ^ (ew + fw) % 2 = 1
    (a = if ftz = true ∧ ex = 0 then FVal.fin (decide neg) 0 (1 - (b : ℤ) - fw) else decodeF f x) ∧
    (∀ mx : Bool, (minmaxF f mx a c).2 = (if anySnan [a, c] then flagNV else 0) ∧
      (anyNan [a] → anyNan [c] → (minmaxF f mx a c).1 = lookup nans f) ∧
      (anyNan [a] → ¬ anyNan [c] → decodeF f (minmaxF f mx a c).1 = c) ∧ (¬ anyNan [a] → anyNan [c] → decodeF f (minmaxF f mx a c).1 = a) ∧
      (¬ anyNan [a, c] → decodeF f (minmaxF f mx a c).1 = a ∧ (if mx then AtMost c a else AtMost a c) ∨
        decodeF f (minmaxF f mx a c).1 = c ∧ (if mx then AtMost a c else AtMost c a))) ∧
    (anyNan [a, c] → cmpF .eq a c = (false, if anySnan [a, c] then flagNV else 0) ∧ cmpF .ne a c = (true, if anySnan [a, c] then flagNV else 0) ∧
      cmpF .lt a c = (false, flagNV) ∧ cmpF .ge a c = (false, flagNV)) ∧
    (¬ anyNan [a, c] → ∀ k, (cmpF k a c).2 = 0 ∧ ((cmpF k a c).1 = true ↔ match k with
      | .eq => ¬ Below a c ∧ ¬ Below c a
      | .ne => Below a c ∨ Below c a
      | .lt => Below a c
      | .ge => ¬ Below a c)) ∧
    classBit f a = (if ex = 2 ^ ew - 1 then (if fr ≠ 0 then (if fr < 2 ^ (fw - 1) then 8 else 9) else if neg then 0 else 7)
      else if ex = 0 then (if fr = 0 ∨ ftz = true then (if neg then 3 else 4) else if neg then 2 else 5) else if neg then 1 else 6)

/-- A conversion that rounds to −0 in FP8A, FP8B or FP4 writes +0 (R177). -/
def plusZero (f : Fmt) (r : Res) : Res := if f ∈ [Fmt.fp8a, .fp8b, .fp4] ∧ r.1 = signed f true 0 then (0, r.2) else r

/-- The integer formats of a conversion. -/
def anyInts : List Fmt := [.i4, .i8, .i16, .i32, .i64, .n8, .n16, .n32, .n64]

/-- Table 12.6, and the scaled conversion of R202. -/
def ConversionLaw : Prop :=
  ∀ (fs fd : Fmt) (rm : Rm) (sat : Bool) (x : Nat),
    let v := decodeF fs x
    let floats := layouts.map Prod.fst
    let nan (s : Bool) : Res := if fd = .fp4 then (0, flagNV) else nanResult fd s
    let inf (s : Bool) : Res := infinite fd sat s
    (fs ∈ floats → fd ∈ floats →
      (∀ s, v = .nan s → convert fs fd rm sat x = nan s) ∧
      (∀ s, v = .inf s → convert fs fd rm sat x = if fs = fd then (x, 0) else inf s) ∧
      (∀ s m e, v = .fin s m e → if fs = fd then convert fs fd rm sat x = (x, 0)
        else ∃ r, RoundsTo fd rm sat false s (value v : ℝ) r ∧ convert fs fd rm sat x = plusZero fd r)) ∧
    (fs ∈ floats → fd ∈ anyInts →
      (∀ s, v = .nan s → convert fs fd rm sat x = (0, flagNV)) ∧
      (∀ s, v = .inf s → convert fs fd rm sat x = if sat then (wrap fd (if s then lowest fd else highest fd), flagNV ||| flagSAT) else (0, flagNV)) ∧
      (∀ s m e, v = .fin s m e → ∃ n : ℤ, Rounds (fun u => ∃ k : ℤ, u = k) rm (value v : ℝ) n ∧ convert fs fd rm sat x =
        if lowest fd ≤ n ∧ n ≤ highest fd then (wrap fd n, if (n : ℚ) = value v then 0 else flagNX)
        else if sat then (wrap fd (max (lowest fd) (min (highest fd) n)), flagNV ||| flagSAT) else (wrap fd n, flagNV))) ∧
    (fs ∈ anyInts → x < 2 ^ fs.width → fd ∈ floats → RoundsTo fd rm sat false false (int fs x : ℝ) (convert fs fd rm sat x)) ∧
    (fs ∈ anyInts → x < 2 ^ fs.width → fd ∈ anyInts → convert fs fd rm sat x = if sat then Spec.sat fd (int fs x) else (wrap fd (int fs x), 0)) ∧
    ∀ (a : FVal) (b : Nat), fd ∈ vectorFloats → b ≤ 255 →
      (b = 255 → dequant fd rm sat a b = nanResult fd true) ∧
      (b ≠ 255 → (∀ s, a = .nan s → dequant fd rm sat a b = nanResult fd s) ∧ (∀ s, a = .inf s → dequant fd rm sat a b = inf s) ∧
        ∀ s m e, a = .fin s m e → RoundsTo fd rm sat false s ((value a : ℝ) * 2 ^ ((b : ℤ) - 127)) (dequant fd rm sat a b))

/-- The exact sum of R186 over encodings read under FTZ, rounded once to nearest even. A NaN result has NV where both infinities are present
or an addend is a signalling NaN, and not for a quiet NaN addend: the model's reading of R186 by R182 and R183 (log 96). -/
def Sums (f : Fmt) (ftz : Bool) (xs : List Nat) (r : Res) : Prop :=
  let vs := xs.map (readF f ftz)
  if .inf true ∈ vs ∧ .inf false ∈ vs then r = nanResult f true
  else if ∃ s, FVal.nan s ∈ vs then r = nanResult f (anySnan vs)
  else if .inf true ∈ vs then r = infinite f false true
  else if .inf false ∈ vs then r = infinite f false false
  else RoundsTo f .rne false ftz (decide (∀ v ∈ vs, isNeg v = true)) ((vs.map fun v => (value v : ℝ)).sum) r

/-- The least, or greatest, of encodings read under FTZ, as minimumNumber and maximumNumber have it (R195, Table 14.3). -/
def Extremum (f : Fmt) (ftz mx : Bool) (xs : List Nat) (r : Res) : Prop :=
  let vs := xs.map (readF f ftz)
  r.2 = (if anySnan vs then flagNV else 0) ∧ r.1 < 2 ^ f.width ∧
  ((∀ v ∈ vs, anyNan [v]) → r.1 = lookup nans f) ∧
  ((∃ v ∈ vs, ¬ anyNan [v]) → decodeF f r.1 ∈ vs ∧ ¬ anyNan [decodeF f r.1] ∧
    ∀ v ∈ vs, ¬ anyNan [v] → if mx then AtMost v (decodeF f r.1) else AtMost (decodeF f r.1) v)

/-- The reductions over a list of encodings that is not empty (R204, Table 14.3). -/
inductive Op where
  | add | adds | and | or | xor | min | max
  deriving DecidableEq, Repr

def Reduces (op : Op) (f : Fmt) (ftz : Bool) (xs : List Nat) (r : Res) : Prop :=
  match op with
  | .add => if f ∈ vectorFloats then Sums f ftz xs r else r = (wrap f (xs.map (int f)).sum, 0)
  | .adds => r = sat f (xs.map (int f)).sum
  | .and => r.2 = 0 ∧ r.1 < 2 ^ f.width ∧ ∀ k, k < f.width → (r.1.testBit k = true ↔ ∀ x ∈ xs, x.testBit k = true)
  | .or => r.2 = 0 ∧ r.1 < 2 ^ f.width ∧ ∀ k, k < f.width → (r.1.testBit k = true ↔ ∃ x ∈ xs, x.testBit k = true)
  | .xor => r.2 = 0 ∧ r.1 < 2 ^ f.width ∧ ∀ k, k < f.width → (r.1.testBit k = true ↔ (xs.countP fun x => x.testBit k) % 2 = 1)
  | .min => if f ∈ vectorFloats then Extremum f ftz false xs r else r.2 = 0 ∧ r.1 ∈ xs ∧ ∀ x ∈ xs, int f r.1 ≤ int f x
  | .max => if f ∈ vectorFloats then Extremum f ftz true xs r else r.2 = 0 ∧ r.1 ∈ xs ∧ ∀ x ∈ xs, int f x ≤ int f r.1

end Sys2Proof.Spec

/-- R26, R192, R193: the two-source rows of the integer and logic family, and VCLMUL and VCLMULH (R203), element by element. -/
def Obligations.VectorIntegerResults : Prop :=
  ∀ p ∈ vectorRows, ∀ (o : HT32V) (s : State), o.fmt ∈ intFormats →
    Elementwise (p.1 o) s (elems s o) (Spec.mask s o.mask) [opA o, opB o] (opD o) fun _ a => p.2 o.fmt (a.getD 0 0) (a.getD 1 0)

/-- R26, R192, R203, R208: the one-source rows, VMACC (Vd is read as a third source), VMV, VSEL, whose mask selects and does not govern, and
VID, VSPLAT and VRAND, which read no vector. -/
def Obligations.VectorMoveResults : Prop :=
  ((∀ p ∈ vectorUnaryRows, ∀ (o : HT32V) (s : State), o.fmt ∈ intFormats →
      Elementwise (p.1 o) s (elems s o) (Spec.mask s o.mask) [opA o] (opD o) fun _ a => (p.2 o.fmt (a.getD 0 0), 0)) ∧
    ∀ (o : HT32V) (s : State),
      (o.fmt ∈ intFormats → Elementwise (.vmacc o) s (elems s o) (Spec.mask s o.mask) [opA o, opB o, opD o] (opD o) fun _ a =>
        (Spec.wrap o.fmt (Spec.int o.fmt (a.getD 2 0) + Spec.int o.fmt (a.getD 0 0) * Spec.int o.fmt (a.getD 1 0)), 0)) ∧
      Elementwise (.vmv o) s (elems s o) (Spec.mask s o.mask) [opA o] (opD o) (fun _ a => (a.getD 0 0, 0)) ∧
      Elementwise (.vsel o) s (elems s o) (2 ^ 4096 - 1) [opA o, opB o] (opD o)
        (fun e a => (if (Spec.mask s o.mask).testBit e then a.getD 0 0 else a.getD 1 0, 0))) ∧
  (∀ (o : HT32V) (s : State),
      Elementwise (.vid o) s (elems s o) (Spec.mask s o.mask) [] (opD o) (fun e _ => (e, 0)) ∧
      Elementwise (.vsplat o) s (elems s o) (Spec.mask s o.mask) [] (opD o) (fun _ _ => ((s.cur.getS o.a.val).toNat, 0)) ∧
      Elementwise (.vrand o) s (elems s o) (Spec.mask s o.mask) [] (opD o)
        (fun e _ => ((mixed (s.cur.getS o.a.val) (s.cur.getS o.b.val + BitVec.ofNat 64 e)).toNat, 0)))

/-- R193: the compares write bit e of Md for active elements only; M0 discards the write; the floating compares raise the flags of
R195. -/
def Obligations.VectorCompares : Prop :=
  (∀ p ∈ compareRows, ∀ (o : HT32V) (s : State), o.fmt ∈ intFormats →
    WritesMask (p.1 o) s (elems s o) (Spec.mask s o.mask) o.d.val [opA o, opB o] fun a =>
      (p.2 (Spec.int o.fmt (a.getD 0 0)) (Spec.int o.fmt (a.getD 1 0)), 0)) ∧
  ∀ p ∈ floatCompareRows, ∀ (o : HT48V) (s : State),
    WritesMask (p.1 o) s (fpElems s o) (Spec.mask s o.mask) o.d.val [fpA o, fpB o] fun a =>
      cmpF p.2 (readF o.fs s.cur.ftz (a.getD 0 0)) (readF o.fs s.cur.ftz (a.getD 1 0))

/-- R209: the mask instructions work on whole mask registers, MPOPC and MFIRST on the bits below VL; M0 reads all-ones and discards
writes; VSTART is left. -/
def Obligations.MaskInstructions : Prop :=
  ∀ (o : HT16K) (s : State),
    let a := s.cur.getM o.ma.val
    let b := s.cur.getM o.mb.val
    let vl := s.cur.vl.toNat
    let low := (s.cur.getM o.ma.val).toNat % 2 ^ (2 * s.regBits)
    Done (.mand o) s (s.cur.setM o.md.val (a &&& b)) s.fallPc ∧ Done (.mor o) s (s.cur.setM o.md.val (a ||| b)) s.fallPc ∧
    Done (.mxor o) s (s.cur.setM o.md.val (a ^^^ b)) s.fallPc ∧ Done (.mnot o) s (s.cur.setM o.md.val (~~~ a)) s.fallPc ∧
    Done (.mpopc o) s (s.cur.setR s.curStream o.s.val (BitVec.ofNat 64 ((List.range vl).countP fun e => low.testBit e))) s.fallPc ∧
    Done (.mfirst o) s (s.cur.setR s.curStream o.s.val (match (List.range vl).find? fun e => low.testBit e with
      | some e => BitVec.ofNat 64 e
      | none => BitVec.allOnes 64)) s.fallPc ∧
    ∃ w, (∀ e, e < 4096 → w.getLsbD e = decide (e < (s.getR o.s).toNat)) ∧ Done (.mset o) s (s.cur.setM o.md.val w) s.fallPc

/-- R194, R195, R196: the floating rows, each the operation of NumberFormats on the operands as FTZ has them read, with the flags of every
active element; VFABS and VFNEG change the sign bit alone; VFCLASS writes one class bit into a result of the same width (R196: N32 for
FP32, N16 for FP16 and BF16).
An infinity of a division by zero under .SAT is the model's reading (log 15), the working precision of VFEXP2 and VFLOG2 log 14. -/
def Obligations.VectorFloatResults : Prop :=
  (∀ (o : HT48V) (s : State), o.fd = o.fs →
    let g (f : Nat → List Nat → Res) (srcs : List Operand) (i : Instr) : Prop := Elementwise i s (fpElems s o) (Spec.mask s o.mask) srcs (fpD o) f
    let rd (a : List Nat) (k : Nat) : FVal := readF o.fs s.cur.ftz (a.getD k 0)
    (∀ p ∈ floatRows1, g (fun _ a => p.2 o.fs o.rm o.sat s.cur.ftz (rd a 0)) [fpA o] (p.1 o)) ∧
    (∀ p ∈ floatRows2, g (fun _ a => p.2 o.fs o.rm o.sat s.cur.ftz (rd a 0) (rd a 1)) [fpA o, fpB o] (p.1 o)) ∧
    (∀ p ∈ floatRows3, g (fun _ a => p.2 o.fs o.rm o.sat s.cur.ftz (rd a 0) (rd a 1) (rd a 2)) [fpA o, fpB o, fpC o] (p.1 o)) ∧
    g (fun _ a => (if (decodeF o.fs (a.getD 0 0)).isNan then canonicalNaN o.fs else a.getD 0 0 % 2 ^ (o.fs.width - 1), 0)) [fpA o] (.vfabs o) ∧
    g (fun _ a => (if (decodeF o.fs (a.getD 0 0)).isNan then canonicalNaN o.fs else a.getD 0 0 ^^^ 2 ^ (o.fs.width - 1), 0)) [fpA o] (.vfneg o)) ∧
  ∀ (o : HT48V) (s : State), (o.fs, o.fd) ∈ [(Fmt.fp32, Fmt.n32), (.fp16, .n16), (.bf16, .n16)] →
    Elementwise (.vfclass o) s (fpElems s o) (Spec.mask s o.mask) [fpA o] ⟨o.d.val, o.group.size, o.fd.width⟩ fun _ a =>
      (2 ^ classBit o.fs (readF o.fs s.cur.ftz (a.getD 0 0)), 0)

namespace Sys2Proof.Spec

def reduceRows : List ((HT32V → Instr) × Op) := [(.vredAdd, .add), (.vredMin, .min), (.vredMax, .max), (.vredAnd, .and), (.vredOr, .or), (.vredXor, .xor)]
def scanRows : List ((HT32V → Instr) × Op) := [(.vscanAdd, .add), (.vscanMin, .min), (.vscanMax, .max), (.vscanAnd, .and), (.vscanOr, .or), (.vscanXor, .xor)]

/-- The integer, floating, reduction and scan instructions, of one, two and three sources: their element count, their sources and their
destination. -/
def operandForms (s : State) (o : HT32V) (q : HT48V) : List (Instr × Nat × List Operand × Operand) :=
  (vectorUnaryRows.map fun p => (p.1 o, elems s o, [opA o], opD o)) ++
  ((vectorRows.map Prod.fst ++ (reduceRows ++ scanRows).map Prod.fst).map fun f => (f o, elems s o, [opA o, opB o], opD o)) ++
  [(.vmacc o, elems s o, [opA o, opB o, opD o], opD o)] ++
  (floatRows1.map fun p => (p.1 q, fpElems s q, [fpA q], fpD q)) ++ (floatRows2.map fun p => (p.1 q, fpElems s q, [fpA q, fpB q], fpD q)) ++
  floatRows3.map fun p => (p.1 q, fpElems s q, [fpA q, fpB q, fpC q], fpD q)

/-- What a register's binding becomes when the results of an instruction enter the queues of the kind-3 bindings that take them (R149):
one entry more, with the registers of its group as the instruction leaves them. -/
def entered (y z : Hart) (wb : Nat) (dsts : List Operand) (k : Nat) : Option Binding :=
  match (y.toPush dsts).find? fun p => p.1 == k with
  | some p => some { p.2 with entries := p.2.entries ++ [{ data := BitVec.ofNat 16384 (z.group wb k p.2.grp.size) }] }
  | none => y.bind k

end Sys2Proof.Spec

/-- R164, R149, R278: an integer, floating, reduction or scan instruction whose VL exceeds its element count raises vector-length, and one
that reads a kind-3 register or writes a stream register the stream trap, with nothing popped or written; one that reads a bound register
whose queue is empty, or whose result finds no place in the queue of a kind-3 binding, waits; a result written to the first register of
a kind-3 binding enters its queue as one entry, and every other binding stays, whatever bindings the hart has. With VSTART at or above VL
nothing is written and nothing enters (the model's reading of R164, log 56); an entry of a group wider than the result takes the group's
other registers as they stand (the model's choice, log 93). -/
def Obligations.BoundRegisters : Prop :=
  ∀ (o : HT32V) (q : HT48V) (s : State) (i : Instr) (n : Nat) (srcs : List Operand) (dst : Operand),
    (i, n, srcs, dst) ∈ operandForms s o q → o.fmt ∈ intFormats → q.fd = q.fs →
    let x := s.cur
    let wb := s.regBits
    let vl := x.vl.toNat
    let vstart := x.vstart.toNat
    (n < vl → TrapsAlone i s { cause := Cause.vectorLength }) ∧
    (vl ≤ n → (∃ p ∈ srcs, badSource x p = true) ∨ badDest x dst = true → TrapsAlone i s { cause := Cause.stream }) ∧
    (vl ≤ n → (∀ p ∈ srcs, badSource x p = false) → badDest x dst = false → x.waitlim ≠ 0 → x.popped = [] →
      (∃ b ∈ x.toPop srcs, b.2.entries = []) ∨ (vstart < vl ∧ ∃ b ∈ x.toPush [dst], b.2.depth ≤ b.2.entries.length) → Waits i s) ∧
    (vl ≤ n → Opens x srcs [dst] → (x.binds.map Prod.fst).Nodup →
      let y := x.opened wb srcs
      ∃ t, exec i s = .next t ∧ Completes s t ∧
        (vstart < vl → ∀ k, t.cur.bind k = entered y t.cur wb [dst] k) ∧
        (vl ≤ vstart → t.cur.binds = y.binds ∧ t.cur.v = y.v))

namespace Sys2Proof.Spec

/-- The place of an element among those a mask selects below it. -/
def placeOf (m e : Nat) : Nat := (List.range e).countP fun k => m.testBit k

/-- The e-th element that a mask selects below n. -/
def selected (m n : Nat) : List Nat := (List.range n).filter fun k => m.testBit k

/-- An element of the block of 128 elements ranks ahead of another of the same block (R198). -/
def ahead (x y : Nat × FVal) : Bool := x.1 / 128 == y.1 / 128 && ranksBefore x.1 x.2 y.1 y.2

end Sys2Proof.Spec

/-- R197, R202, R240: VCVT, VDQ and MDRAIN convert element by element and round once. -/
def Obligations.ConversionResults : Prop :=
  ∀ (o : HT48V) (q : HT48MX) (s : State),
    (o.fd ≠ .acc80 → o.fs ≠ .acc80 →
     let wd := wider o.fd o.fs
     Elementwise (.vcvt o) s (s.regBits * o.group.size / wd.width) (Spec.mask s o.mask) [mixedOperand o.a.val o.group o.fs wd]
       (mixedOperand o.d.val o.group o.fd wd) fun _ a => convert o.fs o.fd o.rm o.sat (a.getD 0 0)) ∧
    (let g := o.group.size
     let buf := (s.cur.opened s.regBits [mixedOperand o.a.val o.group o.fs o.fd, ⟨o.b.val, 1, 8⟩, ⟨o.c.val, g, 32⟩]).bits s.regBits ⟨o.c.val, g, 32⟩
     let scl := (s.cur.opened s.regBits [mixedOperand o.a.val o.group o.fs o.fd, ⟨o.b.val, 1, 8⟩, ⟨o.c.val, g, 32⟩]).bits s.regBits ⟨o.b.val, 1, 8⟩
     Elementwise (.vdq o) s (s.regBits * g / o.fd.width) (Spec.mask s o.mask)
       [mixedOperand o.a.val o.group o.fs o.fd, ⟨o.b.val, 1, 8⟩, ⟨o.c.val, g, 32⟩] ⟨o.d.val, g, o.fd.width⟩ fun e a =>
         dequant o.fd o.rm o.sat (if a.getD 0 0 = marginCode o.fs then bufferValue buf (2 * s.lanes * g) e else narrowValue o.fs (a.getD 0 0))
           (elemAt 8 scl (e / if o.var = 1 then 32 else 128))) ∧
    (let row := s.cur.getAc q.row.val
     Elementwise (.mdrain q) s (min 64 (s.regBits * q.group.size / q.fd.width)) (Spec.mask s q.mask) [] ⟨q.v.val, q.group.size, q.fd.width⟩ fun e _ =>
       if row.rsf || row.csf.getLsbD e then (if q.fd = .fp8a ∧ q.sat = true then 0x7E else canonicalNaN q.fd, flagNV)
       else convert .acc80 q.fd q.rm q.sat (elemAt 80 row.cols.toNat e))

/-- R198, R199: VSCALE writes one scale for each scale block that holds an active element, chosen over the elements in no k-set; a k above
8 is the quantise-operand trap. The k-set of a block is the elements that fewer than k others of the block rank ahead of. The scale is
the least b whose range takes in the greatest magnitude; a NaN or an infinity gives 0xFF and NV, no nonzero element 127. -/
def Obligations.ScaleBlocks : Prop :=
  (∀ (o : HT48V) (s : State),
      let wb := s.regBits
      let src : Operand := ⟨o.a.val, o.group.size, o.fs.width⟩
      let dst : Operand := ⟨o.d.val, 1, 8⟩
      let y := s.cur.opened wb [src]
      let k := (s.cur.getS o.c.val).toNat
      let act := s.active (Spec.mask s o.mask)
      let vals := act.map fun e => (e, decodeF o.fs (y.elem wb src e))
      let bs := if o.var = 1 then 32 else 128
      let r (j : Nat) : Res := blockScale o.fd ((vals.filter fun x => x.1 / bs == j && !(elected k vals).contains x.1).map Prod.snd)
      let blocks := (List.range 128).filter fun j => act.any fun e => e / bs == j
      s.cur.vl.toNat ≤ fpElems s o →
        (k ≤ 8 → Opens s.cur [src] [dst] →
          Writes (.vscale o) s [src] dst (wb / 8) (fun j => if j ∈ blocks then (r j).1 % 256 else elemAt 8 (y.before wb dst) j) (flagsOf (fun j => (r j).2) blocks)) ∧
        (8 < k → Traps (.vscale o) s { cause := Cause.quantise })) ∧
  (∀ (k : Nat) (act : List (Nat × FVal)), (act.map Prod.fst).Nodup → (∀ x ∈ act, x.1 < 4096) →
      ∀ x ∈ act, x.1 ∈ elected k act ↔ (act.filter fun y => ahead y x).length < k) ∧
  (∀ (q : Fmt) (xs : List FVal),
      ((∃ v ∈ xs, ∀ n m e, v ≠ .fin n m e) → blockScale q xs = (0xFF, flagNV)) ∧
      ((∀ v ∈ xs, ∃ n e, v = .fin n 0 e) → blockScale q xs = (127, 0)) ∧
      ∀ n m e, m ≠ 0 → FVal.fin n m e ∈ xs → (∀ v ∈ xs, ∃ n' m' e', v = .fin n' m' e' ∧ magLt m e m' e' = false) →
        let b := (blockScale q xs).1
        (blockScale q xs).2 = 0 ∧ b ≤ 254 ∧ (b < 254 → magLt (quantMax q) ((b : Int) - 127) m e = false) ∧
        ∀ c, c < b → magLt (quantMax q) ((c : Int) - 127) m e = true)

namespace Sys2Proof.Spec

/-- Q of R200 at an exact value over 2^k: a floating format rounds as R181 and R182 say, with +0 for −0; I8 and I4 round to an integer and
clamp to ±127 or ±7 whatever sat is. -/
def Quantises (q : Fmt) (rm : Rm) (sat : Bool) (v : FVal) (k : ℤ) (r : Res) : Prop :=
  let most : ℤ := if q = .i8 then 127 else 7
  (q ∈ layouts.map Prod.fst →
    (∀ s, v = .nan s → r = if q = .fp4 then (0, flagNV) else nanResult q s) ∧ (∀ s, v = .inf s → r = infinite q sat s) ∧
    ∀ s m e, v = .fin s m e → ∃ u, RoundsTo q rm sat false s ((value v : ℝ) / 2 ^ k) u ∧ r = plusZero q u) ∧
  (q ∉ layouts.map Prod.fst →
    (∀ s, v = .nan s → r = (0, flagNV)) ∧ (∀ s, v = .inf s → r = (wrap q (if s then -most else most), flagSAT)) ∧
    ∀ s m e, v = .fin s m e → ∃ n : ℤ, Rounds (fun u => ∃ j : ℤ, u = j) rm ((value v : ℝ) / 2 ^ k) n ∧ ∃ nx : Flags,
      ((n : ℝ) = (value v : ℝ) / 2 ^ k → nx = 0) ∧ ((n : ℝ) ≠ (value v : ℝ) / 2 ^ k → nx = flagNX) ∧
      r = (wrap q (max (-most) (min most n)), if -most ≤ n ∧ n ≤ most then nx else nx ||| flagSAT))

/-- The code of an element (R200): x in the wide format, b its scale, whether it is kept, whether it is elected. -/
def Codes (q fw : Fmt) (rm : Rm) (sat : Bool) (x b : Nat) (kept elect : Prop) (r : Res) : Prop :=
  (b = 0xFF → r = (0, flagNV)) ∧
  (b ≠ 0xFF → kept → r = (if q = .fp4 ∨ q = .i4 then 8 else 0x80, 0)) ∧
  (b ≠ 0xFF → ¬ kept → elect → ∃ u : Res, r = (u.1, u.2 ||| flagMCL) ∧
    (anyNan [decodeF fw x] → if q = .fp8a ∨ q = .fp8b then u = nanResult q false else Quantises q rm true (.inf (x.testBit (fw.width - 1))) 0 u) ∧
    (¬ anyNan [decodeF fw x] → Quantises q rm true (.inf (isNeg (decodeF fw x))) 0 u)) ∧
  (b ≠ 0xFF → ¬ kept → ¬ elect → Quantises q rm sat (decodeF fw x) ((b : ℤ) - 127) r)

/-- The FP16 value of a margin entry (R200), of element value v whose scale is b. -/
def MarginValue (rm : Rm) (sat : Bool) (v : FVal) (b : Nat) (r : Res) : Prop :=
  (b = 0xFF → r = (0x7E00, 0)) ∧
  (b ≠ 0xFF → (∀ s, v = .nan s → r = nanResult .fp16 s) ∧ (∀ s, v = .inf s → r = infinite .fp16 sat s) ∧
    ∀ s m e, v = .fin s m e → RoundsTo .fp16 rm sat false s ((value v : ℝ) / 2 ^ ((b : ℤ) - 127)) r)

end Sys2Proof.Spec

/-- R198, R200: VQMARG and VQMARG.CLAMP keep the elected elements as margin entries and quantise the others; k above 8 is the quantise-operand
trap, with nothing written. Sc gets the number kept, VSTAT the flags of every code and entry, and nothing else changes. In no partition of
a core and with no k do more elements get elected than the buffer has entries, so that neither the margin-overflow trap nor the clamp of
.CLAMP, which the model has, arises. -/
def Obligations.QuantiseMargins : Prop :=
  ∀ (c : Bool) (o : HT48V) (s : State),
    let i := if c then Instr.vqmargClamp o else .vqmarg o
    let wb := s.regBits
    let g := o.group.size
    let src : Operand := ⟨o.a.val, g, o.fs.width⟩
    let scl : Operand := ⟨o.b.val, 1, 8⟩
    let dst := mixedOperand o.d.val o.group o.fd o.fs
    let buf : Operand := ⟨o.d.val + g, g, 32⟩
    let y := s.cur.opened wb [src, scl]
    let k := (s.cur.getS o.c.val).toNat
    let act := s.active (Spec.mask s o.mask)
    let x (e : Nat) : Nat := y.elem wb src e
    let el := elected k (act.map fun e => (e, decodeF o.fs (x e)))
    let cap := 2 * s.lanes * g
    let members := act.filter fun e => el.contains e
    let kept := members.take cap
    let scale (e : Nat) : Nat := y.elem wb scl (e / if o.var = 1 then 32 else 128)
    let old := if y.toPush [dst] = [] then y.bits wb dst else 0
    s.cur.vl.toNat ≤ fpElems s o → o.fd ∈ [Fmt.fp8a, .fp8b, .fp4, .i8, .i4] → o.fs ∈ vectorFloats →
      (8 < k → TrapsAlone i s { cause := Cause.quantise }) ∧
      (k ≤ 8 → members.length ≤ cap ∧ (Opens s.cur [src, scl] [dst, buf] →
          ∃ code entry : Nat → Res, (∀ e ∈ act, Codes o.fd o.fs o.rm o.sat (x e) (scale e) (e ∈ kept) (e ∈ members) (code e)) ∧
            (∀ m ∈ kept, MarginValue o.rm o.sat (decodeF o.fs (x m)) (scale m) (entry m)) ∧
            ∃ t, exec i s = .next t ∧ OnlyHarts s t ∧ (∀ h, h ≠ s.curHart → t.hart h = s.hart h) ∧ Completes s t ∧ t.curSt.pc = s.fallPc ∧
              (∀ e, e < wb * dst.n / o.fd.width → t.cur.elem wb dst e = if e ∈ act then (code e).1 % 2 ^ o.fd.width else elemAt o.fd.width old e) ∧
              (∀ j, j < cap → t.cur.elem wb buf j = match kept[j]? with
                | none => 0x7FFF
                | some m => ((entry m).1 * 2 ^ 16 + m) % 2 ^ 32) ∧
              (∀ r, (r < dst.reg ∨ dst.reg + dst.n ≤ r) → (r < buf.reg ∨ buf.reg + buf.n ≤ r) → t.cur.getV r = y.getV r) ∧
              (∀ r, t.cur.getS r = if r = o.c.val ∧ r ≠ 0 then BitVec.ofNat 64 kept.length else y.getS r) ∧
              (y.toPush [dst, buf] = [] → t.cur.binds = y.binds) ∧
              t.cur.uncounted = ({ y with
                v := t.cur.v, s := t.cur.s, binds := t.cur.binds, vstart := 0
                vstat := y.vstat ||| flagsOf (fun e => (code e).2) act ||| flagsOf (fun m => (entry m).2) kept }.past s.curStream s.fallPc).uncounted))

/-- R204: VRED puts the reduction of the active elements and element 0 of Vb into element 0 of Vd, whenever VSTART < VL, and writes
nothing otherwise; VSCAN writes each active element the reduction up to it. A reduction is the wrapped sum, the least or greatest
value, the bitwise operation, or for a floating format the exact sum rounded once (R186) or minimumNumber and maximumNumber (R195), with
the flags of every rounding. That the sources are popped also when VSTART is at or above VL is the model's reading (log 56), and that a quiet
NaN addend of a sum raises no NV is its reading too (log 96). -/
def Obligations.ReductionsAndScans : Prop :=
  ∀ (o : HT32V) (s : State), o.fmt ∈ intFormats ++ vectorFloats →
    let wb := s.regBits
    let y := s.cur.opened wb [opA o, opB o]
    let act := s.active (Spec.mask s o.mask)
    let set (es : List Nat) : List Nat := y.elem wb (opB o) 0 :: es.map (y.elem wb (opA o))
    let upTo (e : Nat) : List Nat := act.filter fun k => decide (k ≤ e)
    let old (e : Nat) : Nat := elemAt o.fmt.width (y.before wb (opD o)) e
    s.cur.vl.toNat ≤ elems s o → Opens s.cur [opA o, opB o] [opD o] →
      (∀ p ∈ reduceRows,
        (s.cur.vstart.toNat < s.cur.vl.toNat → ∃ r, Reduces p.2 o.fmt s.cur.ftz (set act) r ∧
          Writes (p.1 o) s [opA o, opB o] (opD o) (elems s o) (fun e => if e = 0 then r.1 else old e) r.2) ∧
        (s.cur.vl.toNat ≤ s.cur.vstart.toNat → Writes (p.1 o) s [opA o, opB o] (opD o) (elems s o) old 0)) ∧
      (∀ p ∈ scanRows, ∃ r : Nat → Res, (∀ e ∈ act, Reduces p.2 o.fmt s.cur.ftz (set (upTo e)) (r e)) ∧
        Writes (p.1 o) s [opA o, opB o] (opD o) (elems s o) (fun e => if e ∈ act then (r e).1 else old e) (flagsOf (fun e => (r e).2) act))

/-- R203, R205 to R207: VPERM, VSLIDE, VCOMP and VEXPD move elements by index, by distance and by mask; VPERMW reads the elements whose byte
addresses lie in the popped window, and leaves the others' mask bits set; VMVS moves one element between a vector and a scalar register,
ignoring VL, VSTART and masks. -/
def Obligations.ElementMoves : Prop :=
  ((∀ (o : HT32V) (s : State),
        let wb := s.regBits
        let n := elems s o
        let w := o.fmt.width
        let m := Spec.mask s o.mask
        let act := s.active m
        let vl := s.cur.vl.toNat
        let d := (s.cur.getS o.b.val).toNat
        s.cur.vl.toNat ≤ n →
          (Opens s.cur [opA o, opB o] [opD o] →
            let y := s.cur.opened wb [opA o, opB o]
            Writes (.vperm o) s [opA o, opB o] (opD o) n (fun e => if e ∈ act then
              (if y.elem wb (opB o) e < n then y.elem wb (opA o) (y.elem wb (opB o) e) else 0) else elemAt w (y.before wb (opD o)) e) 0) ∧
          (Opens s.cur [opA o] [opD o] →
            let y := s.cur.opened wb [opA o]
            let old (e : Nat) : Nat := elemAt w (y.before wb (opD o)) e
            Writes (.vslideUp o) s [opA o] (opD o) n (fun e => if e ∈ act ∧ d ≤ e then y.elem wb (opA o) (e - d) else old e) 0 ∧
            Writes (.vslideDown o) s [opA o] (opD o) n (fun e => if e ∈ act then (if e + d < n then y.elem wb (opA o) (e + d) else 0) else old e) 0 ∧
            Writes (.vcomp o) s [opA o] (opD o) n (fun e => if e < vl then (match (selected m vl)[e]? with | some k => y.elem wb (opA o) k | none => 0) else old e) 0 ∧
            Writes (.vexpd o) s [opA o] (opD o) n (fun e => if e < vl ∧ m.testBit e = true then y.elem wb (opA o) (placeOf m e) else old e) 0)) ∧
    (∀ (o : HT32V) (s : State) (b : Binding) (en : Entry) (rest : List Entry) (tag : BitVec 64),
        let wb := s.regBits
        let w := o.fmt.width
        let src : Operand := ⟨o.a.val, b.grp.size, w⟩
        let idx : Operand := ⟨o.b.val, o.group.size, 64⟩
        let dst := mixedOperand o.d.val o.group o.fmt .i64
        let y := s.cur.opened wb [src, idx]
        let off (e : Nat) : Int := (BitVec.ofNat 64 (y.elem wb idx e)).toInt - tag.toInt
        let win := wb * b.grp.size / en.width * (w / 8)
        let act := s.active (Spec.mask s o.mask)
        s.cur.binds = [(o.a.val, some b)] → b.kind = 0 → b.entries = en :: rest → en.tag = some tag → 8 ≤ w → w ≤ 64 →
        s.cur.vl.toNat ≤ s.regBits * o.group.size / 64 → Opens s.cur [src, idx] [dst] → (∀ e ∈ act, off e % (w / 8 : Nat) = 0) →
          ∃ t, exec (.vpermw o) s = .next t ∧ OnlyHarts s t ∧ Completes s t ∧ t.curSt.pc = s.fallPc ∧ t.cur.vstart = 0 ∧
            (∀ e, e < s.regBits * o.group.size / 64 → t.cur.elem wb dst e =
              if e ∈ act ∧ 0 ≤ off e ∧ off e < win then elemAt w (en.data.toNat % 2 ^ (wb * b.grp.size)) ((off e).toNat / (w / 8)) else y.elem wb dst e) ∧
            (o.mask.val ≠ 0 → ∀ e, e < 4096 → (t.cur.getM o.mask.val).getLsbD e =
              if e ∈ act then !(decide (0 ≤ off e) && decide (off e < win)) else (s.cur.getM o.mask.val).getLsbD e))) ∧
  (∀ (o : HT32V) (s : State),
      let wb := s.regBits
      let n := elems s o
      let i := (s.cur.getS o.b.val).toNat
      (Opens s.cur [opA o] [] → o.fmt ≠ .cb2 → o.fmt ≠ .sc8 →
        let y := s.cur.opened wb [opA o]
        let e := y.elem wb (opA o) i
        Done (.vmvsToScalar o) s (y.setS o.d.val (if n ≤ i then 0
          else if o.fmt ∈ [Fmt.i8, .i16, .i32, .i64, .i4] then (BitVec.ofNat o.fmt.width e).signExtend 64 else BitVec.ofNat 64 e)) s.fallPc) ∧
      (Opens s.cur [] [opD o] → i < n →
        Writes (.vmvsToVector o) s [] (opD o) n (fun e => if e = i then (s.cur.getS o.a.val).toNat % 2 ^ o.fmt.width
          else elemAt o.fmt.width (s.cur.before wb (opD o)) e) 0 false))

namespace Sys2Proof.Spec

/-- A path of R211: it begins with e, each member's parent is the next, the last is a root or an external root, and no other is. -/
def IsPath (p : Nat → Nat) (vl : Nat) : Nat → List Nat → Prop
  | _, [] => False
  | e, [a] => a = e ∧ (p a = a ∨ vl ≤ p a)
  | e, a :: b :: l => a = e ∧ p a ≠ a ∧ p a < vl ∧ IsPath p vl (p a) (b :: l)

/-- The forest that a tree instruction reads. -/
def forest (s : State) (o : HT48T) : Forest := forestOf (s.cur.parent s.lanes o.t.val) s.cur.vl.toNat
def trA (o : HT48T) : Operand := ⟨o.a.val, o.group.size, o.fmt.width⟩
def trD (o : HT48T) : Operand := ⟨o.d.val, o.group.size, o.fmt.width⟩
def trElems (s : State) (o : HT48T) : Nat := s.regBits * o.group.size / o.fmt.width

/-- The status word of R214. -/
def statusWord (f : Forest) (kept : Nat) : BitVec 64 :=
  BitVec.ofNat 64 (2 ^ 32 * kept + 2 ^ 16 * ((List.range f.vl).countP fun e => decide (f.vl ≤ f.parent e)) + (List.range f.vl).countP fun e => (f.path e).isNone)

/-- What a tree instruction does: the elements of its vector result that it writes, with their values and flags, the kept count of its
status word, its report masks, and the new parents of elements 0 to VL − 1 of Tu. -/
structure TreeEffect where
  es : List Nat := []
  val : Nat → Nat := fun _ => 0
  flags : Flags := 0
  kept : Nat := 0
  status : Bool := true
  masks : Nat → Option (Nat → Bool) := fun _ => none
  par : Option (Nat → Nat) := none

/-- A tree instruction whose operands open ends (R213, R214): it writes its results and nothing else; where an element is unrooted TCY is
raised, and under TCE the topology-cycle trap follows the writes, the record marking the instruction completed. -/
def TreeEnds (i : Instr) (s : State) (o : HT48T) (srcs dsts : List Operand) (w : TreeEffect) : Prop :=
  let wb := s.regBits
  let y := s.cur.opened wb srcs
  let f := forest s o
  let vl := s.cur.vl.toNat
  let broken := w.status && (List.range vl).any fun e => (f.path e).isNone
  s.curStream = .x → s.cur.vstart.toNat < vl → vl ≤ trElems s o → Opens s.cur srcs dsts →
    ∃ t, exec i s = .next t ∧ OnlyHarts s t ∧ (∀ h, h ≠ s.curHart → t.hart h = s.hart h) ∧
      let z : Hart := { y with v := t.cur.v, binds := t.cur.binds, s := t.cur.s, m := t.cur.m, t := t.cur.t, tset := t.cur.tset,
                               vstat := y.vstat ||| w.flags ||| (if broken then flagTCY else 0), vstart := 0 }
      (∀ d ∈ dsts, (∀ e, e < trElems s o → t.cur.elem wb d e = if e ∈ w.es then w.val e % 2 ^ o.fmt.width else elemAt o.fmt.width (y.before wb d) e) ∧
        ∀ r, r < d.reg ∨ d.reg + d.n ≤ r → t.cur.getV r = y.getV r) ∧
      (dsts = [] → t.cur.v = y.v) ∧ (y.toPush dsts = [] → t.cur.binds = y.binds) ∧
      (∀ r, t.cur.getS r = if w.status = true ∧ r = o.s.val ∧ r ≠ 0 then statusWord f w.kept else s.cur.getS r) ∧
      (∀ k e, e < 4096 → (t.cur.getM k).getLsbD e = match w.masks k with
        | some b => if k ≠ 0 ∧ e < vl then b e else (s.cur.getM k).getLsbD e
        | none => (s.cur.getM k).getLsbD e) ∧
      (match w.par with
        | none => t.cur.t = s.cur.t ∧ t.cur.tset = s.cur.tset
        | some p => (∀ e, t.cur.parent s.lanes o.u.val e = if e < vl then p e else s.cur.parent s.lanes o.u.val e) ∧
          ∀ r, r < o.u.val → t.cur.getT r = s.cur.getT r) ∧
      (broken = false ∨ s.cur.tce = false → Completes s t ∧ t.cur.uncounted = (z.past .x s.fallPc).uncounted) ∧
      (broken = true → s.cur.tce = true → t.cur.halted = true ∧ t.cur.halt.xcause = Cause.topologyCycle ∧ t.cur.halt.xdone = true ∧
        t.cur.sx.pc = s.cur.sx.pc ∧ t.cur.sx.after = s.fallPc ∧ t.cur.vstat = z.vstat ∧ t.cur.vstart = 0 ∧ t.cur.a = s.cur.a ∧ t.cur.c = s.cur.c ∧
        t.cur.ac = s.cur.ac ∧ t.cur.q = s.cur.q ∧ t.cur.bq = s.cur.bq ∧ t.cur.vl = s.cur.vl ∧ t.cur.keys = s.cur.keys ∧ t.cur.window = s.cur.window)

/-- A value moved as an encoding: a NaN becomes canonical (R219, R182). -/
def asMoved (f : Fmt) (x : Nat) : Nat := if f ∈ vectorFloats ∧ (decodeF f x).isNan = true then lookup nans f else x

/-- The reductions of Table 14.3 by op field. -/
def treeOps : List (Nat × Op) := [(0, .add), (1, .adds), (2, .and), (3, .or), (4, .min), (5, .max)]

end Sys2Proof.Spec

/-- R211, R212: the path that the model gives an element is the finite chain of parents to its first root or external root, and an
element without one is unrooted, exactly. -/
def Obligations.ForestPaths : Prop :=
  ∀ (p : Nat → Nat) (vl e : Nat), e < vl →
    (∀ l, (forestOf p vl).path e = some l ↔ IsPath p vl e l) ∧ ((forestOf p vl).unrooted e = true ↔ ¬ ∃ l, IsPath p vl e l)

/-- R218 to R221, R213, R214: TUP and TDOWN reduce the subtree and the path of each active element by Table 14.3, TBCAST gives the nearest
marked ancestor, TDEPTH the depth, TANC the ancestor, TANC.ISA the ancestor test, TROOT the root, with the unrooted elements in its report
mask; unrooted elements get 0 or 65,535; nothing else changes, and under TCE an unrooted element makes each of them trap after these
writes. With VSTART at or above VL a tree instruction performs nothing (that it pops its source is the model's reading, log 56); a quiet NaN
addend of a sum raises no NV (the model's reading, log 96). -/
def Obligations.TreeResults : Prop :=
  (∀ (o : HT48T) (s : State) (op : Op),
    let f := forest s o
    let m := Spec.mask s o.mask
    let act := s.active m
    let vl := s.cur.vl.toNat
    let all := (List.range vl).filter fun e => decide (s.cur.vstart.toNat ≤ e)
    let x (e : Nat) : Nat := (s.cur.opened s.regBits [trA o]).elem s.regBits (trA o) e
    let below (e : Nat) : List Nat := (List.range vl).filter fun j => match f.path j with | some l => l.contains e | none => false
    let ends (i : Instr) (w : TreeEffect) : Prop := TreeEnds i s o [trA o] [trD o] w
    (((o.op.val, op) ∈ treeOps ∧ (o.fmt ∈ intFormats ∨ (o.fmt ∈ vectorFloats ∧ op ∈ [Op.add, .min, .max]))) →
      (∃ r : Nat → Res, (∀ e ∈ act, match f.path e with | none => r e = (0, 0) | some _ => Reduces op o.fmt false ((below e).map x) (r e)) ∧
        ends (.tup o) { es := act, val := fun e => (r e).1, flags := flagsOf (fun e => (r e).2) act }) ∧
      (∃ r : Nat → Res, (∀ e ∈ act, match f.path e with | none => r e = (0, 0) | some l => Reduces op o.fmt false (l.map x) (r e)) ∧
        ends (.tdown o) { es := act, val := fun e => (r e).1, flags := flagsOf (fun e => (r e).2) act })) ∧
    (o.fmt ∈ intFormats ++ vectorFloats →
      ends (.tbcast o) { es := all, val := fun e => match f.path e with
        | none => 0
        | some l => asMoved o.fmt (x ((l.find? fun a => m.testBit a).getD (l.getLastD e))) } ∧
      ends (.tbcastRoot o) { es := all, val := fun e => match f.path e with | none => 0 | some l => asMoved o.fmt (x (l.getLastD e)) }) ∧
    ends (.tanc o) { es := act, val := fun e => match f.path e with | none => 65535 | some l => l.getD (min (x e) (l.length - 1)) e } ∧
    TreeEnds (.tdepth o) s o [] [trD o] { es := act, val := fun e => match f.path e with | none => 65535 | some l => l.length - 1 } ∧
    TreeEnds (.tancIsa o) s o [] [trD o] { es := act, val := fun e => match f.path e with
      | none => 0
      | some l => if s.cur.parent s.lanes o.u.val e < vl ∧ s.cur.parent s.lanes o.u.val e ∈ l then 1 else 0 } ∧
    TreeEnds (.troot o) s o [] [trD o] { es := act, val := fun e => match f.path e with | none => e | some l => l.getLastD e
                                         masks := fun k => if k = o.u.val % 8 then some fun e => (f.path e).isNone else none }) ∧
  ∀ (o : HT48T) (s : State) (i : Instr) (srcs dsts : List Operand),
    (i, srcs, dsts) ∈ [(Instr.tup o, [trA o], [trD o]), (.tdown o, [trA o], [trD o]), (.tbcast o, [trA o], [trD o]), (.tbcastRoot o, [trA o], [trD o]),
      (.tdepth o, [], [trD o]), (.tanc o, [trA o], [trD o]), (.tancIsa o, [], [trD o]), (.troot o, [], [trD o]), (.tfrom o, [trA o], []),
      (.tto o, [], [trD o]), (.tcontr o, [trA o], [trD o]), (.tchk o, [], [])] →
    s.cur.vl.toNat ≤ s.cur.vstart.toNat → s.cur.vl.toNat ≤ trElems s o → Opens s.cur srcs dsts →
      Done i s { s.cur.opened s.regBits srcs with vstart := 0 } s.fallPc

/-- R217, R222, R223, R213, R214: TFROM and TTO move parent indices, TCONTR renumbers the kept elements, TCHK reports in masks; nothing else
changes, and under TCE an unrooted element makes TCONTR and TCHK trap after these writes.
An element's own index is its place in the operand (log 12). -/
def Obligations.TreeTopology : Prop :=
  ∀ (o : HT48T) (s : State),
    let f := forest s o
    let m := Spec.mask s o.mask
    let act := s.active m
    let vl := s.cur.vl.toNat
    let kept := selected m vl
    let x (e : Nat) : Nat := (s.cur.opened s.regBits [trA o]).elem s.regBits (trA o) e
    (o.fmt ∈ intFormats → TreeEnds (.tfrom o) s o [trA o] [] { status := false, par := some fun e => if e ∈ act then
        (if 0 ≤ Spec.int o.fmt (x e) ∧ Spec.int o.fmt (x e) ≤ 65535 then (Spec.int o.fmt (x e)).toNat else 65535) else s.cur.parent s.lanes o.u.val e }) ∧
    TreeEnds (.tto o) s o [] [trD o] { status := false, es := act, val := fun e => s.cur.parent s.lanes o.t.val e } ∧
    TreeEnds (.tcontr o) s o [trA o] [trD o]
      { es := List.range vl, val := fun j => match kept[j]? with | some e => x e | none => 0, kept := kept.length
        par := some fun j => match kept[j]? with
          | none => j
          | some e => match f.path e with
            | none => j
            | some l => match (l.drop 1).find? fun a => m.testBit a with
              | some a => placeOf m a
              | none => if vl ≤ f.parent (l.getLastD e) then 65535 else j } ∧
    (o.d.val % 8 ≠ o.u.val % 8 → TreeEnds (.tchk o) s o [] []
      { masks := fun k => if k = o.u.val % 8 then some fun e => (f.path e).isNone
          else if k = o.d.val % 8 then some fun e => decide (vl ≤ f.parent e) else none }) ∧
    (s.cur.vl.toNat ≤ trElems s o → Opens s.cur [] [] → s.cur.tce = false → ∃ t, exec (.tchk o) s = .next t ∧ Completes s t)

namespace Sys2Proof.Spec

/-- The state in which a completed tile load has been swapped into the latch (R226). -/
def swapped (s : State) : State := s.setCore s.curCoreId s.curCore.swapTile

/-- Check 1 of R229 on a header, with the limits of Table 15.1. -/
def headerGood (h : TileHeader) (f : Fmt) : Prop :=
  h.magic = 0x4D54 ∧ h.reserved = false ∧ h.fmt = f.code ∧ (f ≠ .cb2 → h.bank = 0) ∧ 128 ≤ h.k ∧ h.k % 128 = 0 ∧ 1 ≤ h.n ∧
  ∃ kmax nmax, (f, kmax, nmax) ∈ [(Fmt.fp8a, 256, 64), (.fp8b, 256, 64), (.i8, 256, 64), (.fp4, 512, 64), (.i4, 512, 64), (.cb2, 512, 64),
    (.fp16, 128, 32), (.bf16, 128, 32)] ∧ h.k ≤ kmax ∧ h.n ≤ nmax

/-- The header of a tile image and what R229 asks of it on a core. -/
def tileGood (s : State) (f : Fmt) (h : TileHeader) : Prop :=
  headerGood h f ∧ h.mcnt ≤ 128 ∧ (f = .fp16 ∨ f = .bf16 → h.mcnt = 0) ∧ (f = .cb2 → s.curCore.feat.getLsbD 1 = true) ∧
  (h.mcnt ≠ 0 → s.curCore.feat.getLsbD 0 = true)

/-- The activation formats of a tile (Table 15.1). -/
def accepted (tile fa : Fmt) : Prop :=
  if tile = .fp16 ∨ tile = .bf16 then fa = .fp16 ∨ fa = .bf16 else fa ∈ [Fmt.fp8a, .fp8b, .i8, .fp4, .i4]

/-- The activations of a row instruction (R236, R237): which elements of the K it reads, their codes, the margin code of their format, the
margin value that `.AM` finds for an element, and the scales of the K-blocks. -/
structure Row where
  active : Nat → Bool
  code   : Nat → Nat
  fa     : Fmt
  am     : Bool
  margin : Nat → Option Nat
  scale  : Nat → Nat

/-- The code is the margin code of its format (Table 12.4). -/
def Row.isMargin (r : Row) (k : Nat) : Bool :=
  match r.fa with
  | .fp8a | .fp8b | .i8 => r.code k == 0x80
  | .fp4 | .i4 => r.code k == 8
  | _ => false

/-- A(k) before scaling (R228, R237): zero where the element is not read; a margin code has the value of the first entry of the buffer that
names it, and zero without `.AM` or without such an entry. -/
def Row.value (r : Row) (k : Nat) : FVal :=
  if !r.active k then .fin false 0 0
  else if r.isMargin k then (match r.margin k with | some e => if r.am then decodeF .fp16 (e / 2 ^ 16) else .fin false 0 0 | none => .fin false 0 0)
  else if r.fa ∈ [Fmt.i8, .i4] then .fin (decide (Spec.int r.fa (r.code k) < 0)) (Spec.int r.fa (r.code k)).natAbs 0
  else decodeF r.fa (r.code k)

/-- P × 2^(ρ + γ) of R188 for column n and K-block j of a tile, exact; specials and blocks whose scale is 0xFF enter as zero (R190). -/
def blockSum (r : Row) (t : OpenTile) (n j : Nat) : ℚ :=
  let blk := if t.h.b32 then 32 else 128
  if r.scale j = 0xFF ∨ t.scale j n = 0xFF then 0
  else 2 ^ ((r.scale j : ℤ) - 127 + ((t.scale j n : ℤ) - 127)) *
    ((List.range blk).map fun i => value (r.value (blk * j + i)) * value (t.weight (n * t.h.k + (blk * j + i)))).sum

/-- One update of an accumulator (R189): the exact sum rounded once to ACC80; an exact zero leaves +0, but −0 stays where P is 0; an
infinite accumulator stays. -/
def Accumulates (acc : Nat) (p : ℚ) (b : Nat) : Prop :=
  match decodeF .acc80 acc with
  | .fin s m e => if p = 0 then b = acc
      else if value (.fin s m e) + p = 0 then b = 0
      else ∃ r, RoundsTo .acc80 .rne false false false ((value (.fin s m e) + p : ℚ) : ℝ) r ∧ b = r.1
  | _ => b = acc

/-- The accumulator after the first `j` K-blocks, in ascending order (R189, R236). -/
def AccumulatesTo (p : Nat → ℚ) (from' : Nat) : Nat → Nat → Prop
  | 0, b => b = from'
  | j + 1, b => ∃ c, AccumulatesTo p from' j c ∧ Accumulates c (p j) b

/-- The operands of a row instruction as they stand with its source open. -/
def rowOf (s : State) (o : HT48MX) (t : OpenTile) : Row :=
  let wb := s.regBits
  let g := o.group.size
  let src : Operand := ⟨o.v.val, g, o.fa.width⟩
  let y := s.cur.opened wb [src]
  let buf (i : Nat) : Nat := y.elem wb ⟨o.v.val + g, g, 32⟩ i
  let scales : Nat := (s.cur.getS o.s.val).toNat + if t.h.b32 then (s.cur.getS (o.s.val + 1)).toNat * 2 ^ 64 else 0
  { active := fun k => decide (s.cur.vstart.toNat ≤ k) && decide (k < s.cur.vl.toNat) && decide (k < wb * g / o.fa.width)
    code := y.elem wb src, fa := o.fa, am := decide (o.count.val % 2 = 1)
    margin := fun k => ((List.range (2 * s.lanes * g)).map buf).find? fun e => e % 2 ^ 15 == k
    scale := fun j => if o.s = 0 then 0x7F else scales / 2 ^ (8 * j) % 256 }

end Sys2Proof.Spec

/-- R187 to R190, R228, R236 to R238: MROW and MROWZ update one accumulator row from the latched tile and the activations. Every column below
the tile's N takes the exact block partials of its K-blocks in ascending order, rounded once to ACC80 after each; MROWZ starts every column,
RSF, CSF and AMC from zero, MROW from what they hold; RSF takes a special activation or scale, CSF the tile's special columns, AMC the margins
resolved; columns at or above the tile's N keep their sums (zero under MROWZ); every other row and VSTAT are unchanged. The traps come in the
order of R236: feature-absent, vector-length, stream, matrix, and write nothing.
A count of margins above 255 is left out (log 13); an accumulator that has become infinite stays so (Round of R189). -/
def Obligations.MatrixRows : Prop :=
  ∀ (zero : Bool) (o : HT48MX) (s : State),
    let i := if zero then Instr.mrowz o else .mrow o
    let nel := s.regBits * o.group.size / o.fa.width
    let src : Operand := ⟨o.v.val, o.group.size, o.fa.width⟩
    let buf : Operand := ⟨o.v.val + o.group.size, o.group.size, 32⟩
    let latched := (swapped s).curCore.tile
    let fits (t : Tile) : Prop := t.asid = s.cur.asid ∧ accepted t.opened.f o.fa ∧ (t.opened.h.b32 = true → o.s.val % 2 = 0)
    let am : Prop := o.count.val % 2 = 1
    let bound : Prop := badSource s.cur src = true ∨ (am ∧ ∃ b ∈ s.cur.bindings, overlaps buf b.1 b.2 = true)
    (am → s.curCore.feat.getLsbD 0 = false → TrapsAlone i s { cause := Cause.featureAbsent }) ∧
    (s.cur.tileHeld = false → (am → s.curCore.feat.getLsbD 0 = true) →
      (nel < s.cur.vl.toNat → TrapsAlone i s { cause := Cause.vectorLength }) ∧
      (s.cur.vl.toNat ≤ nel → bound → TrapsAlone i s { cause := Cause.stream }) ∧
      (s.cur.vl.toNat ≤ nel → ¬ bound → (∀ t, latched = some t → ¬ fits t) → TrapsAlone i s { cause := Cause.matrix }) ∧
      ∀ tile, s.cur.vl.toNat ≤ nel → ¬ bound → latched = some tile → fits tile → Opens s.cur [src] [] → tile.opened.h.n ≤ 64 →
        let t0 := tile.opened
        let r := rowOf s o t0
        let blk := if t0.h.b32 then 32 else 128
        let old : AccRow := s.cur.getAc o.row.val
        let margins := (List.range t0.h.k).countP fun k => r.active k && r.isMargin k && r.am && (r.margin k).isSome
        ∃ t, exec i s = .next t ∧ Completes s t ∧ t.curSt.pc = s.fallPc ∧ t.mem = s.mem ∧ t.hub = s.hub ∧
          (∀ h, h ≠ s.curHart → t.hart h = s.hart h) ∧ (∀ c, t.core c = (swapped s).core c) ∧
          t.cur.uncounted = ({ s.cur.opened s.regBits [src] with ac := t.cur.ac, tile := some tile, vstart := 0 }.past s.curStream s.fallPc).uncounted ∧
          (∀ k, k ≠ o.row.val → t.cur.getAc k = s.cur.getAc k) ∧
          let new := t.cur.getAc o.row.val
          let from' (n : Nat) : Nat := if zero then 0 else old.col n
          (∀ n, n < 64 → (n < t0.h.n → ∃ b, AccumulatesTo (blockSum r t0 n) (from' n) (t0.h.k / blk) b ∧ new.col n = b % 2 ^ 80) ∧
            (t0.h.n ≤ n → new.col n = from' n)) ∧
          (new.rsf = true ↔ (zero = false ∧ old.rsf = true) ∨ ∃ k, k < t0.h.k ∧ r.active k = true ∧ (FVal.special (r.value k) = true ∨ r.scale (k / blk) = 0xFF)) ∧
          new.csf = (if zero then tile.cf else old.csf ||| tile.cf) ∧
          (margins ≤ 255 → new.amc.toNat = min 255 ((if zero then 0 else old.amc.toNat) + margins)))

/-- R241: MCLR clears a run of rows, MSTAT reads a row's column word, its status word, or the tile's column word. -/
def Obligations.MatrixClearAndStatus : Prop :=
  ∀ (o : HT48MX) (s : State),
    (∃ t, exec (.mclr o) s = .next t ∧ OnlyHarts s t ∧ Completes s t ∧ t.curSt.pc = s.fallPc ∧
      ∀ k, t.cur.getAc k = if o.row.val ≤ k ∧ k < o.row.val + o.count.val then {} else s.cur.getAc k) ∧
    (let tile := (swapped s).curCore.tile.filter fun t => t.asid == s.cur.asid
     ∃ t, exec (.mstat o) s = .next t ∧ Completes s t ∧ t.curSt.pc = s.fallPc ∧ t.mem = s.mem ∧ (∀ k, t.cur.getAc k = s.cur.getAc k) ∧
      (s.curStream = .x → o.s ≠ 0 →
        (o.count.val = 0 → t.getR o.s = (s.cur.getAc o.row.val).csf) ∧
        (o.count.val = 1 →
          let w := t.getR o.s
          w.getLsbD 0 = (s.cur.getAc o.row.val).rsf ∧ w.extractLsb' 8 8 = (s.cur.getAc o.row.val).amc ∧ w.extractLsb' 1 7 = 0 ∧
          match tile with
          | some t => w.extractLsb' 16 16 = BitVec.ofNat 16 t.opened.h.mcnt ∧ w.extractLsb' 32 16 = BitVec.ofNat 16 t.opened.h.k ∧
              w.extractLsb' 48 8 = BitVec.ofNat 8 t.opened.h.n ∧ w.extractLsb' 56 5 = BitVec.ofNat 5 t.opened.h.fmt ∧ w.getLsbD 61 = true
          | none => w.extractLsb' 16 48 = 0) ∧
        (o.count.val = 2 → t.getR o.s = (match tile with | some t => t.cf | none => 0))))

/-- R229, R230, R233, R235: MTLOAD and MTLOADQ check a tile image, in the order of R229, and MTLOAD puts it in the shadow; a bad header, count
of margins or margin entry traps with its cause and leaves the earlier tile latched and the shadow empty. CBLOAD checks a codebook image
and loads its bank, or traps and leaves it. The column special word of a tile marks the columns that hold a special weight or a NaN scale.
That the loads leave VSTART is the model's reading (log 29). -/
def Obligations.TileLoads : Prop :=
  (∀ (o : HT48VM) (s : State) (hb img : List Byte),
      let s1 := swapped s
      let sa := (s.getR o.base).toInt + o.disp.toInt
      (let h := headerOf (leNat hb)
       let book := if o.fmt = .cb2 then (if h.bank = 1 then s1.curCore.book1 else s1.curCore.book0) else 0
       let t0 := openImage img book
       sa % 64 = 0 → Steady (padBlock sa 64) s1 hb → tileGood s o.fmt h → Steady (padBlock sa (h.size o.fmt)) s1 img →
       (∀ i, i < h.mcnt → (t0.entry i).testBit 15 = false ∧ t0.entry i % 2 ^ 15 < h.n * h.k) →
        ∃ t, exec (.mtload o) s = .next t ∧ Completes s t ∧ t.curSt.pc = s.fallPc ∧ t.mem = s.mem ∧
          t.curCore.shadow = some ⟨img, book, t0.columnWord, s.cur.asid⟩ ∧ t.curCore.tile = s1.curCore.tile ∧
          (∀ q rank, s.cur.quire = some (q, rank) → exec (.mtloadq o) s = .next (s1.latchAt s.curHart.die (tget {} (s.die s.curHart.die).quires q : Quire).members
            ⟨img, book, t0.columnWord, s.cur.asid⟩).complete)) ∧
      (sa % 64 = 0 → Steady (padBlock sa 64) s1 hb →
        let h := headerOf (leNat hb)
        let fails (c : BitVec 16) : Prop := ∀ i, i = Instr.mtload o ∨ (i = .mtloadq o ∧ s.cur.quire.isSome = true) →
          ∃ t, exec i s = .next t ∧ Becomes s1 t (takeTrap { cause := c } s1).cur ∧ t.curCore.shadow = none ∧
            t.curCore.tile = if s.curCore.shadow.isSome then s.curCore.shadow else s.curCore.tile
        (¬ headerGood h o.fmt → fails Cause.tileFormat) ∧
        (headerGood h o.fmt →
          (128 < h.mcnt → fails Cause.marginOverflow) ∧
          (h.mcnt ≤ 128 → h.mcnt ≠ 0 → o.fmt = .fp16 ∨ o.fmt = .bf16 → fails Cause.tileFormat) ∧
          (h.mcnt ≤ 128 → (o.fmt = .fp16 ∨ o.fmt = .bf16 → h.mcnt = 0) →
            (o.fmt = .cb2 ∧ s.curCore.feat.getLsbD 1 = false) ∨ (h.mcnt ≠ 0 ∧ s.curCore.feat.getLsbD 0 = false) → fails Cause.featureAbsent)) ∧
        (tileGood s o.fmt h → Steady (padBlock sa (h.size o.fmt)) s1 img →
          (∃ i, i < h.mcnt ∧ let e := bits (leNat img) (8 * h.marginAt o.fmt + 32 * i) 32
            (e.testBit 15 = true ∨ h.n * h.k ≤ e % 2 ^ 15)) → headerOf (leNat img % 2 ^ 512) = h → fails Cause.tileFormat)) ∧
      (s.curCore.feat.getLsbD 1 = false → TrapsAlone (.cbload o) s { cause := Cause.featureAbsent }) ∧
      (sa % 64 = 0 → s.curCore.feat.getLsbD 1 = true → Steady (padBlock sa 2048) s img →
        (∃ p, p < 256 ∧ bits (leNat img) (64 * p + 33) 31 ≠ 0) → TrapsAlone (.cbload o) s { cause := Cause.codebookFormat }) ∧
      (sa % 64 = 0 → s.curCore.feat.getLsbD 1 = true → Steady (padBlock sa 2048) s img →
       (∀ p, p < 256 → bits (leNat img) (64 * p + 33) 31 = 0) →
        ∃ t, exec (.cbload o) s = .next t ∧ Completes s t ∧ t.curSt.pc = s.fallPc ∧ t.mem = s.mem ∧
          (if o.v.val = 1 then t.curCore.book1 else t.curCore.book0) = BitVec.ofNat 16384 (leNat img) ∧
          (if o.v.val = 1 then t.curCore.book0 else t.curCore.book1) = if o.v.val = 1 then s.curCore.book0 else s.curCore.book1)) ∧
  (∀ (t : OpenTile) (n : Nat), t.h.n ≤ 64 → n < 64 →
      (t.columnWord.getLsbD n = true ↔ n < t.h.n ∧
        ((∃ k, k < t.h.k ∧ FVal.special (t.weight (n * t.h.k + k)) = true) ∨ ∃ j, j < t.h.k / t.h.blk ∧ t.scale j n = 0xFF)))

namespace Sys2Proof.Spec

/-- A group of n elements of width w packed (R174). -/
def packed (w n : Nat) (x : Nat → Nat) : Nat := (List.range n).foldl (fun v e => v + x e * 2 ^ (w * e)) 0

/-- The bytes of element e of width w at an address, a nibble of a 4-bit format in its byte (R174). -/
def elementAt (w e : Nat) (a : Int) : Source := .at' a (max 1 (w / 8)) (if w = 4 then 4 * (e % 2) else 0)

/-- A source reads as x at place m, and changes nothing: nothing is read and x is zero; or the address is canonical and aligned (R70,
R87), its page translates (R76, R79) and its sectors pass their checks (R89, R112). -/
def ReadsAt (s : State) (w : Nat) (m : Mapped) (x : Nat) : Source → Prop
  | .zero => x = 0
  | .at' a n sh => -(2 ^ 56) ≤ a ∧ a < 2 ^ 56 ∧ (BitVec.ofInt 64 a).toNat % n = 0 ∧ Steady (translateCur (BitVec.ofInt 64 a) .read) s m ∧
      Passes s (some m.key) m.pa n ∧ x = valueAt s.mem m.pa n / 2 ^ sh % 2 ^ w
  | .fault _ _ => False

/-- The addresses of a page have one translation, as R86 gives every page of an access. -/
def OnePage (es : List Nat) (va : Nat → BitVec 64) (M : Nat → Mapped) : Prop :=
  ∀ e ∈ es, ∀ k ∈ es, vpageOf (va k) (M e).level = vpageOf (va e) (M e).level →
    (M k).leaf = (M e).leaf ∧ (M k).level = (M e).level ∧ (M k).key = (M e).key

/-- The address of a source, none where nothing is read. -/
def addressOf : Source → Option (BitVec 64)
  | .at' a _ _ => some (BitVec.ofInt 64 a)
  | _ => none

/-- Each of n elements reads as x, without a fault and without a change of state, and no invalidation comes between them (R85). -/
def Reads (s : State) (w n : Nat) (src : Nat → Source) (x : Nat → Nat) : Prop :=
  Quiet s ∧ s.upto = none ∧ ∃ M : Nat → Mapped, (∀ e, e < n → ReadsAt s w (M e) (x e) (src e)) ∧
    OnePage ((List.range n).filter fun e => (addressOf (src e)).isSome) (fun e => (addressOf (src e)).getD 0) M

/-- A binding that an explicit load of a group can fill at once (R155, R239). -/
def Fillable (s : State) (v : Fin 64) (g : Group) (b : Binding) : Prop :=
  s.cur.bind v.val = some b ∧ b.kind = 0 ∧ b.grp = g ∧ b.filling = none ∧ b.rows = [] ∧ b.entries.length < b.depth

/-- The binding after it took one entry, filled with elements of width w. -/
def taken (b : Binding) (w data : Nat) (tag : Option (BitVec 64)) : Binding :=
  { b with entries := b.entries ++ [{ data := BitVec.ofNat 16384 data, tag := tag, width := w }], filling := none, cursor := b.cursor + 1 }

/-- The bytes of a store as it changes them: element e of width w with value x at a place. -/
def putAt (w e x place : Nat) (m : Nat → Byte) : Nat → Byte := fun a =>
  if w = 4 then
    (if a = place then (if e % 2 = 0 then BitVec.ofNat 8 ((m a).toNat / 16 * 16 + x % 16) else BitVec.ofNat 8 (x % 16 * 16 + (m a).toNat % 16)) else m a)
  else if place ≤ a ∧ a < place + w / 8 then BitVec.ofNat 8 (x >>> (8 * (a - place))) else m a

/-- The strided stores of R250, with the exact address of element e. -/
def storeForms (s : State) : List ((HT48VM → Instr) × (HT48VM → Nat → Int)) :=
  [(.vst, fun o e => (s.getR o.base).toInt + o.disp.toInt + (e * o.fmt.width / 8 : Nat)),
   (.vsts, fun o e => (s.getR o.base).toInt + o.disp.toInt + e * (s.getR o.s).toInt)]

/-- A store of elements es of a group to places that their pages give, all under one key (R86, R89, R250). -/
def StoresTo (i : Instr) (s : State) (srcs : List Operand) (w mask : Nat) (M : Nat → Mapped) : Prop :=
  let y := s.cur.opened s.regBits srcs
  ∃ t, exec i s = .next t ∧ Completes s t ∧ t.curSt.pc = s.fallPc ∧ (∀ h, h ≠ s.curHart → t.hart h = s.hart h) ∧
    t.cur.uncounted = ({ y with vstart := 0 }.past s.curStream s.fallPc).uncounted ∧
    (∃ hs ds pc m bad tags, t = { s with harts := hs, dies := ds, fallPc := pc, mem := m, badSectors := bad, keyTags := tags }) ∧
    (∀ d, (t.die d).uncounted = (s.die d).uncounted) ∧
    ∀ a, t.mem.read a = (s.active mask).foldl (fun m e => putAt w e (elemAt w (y.bits s.regBits (srcs.headD ⟨0, 0, 1⟩)) e) (M e).pa m) s.mem.read a

/-- The key-scratchpad update of R257: entries (element, key, value) in ascending order; `upd` is what the value of a key that is
found becomes, none where it stays. Answers the list of keys and the elements refused for want of room. -/
def keyFold (room : Nat) (upd : Nat → Nat → Option Nat) :
    List (Nat × BitVec 64 × Nat) → List (BitVec 64 × BitVec 64) → List (BitVec 64 × BitVec 64) × List Nat
  | [], ks => (ks, [])
  | (e, k, v) :: rest, ks =>
    match ks.find? fun p => p.1 == k with
    | some p =>
      match upd p.2.toNat v with
      | some x => keyFold room upd rest (ks.map fun q => if q.1 = k then (k, BitVec.ofNat 64 x) else q)
      | none => keyFold room upd rest ks
    | none =>
      if ks.length < room then keyFold room upd rest (ks ++ [(k, BitVec.ofNat 64 v)])
      else let r := keyFold room upd rest ks; (r.1, e :: r.2)

end Sys2Proof.Spec

/-- R148 to R153, R161: SBIND binds the record at the address in As, a kind-2 record with the snapshot of its descriptor, and S0 a
default binding; SFREE frees a binding, once no fill of its stream is in flight, and SSKIP moves its cursor; both trap without one; SSTAT
reads the word of Table 10.6. What counts as a fill in flight is the model's reading (log 64). -/
def Obligations.StreamBindings : Prop :=
  ∀ (o : HT16VS) (s : State),
    let a := s.getR o.s
    (o.s = 0 → bindFits s.cur o.v.val {} = true → Done (.sbind o) s (s.cur.setBind o.v.val (some {})) s.fallPc) ∧
    (∀ r b, o.s ≠ 0 → a.toNat % 64 = 0 → isCanonical a → Steady (readBlockCur a 64) s r → recordOf (leNat r) = some b →
      bindFits s.cur o.v.val b = true →
      (b.kind ≠ 2 → Done (.sbind o) s (s.cur.setBind o.v.val (some b)) s.fallPc) ∧
      (∀ img k, b.kind = 2 → b.base.toNat % 64 = 0 → isCanonical b.base → k < 14 → b.slice = 8 * 2 ^ k →
        b.slice ≤ s.regBits * b.grp.size / 8 → Steady (readBlockCur b.base 320) s img → (descOf (leNat img)).live = true →
        descCode (leNat img) = 0 → b.roff + b.slice ≤ (descOf (leNat img)).rowb →
          let per := s.regBits * b.grp.size / (8 * b.slice)
          Done (.sbind o) s (s.cur.setBind o.v.val (some { b with len := (descOf (leNat img)).len, extents := (descOf (leNat img)).exts
                                                                  total := (b.count + per - 1) / per })) s.fallPc)) ∧
    (s.cur.bind o.v.val = none → Traps (.sfree o) s { cause := Cause.stream } ∧ Traps (.sskip o) s { cause := Cause.stream } ∧
      Done (.sstat o) s (s.cur.setR s.curStream o.s.val 0) s.fallPc) ∧
    ∀ b, s.cur.bind o.v.val = some b →
      (let busy := b.filling ≠ none ∧ (b.kind = 1 ∨ b.kind = 2 ∨ b.rows ≠ [])
       (¬ busy → Done (.sfree o) s (s.cur.setBind o.v.val none) s.fallPc) ∧ (busy → s.cur.waitlim ≠ 0 → Waits (.sfree o) s)) ∧
      (b.kind = 0 ∨ b.kind = 3 → Traps (.sskip o) s { cause := Cause.stream }) ∧
      (b.kind = 1 ∨ b.kind = 2 → Done (.sskip o) s (s.cur.setBind o.v.val (some { b with cursor := min b.total (b.cursor + a.toNat) })) s.fallPc) ∧
      (b.kind < 4 → Done (.sstat o) s (s.cur.setR s.curStream o.s.val
        (1#1 ++ BitVec.ofNat 3 b.kind ++ 0#19 ++ BitVec.ofBool b.short ++ BitVec.ofNat 8 b.entries.length ++ BitVec.ofNat 32 b.cursor)) s.fallPc)

/-- R155 to R157, R86: VLD, VLDS, VLDFF and VLDW fill one entry of a kind-0 binding, elements at unit or Ss stride; VLDFF also writes how
many it filled, and stops short of the first fault of a page above element 0, but of no violation and no integrity fault; VLDW tags the
entry with the address of element 0. -/
def Obligations.ExplicitLoads : Prop :=
  ∀ (o : HT48VM) (s : State) (b : Binding) (x : Nat → Nat), Fillable s o.v o.group b →
    let w := o.fmt.width
    let full := s.regBits * o.group.size / w
    let word := s.getR o.s
    let count := (word.extractLsb' 32 16).toNat
    let n := if count = 0 then full else count
    let base := (s.getR o.base).toInt + o.disp.toInt
    let unit (e : Nat) : Source := elementAt w e (base + (e * w / 8 : Nat))
    let filled (m : Nat) (tag : Option (BitVec 64)) : Hart := s.cur.setBind o.v.val (some (taken b w (packed w m x) tag))
    (word.extractLsb' 48 16 = 0 → n ≤ full →
      (word.extractLsb' 0 32 = 0 → Reads s w n unit x → Done (.vld o) s (filled n none) s.fallPc ∧
        Done (.vldff o) s ((filled n none).setR s.curStream o.s.val (BitVec.ofNat 64 n)) s.fallPc) ∧
      (Reads s w n (fun e => elementAt w e (base + e * (word.extractLsb' 0 32).toInt)) x → Done (.vlds o) s (filled n none) s.fallPc) ∧
      ∀ m i l, 0 < m → m < n → word.extractLsb' 0 32 = 0 → Reads s w m unit x → Steady (sortSources unit [] (List.range n)) s l →
        l[m]? = some (m, .fault i) → i.cause ≠ Cause.violation → i.cause ≠ Cause.integrity →
        Done (.vldff o) s ((filled m none).setR s.curStream o.s.val (BitVec.ofNat 64 m)) s.fallPc) ∧
    (Reads s w full unit x → Done (.vldw o) s (filled full (some (BitVec.ofInt 64 base))) s.fallPc)

/-- R158, R159, R239: VLDX and VLDT take their addresses from the oldest entry of a kind-3 binding, which they pop; VLDCH unpacks the chunks
that the bitmaps of a chunk object name; MRLDFF asks for the rows whose pages translate, up to the first that faults, and writes their
number; without a binding that fits it is the stream trap.
That VLDX and VLDT pop at their completion is the model's reading (log 27), as are the chunk-format checks (log 28). -/
def Obligations.IndexedLoads : Prop :=
  ((∀ (o : HT48VX) (s : State) (b xb : Binding) (ie : Entry) (rest : List Entry) (x : Nat → Nat), Fillable s o.v o.group b →
      s.cur.bind o.x.val = some xb → xb.kind = 3 → xb.entries = ie :: rest →
      let w := o.fmt.width
      let full := s.regBits * o.group.size / w
      let base := (s.getR o.base).toInt + o.disp.toInt
      let after (n : Nat) : Hart := (s.cur.setBind o.v.val (some (taken b w (packed w n x) none))).setBind o.x.val (some { xb with entries := rest })
      (let n := min full (s.regBits * xb.grp.size / 64)
       Reads s w n (fun e => elementAt w e (base + (BitVec.ofNat 64 (elemAt 64 ie.data.toNat e)).toInt)) x → Done (.vldx o) s (after n) s.fallPc) ∧
      ∀ sh, 1024 ≤ s.regBits * xb.grp.size → shapeOf o.fmt full ie.data.toNat = some sh → Reads s w sh.count (sh.source w base) x →
        Done (.vldt o) s (after sh.count) s.fallPc) ∧
    ∀ (o : HT48VM) (s : State) (b : Binding) (x : Nat → Nat) (nch tab data : Nat) (map : Nat → Nat) (at' : Nat → Int), Fillable s o.v o.group b →
      let w := o.fmt.width
      let full := s.regBits * o.group.size / w
      let obj := (s.getR o.base).toInt + o.disp.toInt
      let c := (s.getR o.s).toNat
      let there (e : Nat) : Bool := decide (c + e / 128 < nch) && (map (e / 128)).testBit (e % 128)
      let below (e : Nat) : Nat := ((List.range (e % 128)).countP fun k => (map (e / 128)).testBit k) * w
      4 ≤ w → w ≤ 32 → full % 128 = 0 → Steady (chunkHeader obj o.fmt) s (nch, tab, data) →
      (∀ k, k < full / 128 → c + k < nch → Steady (chunkAt obj w nch tab data (c + k)) s (map k, at' k)) →
      Reads s w full (fun e => if there e then .at' (at' (e / 128) + (below e / 8 : Nat)) (max 1 (w / 8)) (below e % 8) else .zero) x →
      Done (.vldch o) s (s.cur.setBind o.v.val (some (taken b w (packed w full x) none))) s.fallPc) ∧
  (∀ (o : HT48MX) (s : State),
      let a := s.getR o.s
      (s.cur.bind o.v.val = none → Traps (.mrldff o) s { cause := Cause.stream }) ∧
      ∀ b, s.cur.bind o.v.val = some b → b.kind = 0 → b.grp = o.group → b.fmt = o.fa → isCanonical a → a.toNat % 64 = 0 →
        let len := s.regBits * b.grp.size / 8
        let row (k : Nat) : BitVec 64 := a + BitVec.ofNat 64 (k * len)
        let asks (q : Nat) : Prop := Done (.mrldff o) s ((s.cur.setBind o.v.val (some { b with rows := b.rows ++ (List.range q).map row })).setR s.curStream
          (o.row.val % 32) (BitVec.ofNat 64 q)) s.fallPc
        let lines := rowLines a len b.fmt.width o.count.val
        (∀ M : Nat → Mapped, (∀ k x, lines[k]? = some x → isCanonical x.2.2 ∧ Steady (translateCur x.2.2 .read) s (M k)) →
          OnePage (List.range lines.length) (fun k => (lines[k]?.map fun x => x.2.2).getD 0) M → asks o.count.val) ∧
        ∀ q i, s.upto = none → Steady (sortRows [] lines none) s (some (q, i)) → 0 < q → i.cause ≠ Cause.violation → i.cause ≠ Cause.integrity → asks q)

/-- R118, R160, R250: VLDP reads and VSTP writes the active elements of a group in the scratchpad, at unit or Ss stride; an address out
of range above the first active element cuts VL there, one at the first is the scratchpad-range trap. -/
def Obligations.ScratchpadVectors : Prop :=
  ∀ (o : HT48VM) (s : State) (r : Nat → PadRef),
    let w := o.fmt.width
    let reg' : Operand := ⟨o.v.val, o.group.size, w⟩
    let n := s.regBits * o.group.size / w
    let size := max 1 (w / 8)
    let base := (s.getR o.base).toInt + o.disp.toInt
    let addr (e : Nat) : Int := if o.s = 0 then base + (e * w / 8 : Nat) else base + e * (s.getR o.s).toInt
    let act := s.active (Spec.mask s o.mask)
    let good (e : Nat) : Prop := s.padRef (addr e) = some (r e) ∧ addr e % size = 0 ∧ (s.core (r e).core).stash = [] ∧
      (∀ k ∈ sectorsOf (r e).off size, k ∉ (s.core (r e).core).badSp) ∧
      (0x200000 ≤ addr e → ∀ t ∈ s.tasksOn (r e).core, t.asid = s.cur.asid)
    let bytes (e : Nat) : Nat := valueAt (s.core (r e).core).scratch (r e).off size
    let read (e : Nat) : Nat := if w = 4 then bytes e / 16 ^ (e % 2) % 16 else bytes e
    64 % w = 0 → s.cur.vl.toNat ≤ n → s.cur.popBad = [] → (∀ b ∈ s.cur.bindings, overlaps reg' b.1 b.2 = false) →
      ((∀ e ∈ act, good e) → Writes (.vldp o) s [] reg' n (fun e => if e ∈ act then read e else s.cur.elem s.regBits reg' e) 0) ∧
      (∀ k ∈ act, (∃ e ∈ act, e < k) → (∀ e ∈ act, e < k → good e) → s.padRef (addr k) = none →
        ∃ t, exec (.vldp o) s = .next t ∧ Completes s t ∧ t.mem = s.mem ∧ t.cur.vl.toNat = k ∧ t.cur.vstart = 0 ∧
          ∀ e, e < n → t.cur.elem s.regBits reg' e = if e ∈ act ∧ e < k then read e else s.cur.elem s.regBits reg' e) ∧
      (∀ k rest, act = k :: rest → s.padRef (addr k) = none → Traps (.vldp o) s { cause := Cause.padRange, addr := BitVec.ofInt 64 (addr k) }) ∧
      ((∀ e ∈ act, good e) → ∃ t, exec (.vstp o) s = .next t ∧ Completes s t ∧ t.curSt.pc = s.fallPc ∧ t.mem = s.mem ∧ t.hub = s.hub ∧
        (∀ h, h ≠ s.curHart → t.hart h = s.hart h) ∧ t.cur.uncounted = ({ s.cur with vstart := 0 }.past s.curStream s.fallPc).uncounted ∧
        ∀ c a, (t.core c).scratch.read a = (act.filter fun e => (r e).core == c).foldl
          (fun m e => putAt w e (s.cur.elem s.regBits reg' e) (r e).off m) (s.core c).scratch.read a)

/-- R250, R251: VST, VSTS and VSTX store the active elements in ascending order, at unit stride, at the stride in Ss, or at the index
of each element; every other byte of memory and every register but the popped sources and VSTART are unchanged.
The ascending order of element writes is the model's reading (log 30). -/
def Obligations.GlobalStores : Prop :=
  (∀ (o : HT48VM) (s : State) (M : Nat → Mapped) (key : BitVec 512), ∀ p ∈ storeForms s,
    let src : Operand := ⟨o.v.val, o.group.size, o.fmt.width⟩
    let y := s.cur.opened s.regBits [src]
    64 % o.fmt.width = 0 → s.cur.vl.toNat ≤ s.regBits * o.group.size / o.fmt.width → Opens s.cur [src] [] → Quiet s → s.upto = none →
    OnePage (s.active (Spec.mask s o.mask)) (fun e => BitVec.ofInt 64 (p.2 o e)) M →
    (∀ e ∈ s.active (Spec.mask s o.mask), Accessible (s.setCur y) (p.2 o e) (max 1 (o.fmt.width / 8)) .write (M e) ∧ (M e).key = key) →
    StoresTo (p.1 o) s [src] o.fmt.width (Spec.mask s o.mask) M) ∧
  ∀ (o : HT48VX) (s : State) (M : Nat → Mapped) (key : BitVec 512),
    let src : Operand := ⟨o.v.val, o.group.size, o.fmt.width⟩
    let idx : Operand := ⟨o.x.val, max 1 (o.group.size * 64 / o.fmt.width), 64⟩
    let y := s.cur.opened s.regBits [src, idx]
    let addr (e : Nat) : Int := (s.getR o.base).toInt + o.disp.toInt + (BitVec.ofNat 64 (y.elem s.regBits idx e)).toInt
    64 % o.fmt.width = 0 → s.cur.vl.toNat ≤ s.regBits * o.group.size / o.fmt.width → Opens s.cur [src, idx] [] → Quiet s → s.upto = none →
    OnePage (s.active (Spec.mask s o.mask)) (fun e => BitVec.ofInt 64 (addr e)) M →
    (∀ e ∈ s.active (Spec.mask s o.mask), Accessible (s.setCur y) (addr e) (max 1 (o.fmt.width / 8)) .write (M e) ∧ (M e).key = key) →
    StoresTo (.vstx o) s [src, idx] o.fmt.width (Spec.mask s o.mask) M

namespace Sys2Proof.Spec

/-- The formats of windows and of KACC (R253, R258). -/
def windowFormats : List Fmt := [.i32, .n32, .i64, .n64, .fp32]

/-- The folding operations of R254: 0 is ADD, 1 MIN, 2 MAX; an integer ADD wraps, MIN and MAX follow the signedness of the format; FP32
ADD rounds the exact sum to nearest even, MIN and MAX are those of R195, and nothing is flushed. -/
def foldOp (op : Nat) (f : Fmt) (a b : Nat) : Res :=
  if f = .fp32 then
    let x := decodeF .fp32 a
    let y := decodeF .fp32 b
    if op = 0 then addF .fp32 .rne false false x y else minmaxF .fp32 (op != 1) x y
  else if op = 0 then (wrap f (int f a + int f b), 0)
  else if op = 1 then (if int f a ≤ int f b then a else b, 0)
  else (if int f a ≤ int f b then b else a, 0)

/-- Folds one more value into a copy, which the first value fills (R254), and collects the flags. -/
def foldInto (op : Nat) (f : Fmt) (c : Option Nat × Flags) (x : Nat) : Option Nat × Flags :=
  match c.1 with
  | none => (some x, c.2)
  | some a => let r := foldOp op f a x; (some (r.1 % 2 ^ 64), c.2 ||| r.2)

/-- The copy of element i in lane l of a window. -/
def copyAt (w : Window) (l i : Nat) : Option Nat := (w.copies.find? fun p => p.1 == 256 * l + i).map fun p => p.2.toNat

end Sys2Proof.Spec

/-- R253 to R255: AWIN opens a window; VAACC folds each active element into the copy of its lane, lanes and elements that no active
element names keeping theirs, with the flags of every fold; AMERGE folds the copies of each touched element into its word, lane 0 first and
then in lane order, and closes the window. -/
def Obligations.AccumulationWindows : Prop :=
  (∀ (o : HT48VM) (s : State), 8 ≤ o.fmt.width →
    let b := (s.getR o.base).toInt + o.disp.toInt
    let n := (s.getR o.s).toNat
    let bytes := o.fmt.width / 8
    (s.cur.window = none → 1 ≤ n → n * bytes ≤ 1024 → b % bytes = 0 →
      Done (.awin o) s { s.cur with window := some ⟨o.v.val, o.fmt, BitVec.ofInt 64 b, n, []⟩ } s.fallPc) ∧
    (s.cur.window.isSome = true ∨ n = 0 ∨ 1024 < n * bytes ∨ b % bytes ≠ 0 → Traps (.awin o) s { cause := Cause.window })) ∧
  (∀ (o : HT48VX) (s : State) (w : Window),
    let src : Operand := ⟨o.v.val, o.group.size, o.fmt.width⟩
    let idx : Operand := ⟨o.x.val, max 1 (o.group.size * 64 / o.fmt.width), 64⟩
    let y := s.cur.opened s.regBits [src, idx]
    let act := s.active (Spec.mask s o.mask)
    let folded (l i : Nat) : Option Nat × Flags :=
      ((act.filter fun e => e % s.lanes == l && y.elem s.regBits idx e == i).map (y.elem s.regBits src)).foldl (foldInto w.op w.fmt) (copyAt w l i, 0)
    s.cur.window = some w → w.fmt = o.fmt → w.fmt ∈ windowFormats → w.wn ≤ 256 → s.cur.vl.toNat ≤ s.regBits * o.group.size / o.fmt.width →
    Opens s.cur [src, idx] [] → (∀ e ∈ act, y.elem s.regBits idx e < w.wn) →
      ∃ t w', exec (.vaacc o) s = .next t ∧ OnlyHarts s t ∧ (∀ h, h ≠ s.curHart → t.hart h = s.hart h) ∧ Completes s t ∧ t.curSt.pc = s.fallPc ∧
        t.cur.window = some w' ∧ w'.op = w.op ∧ w'.fmt = w.fmt ∧ w'.base = w.base ∧ w'.wn = w.wn ∧
        (∀ l i, l < s.lanes → i < w.wn → copyAt w' l i = (folded l i).1) ∧
        t.cur.uncounted = ({ y with window := some w', vstat := y.vstat ||| flagsOf (fun l => flagsOf (fun i => (folded l i).2) (List.range w.wn)) (List.range s.lanes), vstart := 0 }.past
          s.curStream s.fallPc).uncounted) ∧
  ∀ (s : State) (w : Window) (M : Nat → Mapped) (p0 : Nat) (key : BitVec 512),
    let n := w.fmt.width / 8
    let touched := (List.range w.wn).filter fun i => decide (s.cur.vstart.toNat ≤ i) && (List.range s.lanes).any fun l => (copyAt w l i).isSome
    let sum (i : Nat) : Res := (List.range s.lanes).foldl (fun a l => match copyAt w l i with
      | none => a
      | some c => let r := foldOp w.op w.fmt a.1 c; (r.1, a.2 ||| r.2)) (valueAt s.mem (p0 + i * n) n, 0)
    s.curStream = .x → s.cur.window = some w → w.fmt ∈ windowFormats → Quiet s → s.upto = none → OnePage touched (fun i => BitVec.ofInt 64 (w.base.toInt + (i * n : Nat))) M →
    (∀ i ∈ touched, Accessible s (w.base.toInt + (i * n : Nat)) n .write (M i) ∧ entTier (M i).leaf = 0 ∧ (M i).key = key ∧ (M i).pa = p0 + i * n) →
      ∃ t, exec .amerge s = .next t ∧ Completes s t ∧ t.curSt.pc = s.fallPc ∧ (∀ h, h ≠ s.curHart → t.hart h = s.hart h) ∧ t.hub = s.hub ∧ t.cores = s.cores ∧
        t.cur.uncounted = ({ s.cur with window := none, vstat := s.cur.vstat ||| flagsOf (fun i => (sum i).2) touched, vstart := 0 }.past .x s.fallPc).uncounted ∧
        ∀ a, t.mem.read a = if ∃ i ∈ touched, p0 + i * n ≤ a ∧ a < p0 + i * n + n then
            BitVec.ofNat 8 ((sum ((a - p0) / n)).1 >>> (8 * ((a - p0) % n)))
          else s.mem.read a

/-- R257, R258: KINS and KACC enter keys while there is room and refuse the rest, KACC folding into a key that is there; KLOOK reads
values and marks the missing; KDRAIN hands out the lowest keys in ascending order; KCLR empties the scratchpad; all need FEAT.KEYSP.
That KINS, KLOOK and KACC clear VSTART is the model's reading (log 30), and that an absent feature comes before the vector length its choice
(log 95). -/
def Obligations.KeyScratchpad : Prop :=
  ∀ (o : HT32V) (s : State),
    let w := o.fmt.width
    let g := o.group.size
    let ka : Operand := ⟨o.a.val, g, 64⟩
    let vb : Operand := mixedOperand o.b.val o.group o.fmt .i64
    let dv : Operand := mixedOperand o.d.val o.group o.fmt .i64
    let act := s.active (Spec.mask s o.mask)
    let room := 4096 / s.curCore.numHarts
    let vl := s.cur.vl.toNat
    let value (k : BitVec 64) : Option (BitVec 64) := (s.cur.keys.find? fun p => p.1 == k).map Prod.snd
    (s.curCore.feat.getLsbD 2 = false → Traps (.kins o) s { cause := Cause.featureAbsent } ∧ Traps (.klook o) s { cause := Cause.featureAbsent } ∧
      Traps (.kacc o) s { cause := Cause.featureAbsent } ∧ Traps (.kdrain o) s { cause := Cause.featureAbsent } ∧
      Traps .kclr s { cause := Cause.featureAbsent }) ∧
    (s.curCore.feat.getLsbD 2 = true → Done .kclr s { s.cur with keys := [] } s.fallPc ∧ (vl ≤ s.regBits * g / 64 →
      (∀ (i : Instr) (upd : Nat → Nat → Option Nat), (i, upd) ∈ [(Instr.kins o, fun _ _ => none), (Instr.kacc o, fun old v => some (foldOp o.var.val o.fmt (old % 2 ^ w) v).1)] →
        (i = .kacc o → o.fmt ∈ windowFormats) → Opens s.cur [ka, vb] [] →
        let y := s.cur.opened s.regBits [ka, vb]
        let r := keyFold room upd (act.map fun e => (e, BitVec.ofNat 64 (y.elem s.regBits ka e), y.elem s.regBits vb e)) s.cur.keys
        ∃ t, exec i s = .next t ∧ OnlyHarts s t ∧ (∀ h, h ≠ s.curHart → t.hart h = s.hart h) ∧ Completes s t ∧ t.curSt.pc = s.fallPc ∧
          t.cur.keys = r.1 ∧ (o.d ≠ 0 → t.cur.getS o.d.val = BitVec.ofNat 64 r.2.length) ∧ t.cur.vstart = 0 ∧ t.cur.v = y.v ∧
          (o.mask ≠ 0 → ∀ e, e < 4096 → (t.cur.getM o.mask.val).getLsbD e = if e ∈ act then decide (e ∈ r.2) else (s.cur.getM o.mask.val).getLsbD e)) ∧
      (Opens s.cur [ka] [dv] →
        let y := s.cur.opened s.regBits [ka]
        let key (e : Nat) : BitVec 64 := BitVec.ofNat 64 (y.elem s.regBits ka e)
        ∃ t, exec (.klook o) s = .next t ∧ OnlyHarts s t ∧ (∀ h, h ≠ s.curHart → t.hart h = s.hart h) ∧ Completes s t ∧ t.curSt.pc = s.fallPc ∧
          t.cur.keys = s.cur.keys ∧ t.cur.vstart = 0 ∧
          (∀ e, e < s.regBits * dv.n / w → t.cur.elem s.regBits dv e = (match if e ∈ act then value (key e) else none with
            | some x => x.toNat % 2 ^ w
            | none => elemAt w (y.before s.regBits dv) e)) ∧
          (o.mask ≠ 0 → ∀ e, e < 4096 → (t.cur.getM o.mask.val).getLsbD e = if e ∈ act then (value (key e)).isNone else (s.cur.getM o.mask.val).getLsbD e)) ∧
      (let dk : Operand := ⟨o.d.val, g, 64⟩
       let du : Operand := mixedOperand (o.d.val + g) o.group o.fmt .i64
       s.cur.bindings = [] → s.cur.popBad = [] →
        ∃ t sorted, exec (.kdrain o) s = .next t ∧ OnlyHarts s t ∧ (∀ h, h ≠ s.curHart → t.hart h = s.hart h) ∧ Completes s t ∧ t.curSt.pc = s.fallPc ∧
          List.Perm sorted s.cur.keys ∧ sorted.Pairwise (fun p q => p.1.toNat ≤ q.1.toNat) ∧ t.cur.keys = sorted.drop vl ∧
          t.cur.vstart = 0 ∧ (o.b.val ≠ 0 → t.cur.getS o.b.val = BitVec.ofNat 64 (min vl s.cur.keys.length)) ∧
          ∀ e, e < vl → t.cur.elem s.regBits dk e = ((sorted.getD e (0, 0)).1).toNat ∧
            (e < s.regBits * du.n / w → t.cur.elem s.regBits du e = ((sorted.getD e (0, 0)).2).toNat % 2 ^ w))))

namespace Sys2Proof.Spec

/-- An instruction completes on s: the hart becomes x past it, the rest of the module is as in s', and nothing else changes but event
counters. -/
def DoneWith (i : Instr) (s s' : State) (x : Hart) : Prop :=
  ∃ t, exec i s = .next t ∧ Completes s t ∧ t.curSt.pc = s.fallPc ∧ t.cur.uncounted = (x.past s.curStream s.fallPc).uncounted ∧
    (∀ h, h ≠ s.curHart → t.hart h = s.hart h) ∧ (∀ c, t.core c = s'.core c) ∧ (∀ d, (t.die d).uncounted = (s'.die d).uncounted) ∧
    ∃ hs cs ds pc, t = { s' with harts := hs, cores := cs, dies := ds, fallPc := pc }

/-- A register of the hart in execution written. -/
def given (s : State) (r : Fin 32) (w : BitVec 64) : Hart := s.cur.setR s.curStream r.val w

/-- The state with a well of the hart's core replaced. -/
def withWell (s : State) (k : Nat) (w : Well) : State := s.setCore s.curCoreId (s.curCore.setWell k w)

/-- A barrier at the check of a cycle (R299): the phase ends when every arrival and byte that it waits for has come. -/
def checked (b : Barrier) : Barrier :=
  let need := b.memb.toNat + b.xarr.toNat
  if (0 < need ∨ 0 < b.xbyt.toNat) ∧ need ≤ b.arr.toNat ∧ b.xbyt.toNat ≤ b.byt.toNat then
    { b with phase := b.phase + 1, arr := 0, byt := 0, xarr := 0, xbyt := 0 }
  else b

/-- A barrier after an expectation (Table 21.2). -/
def expecting (b : Barrier) (w : BitVec 64) : Barrier :=
  let n := w.extractLsb' 0 48
  match (w.extractLsb' 62 2).toNat with
  | 0 => { b with xarr := b.xarr + n }
  | 1 => { b with xbyt := b.xbyt + n }
  | _ => { b with memb := w.extractLsb' 0 16 }

/-- A barrier instruction that completes leaves its barrier as b, and every other barrier, every register and all of memory. -/
def Leaves (i : Instr) (s : State) (net id : Nat) (b : Barrier) : Prop :=
  ∃ t, exec i s = .next t ∧ Completes s t ∧ t.curSt.pc = s.fallPc ∧ t.cur.uncounted = (s.cur.past s.curStream s.fallPc).uncounted ∧
    (∀ h, h ≠ s.curHart → t.hart h = s.hart h) ∧ t.mem = s.mem ∧ t.barrier net id = b ∧
    ∀ n k, k < 32 → ¬ (n = net ∧ k = id) → t.barrier n k = s.barrier n k

/-- The hart waits for phase p of a barrier that is left as b. -/
def WaitsAt (i : Instr) (s : State) (net id : Nat) (p : BitVec 32) (arrived : Bool) (b : Barrier) : Prop :=
  ∃ t, exec i s = .next t ∧ t.curSt.pc = s.curSt.pc ∧ t.curSt.wait.isSome = true ∧ t.curSt.bar = some ⟨net, id, p, arrived⟩ ∧ t.cur.halted = s.cur.halted ∧
    (∀ h, h ≠ s.curHart → t.hart h = s.hart h) ∧ t.mem = s.mem ∧ t.barrier net id = b

/-- The dirty sectors of some lines of a stash region, in line order: the sector of memory, and its place in the scratchpad (R125). -/
def dirtySectors (r : StashRegion) (among : Nat → StashLine → Bool := fun _ _ => true) : List (Nat × Nat) := r.lines.flatMap fun l => match l.2 with
  | some x =>
    if among l.1 x then
      (if x.dirty.1 then [(x.pa / 32, r.offset + 64 * l.1)] else []) ++ (if x.dirty.2 then [(x.pa / 32 + 1, r.offset + 64 * l.1 + 32)] else [])
    else []
  | none => []

/-- The bytes of memory after sectors of a scratchpad are written back. -/
def putBack (scratch : Memory) (l : List (Nat × Nat)) (m : Nat → Byte) : Nat → Byte := l.foldl (fun m p a =>
  if 32 * p.1 ≤ a ∧ a < 32 * p.1 + 32 then scratch.read (p.2 + (a - 32 * p.1)) else m a) m

/-- A stream of a hart waits for something that an act of another agent ends by a trap. -/
def WaitsOn (x : Hart) (st : Stream) (on : Awaited) : Prop :=
  x.task.isSome = true ∧ x.halted = false ∧ (x.st st).wait.isSome = true ∧ (x.st st).on = some on

/-- An awaited thing ends on t for some harts: one that waits for it takes the trap at once (R144, R261). -/
def EndsWaits (s t : State) (on : Awaited) (cause : BitVec 16) (here : HartId → Prop) : Prop :=
  ∀ h st, here h → WaitsOn (s.hart h) st on → (t.hart h).halted = true ∧ ∃ st', WaitsOn (s.hart h) st' on ∧ ((t.hart h).st st').cause = cause

/-- An instruction frees a well of the hart's core: with no hart waiting in WWAIT for FULL on it nothing else changes, and one that
waits takes the orphan-wait trap (R144, Table 9.2). -/
def Frees (i : Instr) (s : State) (k : Fin 64) : Prop :=
  ((∀ p ∈ s.harts, p.1 / 8 = coreKey s.curCoreId → ∀ st, ¬ WaitsOn p.2 st (.well k)) → DoneWith i s (withWell s k.val {}) s.cur) ∧
  ∃ t, exec i s = .next t ∧ t.curCore = s.curCore.setWell k.val {} ∧ EndsWaits s t (.well k) Cause.orphanWait fun h => h ≠ s.curHart ∧ coreOf h = s.curCoreId

/-- The iterations of a copy, and the entries that a COPYQ delivers (R134, R146). -/
def iterations (r : Ruling) : Nat := (List.range 6).foldl (fun n l => n * (tget {} r.levels l : Level).n) 1
def unitBytes (c0 : BitVec 64) : Nat := 8 * 2 ^ (c0.extractLsb' 0 4).toNat

/-- A well whose copy goes on (R139): a copy with nothing left to write or deliver is full at once (R147). -/
def resumed (w : Well) : Well :=
  match w.copy with
  | none => { w with state := .filling }
  | some c =>
    if iterations c.ruling ≤ c.iter ∧ (c.dest = none ∨ ∀ t ∈ c.members, unitBytes c.ctl * iterations c.ruling / c.width ≤ tget 0 c.landed t)
      then { w with state := .full, copy := none }
      else { w with state := .filling, copy := some { c with frozen := false } }

/-- A step of an automaton (R275): the context after it, none for a reject. -/
def moved (c : StencilCtx) (e states : Nat) : Option StencilCtx :=
  let next := e % 4096
  let sym := BitVec.ofNat 8 (e / 2 ^ 26)
  match e / 2 ^ 24 % 4 with
  | 0 => if next < states then some { c with state := next } else none
  | 1 => if next < states then some { c with state := next, stack := sym :: c.stack } else none
  | 2 => match c.stack with
    | [] => none
    | top :: rest =>
      let n := if rest = [] then e / 4096 % 4096 else next
      if top = sym ∧ n < states then some { c with state := n, stack := rest } else none
  | _ => none

end Sys2Proof.Spec

/-- R133, R137, R143, R144, R146: the well instructions of Table 9.5 on the wells of the hart's core: who may use them, what they wait for, and
the well they leave; a WWAIT checks its owner when it issues, and one that waits goes on whoever owns the well; COPY and COPYQ attach a copy
with the ruling state and C0 of that moment, trap on a reserved C0, on a well that is not the hart's, not filling or already copying, and
wait for one of the 16 copy slots; RULE and RBASE write the ruling state.
That a COPYQ whose Cs is 64 or more takes the copy trap is the model's choice (log 90), and that a COPYCAN whose well has become free takes the
well trap at whatever moment (log 91). -/
def Obligations.WellInstructions : Prop :=
  (∀ (o : HT16H) (s : State),
    let k := o.handle.val
    let w := s.curCore.well k
    let own := w.owner = some s.cur.taskNo
    let copies := (s.curCore.wells.filter fun x => x.2.copy.isSome).length
    let free := (w.copy.map Copy.frozen).getD false = false
    let c0 := s.cur.getC 0
    let c0ok := c0.extractLsb' 20 44 = 0 ∧ c0.extractLsb' 12 4 = 0 ∧ (c0.extractLsb' 0 4).toNat ≤ 9
    let orphan := o.state = .full ∧ (w.state = .free ∨ (w.state = .draining ∧ w.copy = none))
    (w.state = .free → DoneWith (.wset o) s (withWell s k ⟨.filling, some s.cur.taskNo, none⟩) s.cur) ∧
    (w.state ≠ .free → own → s.cur.waitlim ≠ 0 → Waits (.wset o) s) ∧
    (w.state ≠ .free → ¬ own → TrapsAlone (.wset o) s { cause := Cause.well }) ∧
    (orphan → TrapsAlone (.wwait o) s { cause := Cause.orphanWait }) ∧
    (¬ orphan → ¬ own → s.curSt.wait = none → TrapsAlone (.wwait o) s { cause := Cause.well }) ∧
    (own ∨ s.curSt.wait.isSome = true → w.state = o.state → DoneWith (.wwait o) s
      (if o.state = .full then withWell s k { w with state := .draining } else s) s.cur) ∧
    (own ∨ s.curSt.wait.isSome = true → w.state ≠ o.state → ¬ orphan → s.cur.waitlim ≠ 0 → Waits (.wwait o) s) ∧
    DoneWith (.wget o) s s (given s o.s (BitVec.ofNat 64 ((match w.state with | .free => 0 | .filling => 1 | .full => 2 | .draining => 3 | .faulted => 4) +
      8 * w.copy.isSome.toNat + 16 * (decide own).toNat + 32 * w.owner.isSome.toNat + 64 * ((w.copy.map Copy.frozen).getD false).toNat))) ∧
    (own → w.state = .full ∨ w.state = .draining → Frees (.wfree o) s o.handle) ∧
    (¬ own ∨ ¬ (w.state = .full ∨ w.state = .draining) → TrapsAlone (.wfree o) s { cause := Cause.well }) ∧
    (c0ok → own → w.state = .filling → w.copy = none → copies < 16 →
      DoneWith (.copy o) s { withWell s k { w with copy := some { seq := s.copyCtr, ctl := c0, ruling := s.cur.ruling } } with copyCtr := s.copyCtr + 1 } s.cur) ∧
    (c0ok → own → w.state = .filling → w.copy = none → 16 ≤ copies → s.cur.waitlim ≠ 0 → Waits (.copy o) s) ∧
    (¬ c0ok → TrapsAlone (.copy o) s { cause := Cause.copy }) ∧
    (c0ok → ¬ (own ∧ w.state = .filling ∧ w.copy = none) → TrapsAlone (.copy o) s { cause := Cause.well }) ∧
    (own → w.state = .filling → DoneWith (.copyres o) s s s.cur) ∧
    (own → w.state = .faulted → DoneWith (.copyres o) s (withWell s k (resumed w)) s.cur) ∧
    (¬ own ∨ ¬ (w.state = .filling ∨ w.state = .faulted) → TrapsAlone (.copyres o) s { cause := Cause.well }) ∧
    (own → free → w.state = .filling ∨ w.state = .faulted → Frees (.copycan o) s o.handle) ∧
    (own → free → w.state = .full ∨ w.state = .draining → DoneWith (.copycan o) s s s.cur) ∧
    (¬ own ∨ w.state = .free → TrapsAlone (.copycan o) s { cause := Cause.well }) ∧
    (own → w.state ≠ .free → ¬ free → s.cur.waitlim ≠ 0 → Waits (.copycan o) s)) ∧
  (∀ (o : HT16VS) (s : State),
    let k := (s.getR o.s).toNat
    let w := s.curCore.well k
    let c0 := s.cur.getC 0
    let bytes := s.regBits / 8
    let copies := (s.curCore.wells.filter fun x => x.2.copy.isSome).length
    let new : Copy := { seq := s.copyCtr, ctl := c0, ruling := s.cur.ruling, dest := some o.v, quire := s.cur.quire.map Prod.fst, width := bytes
                        members := match s.cur.quire with
                          | some (q, _) => (tget {} (s.die s.curHart.die).quires q : Quire).members
                          | none => [s.cur.taskNo] }
    let size := unitBytes c0 * iterations s.cur.ruling
    let good := c0.extractLsb' 20 44 = 0 ∧ c0.extractLsb' 12 4 = 0 ∧ (c0.extractLsb' 0 4).toNat ≤ 9 ∧ k < 64 ∧ size % bytes = 0 ∧
      (s.cur.quire.isSome = true ∨ ∃ b ∈ s.cur.bindings, b.1 ≤ o.v.val ∧ o.v.val < b.1 + b.2.grp.size)
    let mine := w.owner = some s.cur.taskNo ∧ w.state = .filling ∧ w.copy = none
    (good → mine → copies < 16 → DoneWith (.copyq o) s { withWell s k { w with copy := some new } with copyCtr := s.copyCtr + 1 } s.cur) ∧
    (good → mine → 16 ≤ copies → s.cur.waitlim ≠ 0 → Waits (.copyq o) s) ∧
    (¬ good → TrapsAlone (.copyq o) s { cause := Cause.copy }) ∧
    (good → ¬ mine → TrapsAlone (.copyq o) s { cause := Cause.well })) ∧
  (∀ (o : HT48L) (s : State), Done (.rule o) s
    { s.cur with ruling := { s.cur.ruling with levels := tput s.cur.ruling.levels o.level.val ⟨o.count.toNat, o.stra, o.strb⟩ } } s.fallPc) ∧
  ∀ (o : HT16R) (s : State), Done (.rbase o) s { s.cur with ruling := { s.cur.ruling with sb := s.getR o.a, db := s.getR o.b } } s.fallPc

namespace Sys2Proof.Spec

/-- A hart of a die has joined a quire and waits for its forming. -/
def Joins (s : State) (d : Fin 4) (q : Nat) (h : HartId) (j : Joining) : Prop :=
  h.die = d ∧ (s.hart h).task.isSome = true ∧ (s.hart h).halted = false ∧ (s.hart h).joining = some j ∧ j.quire = q ∧ j.result = none

/-- Only harts that exist are listed, each once, in ascending order (the model's own form of a table). -/
def HartsListed (s : State) : Prop := (s.harts.map Prod.fst).Pairwise (· < ·) ∧ ∀ p ∈ s.harts, p.1 < 8 * 96 * 4

/-- What the deciding joiner of a quire and those that waited become (R145): `r k` is what the joiner of rank k gets in Sd; where the quire
is formed each is a member, and the deciding one has the common VL. -/
def Decides (o : HT16R) (s : State) (q : Nat) (vl : BitVec 13) (js : List (HartId × Joining)) (formed : Bool) (r : Nat → BitVec 64) : Prop :=
  let d := s.curHart.die
  ∃ t, exec (.qjoin o) s = .next t ∧ Completes s t ∧ t.curSt.pc = s.fallPc ∧ t.mem = s.mem ∧ t.hub = s.hub ∧ (∀ c, t.core c = s.core c) ∧
    (∀ e, (t.die e).uncounted = if e = d ∧ formed = true then { (s.die d).uncounted with quires := tput (s.die d).quires q ⟨js.map fun p => (s.hart p.1).taskNo⟩ }
      else (s.die e).uncounted) ∧
    (∀ h, h ∉ js.map Prod.fst → t.hart h = s.hart h) ∧
    ∀ k h j, js[k]? = some (h, j) → let m (x : Hart) : Hart := if formed then { x with quire := some (q, k) } else x
      if h = s.curHart then
        t.cur.uncounted = (({ m s.cur with joining := none, vl := if formed then vl else s.cur.vl }.setR s.curStream o.d.val (r k)).past s.curStream s.fallPc).uncounted
      else t.hart h = { m (s.hart h) with joining := some { j with result := some (r k) } }

end Sys2Proof.Spec

/-- R145: QJOIN of harts of distinct cores: one that comes before its number is complete waits, and so does one whose quire still has members;
the one that completes it decides: where all gave one count and one VL and share one lane partition, each gets its rank, in the order of the
cores, the decider its VL, and the quire has them as members; otherwise each gets −2 and no quire is formed; a joiner of another address space
commits a violation. A member of a quire gets −3; one whose joining is decided gets its rank or the failure code, and a member its VL;
QLEAVE gives −1 outside a quire, waits while a delivery is due, and else leaves the quire.
That a reserved operand is an illegal instruction, and that a common VL above 4,096 is clamped, is the model's reading (log 17); which joiners
form a quire when more than n wait is left out (log 62). -/
def Obligations.QuireMembership : Prop :=
  (∀ (o : HT16R) (s : State) (js : List (HartId × Joining)),
    let b := s.getR o.b
    let q := (s.getR o.a).toNat
    let n := (b.extractLsb' 0 5).toNat
    let vl := BitVec.ofNat 13 (min (b.extractLsb' 16 16).toNat 4096)
    let mine : Joining := ⟨q, n, vl, none⟩
    let d := s.curHart.die
    let agree := ∀ p ∈ js, p.2.n = n ∧ p.2.vl = vl ∧ (s.core (coreOf p.1)).harts = s.curCore.harts
    let held : Prop := (tget {} (s.die d).quires q : Quire).members ≠ []
    s.cur.task.isSome = true → s.cur.halted = false → s.cur.quire = none → (∀ j, s.cur.joining = some j → j.result = none) → HartsListed s →
    (q < 64 → b.extractLsb' 5 11 = 0 → b.extractLsb' 32 32 = 0 → 2 ≤ n → n ≤ 16 →
      ((∃ h j, h ≠ s.curHart ∧ Joins s d q h j ∧ (s.hart h).asid ≠ s.cur.asid) → Traps (.qjoin o) s { cause := Cause.violation }) ∧
      (js.Pairwise (fun x y => x.1.core < y.1.core) → (∀ h j, (h, j) ∈ js ↔ (h = s.curHart ∧ j = mine) ∨ (h ≠ s.curHart ∧ Joins s d q h j)) →
        (∀ p ∈ js, (s.hart p.1).asid = s.cur.asid) →
        (held ∨ (∀ p ∈ js, js.length < p.2.n) → s.cur.waitlim ≠ 0 → ∃ t, exec (.qjoin o) s = .next t ∧
          Becomes s t ({ s.cur with joining := some mine }.setSt s.curStream { s.curSt with wait := t.curSt.wait, on := t.curSt.on, after := t.curSt.after }) ∧
          t.curSt.wait.isSome = true ∧ t.curSt.pc = s.curSt.pc) ∧
        (¬ held → n = js.length → (∀ p ∈ js, js.length ≤ p.2.n) →
          (agree → Decides o s q vl js true fun k => BitVec.ofNat 64 k) ∧
          (¬ agree → Decides o s q vl js false fun _ => BitVec.ofInt 64 (-2))))) ∧
    (64 ≤ q ∨ b.extractLsb' 5 11 ≠ 0 ∨ b.extractLsb' 32 32 ≠ 0 ∨ n < 2 ∨ 16 < n → Traps (.qjoin o) s { cause := Cause.illegal })) ∧
  ∀ (o : HT16R) (s : State),
    (s.cur.joining = none → s.cur.quire.isSome = true → Done (.qjoin o) s (given s o.d (BitVec.ofInt 64 (-3))) s.fallPc) ∧
    (∀ j r, s.cur.joining = some j → j.result = some r → Done (.qjoin o) s
      ({ s.cur with joining := none, vl := if s.cur.quire.isSome then j.vl else s.cur.vl }.setR s.curStream o.d.val r) s.fallPc) ∧
    (s.cur.quire = none → Done (.qleave o) s (given s o.d (BitVec.ofInt 64 (-1))) s.fallPc) ∧
    ∀ q rank, s.cur.quire = some (q, rank) →
      (s.deliveryDue s.curHart.die s.cur.taskNo = true → s.cur.waitlim ≠ 0 → Waits (.qleave o) s) ∧
      (s.deliveryDue s.curHart.die s.cur.taskNo = false →
        let d := s.die s.curHart.die
        let members := (tget {} d.quires q : Quire).members.filter (· != s.cur.taskNo)
        DoneWith (.qleave o) s (s.setDie s.curHart.die { d with quires := tput d.quires q ⟨members⟩ })
          ({ s.cur with quire := none }.setR s.curStream o.d.val 0))

/-- R296 to R304: the barrier instructions on the instance of their scope that the hart belongs to: an arrival counts, an expectation
adds, the phase ends once all have come, a wait ends within 2^31 phases after p; a disabled barrier traps, one of another address
space is a violation, and the lane scope has none. A pod barrier that another module counts gets a message, and what a cycle takes at a member
one at its end. A BAR that has arrived
goes on with the barrier and the phase that it recorded.
Which arrivals share a cycle of the barrier unit is the agenda's to say (the model's choice, log 2): while a cycle is open, phases and
expectations wait for its end. -/
def Obligations.BarrierInstructions : Prop :=
  ∀ (o : HT16S) (s : State),
    let id := o.id.val
    let w := s.getR o.s
    let passed (x p : BitVec 32) : Prop := 1 ≤ (x - p).toNat ∧ (x - p).toNat ≤ 2 ^ 31
    let starts := ∀ r, s.curSt.bar = some r → r.arrived = false
    let ops (i : Instr) : Prop := i ∈ [Instr.bararr o, .barexp o, .barwait o] ∨ (i = .bar o ∧ starts)
    let closes (b : Barrier) : Barrier := if s.oneCycle then b else checked b
    let posts (i : Instr) (net : Nat) (m : PodArrival) : Prop := Leaves i s net id (s.barrier net id) ∧ ∃ t, exec i s = .next t ∧
      t.hub.podOut = s.hub.podOut ++ [.arrival id (s.barrier net id).root m]
    (o.scope = .ln → ∀ i, ops i → Traps i s { cause := Cause.illegal }) ∧
    (∀ net, networkOf s.curHart o.scope = some net →
      let b := s.barrier net id
      (b.en = false → ∀ i, ops i → Traps i s { cause := Cause.barrier }) ∧
      (b.en = true → b.asid ≠ s.cur.asid → ∀ i, ops i → Traps i s { cause := Cause.violation }) ∧
      (b.en = true → b.asid = s.cur.asid → (net = 485 → b.root = s.podIndex) ∨ s.oneCycle = true →
        Leaves (.bararr o) s net id (closes { b with arr := b.arr + 1 }) ∧
        (w.extractLsb' 48 14 = 0 → (w.extractLsb' 62 2 = 2 → w.extractLsb' 16 32 = 0) → w.extractLsb' 62 2 ≠ 3 →
          (s.oneCycle = false → Leaves (.barexp o) s net id (checked (expecting b w))) ∧
          (s.oneCycle = true → Leaves (.barexp o) s net id b ∧ ∃ t, exec (.barexp o) s = .next t ∧ t.expects = s.expects ++ [(net, id, w)])) ∧
        (starts →
          let b' := closes { b with arr := b.arr + 1 }
          (b'.phase ≠ b.phase → Leaves (.bar o) s net id b') ∧
          (b'.phase = b.phase → s.cur.waitlim ≠ 0 → s.curSt.wait = none → WaitsAt (.bar o) s net id b.phase true b'))) ∧
      (b.en = true → b.asid = s.cur.asid → net = 485 → b.root ≠ s.podIndex → s.oneCycle = false →
        posts (.bararr o) net ⟨Fin.ofNat 512 s.podIndex.toNat, 1, 0, none⟩ ∧
        (w.extractLsb' 48 14 = 0 → (w.extractLsb' 62 2 = 2 → w.extractLsb' 16 32 = 0) → w.extractLsb' 62 2 ≠ 3 →
          posts (.barexp o) net ⟨Fin.ofNat 512 s.podIndex.toNat, 0, 0, some w⟩) ∧
        (starts → s.cur.waitlim ≠ 0 → s.curSt.wait = none → WaitsAt (.bar o) s net id b.phase true b)) ∧
      (b.en = true → b.asid = s.cur.asid →
        (w.extractLsb' 48 14 ≠ 0 ∨ w.extractLsb' 62 2 = 3 ∨ (w.extractLsb' 62 2 = 2 ∧ w.extractLsb' 16 32 ≠ 0) → Traps (.barexp o) s { cause := Cause.barrier }) ∧
        (w.extractLsb' 32 32 ≠ 0 → Traps (.barwait o) s { cause := Cause.barrier }) ∧
        (w.extractLsb' 32 32 = 0 → passed b.phase (w.truncate 32) → Leaves (.barwait o) s net id b) ∧
        (w.extractLsb' 32 32 = 0 → ¬ passed b.phase (w.truncate 32) → s.cur.waitlim ≠ 0 → s.curSt.wait = none →
          WaitsAt (.barwait o) s net id (w.truncate 32) false b))) ∧
    ∀ net k p, s.curSt.bar = some ⟨net, k, p, true⟩ →
      let b := s.barrier net k
      (b.en = false → Traps (.bar o) s { cause := Cause.barrier }) ∧ (b.en = true → b.asid ≠ s.cur.asid → Traps (.bar o) s { cause := Cause.violation }) ∧
      (b.en = true → b.asid = s.cur.asid → (passed b.phase p → Leaves (.bar o) s net k b) ∧
        (¬ passed b.phase p → s.cur.waitlim ≠ 0 → s.curSt.wait = none → WaitsAt (.bar o) s net k p true b))

/-- R305, R306: WAITEQ and WAITNE go on when the word at the address satisfies them, and wait otherwise; VWAITF completes when each active
element's flag has reached its target, and writes VL to Ss; while one has not, it waits.
A wait changes nothing and is tried again (the model's choice, log 58). -/
def Obligations.MemoryWaits : Prop :=
  (∀ (o : HT32M) (s : State) (m : Mapped), Accessible s (address s o) 4 .read m →
      let v := valueAt s.mem m.pa 4
      let w := (s.getR o.d).toNat % 2 ^ 32
      (v = w → Done (.waiteq o) s s.cur s.fallPc) ∧ (v ≠ w → s.cur.waitlim ≠ 0 → Waits (.waiteq o) s) ∧
      (v ≠ w → Done (.waitne o) s s.cur s.fallPc) ∧ (v = w → s.cur.waitlim ≠ 0 → Waits (.waitne o) s)) ∧
  (∀ (o : HT48VM) (s : State) (M : Nat → Mapped),
      let w := o.fmt.width
      let n := w / 8
      let src : Operand := ⟨o.v.val, o.group.size, w⟩
      let y := s.cur.opened s.regBits [src]
      let act := s.active (Spec.mask s o.mask)
      let base := (s.getR o.base).toInt + o.disp.toInt
      let reached (e : Nat) : Prop := fmtInt o.fmt (y.elem s.regBits src e) ≤ fmtInt o.fmt (valueAt s.mem (M e).pa n)
      n ∈ [1, 2, 4, 8] → s.cur.vl.toNat ≤ s.regBits * o.group.size / w → s.cur.flagWait = none → act.length + s.flagsHeld ≤ 64 → Opens s.cur [src] [] →
      (∀ f, ∀ e ∈ act, Accessible (s.setCur { y with flagWait := f }) (base + (e * n : Nat)) n .read (M e) ∧ entTier (M e).leaf = 0) →
      OnePage act (fun e => BitVec.ofInt 64 (base + (e * n : Nat))) M →
        ((∀ e ∈ act, reached e) → Done (.vwaitf o) s ({ y with vstart := 0 }.setR s.curStream o.s.val (BitVec.ofNat 64 s.cur.vl.toNat)) s.fallPc) ∧
        (∀ e, e ∈ act → ¬ reached e → (∀ k ∈ act, k < e → reached k) → s.cur.waitlim ≠ 0 → s.curSt.wait = none →
          ∃ t, exec (.vwaitf o) s = .next t ∧ OnlyHarts s t ∧ t.curSt.wait.isSome = true ∧ t.curSt.pc = s.curSt.pc ∧ t.cur.halted = s.cur.halted ∧
            t.cur.v = y.v ∧ t.cur.s = s.cur.s ∧ t.cur.flagWait = some ⟨false, act, s.cur.vl.toNat, none, e⟩))

/-- R126 to R130: SPMAP maps a page of an allowed kind on a free offset; SPUNMAP, SPFLUSH and SPINV answer −1 where no region is mapped,
else the dirty sectors written back, or the lines dropped; a bad offset is the stash trap.
That SPUNMAP zeroes a line which had become invalid rests on log 65, that the permission fault names no element on log 69. -/
def Obligations.StashInstructions : Prop :=
  ∀ (o : HT16R) (s : State),
    let off := s.getR o.a
    let va := s.getR o.b
    let good := off.toNat % 4096 = 0 ∧ off.toNat < 0x80000
    let there (r : StashRegion) : Prop := r ∈ s.curCore.stash ∧ (∀ q ∈ s.curCore.stash, q.offset = off.toNat → q = r) ∧ r.offset = off.toNat
    let dirty (r : StashRegion) : Nat := (dirtySectors r).length
    let back (t : State) (r : StashRegion) : Prop := ∀ a, t.mem.read a = putBack s.curCore.scratch (dirtySectors r) s.mem.read a
    (¬ good → ∀ i ∈ [Instr.spmap o, .spunmap o, .spflush o, .spinv o], Traps i s { cause := Cause.stash }) ∧
    (good → isCanonical va → va.toNat % 4096 = 0 →
      ((∃ r ∈ s.curCore.stash, r.offset = off.toNat ∨ (r.va = va ∧ r.asid = s.cur.asid)) →
        Done (.spmap o) s (given s o.d (BitVec.ofInt 64 (-2))) s.fallPc) ∧
      ((∀ r ∈ s.curCore.stash, r.offset ≠ off.toNat ∧ ¬ (r.va = va ∧ r.asid = s.cur.asid)) →
        (64 ≤ s.curCore.stash.length → Done (.spmap o) s (given s o.d (BitVec.ofInt 64 (-1))) s.fallPc) ∧
        ∀ m, s.curCore.stash.length < 64 → Steady (translateCur va .read) s m →
          (m.leaf.getLsbD 54 = true → entTier m.leaf = 0 →
            DoneWith (.spmap o) s (s.setCore s.curCoreId { s.curCore with
              stash := s.curCore.stash ++ [⟨off.toNat, va, s.cur.asid, s.cur.taskNo, []⟩] }) (given s o.d 0)) ∧
          (m.leaf.getLsbD 54 = false ∨ entTier m.leaf ≠ 0 → Traps (.spmap o) s { cause := Cause.permission, addr := va }))) ∧
    (good → (∀ r ∈ s.curCore.stash, r.offset ≠ off.toNat) →
      ∀ i ∈ [Instr.spunmap o, .spflush o, .spinv o], Done i s (given s o.d (BitVec.ofInt 64 (-1))) s.fallPc) ∧
    ∀ r, good → there r →
      (∃ t, exec (.spunmap o) s = .next t ∧ Completes s t ∧ t.cur.uncounted = ((given s o.d (BitVec.ofNat 64 (dirty r))).past s.curStream s.fallPc).uncounted ∧
        (∀ q ∈ t.curCore.stash, q.offset ≠ off.toNat) ∧ (dirty r = 0 → t.mem = s.mem) ∧ back t r ∧
        ∀ i a, i < 64 → a < 64 → t.curCore.scratch.read (r.offset + 64 * i + a) =
          if (tget none r.lines i).isSome then s.curCore.scratch.read (r.offset + 64 * i + a) else 0) ∧
      (∃ t, exec (.spflush o) s = .next t ∧ Completes s t ∧ t.cur.uncounted = ((given s o.d (BitVec.ofNat 64 (dirty r))).past s.curStream s.fallPc).uncounted ∧
        (∀ q ∈ t.curCore.stash, q.offset = off.toNat → dirty q = 0) ∧ (dirty r = 0 → t.mem = s.mem) ∧ back t r ∧
        ∀ a, t.curCore.scratch.read a = s.curCore.scratch.read a) ∧
      (∃ t, exec (.spinv o) s = .next t ∧ Completes s t ∧ t.mem = s.mem ∧ (∀ q ∈ t.curCore.stash, q.offset = off.toNat → q.lines = []) ∧
        t.cur.uncounted = ((given s o.d (BitVec.ofNat 64 (r.lines.filter fun l => l.2.isSome).length)).past s.curStream s.fallPc).uncounted)

namespace Sys2Proof.Spec

/-- The bytes of a folio of order k (R96). -/
def folioBytes (k : Nat) : Nat := 65536 * 2 ^ k

/-- A folio is free at an order: its arena offset. -/
def FreeAt (d : Die) (k f : Nat) : Prop := f ∈ (tget [] d.free k : List Nat)

/-- The free lists ascend (the model's form of "lowest-addressed", R97). -/
def Ascending (d : Die) : Prop := ∀ k, (tget [] d.free k : List Nat).Pairwise (· ≤ ·)

/-- pop of R97: none where no order from k to 15 has a free folio; else the lowest such order j gives its lowest-addressed folio, and every
half split off on the way down to k is free at its order. -/
def PopLaw : Prop :=
  ∀ (d : Die) (k : Nat), Ascending d → k ≤ 15 →
    (d.popFolio k = none ↔ ∀ j, k ≤ j → j ≤ 15 → ∀ f, ¬ FreeAt d j f) ∧
    ∀ f e, d.popFolio k = some (f, e) → ∃ j, k ≤ j ∧ j ≤ 15 ∧ FreeAt d j f ∧ (∀ i, k ≤ i → i < j → ∀ g, ¬ FreeAt d i g) ∧ (∀ g, FreeAt d j g → f ≤ g) ∧
      Ascending e ∧ e = { d with free := e.free } ∧
      ∀ i g, FreeAt e i g ↔ (FreeAt d i g ∧ ¬ (i = j ∧ g = f)) ∨ (k ≤ i ∧ i < j ∧ g = f + folioBytes i)

/-- push of R97: while the buddy is free the two merge, the lower address staying, up to order 15; the folio so merged is free at its
order, and the buddies are not. -/
def PushLaw : Prop :=
  ∀ (d : Die) (k f : Nat), Ascending d → k ≤ 15 →
    let e := d.pushFolio f k (15 - k)
    ∃ (m : Nat) (g : Nat → Nat), k + m ≤ 15 ∧ g 0 = f ∧
      (∀ i, i < m → FreeAt d (k + i) (g i ^^^ folioBytes (k + i)) ∧ g (i + 1) = min (g i) (g i ^^^ folioBytes (k + i))) ∧
      (k + m < 15 → ¬ FreeAt d (k + m) (g m ^^^ folioBytes (k + m))) ∧ Ascending e ∧ e = { d with free := e.free } ∧
      ∀ i x, FreeAt e i x ↔ (FreeAt d i x ∧ ¬ (k ≤ i ∧ i < k + m ∧ x = g (i - k) ^^^ folioBytes i)) ∨ (i = k + m ∧ x = g m)

/-- An address lies in the enabled arena of a die (R96, Tables 7.3 and 7.4). -/
def inArena (d : Die) (a : BitVec 64) : Prop := d.fpEn = true ∧ (a - d.arena).toNat < d.fpSize.toNat * 2 ^ 31

/-- The arenas and the rules of a push (R96, R99, R105): an arena begins at a canonical address whose bits 56 to 31 are BASE; a folio may
be given back where it lies aligned in the arena and no byte of it is free; an arena granted to the address space goes before another. -/
def ArenaLaw : Prop :=
  (∀ d : Die, isCanonical d.arena ∧ d.arena.toNat % 2 ^ 57 = d.fpBase.toNat * 2 ^ 31) ∧
  (∀ d : Die, d.freeUnits = ((List.range 16).map fun k => (tget [] d.free k : List Nat).length * 2 ^ k).sum) ∧
  (∀ (d : Die) (a : BitVec 64) (k : Nat), d.folioOk a k = true ↔
    let off := (a - d.arena).toNat
    k ≤ 15 ∧ inArena d a ∧ off % folioBytes k = 0 ∧ off + folioBytes k ≤ d.fpSize.toNat * 2 ^ 31 ∧
      ∀ j g x, j ≤ 15 → FreeAt d j g → off ≤ x → x < off + folioBytes k → ¬ (g ≤ x ∧ x < g + folioBytes j)) ∧
  ∀ (s : State) (asid : BitVec 16) (a : BitVec 64),
    (s.arenaOf asid a = none ↔ ∀ e, ¬ inArena (s.die e) a) ∧
    ∀ e, s.arenaOf asid a = some e → inArena (s.die e) a ∧ ((∃ e', inArena (s.die e') a ∧ (s.die e').fpAsid = asid) → (s.die e).fpAsid = asid)

/-- The codes of R101 for an image: the fields of Tables 7.1 and 7.2, the limits of R93 and R95, and the first check that fails. -/
def ImageLaw : Prop :=
  ∀ v : Nat,
    let field (lo n : Nat) : Nat := v / 2 ^ lo % 2 ^ n
    let cnt := field 32 5
    let rowb := field 64 16
    let strd := field 96 32
    let bord := field 40 4
    let ent (i lo n : Nat) : Nat := field (512 + 128 * i + lo) n
    let elen (i : Nat) : Nat := ent i 64 32
    let c1 := cnt ≤ 16 ∧ field 0 32 ≤ ((List.range cnt).map elen).sum
    let c2 := field 192 320 = 0 ∧ field 80 16 = 0 ∧ field 48 15 = 0 ∧ field 37 3 = 0 ∧
      ∀ i, i < cnt → ent i 5 1 = 0 ∧ isCanonical (BitVec.ofNat 64 (64 * ent i 6 58)) ∧ 1 ≤ elen i
    let c3 := rowb % 64 = 0 ∧ 64 ≤ rowb ∧ rowb ≤ 32768 ∧ strd % 64 = 0 ∧ rowb ≤ strd ∧ strd ≤ folioBytes bord ∧ bord ≤ field 44 4 ∧
      ∀ i, i < cnt → ent i 96 32 % 64 = 0 ∧ rowb ≤ ent i 96 32 ∧ (ent i 4 1 = 1 → elen i * ent i 96 32 ≤ folioBytes (ent i 0 4))
    (¬ c1 → descCode v = -1) ∧ (c1 → ¬ c2 → descCode v = -2) ∧ (c1 → c2 → ¬ c3 → descCode v = -3) ∧ (c1 → c2 → c3 → descCode v = 0) ∧
    (c1 → let d := descOf v
      d.len = field 0 32 ∧ d.cnt = cnt ∧ d.rowb = rowb ∧ d.live = v.testBit 63 ∧ d.exts.length = cnt ∧
      ∀ i x, d.exts[i]? = some x → x.base = BitVec.ofNat 64 (64 * ent i 6 58) ∧ x.elen.toNat = elen i ∧ x.str.toNat = ent i 96 32 ∧
        x.pool = decide (ent i 4 1 = 1) ∧ x.ord.toNat = ent i 0 4)

end Sys2Proof.Spec

/-- R93 to R97, R99 to R105: the pool engine pops the lowest-addressed folio of the lowest order that has one, splitting it, and pushes with
the merging of buddies; the image limits and codes of descriptors; the folio instructions: FPOP takes a folio of the hart's own die while
the reserve allows and one is free, FPUSH gives one back, FPCNT counts; KVMAP checks an image and installs it, KVXL translates a
position, KVAPP appends a row, KVTRUNC gives back the extents above the new length.
KVAPP's growth by an extent is not stated here; the corners of KVAPP, FPCNT and KVTRUNC rest on log 16, 24 and 25, the order of the folio trap
and the violation on log 89. -/
def Obligations.FolioInstructions : Prop :=
  PopLaw ∧ PushLaw ∧ ArenaLaw ∧ ImageLaw ∧ ∀ (o : HT16R) (s : State),
    let a := s.getR o.a
    let b := s.getR o.b
    let own := s.die s.curHart.die
    (15 < a.toNat → Traps (.fpop o) s { cause := Cause.folio }) ∧
    (a.toNat ≤ 15 → own.fpEn = false → Done (.fpop o) s (given s o.d 0) s.fallPc) ∧
    (a.toNat ≤ 15 → own.fpEn = true → own.fpAsid ≠ s.cur.asid → Traps (.fpop o) s { cause := Cause.violation }) ∧
    (a.toNat ≤ 15 → own.fpEn = true → own.fpAsid = s.cur.asid →
      (own.freeUnits < 2 ^ a.toNat + own.fpReserve.toNat → Done (.fpop o) s (given s o.d 0) s.fallPc) ∧
      (own.popFolio a.toNat = none → Done (.fpop o) s (given s o.d 0) s.fallPc) ∧
      ∀ f die', 2 ^ a.toNat + own.fpReserve.toNat ≤ own.freeUnits → own.popFolio a.toNat = some (f, die') →
        DoneWith (.fpop o) s (s.setDie s.curHart.die die') (given s o.d (own.arena + BitVec.ofNat 64 f))) ∧
    (15 < b.toNat → Traps (.fpush o) s { cause := Cause.folio }) ∧
    (b.toNat ≤ 15 → s.arenaOf s.cur.asid a = none → Traps (.fpush o) s { cause := Cause.folio }) ∧
    (∀ d, b.toNat ≤ 15 → s.arenaOf s.cur.asid a = some d →
      ((s.die d).fpAsid ≠ s.cur.asid → Traps (.fpush o) s { cause := Cause.violation, addr := a }) ∧
      ((s.die d).fpAsid = s.cur.asid → (s.die d).folioOk a b.toNat = false → Traps (.fpush o) s { cause := Cause.folio }) ∧
      ((s.die d).fpAsid = s.cur.asid → (s.die d).folioOk a b.toNat = true →
        DoneWith (.fpush o) s (s.setDie d ((s.die d).pushFolio (a - (s.die d).arena).toNat b.toNat (15 - b.toNat))) s.cur)) ∧
    (17 < a.toNat → Traps (.fpcnt o) s { cause := Cause.folio }) ∧
    (a.toNat ≤ 17 → own.fpEn = true → own.fpAsid ≠ s.cur.asid → Traps (.fpcnt o) s { cause := Cause.violation }) ∧
    (a.toNat ≤ 17 → (own.fpEn = true → own.fpAsid = s.cur.asid) → Done (.fpcnt o) s (given s o.d (BitVec.ofNat 64 (if a.toNat = 17 then own.fpReserve.toNat else if own.fpEn = false then 0
      else if a.toNat = 16 then own.freeUnits else (tget [] own.free a.toNat).length))) s.fallPc) ∧
    (let src := if b = 0 then a else b
     isCanonical src → src.toNat % 64 = 0 → ∀ img, Steady (readBlockCur src 320) s img →
      (descCode (leNat img) ≠ 0 → Done (.kvmap o) s (given s o.d (BitVec.ofInt 64 (descCode (leNat img)))) s.fallPc) ∧
      ∀ s1, descCode (leNat img) = 0 → isCanonical a → a.toNat % 64 = 0 → Runs (writeBlockCur a (leBytes 320 (leNat img ||| 2 ^ 63))) s () s1 →
        exec (.kvmap o) s = .next (s1.setR o.d 0).complete) ∧
    ∀ d, Steady (liveDesc a) s d →
      Done (.kvxl o) s (given s o.d ((rowAddr d.exts b.toNat).getD 0)) s.fallPc ∧
      (∀ row s1 s2, b.toNat % 64 = 0 → b.toNat + d.rowb ≤ 0x80000 → d.len < 2 ^ 32 - 1 → d.len ≠ capOf d.exts → rowAddr d.exts d.len = some row →
        Runs (rowOut b.toNat d.rowb row) s () s1 → Runs (writeBlockCur a (leBytes 8 { d with len := d.len + 1 }.dword0)) s1 () s2 →
        exec (.kvapp o) s = .next (s2.setR o.d row).complete) ∧
      (b.toNat % 64 = 0 → b.toNat + d.rowb ≤ 0x80000 → d.len = capOf d.exts → d.cnt = 16 →
        Traps (.kvapp o) s { cause := Cause.kvExtentLimit }) ∧
      (d.len ≤ b.toNat → Done (.kvtrunc o) s (given s o.d 0) s.fallPc) ∧
      (let gone := extentsFrom b.toNat 0 d.exts
       let folios := gone.filter Extent.pool
       ∀ (eng : Extent → Fin 4) s1, b.toNat < d.len →
        (∀ e ∈ folios, s.arenaOf s.cur.asid e.base = some (eng e) ∧ (s.die (eng e)).fpAsid = s.cur.asid ∧
          (s.die (eng e)).folioOk e.base e.ord.toNat = true) →
        Runs (writeBlockCur a (leBytes 8 { d with len := b.toNat, cnt := d.cnt - gone.length }.dword0)) s () s1 →
        exec (.kvtrunc o) s = .next (((folios.foldl (fun u e =>
          let x := u.die (eng e)
          u.setDie (eng e) (x.pushFolio (e.base - x.arena).toNat e.ord.toNat (15 - e.ord.toNat))) s1).setR o.d (BitVec.ofNat 64 folios.length)).complete))

/-- R64 to R69, R111, R114, R319: SQPUSH, SQPOP and SQCNT on the stage queues of the hart's pipeline, whose entries stand in the queue's
storage: a sector of it that fails its check takes no push and gives no pop; VOCSWAP counts the requests on older versions, installs a
version, or answers the code of the first failure. Where an entry is written and read rests on log 20, what VOCSWAP answers for a failing read on log 42. -/
def Obligations.StageQueuesAndVocabularies : Prop :=
  (∀ (o : HT16R) (s : State) (k : Task) (q : StageQueue),
      let i := (s.getR o.a).toNat
      let p := s.hub.pipe k.slot
      let lo := s.getR o.b
      let hi := s.getR (o.b + 1)
      let entry : BitVec 128 := hi ++ lo
      let storage := p.qbase.toNat + 16 * ((p.queues.take i).map StageQueue.depth).sum
      let at' := storage + 16 * (q.pushed % q.depth)
      (s.cur.task = none ∨ 32 ≤ i → ∀ j ∈ [Instr.sqpush o, .sqpop o, .sqcnt o], Traps j s { cause := Cause.stageQueue }) ∧
      (s.cur.task = some k → i < 32 → p.queues[i]? = some q →
        Done (.sqcnt o) s (given s o.d (BitVec.ofNat 64 q.entries.length)) s.fallPc ∧
        (q.cons ≠ k.stage → Traps (.sqpop o) s { cause := Cause.stageQueue }) ∧
        (q.cons = k.stage → q.entries = [] → s.cur.waitlim ≠ 0 → Waits (.sqpop o) s) ∧
        (∀ e rest, q.cons = k.stage → q.entries = e :: rest → Quiet s →
          let from' := storage + 16 * ((q.pushed - q.entries.length) % q.depth)
          (Passes s none from' 16 →
            DoneWith (.sqpop o) s { s with hub := { s.hub with pipes := tput s.hub.pipes k.slot { p with queues := p.queues.set i { q with entries := rest } } } }
              (({ s.cur with task := some { k with popped := true } }.setR s.curStream o.d.val (BitVec.ofNat 64 (valueAt s.mem from' 8))).setR s.curStream
                (o.d + 1).val (BitVec.ofNat 64 (valueAt s.mem (from' + 8) 8)))) ∧
          (from' / 32 ∈ s.badSectors → from' % 32 ≤ 16 → Traps (.sqpop o) s { cause := Cause.integrity, addr := BitVec.ofNat 64 from' })) ∧
        (q.prod ≠ k.stage ∨ q.prod = 31 ∨ hi.extractLsb' 50 2 = 3 → Traps (.sqpush o) s { cause := Cause.stageQueue }) ∧
        (q.prod = k.stage → q.prod ≠ 31 → hi.extractLsb' 50 2 ≠ 3 →
          (q.depth ≤ q.entries.length → s.cur.waitlim ≠ 0 → Waits (.sqpush o) s) ∧
          (q.entries.length < q.depth → Quiet s → at' / 32 ∈ s.badSectors → at' % 32 ≤ 16 →
            Traps (.sqpush o) s { cause := Cause.integrity, addr := BitVec.ofNat 64 at' }) ∧
          (q.entries.length < q.depth → Quiet s → Passes s none at' 16 → ∃ t, exec (.sqpush o) s = .next t ∧ Completes s t ∧ t.curSt.pc = s.fallPc ∧ t.cur.uncounted = (s.cur.past s.curStream s.fallPc).uncounted ∧
              (∀ h, h ≠ s.curHart → t.hart h = s.hart h) ∧
              t.hub = { s.hub with pipes := tput s.hub.pipes k.slot { p with queues := p.queues.set i { q with entries := q.entries ++ [entry], pushed := q.pushed + 1 } } } ∧
              ∀ a, t.mem.read a = if at' ≤ a ∧ a < at' + 16 then entry.extractLsb' (8 * (a - at')) 8 else s.mem.read a)))) ∧
  (∀ (o : HT16R) (s : State) (e : AstEntry),
      let id := s.getR o.a
      let va := s.getR o.b
      let current := match tget [] s.hub.vocabs id.toNat with | v :: _ => v.version | [] => 0
      (Steady (astEntry s.cur.asid va) s none → Traps (.vocswap o) s { cause := Cause.violation }) ∧
      (Steady (astEntry s.cur.asid va) s (some e) → e.voc = false → Traps (.vocswap o) s { cause := Cause.violation }) ∧
      (Steady (astEntry s.cur.asid va) s (some e) → e.voc = true →
        (63 < id.toNat → Done (.vocswap o) s (given s o.d (BitVec.ofInt 64 (-3))) s.fallPc) ∧
        (id.toNat ≤ 63 → va = 0 → Done (.vocswap o) s (given s o.d (BitVec.ofNat 64
          (s.hub.requests.countP fun r => r.vocab.toNat == id.toNat && decide (r.version.toNat < current.toNat)))) s.fallPc) ∧
        (id.toNat ≤ 63 → va.toNat % 64 ≠ 0 → Done (.vocswap o) s (given s o.d (BitVec.ofInt 64 (-2))) s.fallPc) ∧
        (∀ i, id.toNat ≤ 63 → va ≠ 0 → va.toNat % 64 = 0 → hubRead s.cur.asid va 64 s = (.error (.trap i), s) → i.cause ≠ Cause.violation →
          i.cause ≠ Cause.integrity → Done (.vocswap o) s (given s o.d (BitVec.ofInt 64 (-2))) s.fallPc) ∧
        ∀ hb, id.toNat ≤ 63 → va ≠ 0 → va.toNat % 64 = 0 → Steady (hubRead s.cur.asid va 64) s hb →
          (vocabHeaderOk (leNat hb) = false → Done (.vocswap o) s (given s o.d (BitVec.ofInt 64 (-1))) s.fallPc) ∧
          ∀ v good, vocabHeaderOk (leNat hb) = true → Steady (readTables s.cur.asid va (leNat hb)) s (v, good) →
            (good = false → Done (.vocswap o) s (given s o.d (BitVec.ofInt 64 (-1))) s.fallPc) ∧
            (good = true → DoneWith (.vocswap o) s
              { s with hub := { s.hub with vocabs := tput s.hub.vocabs id.toNat (⟨current + 1, s.cur.asid, va⟩ :: tget [] s.hub.vocabs id.toNat) } }
              (given s o.d ((current + 1).zeroExtend 64)))))

/-- R262 to R267: the blotter instructions on an enabled ring of the hart's address space; a ring that is not enabled is the blotter trap,
one of another address space a violation. -/
def Obligations.BlotterInstructions : Prop :=
  ∀ (o : HT16R) (s : State),
    let k := (s.getR o.a).toNat
    let w := s.getR o.b
    let n := w.toNat
    let r := s.ring k
    let ops : List Instr := [.blapp o, .blread o, .blrel o, .blveto o]
    let gives (i : Instr) (r' : Ring) (v : BitVec 64) : Prop :=
      DoneWith i s { s with hub := { s.hub with rings := tput s.hub.rings k r' } } (given s o.d v)
    let ignores (i : Instr) (v : BitVec 64) : Prop := ∃ t, exec i s = .next t ∧ Completes s t ∧
      t.cur.uncounted = ((given s o.d v).past s.curStream s.fallPc).uncounted ∧ t.ring k = { r with ign := r.ign + 1 } ∧ t.mem = s.mem
    (8192 ≤ k ∨ r.en = false → ∀ i ∈ ops, Traps i s { cause := Cause.blotter }) ∧
    (k < 8192 → r.en = true → r.asid ≠ s.cur.asid → ∀ i ∈ ops, Traps i s { cause := Cause.violation }) ∧
    (k < 8192 → r.en = true → r.asid = s.cur.asid →
      (let good := w.extractLsb' 35 29 = 0 ∧ w.extractLsb' 18 14 = 0 ∧ (w.getLsbD 34 = true → w.getLsbD 32 = true) ∧
        (w.getLsbD 32 = true → w.extractLsb' 0 18 = 0)
       (r.closed = true ∨ ¬ good → Traps (.blapp o) s { cause := Cause.blotter }) ∧
       (r.closed = false → good →
        (r.veto = true → w.getLsbD 33 = false → Done (.blapp o) s (given s o.d (BitVec.ofNat 64 (2 ^ 63 + r.vp.toNat))) s.fallPc) ∧
        (r.veto = false → 256 ≤ (r.app - r.emit).toNat → s.cur.waitlim ≠ 0 → Waits (.blapp o) s) ∧
        ((r.veto = true ∧ w.getLsbD 33 = true) ∨ (r.veto = false ∧ (r.app - r.emit).toNat < 256) →
          gives (.blapp o) { r with veto := false, app := r.app + 1
                                    entries := tput r.entries (r.app.toNat % 256) ⟨w.truncate 18, w.getLsbD 32, w.getLsbD 34⟩ } (r.app.zeroExtend 64)))) ∧
      (w.getLsbD 63 = true → w.extractLsb' 2 61 = 0 → Done (.blread o) s (given s o.d (match (w.extractLsb' 0 2).toNat with
        | 0 => BitVec.ofBool r.veto ++ 0#31 ++ r.app
        | 1 => r.rel.zeroExtend 64
        | 2 => r.vp.zeroExtend 64
        | _ => r.emit.zeroExtend 64)) s.fallPc) ∧
      (w.getLsbD 63 = true → w.extractLsb' 2 61 ≠ 0 → Traps (.blread o) s { cause := Cause.blotter }) ∧
      (w.getLsbD 63 = false → w.extractLsb' 32 31 ≠ 0 → Traps (.blread o) s { cause := Cause.blotter }) ∧
      (w.extractLsb' 32 32 = 0 →
        (n < r.rel.toNat → Done (.blread o) s (given s o.d (BitVec.allOnes 64)) s.fallPc) ∧
        (r.rel.toNat ≤ n → n < r.app.toNat →
          let e : BlEntry := tget ⟨0, false, false⟩ r.entries (n % 256)
          Done (.blread o) s (given s o.d (0#29 ++ BitVec.ofBool e.cancel ++ 0#1 ++ BitVec.ofBool e.fin ++ 0#14 ++ e.token)) s.fallPc) ∧
        (r.rel.toNat ≤ n → r.app.toNat ≤ n → s.cur.waitlim ≠ 0 → Waits (.blread o) s) ∧
        (n ≤ r.rel.toNat ∨ r.app.toNat < n ∨ (r.veto = true ∧ r.vp.toNat < n) → ignores (.blrel o) 0) ∧
        (r.rel.toNat < n → n ≤ r.app.toNat → (r.veto = true → n ≤ r.vp.toNat) →
          gives (.blrel o) { r with rel := w.truncate 32, closed := r.closed || (List.range (n - r.rel.toNat)).any fun i =>
            (tget ⟨0, false, false⟩ r.entries ((r.rel.toNat + i) % 256) : BlEntry).fin } 1) ∧
        (n < r.rel.toNat ∨ r.app.toNat < n ∨ (r.veto = true ∧ r.vp.toNat ≤ n) → ignores (.blveto o) (BitVec.allOnes 64)) ∧
        (r.rel.toNat ≤ n → n ≤ r.app.toNat → (r.veto = true → n < r.vp.toNat) → r.notice = false →
          gives (.blveto o) { r with app := w.truncate 32, vp := w.truncate 32, veto := true
                                     entries := (List.range (r.app.toNat - n)).foldl (fun t i => tdel ((n + i) % 256) t) r.entries }
            (BitVec.ofNat 64 (r.app.toNat - n)))) ∧
      (w.extractLsb' 32 32 ≠ 0 → Traps (.blrel o) s { cause := Cause.blotter } ∧ Traps (.blveto o) s { cause := Cause.blotter }))

/-- R274 to R277: GMSTEP steps a context's automaton or rejects without a change, GMRESET puts it to its start state, GMMASK reads 512
bits of the state's mask, zero past its end; each checks the context first. A GMMASK head whose other fields are not as R276 has them
decodes to no instruction.
The order of GMMASK's checks and GMRESET of an installed object rest on log 44 and 45. -/
def Obligations.StencilInstructions : Prop :=
  (∀ (o : HT16R) (s : State) (obj : StencilObj) (cl e mk : Nat),
    let n := (s.getR o.a).toNat
    let t := (s.getR o.b).toNat
    let c := s.ctx n
    let wordOf (c : StencilCtx) : BitVec 64 := BitVec.ofNat 64 (c.stack.length * 2 ^ 16 + c.state)
    (4096 ≤ n → Traps (.gmstep o) s { cause := Cause.stencil } ∧ Traps (.gmreset o) s { cause := Cause.stencil }) ∧
    (n < 4096 → c.owner ≠ s.cur.asid → Traps (.gmstep o) s { cause := Cause.violation } ∧ Traps (.gmreset o) s { cause := Cause.violation }) ∧
    (n < 4096 → c.owner = s.cur.asid →
      (c.obj = none → Traps (.gmstep o) s { cause := Cause.stencil } ∧ (s.getR o.b = 0 → Traps (.gmreset o) s { cause := Cause.stencil })) ∧
      (c.obj = some obj → s.getR o.b = 0 →
        let c' : StencilCtx := { c with state := obj.start, stack := [] }
        DoneWith (.gmreset o) s { s with hub := { s.hub with ctxs := tput s.hub.ctxs n c' } } (given s o.d (wordOf c'))) ∧
      (c.obj = some obj → s.frozenOp 3 (n / 1024) = none → t < 2 ^ 18 → o.d.val % 2 = 0 → 2 ≤ o.d.val → o.d.val ≤ 14 →
        let rejects := Done (.gmstep o) s ((s.cur.setR s.curStream o.d.val (BitVec.allOnes 64)).setR s.curStream (o.d.val + 1) (BitVec.allOnes 64)) s.fallPc
        (obj.tokens ≤ t → rejects) ∧
        (t < obj.tokens → Steady (obj.read (obj.classOff + t) 1) s cl → Steady (obj.read (obj.transOff + 8 * (c.state * obj.classes + cl)) 8) s e →
          Steady (obj.read (obj.maskOff + 64 * ((obj.tokens + 511) / 512) * c.state + t / 8) 1) s mk →
          (obj.classes ≤ cl ∨ e.testBit 63 = false ∨ mk.testBit (t % 8) = false → rejects) ∧
          (cl < obj.classes → e.testBit 63 = true → mk.testBit (t % 8) = true →
            (e / 2 ^ 24 % 4 = 1 → min c.limit.toNat 64 ≤ c.stack.length → Traps (.gmstep o) s { cause := Cause.stackOverflow }) ∧
            (e / 2 ^ 24 % 4 ≠ 1 ∨ c.stack.length < min c.limit.toNat 64 → match moved c e obj.states with
              | none => rejects
              | some c' => DoneWith (.gmstep o) s { s with hub := { s.hub with ctxs := tput s.hub.ctxs n c' } }
                  ((s.cur.setR s.curStream o.d.val (wordOf c')).setR s.curStream (o.d.val + 1)
                    (match obj.forced.getD c'.state none with | some f => BitVec.ofNat 64 f | none => BitVec.allOnes 64)))))))) ∧
  ∀ (o : HT32V) (s : State) (obj : StencilObj) (m : Nat),
    let n := (s.getR (Fin.ofNat 32 o.a.val)).toNat
    let w := s.getR (Fin.ofNat 32 o.b.val)
    let c := s.ctx n
    let dst : Operand := ⟨o.d.val, o.group.size, 8⟩
    let chunks := (obj.tokens + 511) / 512
    let good := w.extractLsb' 32 32 = 0
    (4096 ≤ n → Traps (.gmmask o) s { cause := Cause.stencil }) ∧ (n < 4096 → c.owner ≠ s.cur.asid → Traps (.gmmask o) s { cause := Cause.violation }) ∧
    (n < 4096 → c.owner = s.cur.asid → c.obj = none → Traps (.gmmask o) s { cause := Cause.stencil }) ∧
    (n < 4096 → c.owner = s.cur.asid → c.obj = some obj →
      (¬ good → Traps (.gmmask o) s { cause := Cause.stencil }) ∧
      (good → Opens s.cur [] [dst] → s.frozenOp 3 (n / 1024) = none →
        (w.toNat < chunks → Steady (obj.read (obj.maskOff + 64 * (c.state * chunks + w.toNat)) 64) (s.setCur s.cur) m) →
        ∃ t, exec (.gmmask o) s = .next t ∧ OnlyHarts s t ∧ (∀ h, h ≠ s.curHart → t.hart h = s.hart h) ∧ Completes s t ∧ t.curSt.pc = s.fallPc ∧
          t.cur.group s.regBits o.d.val o.group.size = (if w.toNat < chunks then m else 0) % 2 ^ (s.regBits * o.group.size) ∧
          (∀ r, r < o.d.val ∨ o.d.val + o.group.size ≤ r → t.cur.getV r = s.cur.getV r) ∧
          t.cur.uncounted = ((s.cur.wrote s.regBits dst (if w.toNat < chunks then m else 0)).past s.curStream s.fallPc).uncounted)) ∧
    ∀ (st : Stream) (h hd tail : Nat), decodeHead st h hd tail = some (.gmmask o) →
      o.fmt = .n8 ∧ o.mask = 0 ∧ o.var = 0 ∧ o.cha = false ∧ o.chb = false ∧ 512 ≤ 2048 / 2 ^ h * o.group.size

/-- R357 to R359: FLPOST posts a valid entry under the next tag, which it returns, and FLPOLL reads the completion word of a tag; −3 for a
ring that is not enabled, a violation for one of another address space, −2 for an invalid entry, −1 for a full ring or an unknown
tag. -/
def Obligations.FlashInstructions : Prop :=
  ∀ (o : HT16R) (s : State) (img : List Byte),
    let k := (s.getR o.a).toNat
    let b := s.getR o.b
    let r := s.flashRing k
    let gives (i : Instr) (v : BitVec 64) : Prop := Done i s (given s o.d v) s.fallPc
    let e := BitVec.ofNat 512 (leNat img)
    (256 ≤ k ∨ r.en = false → gives (.flpost o) (BitVec.ofInt 64 (-3)) ∧ gives (.flpoll o) (BitVec.ofInt 64 (-3))) ∧
    (k < 256 → r.en = true → r.asid ≠ s.cur.asid → Traps (.flpost o) s { cause := Cause.violation } ∧ Traps (.flpoll o) s { cause := Cause.violation }) ∧
    (k < 256 → r.en = true → r.asid = s.cur.asid →
      (b.extractLsb' 32 32 ≠ 0 ∨ b.truncate 32 ∉ r.tags → gives (.flpoll o) (BitVec.allOnes 64)) ∧
      (b.extractLsb' 32 32 = 0 → b.truncate 32 ∈ r.tags →
        (∀ w, (∃ l, r.done = (b.truncate 32, w) :: l) → gives (.flpoll o) w) ∧
        ((∀ p ∈ r.done, p.1 ≠ b.truncate 32) → gives (.flpoll o) 0)) ∧
      (isCanonical b → b.toNat % 64 = 0 → Steady (readBlockCur b 64) s img →
        (flashInvalid e r.nlb.toNat = true → gives (.flpost o) (BitVec.ofInt 64 (-2))) ∧
        (flashInvalid e r.nlb.toNat = false →
          (64 ≤ r.inflight.length → gives (.flpost o) (BitVec.ofInt 64 (-1))) ∧
          (r.inflight.length < 64 → DoneWith (.flpost o) s
            { s with hub := { s.hub with flashRings := tput s.hub.flashRings k { r with
                next := if r.next = BitVec.allOnes 32 then 1 else r.next + 1, tags := (r.next :: r.tags).take 256
                inflight := r.inflight ++ [⟨r.next, e, s.curHart.die, s.cur.asid, r.lba.toNat, r.nlb.toNat, s.hub.flashWrites⟩] } } }
            (given s o.d (r.next.zeroExtend 64))))))

namespace Sys2Proof.Spec

/-- A step of another agent that changes the hub alone. -/
def Sets (i : Instr) (s : State) (h : Hub) : Prop := exec i s = .next { s with hub := h }

/-- A step of another agent that changes one die alone. -/
def SetsDie (i : Instr) (s : State) (d : Fin 4) (x : Die) : Prop := exec i s = .next (s.setDie d x)

/-- A step that changes event counters of the hub or of dies alone (an ignored write counts as event 0x22). -/
def Ignores (i : Instr) (s : State) : Prop :=
  ∃ t cs ds, exec i s = .next t ∧ t = { s with hub := { s.hub with counters := cs }, dies := ds } ∧ ∀ d, (t.die d).uncounted = (s.die d).uncounted

/-- A stash line of a region lies in a page that an invalidation names: its 64 KiB pages and those of the range meet (R81, R125). -/
def named (x : InvPort) (r : StashRegion) (i : Nat) (l : StashLine) : Bool :=
  let size := 2 ^ (pageBits l.level - 16)
  let page := (r.va + BitVec.ofNat 64 (64 * i)).toNat % 2 ^ 57 / 2 ^ pageBits l.level
  let first := x.va.toNat % 2 ^ 41
  (x.allas || x.asid == r.asid) && (x.pages == 0 || decide (max (page * size) first < min ((page + 1) * size) (first + x.pages.toNat)))

/-- The word of SPREQ with a KIND (Table 29.2). -/
def spareRows : List (Instr × Nat) := [(.spareCoreSwap, 1), (.spareLigatureSwap, 2), (.spareScribeSwap, 3)]

end Sys2Proof.Spec

/-- R81, R84, R96, R98, R125, R139, R144, R261, R273, R298, R357, R364, R365, R367 and the register tables of the hub control space: writes of KCTL, FPCTL and stencil control words, of barriers, rings,
invalidation ports, spares and counters, and what they leave: a freed well and a disabled ring trap those that wait on them, and an
invalidation is done once no translation of its range is cached and the stash lines filled through one are written back and gone.
What is ignored without a count rests on log 47 and 53, the range of an invalidation on log 74, the spare lanes on log 79. -/
def Obligations.ControlRegisterWrites : Prop :=
  (∀ (s : State),
      let k := s.req.key.val
      let slot : KeySlot := tget {} s.hub.keys k
      let d := s.req.die
      let x := s.die d
      let v := s.req.value
      let size := (v.extractLsb' 1 7).toNat
      (slot.loaded = false → Sets .keySlotLoad s { s.hub with keys := tput s.hub.keys k { slot with loaded := true, key := slot.words } }) ∧
      (slot.loaded = true → exec .keySlotLoad s = .next s) ∧
      Sets .keySlotClear s { s.hub with keys := tput s.hub.keys k {} } ∧
      (x.fpEn = false → 1 ≤ size → size ≤ 67 → size * 2 ^ 31 ≤ x.popBytes.toNat → SetsDie .folioPoolEnable s d { x with
        fpEn := true, fpSize := v.extractLsb' 1 7, fpReserve := v.extractLsb' 32 32, free := [(15, (List.range size).map fun i => i * 2 ^ 31)] }) ∧
      (x.fpEn = false → ¬ (1 ≤ size ∧ size ≤ 67 ∧ size * 2 ^ 31 ≤ x.popBytes.toNat) → Ignores .folioPoolEnable s) ∧
      (x.fpEn = true → SetsDie .folioReserveSet s d { x with fpReserve := v.extractLsb' 32 32 } ∧
        SetsDie .folioPoolDisable s d { x with fpReserve := v.extractLsb' 32 32, fpEn := false }) ∧
      (x.fpEn = false → SetsDie .folioListsDiscard s d { x with free := [] }) ∧
      let c := s.ctx s.req.ctx.val
      Sets .stencilContextControl s { s.hub with
        ctxs := tput s.hub.ctxs s.req.ctx.val { c with owner := v.extractLsb' 0 16, limit := v.extractLsb' 16 7 } }) ∧
  (∀ (s : State),
      let r := s.req
      let v := r.value
      (let id := r.core
       let k := r.handle.val
       let w := (s.core id).well k
       let stuck := w.state = .faulted ∨ (w.copy.map Copy.frozen).getD false = true
       (stuck → exec .cpctlResume s = .next (s.setCore id ((s.core id).setWell k (resumed w))) ∧
        ((∀ p ∈ s.harts, p.1 / 8 = coreKey id → ∀ st, ¬ WaitsOn p.2 st (.well r.handle)) →
          exec .cpctlCancel s = .next (s.setCore id ((s.core id).setWell k {}))) ∧
        ∃ t, exec .cpctlCancel s = .next t ∧ t.core id = (s.core id).setWell k {} ∧
          EndsWaits s t (.well r.handle) Cause.orphanWait fun h => coreOf h = id) ∧
       (¬ stuck → Ignores .cpctlResume s ∧ Ignores .cpctlCancel s)) ∧
      (let net := r.network.val
       let id := r.barrier.val
       let b := s.barrier net id
       let b' : Barrier := { asid := v.extractLsb' 48 16, en := true, root := if net = 485 then v.extractLsb' 32 9 else 0 }
       (b.en = false → Sets .barrierEnable s { s.hub with barriers := tput s.hub.barriers (32 * net + id) b' }) ∧
       (b.en = true → exec .barrierEnable s = .next s ∧ ∃ t, exec .barrierDisable s = .next t ∧ t.mem = s.mem ∧
          t.barrier net id = { b with en := false, arr := 0, byt := 0, memb := 0, xarr := 0, xbyt := 0 } ∧
          ∀ h st q, st ≠ .c → (s.hart h).halted = false → ((s.hart h).st st).bar = some q → q.network = net → q.id = id →
            ((s.hart h).st st).wait.isSome = true → (t.hart h).halted = true ∧ ((t.hart h).st st).cause = Cause.barrier)) ∧
      (let k := r.ring.val
       let x := s.ring k
       let x' : Ring :=
         { en := true, session := r.block.extractLsb' 448 64, asid := r.block.extractLsb' 272 16, flow := r.block.extractLsb' 256 16
           vocab := r.block.extractLsb' 250 6, model := r.block.extractLsb' 234 16, rtab := r.block.extractLsb' 188 46
           scribe := r.block.extractLsb' 16 4, notice := r.block.getLsbD 1 }
       (x.en = false → Sets .blotterRingEnable s { s.hub with rings := tput s.hub.rings k x' }) ∧
       (x.en = true → exec .blotterRingEnable s = .next s ∧
         ∃ t, exec .blotterRingDisable s = .next t ∧ (t.ring k).en = false ∧ (t.ring k).entries = [] ∧
          (x.closed = true → t.hub.frames = s.hub.frames) ∧ (x.closed = false → ∃ f, t.hub.frames = s.hub.frames ++ [f] ∧ f.kind = 4 ∧ f.session = x.session ∧
            f.payload = leBytes 8 (4 + x.emit.toNat * 2 ^ 32)) ∧ EndsWaits s t (.ring k) Cause.blotter fun _ => True)) ∧
      (let k := r.fring.val
       let x := s.flashRing k
       let x' : FlashRing := { x with en := true, asid := v.extractLsb' 48 16, tags := [], done := [] }
       (x.en = false → x.inflight = [] → Sets .flashRingEnable s { s.hub with flashRings := tput s.hub.flashRings k x' }) ∧
       (x.en = false → x.inflight ≠ [] → Ignores .flashRingEnable s) ∧
       (x.en = true → Sets .flashRingDisable s { s.hub with flashRings := tput s.hub.flashRings k { x with en := false } })) ∧
      (let k := r.port.val
       let x : InvPort := tget {} s.hub.inv k
       let x' : InvPort := { x with asid := v.extractLsb' 48 16, allas := v.getLsbD 47, pages := v.extractLsb' 0 32, done := false }
       (x.done = true → Sets .invalidation s { s.hub with inv := tput s.hub.inv k x' }) ∧
       (x.done = false → Ignores .invalidation s ∧ ∃ t, exec .invalidationDone s = .next t ∧ t.harts = s.harts ∧
          t.hub = { s.hub with inv := tput s.hub.inv k { x with done := true }
                               asts := s.hub.asts.filter fun a => !(x.pages == 0 && (x.allas || x.asid.toNat == a.1)) } ∧
          (∀ a, t.mem.read a = s.cores.foldl (fun m p => putBack p.2.scratch (p.2.stash.flatMap fun q => dirtySectors q (named x q)) m) s.mem.read a) ∧
          (∀ p ∈ t.cores, ∀ q ∈ p.2.stash, ∀ i l, (i, some l) ∈ q.lines → named x q i l = false) ∧
          ((∀ p ∈ s.cores, ∀ q ∈ p.2.stash, ∀ i l, (i, some l) ∈ q.lines → named x q i l = false) → t.cores = s.cores ∧ t.mem = s.mem) ∧
          ∀ d c, c ∈ (t.die d).tlb ↔ c ∈ (s.die d).tlb ∧ ¬ ((x.allas = true ∨ x.asid = c.asid) ∧ (x.pages = 0 ∨
            ∃ p, c.vpage * 2 ^ (pageBits c.level - 16) ≤ p ∧ p < (c.vpage + 1) * 2 ^ (pageBits c.level - 16) ∧
              x.va.toNat % 2 ^ 41 ≤ p ∧ p < x.va.toNat % 2 ^ 41 + x.pages.toNat)))) ∧
      (let die : Fin 4 := Fin.ofNat 4 (v.extractLsb' 15 2).toNat
       let unit := (v.extractLsb' 8 7).toNat
       (∀ p ∈ spareRows, s.hub.spreq.busy = true ∨ 96 ≤ unit ∨ (p.2 ≠ 1 ∧ 16 ≤ unit) → Ignores p.1 s) ∧
       ∀ p ∈ spareRows, s.hub.spreq.busy = false → unit < 96 → (p.2 ≠ 1 → unit < 16) →
        let q (busy : Bool) (stat : BitVec 2) : SpareReq := ⟨busy, BitVec.ofNat 3 p.2, BitVec.ofNat 2 die.val, BitVec.ofNat 7 unit, stat⟩
        (s.unitBusy p.2 die unit = true → Sets p.1 s { s.hub with spreq := q false 1 }) ∧
        (s.unitBusy p.2 die unit = false → s.sparesLeft p.2 die = 0 → Sets p.1 s { s.hub with spreq := q false 2 }) ∧
        (s.unitBusy p.2 die unit = false → s.sparesLeft p.2 die ≠ 0 → ∃ t, exec p.1 s = .next t ∧ t.hub.spreq = q true 0 ∧ t.mem = s.mem ∧ t.harts = s.harts)) ∧
      (s.hub.spreq.busy = true → ∃ t, exec .spareSwapDone s = .next t ∧ t.hub.spreq = { s.hub.spreq with busy := false } ∧ t.mem = s.mem ∧
        (s.hub.spreq.kind = 1 → let id : CoreId := ⟨Fin.ofNat 4 s.hub.spreq.die.toNat, Fin.ofNat 96 s.hub.spreq.unit.toNat⟩
          t.core id = { harts := (s.core id).harts } ∧ ∀ c, c ≠ id → t.core c = s.core c)) ∧
      (∀ l n, r.lane = .dieLink l n → Ignores .laneRetraining s) ∧
      (∀ g n, r.lane = .serdes g n →
        let used := tget 0 s.hub.laneSpares g.val
        (used < 4 → ∃ cs, Sets .laneRetraining s { s.hub with laneSpares := tput s.hub.laneSpares g.val (used + 1), counters := cs }) ∧
        (4 ≤ used → exec .laneRetraining s = .next s)) ∧
      ((s.counter r.counter).en = true → (s.counter r.counter).count = BitVec.allOnes 48 → ∃ t, exec .eventCounterWrap s = .next t ∧ t.mem = s.mem ∧
        t.counter r.counter = { s.counter r.counter with count := 0, ovf := true }) ∧
      (let h := { s.hub with astEn := v.getLsbD 0 }
       r.addr.toNat = hubBase + 0x30000 → Sets .registerWrite s (if s.hub.astEn then h else { h with astBase := v.extractLsb' 21 31 })) ∧
      (hubReg r.addr.toNat = none → exec .registerWrite s = .refused (.noSuchRegister r.addr.toNat)))

/-- R320 to R327, R333 to R340, R168: installing and draining a pipeline, starting tasks, dispatch, the balancer's sample, pre-emption,
swapping out, the operations of RESCTL, and the end of a wait.
Which hart counts as free, when a pre-emption is due, and which notices are posted rest on log 21, 50, 51 and 52; what OP 1, 3 and 4 do
with a frame whose resume record no OP 1 entered rests on log 73. -/
def Obligations.SchedulingEvents : Prop :=
  ∀ (s : State),
    let r := s.req
    let v := r.value
    let d := r.die
    let slot := r.slot.val
    let p := s.hub.pipe slot
    let fr := (v.extractLsb' 0 13).toNat
    let p1 : Pipeline := { p with asid := v.extractLsb' 48 16, model := v.extractLsb' 32 16, inq := v.extractLsb' 22 5, ing := v.getLsbD 21
                                  dies := v.extractLsb' 17 4 }
    let s1 : State := { s with hub := { s.hub with pipes := tput s.hub.pipes slot p1 } }
    (∀ h stages queues, p.en = false → p.state = 0 → Steady (installReads p1.asid p1.addr) s1 (h, stages, queues) →
      let p2 : Pipeline := { p1 with stages := stages, queues := queues, prio := bits h 40 2, thr := if bits h 48 16 = 0 then 256 else bits h 48 16
                                     maps := if p1.ing then some p1.model else none }
      (s1.installOk slot p2 = false → ∃ t, exec .pipelineInstall s = .next t ∧ (t.hub.pipe slot).state = 3 ∧ (t.hub.pipe slot).en = false ∧ t.dies = s.dies) ∧
      (s1.installOk slot p2 = true → ∃ t, exec .pipelineInstall s = .next t ∧ t.hub.pipe slot = { p2 with state := 1, en := true } ∧ t.mem = s.mem ∧
        ∀ d, p1.dies.getLsbD d.val = true → tget [] (t.die d).launch p2.prio = tget [] (s.die d).launch p2.prio ++
          stages.zipIdx.flatMap fun x => List.replicate x.1.minh { kind := .first slot x.2 })) ∧
    (p.en = true → ∃ t, exec .pipelineDrain s = .next t ∧ (t.hub.pipe slot).en = false ∧
      (t.hub.pipe slot).state = if s.tasksOf slot = 0 then 0 else 2) ∧
    (let h := r.hart
     ∀ sl stg st, (s.assignOf h).stage = some (sl, stg) → (s.hub.pipe sl).stages[stg]? = some st → (s.hart h).task = none → (s.hub.pipe sl).state = 1 →
      s.coreMeets (coreOf h) (s.hub.pipe sl).asid st.featm st.hpc = true → s.waitingTasks h.die sl stg < (s.hub.pipe sl).filled stg →
      ∃ t, exec .queueTaskStart s = .next t ∧ t.mem = s.mem ∧
        (t.hart h).task = some ⟨s.taskCtr + 1, (s.hub.pipe sl).asid, sl, stg, (s.hub.pipe sl).prio, false⟩ ∧
        (t.hart h).sa.pc = st.aent ∧ (t.hart h).sx.pc = st.xent ∧ (t.hart h).sc.pc = st.cent ∧ (t.hart h).featm = st.featm ∧
        (∀ q, ((t.hart h).st q).stat = .running) ∧ (t.hart h).v = [] ∧ ∀ g, g ≠ h → t.hart g = s.hart g) ∧
    (∀ sl stg st w h, s.retirements d = ([], []) → (∀ k, k ≠ 3 → tget [] (s.die d).launch k = []) →
      (tget [] (s.die d).launch 3) = [⟨.first sl stg, w⟩] → s.pickFirst d sl stg = some h → (s.hub.pipe sl).stages[stg]? = some st →
      ∃ t, exec .launchDispatch s = .next t ∧ tget [] (t.die d).launch 3 = [] ∧ (t.hart h).task =
        some ⟨s.taskCtr + 1, (s.hub.pipe sl).asid, sl, stg, (s.hub.pipe sl).prio, false⟩ ∧ (t.hart h).sa.pc = st.aent) ∧
    ((∀ x ∈ s.hub.pipes, (s.hub.pipe x.1).state ≠ 1) → (∀ a ∈ (s.die d).assign, a.2.mark = none) →
      SetsDie .balancerSample s d { s.die d with samples := (s.die d).samples + 1
                                                 launch := (s.die d).launch.map fun x => (x.1, x.2.map fun l => { l with waited := l.waited + 1 }) }) ∧
    (∀ l h, (∀ k, k ≠ 3 → tget [] (s.die d).launch k = []) → tget [] (s.die d).launch 3 = [l] → 2 ≤ l.waited → s.victim d 3 l = some h →
      (s.hart h).task.isSome = true → (s.hart h).retiring = false → (s.hart h).halted = false → (s.hart h).preempt = none →
      ∃ t, exec .launchPriorityPreempt s = .next t ∧ t.hart h = { (s.hart h).stop with halt := {}, preempt := some .launch } ∧
        tget [] (t.die d).launch 3 = [{ l with waited := 1 }]) ∧
    (∀ h : HartId, h.die = d → h.core.val = (v.extractLsb' 3 7).toNat → h.hart.val = (v.extractLsb' 0 3).toNat →
      h.hart.val < (s.core (coreOf h)).numHarts → v.getLsbD 10 = false → (s.hart h).task.isSome = true → (s.hart h).retiring = false →
      (s.hart h).halted = false → (s.hart h).preempt = none → exec .preempt s = .next (s.setHart h { (s.hart h).stop with halt := {}, preempt := some .supervisor })) ∧
    (let h := r.hart
     let x := s.hart h
     let prio := (x.task.map Task.prio).getD 0
     let auto := decide (x.halt.xcause = 0 ∧ x.halt.acause = 0 ∧ x.halt.ccause = 0 ∧ (x.preempt = some .balancer ∨ x.preempt = some .launch))
     ∀ k, x.task.isSome = true → x.retiring = false → x.halted = true → (s.die h.die).freeSlot = some k → (s.die h.die).noticeFree = true →
      (s.die h.die).nqHeld = [] → ∃ t f, exec .hartSwapOut s = .next t ∧ (t.hart h).uncounted = {} ∧ (t.die h.die).frame k = some f ∧
        f.hart = { x with preempt := none } ∧ f.id = h ∧ f.queued = auto ∧ (t.die h.die).nqHead = (s.die h.die).nqHead + 1 ∧
        tget [] (t.die h.die).launch prio = tget [] (s.die h.die).launch prio ++ if auto then [{ kind := .resume k false }] else []) ∧
    (∀ f, (s.die d).frame fr = some f → (f.queued = true ∧ f.auto = false) ∨ f.retiring = true →
      Ignores .resume s ∧ Ignores .resumeAfter s ∧ Ignores .force s ∧ Ignores .cancel s) ∧
    (∀ f, (s.die d).frame fr = some f → f.queued = true → f.auto = true → f.retiring = false →
      let kept : Die := { s.die d with frames := tput (s.die d).frames fr (some { f with auto := false }) }
      (f.hart.halt.frz = false → SetsDie .resume s d kept) ∧ (f.hart.halt.frz = false → f.hart.afterOk = true → SetsDie .resumeAfter s d kept)) ∧
    (∀ f, (s.die d).frame fr = some f → f.queued = false → f.retiring = false →
      let prio := (f.hart.task.map Task.prio).getD 0
      let put (after : Bool) (i : Instr) : Prop := ∃ t, exec i s = .next t ∧ (t.die d).frame fr = some { f with queued := true } ∧
        tget [] (t.die d).launch prio = tget [] (s.die d).launch prio ++ [{ kind := .resume fr after }] ∧ t.harts = s.harts ∧ t.mem = s.mem
      (f.hart.halt.frz = false → put false .resume) ∧ (f.hart.halt.frz = true → Ignores .resume s ∧ Ignores .resumeAfter s) ∧
      (f.hart.halt.frz = false → f.hart.afterOk = true → put true .resumeAfter) ∧
      (f.hart.afterOk = false → Ignores .resumeAfter s)) ∧
    (∀ f, (s.die d).frame fr = some f → f.queued = false ∨ f.auto = true → f.retiring = false →
      let unqueued (t : State) : Prop := ∀ k, ∀ l ∈ tget [] (t.die d).launch k, ∀ after, l.kind ≠ .resume fr after
      (∀ h : HartId, h.die = d → h.core.val = (v.extractLsb' 23 7).toNat → h.hart.val = (v.extractLsb' 20 3).toNat → (s.hart h).task = none →
        h.hart.val < (s.core (coreOf h)).numHarts → (s.core (coreOf h)).swapHeld = false → (s.core (coreOf h)).harts = (s.core (coreOf f.id)).harts →
        (∀ a ∈ s.boundTo (coreOf h), a = f.hart.asid) → ∃ t, exec .force s = .next t ∧ (t.die d).frame fr = none ∧ unqueued t ∧
          (t.hart h).task = f.hart.task ∧ (t.hart h).halted = false ∧ (t.hart h).v = f.hart.v ∧ (t.hart h).sa.pc = f.hart.sa.pc) ∧
      (∀ k, f.hart.task = some k → (∀ c ∈ s.cores, c.2.wells = [] ∧ c.2.stash = []) → f.hart.binds = [] → f.hart.quire = none → (s.hub.pipe k.slot).state ≠ 2 →
        ∃ t, exec .cancel s = .next t ∧ (t.die d).frame fr = none ∧ unqueued t ∧ t.mem = s.mem ∧ t.harts = s.harts)) ∧
    ((s.die d).frame fr = none → Ignores .resume s ∧ Ignores .resumeAfter s ∧ Ignores .force s ∧ Ignores .cancel s) ∧
    (∀ i q, s.frozenOp (v.extractLsb' 37 3).toNat (v.extractLsb' 32 5).toNat = some (i, q) →
      let key := 32 * (v.extractLsb' 37 3).toNat + (v.extractLsb' 32 5).toNat
      (i.encode = none → exec .unfreezeEngine s = .next { s with hub := { s.hub with frozen := tput s.hub.frozen key none }, agenda := .event i q :: s.agenda }) ∧
      ∃ t, exec .dropEngineOperation s = .next t ∧ tget none t.hub.frozen key = none ∧ t.mem = s.mem ∧ t.harts = s.harts) ∧
    ((s.hart r.hart).task.isSome = true → (s.hart r.hart).halted = false → ((s.hart r.hart).st r.stream).wait.isSome = true →
      ∃ t, exec .waitLimitExpiry s = .next t ∧ t.mem = s.mem ∧ (t.hart r.hart).halted = true ∧ ((t.hart r.hart).st r.stream).cause = Cause.waitLimit ∧
        ((t.hart r.hart).st r.stream).wait = none ∧ ∀ g, g ≠ r.hart → t.hart g = s.hart g)

namespace Sys2Proof.Spec

/-! ### Tokenising (R59) -/

/-- Step 4: while a pair of the tokens is in the merge table, the leftmost of the pairs of lowest rank becomes its result. -/
inductive MergesTo (v : Vocab) : List Nat → List Nat → Prop
  | stop (t : List Nat) : (∀ i x y, t[i]? = some x → t[i + 1]? = some y → v.lookup x y = none) → MergesTo v t t
  | step (t u : List Nat) (i x y res rank : Nat) : t[i]? = some x → t[i + 1]? = some y → v.lookup x y = some (res, rank) →
      (∀ j x' y' res' rank', t[j]? = some x' → t[j + 1]? = some y' → v.lookup x' y' = some (res', rank') → rank ≤ rank' ∧ (rank' = rank → i ≤ j)) →
      MergesTo v (t.take i ++ res :: t.drop (i + 2)) u → MergesTo v t u

/-- A boundary of step 2: the bit of the two bytes' classes in the split matrix. -/
def boundaryAt (v : Vocab) (a b : Byte) : Prop := v.split.testBit (16 * v.cls.getD a.toNat 0 + v.cls.getD b.toNat 0) = true

/-- Step 2: the pre-tokens of a run, cut where the split matrix has a boundary, and after every 1,024 bytes of an unbroken piece. -/
def PreTokens (v : Vocab) (run : List Byte) (ps : List (List Byte)) : Prop :=
  ps.flatten = run ∧ (∀ p ∈ ps, p ≠ [] ∧ p.length ≤ 1024 ∧ ∀ i a b, p[i]? = some a → p[i + 1]? = some b → ¬ boundaryAt v a b) ∧
  ∀ i p q, ps[i]? = some p → ps[i + 1]? = some q → p.length = 1024 ∨ ∃ a b, p.getLast? = some a ∧ q.head? = some b ∧ boundaryAt v a b

/-- The tokens of a run (steps 2 to 4). -/
def RunTokens (v : Vocab) (run : List Byte) (toks : List Nat) : Prop :=
  ∃ (ps : List (List Byte)) (ts : List (List Nat)), PreTokens v run ps ∧ toks = ts.flatten ∧ ts.length = ps.length ∧
    ∀ (i : Nat) (p : List Byte) (t : List Nat), ps[i]? = some p → ts[i]? = some t → MergesTo v ((p : List Byte).map fun b => v.bytemap.getD b.toNat 0) t

/-- The longest special string at the start of a text. -/
def LongestSpecial (v : Vocab) (t s : List Byte) (tok : Nat) : Prop :=
  (s, tok) ∈ v.specials ∧ s <+: t ∧ ∀ x ∈ v.specials, x.1 <+: t → x.1.length ≤ s.length

/-- Step 1 over a whole text, from the left, with the unmatched run so far. -/
inductive Tokenises (v : Vocab) (nospec : Bool) : List Byte → List Byte → List Nat → Prop
  | done (run : List Byte) (toks : List Nat) : RunTokens v run toks → Tokenises v nospec run [] toks
  | special (run t s : List Byte) (tok : Nat) (before after : List Nat) : nospec = false → LongestSpecial v t s tok → RunTokens v run before →
      Tokenises v nospec [] (t.drop s.length) after → Tokenises v nospec run t (before ++ tok :: after)
  | byte (run t : List Byte) (b : Byte) (toks : List Nat) : (nospec = false → ∀ x ∈ v.specials, ¬ x.1 <+: b :: t) →
      Tokenises v nospec (run ++ [b]) t toks → Tokenises v nospec run (b :: t) toks

/-- R59: the engine gives the tokens of one pass over the whole text, whatever the frames: what it holds back of one frame goes before the
next. -/
def TokenLaw : Prop :=
  ∀ (v : Vocab) (nospec : Bool), (∀ x ∈ v.specials, x.1 ≠ []) → (v.specials.map Prod.fst).Nodup →
    (∀ t, Tokenises v nospec [] t (v.advance nospec true t).1 ∧ (v.advance nospec true t).2 = []) ∧
    ∀ t u final, let r := v.advance nospec false t
      (v.advance nospec final (t ++ u)).1 = r.1 ++ (v.advance nospec final (r.2 ++ u)).1 ∧
      (v.advance nospec final (t ++ u)).2 = (v.advance nospec final (r.2 ++ u)).2

/-! ### The scribe (R270, R271) -/

/-- A proper prefix of a well-formed UTF-8 sequence: a lead from C2 to F4 and fewer continuation bytes than it asks for, the first of them
in the range that the lead allows. -/
def OpenSequence (l : List Byte) : Prop :=
  ∃ (lead : Byte) (cont : List Byte), l = lead :: cont ∧ 0xC2 ≤ lead.toNat ∧ lead.toNat ≤ 0xF4 ∧
    cont.length < (if lead.toNat < 0xE0 then 1 else if lead.toNat < 0xF0 then 2 else 3) ∧ (∀ b ∈ cont, 0x80 ≤ b.toNat ∧ b.toNat ≤ 0xBF) ∧
    ∀ b, cont.head? = some b → (lead = 0xE0 → 0xA0 ≤ b.toNat) ∧ (lead = 0xED → b.toNat ≤ 0x9F) ∧ (lead = 0xF0 → 0x90 ≤ b.toNat) ∧ (lead = 0xF4 → b.toNat ≤ 0x8F)

/-- What the scribe holds back of its stream: the longest suffix that is an open sequence. -/
def HeldBack (l keep : List Byte) : Prop :=
  keep <:+ l ∧ (keep ≠ [] → OpenSequence keep) ∧ ∀ k, k <:+ l → OpenSequence k → k.length ≤ keep.length

/-- The bytes of a token (R270): those of its entry in the pool, or EF BF BD, counted, where the table is none, the token has no entry or
the entry a reserved bit. -/
def RenderLaw : Prop :=
  ∀ (s : State) (r : Ring) (tok : Nat),
    let base := r.rtab.toNat * 64
    let bytesAt (a n : Nat) : List Byte := (List.range n).map fun k => s.mem.read (a + k)
    let pool := valueAt s.mem (base + 8) 8
    let ent := base + 64 + 8 * tok
    let w := valueAt s.mem ent 8
    let known := valueAt s.mem base 4 = 0x52444E52 ∧ pool % 64 = 0 ∧ tok < valueAt s.mem (base + 4) 4
    Quiet s → Passes s none base 16 →
      (¬ known ∨ (Passes s none ent 8 ∧ w / 2 ^ 40 ≠ 0) → Runs (renderToken r tok) s (some [0xEF, 0xBF, 0xBD]) (s.countHub 0x33 1)) ∧
      (known → Passes s none ent 8 → w / 2 ^ 40 = 0 → Passes s none (base + pool + w % 2 ^ 32) (w / 2 ^ 32 % 256) →
        Runs (renderToken r tok) s (some (bytesAt (base + pool + w % 2 ^ 32) (w / 2 ^ 32 % 256))) s)

/-- The released positions in order (R271): a token's bytes go behind the held ones, and all but the open sequence at the end are sent;
the end entry turns held bytes into EF BF BD; a sector that fails its check ends the answer. -/
def EmissionLaw : Prop :=
  ∀ (k fuel : Nat) (buf : List Byte) (s : State),
    let r := s.ring k
    let e := r.entry r.emit.toNat
    let past (x : Ring) (held : List Byte) : Ring := { x with emit := x.emit + 1, held := held, entries := tdel (x.emit.toNat % 256) x.entries }
    (r.rel.toNat ≤ r.emit.toNat → Runs (emitAll k (fuel + 1) buf) s (buf, none) s) ∧
    (r.emit.toNat < r.rel.toNat →
      (e.fin = true → Runs (emitAll k (fuel + 1) buf) s (buf ++ (if r.held = [] then [] else [0xEF, 0xBF, 0xBD]), some (if e.cancel then 4 else 0))
        (s.setRing k (past r []))) ∧
      (e.fin = false → ∀ s1, (Runs (renderToken r e.token.toNat) s none s1 → Runs (emitAll k (fuel + 1) buf) s (buf, some 5) s1) ∧
        ∀ b sent keep, Runs (renderToken r e.token.toNat) s (some b) s1 → r.held ++ b = sent ++ keep → HeldBack (r.held ++ b) keep →
          emitAll k (fuel + 1) buf s = emitAll k fuel (buf ++ sent) (s1.setRing k (past (s1.ring k) keep))))

end Sys2Proof.Spec

/-- R56 to R61, R270, R271: an inbound frame: a request opens on the engine with the fewest open requests, the lowest-numbered on a tie, a
continuation feeds it and a cancel stops it; what cannot be accepted is answered with an end frame or dropped and counted (Table 5.2). The
engine's tokens are those of one pass over the whole text, by special strings, pre-tokens and merges (R59). LIGATURE_PUSH pushes the
next token as one stage-queue entry, and the end entry closes the request; SCRIBE_EMIT sends the bytes of the released positions from the
render table, holding back an unfinished character, and the end frame behind them.
Frames that are dropped rest on log 43; the model and vocab ids of an end frame without a ring are the frame's or the request's by the
model's choice (log 85). -/
def Obligations.TextFrames : Prop :=
  (TokenLaw ∧ RenderLaw ∧ EmissionLaw) ∧ (∀ (s : State),
      let f := s.req.frame
      let hd := f.header
      let session := hd.extractLsb' 64 64
      let model := hd.extractLsb' 48 16
      let vocab := hd.extractLsb' 128 16
      let offset := (hd.extractLsb' 192 32).toNat
      let kind := (hd.extractLsb' 24 8).toNat
      let load (e : Fin 16) : Nat := s.hub.requests.countP fun r => r.engine == e
      let ends (h : Hub) (status : Nat) (m v : BitVec 16) : Hub := { h with frames := h.frames ++ [⟨none, 4, true, m, v, session, 0, leBytes 8 status⟩] }
      let stopped (r : OpenRequest) : OpenRequest := { r with cancelled := true, pending := [], held := [], ready := false }
      let swap (r : OpenRequest) : List OpenRequest := s.hub.requests.map fun x => if x.session = r.session then r else x
      (frameBad f = true → Ignores .ingressErrorFrame s) ∧
      (frameBad f = false → kind = 0 →
        (∀ r, s.hub.openOf session = some r → ∃ t cs, exec .textFrameRequest s = .next t ∧ t = { s with hub := { ends s.hub 1 model vocab with counters := cs } }) ∧
        (s.hub.openOf session = none →
          (s.hub.ingress model = none ∨ tget [] s.hub.vocabs vocab.toNat = [] → Sets .textFrameRequest s (ends s.hub 2 model vocab)) ∧
          (∀ slot queue v older, s.hub.ingress model = some (slot, queue) → tget [] s.hub.vocabs vocab.toNat = v :: older →
            (offset ≠ 0 → Sets .textFrameRequest s (ends s.hub 2 model vocab)) ∧
            (offset = 0 → ∃ t r, exec .textFrameRequest s = .next t ∧ t.hub.requests = s.hub.requests ++ [r] ∧ t.mem = s.mem ∧ t.harts = s.harts ∧
              (∀ e, load r.engine ≤ load e ∧ (e < r.engine → load r.engine < load e)) ∧ t.hub.closed = s.hub.closed.filter (fun c => c.session != session) ∧
              r = { session := session, engine := r.engine, slot := slot, queue := queue, model := model, vocab := vocab, version := v.version
                    nospec := hd.getLsbD 33, received := f.payload.length, held := f.payload, ready := true, eot := hd.getLsbD 32 })))) ∧
      (frameBad f = false → kind = 1 →
        (s.hub.openOf session = none → Ignores .textFrameContinuation s) ∧
        ∀ r, s.hub.openOf session = some r →
          (r.eot = true ∨ r.cancelled = true → Ignores .textFrameContinuation s) ∧
          (r.eot = false → r.cancelled = false → offset ≠ r.received →
            Sets .textFrameContinuation s (ends { s.hub with requests := swap (stopped r) } 3 r.model r.vocab)) ∧
          (r.eot = false → r.cancelled = false → offset = r.received → Sets .textFrameContinuation s { s.hub with
            requests := swap { r with received := r.received + f.payload.length, held := r.held ++ f.payload, ready := true, eot := hd.getLsbD 32 } })) ∧
      (frameBad f = false → kind = 2 →
        (∀ r, s.hub.openOf session = some r → Sets .textFrameCancel s { s.hub with requests := swap (stopped r) }) ∧
        (s.hub.openOf session = none →
          (∀ c, s.hub.closedOf session = some c → Sets .textFrameCancel s { s.hub with cancels := s.hub.cancels ++ [c] }) ∧
          (s.hub.closedOf session = none → Ignores .textFrameCancel s)))) ∧
  ((∀ (s : State) (r : OpenRequest) (q : StageQueue),
      let p := s.hub.pipe r.slot
      let entry (kind token : Nat) : BitVec 128 := BitVec.ofNat 8 r.version.toNat ++ 0#4 ++ BitVec.ofNat 2 kind ++ BitVec.ofNat 18 token ++
        BitVec.ofNat 32 r.pushed ++ r.session
      s.frozenOp 1 s.req.engine.val = none → (∀ c ∈ s.hub.cancels, c.session ≠ s.req.value) → s.hub.openOf s.req.value = some r → r.engine = s.req.engine →
      r.ready = false → r.cancelled = false → p.queues[r.queue]? = some q → q.entries.length < q.depth → Quiet s →
        Passes s none (p.ringAddr r.queue (q.pushed % q.depth)) 16 →
        (∀ x rest, r.pending = x :: rest → ∃ t q', exec .ligaturePush s = .next t ∧ t.harts = s.harts ∧
          (t.hub.pipe r.slot).queues[r.queue]? = some q' ∧ q'.entries = q.entries ++ [entry 0 x] ∧ q'.pushed = q.pushed + 1 ∧
          t.hub.requests = s.hub.requests.map fun y => if y.session = r.session then { r with pending := rest, pushed := r.pushed + 1 } else y) ∧
        (r.pending = [] → r.eot = true → ∃ t q', exec .ligaturePush s = .next t ∧ (t.hub.pipe r.slot).queues[r.queue]? = some q' ∧
          q'.entries = q.entries ++ [entry 1 0] ∧ t.hub.openOf r.session = none)) ∧
    ∀ (s : State) (b : List Byte) (s1 : State),
      let k := s.req.ring.val
      let r := s.ring k
      s.frozenOp 2 r.scribe.toNat = none → r.en = true → r.ended = false →
        (r.rel.toNat ≤ r.emit.toNat → ∃ t, exec .scribeEmit s = .next t ∧ t.hub.frames = s.hub.frames ∧ t.mem = s.mem ∧ t.harts = s.harts) ∧
        (Runs (emitAll k 256 []) s (b, none) s1 → b ≠ [] → b.length ≤ 8192 →
          ∃ t f, exec .scribeEmit s = .next t ∧ t.hub.frames = s1.hub.frames ++ [f] ∧ f.payload = b ∧ f.kind = 3 ∧ f.session = (s1.ring k).session ∧
            f.offset = BitVec.ofNat 32 (s1.ring k).sent ∧ (t.ring k).sent = (s1.ring k).sent + b.length) ∧
        ∀ status, Runs (emitAll k 256 []) s (b, some status) s1 → b.length ≤ 8192 →
          ∃ t reply f, exec .scribeEmit s = .next t ∧ t.hub.frames = s1.hub.frames ++ reply ++ [f] ∧ (b = [] → reply = []) ∧
            (b ≠ [] → ∃ g, reply = [g] ∧ g.payload = b ∧ g.kind = 3 ∧ g.eot = false ∧ g.offset = BitVec.ofNat 32 (s1.ring k).sent) ∧
            f.kind = 4 ∧ f.eot = true ∧ f.session = (s1.ring k).session ∧ f.offset = BitVec.ofNat 32 ((s1.ring k).sent + b.length) ∧
            f.payload = bytesOf 8 (status + (s1.ring k).emit.toNat * 2 ^ 32) ∧ (t.ring k).closed = true ∧ (t.ring k).ended = true)

/-- R83, R91, R92, R108, R134 to R140, R146, R151, R153, R239, R226: the steps of the copy engine, the stream fills, the folio mailbox, the
walk unit, promotions and the tile swap.
A table sector that fails its check when a copy's address is translated leaves the iteration for another step (log 82), since a copy raises no
integrity fault (R136). The moment of each step is the agenda's (log 2); pauses of copies and deliveries rest on log 26, fills on log 27
and 28, promotions on log 49, 75 and 76, what makes a mailbox request malformed on log 68, and the places of REQ and RSP on log 88. -/
def Obligations.CoreEngines : Prop :=
  (∀ (s : State) (h : HartId) (x : Hart) (w : Well) (c : Copy),
    let id := s.req.core
    let k := s.req.handle.val
    let src := c.source c.iter
    let dst := c.target c.iter
    s.activeCopy id k = some (h, x, w, c) →
      (∀ b s1 s2, c.iter < c.total → c.dest = none → Runs (asTask h x (copyRead (c.ctl.getLsbD 16) src c.unit)) s b s1 →
        Runs (asTask h x (copyWrite (!c.ctl.getLsbD 17) dst b)) s1 () s2 → ∃ t, exec .copyIteration s = .next t ∧ t.mem = s2.mem ∧
          ((t.core id).well k) = if c.iter + 1 = c.total then { w with state := .full, copy := none } else { w with copy := some { c with iter := c.iter + 1 } }) ∧
      (∀ i s1, c.iter < c.total → asTask h x (copyRead (c.ctl.getLsbD 16) src c.unit) s = (.error (.trap i), s1) → coreOf h = id →
        (s1.die h.die).cfqHeld = [] → (s1.die h.die).cfqEn = false →
        (i.cause = Cause.integrity → exec .copyIteration s = .next s) ∧ (i.cause ≠ Cause.integrity →
        ∃ t, exec .copyIteration s = .next t ∧ t.mem = s1.mem ∧ (t.die h.die).cfqHeld = [faultRecord h k c c.iter false i.cause (BitVec.ofInt 64 src)] ∧
          (t.core id).well k = if i.cause = Cause.violation then { w with copy := some { c with frozen := true } }
            else { w with state := .faulted, copy := some c })) ∧
      (∀ v r b, c.dest = some v → let m := s.req.hart
        let y := s.hart m
        let e := tget 0 c.landed y.taskNo
        let first (z : Copy) : Prop := z.dest = c.dest ∧ z.seq < c.seq ∧ y.taskNo ∈ z.members ∧ tget 0 z.landed y.taskNo < z.entries
        ((∃ p ∈ (s.core id).wells, p.2.owner = w.owner ∧ ∃ z, p.2.copy = some z ∧ first z) → exec .copyqDelivery s = .next s) ∧
        ((∀ p ∈ (s.core id).wells, p.2.owner = w.owner → ∀ z, p.2.copy = some z → ¬ first z) →
        y.task.isSome = true → y.halted = false → y.taskNo ∈ c.members → e < c.entries → (e + 1) * c.width ≤ c.bytes.length →
        y.covering v.val = some (r, b) → b.kind = 0 → b.grp = .g1 → b.entries.length + b.filling.isSome.toNat < b.depth →
        ∃ t, exec .copyqDelivery s = .next t ∧ t.mem = s.mem ∧
          t.hart m = y.setBind r (some { b with entries := b.entries ++ [c.entry e], cursor := b.cursor + 1 })))) ∧
  (∀ (s : State) (r : BitVec 256) (rest : List (BitVec 256)),
    let d := s.die s.req.die
    let at' := d.cfqBase.toNat * 2 ^ 15 + 32 * d.cfqHead.toNat
    d.cfqHeld = r :: rest → d.cfqEn = true → (d.cfqHead - d.cfqTail).toNat ≠ 1023 → Quiet s →
      ∃ t, exec .copyFaultRecordPending s = .next t ∧ (t.die s.req.die) = { d with cfqHeld := rest, cfqHead := d.cfqHead + 1 } ∧
        ∀ a, t.mem.read a = if at' ≤ a ∧ a < at' + 32 then r.extractLsb' (8 * (a - at')) 8 else s.mem.read a) ∧
  (∀ (s : State) (b : Binding) (x : Nat → Nat),
    let h := s.req.hart
    let v := s.req.reg.val
    let s' : State := { s with curHart := h, curStream := .a }
    let w := b.fmt.width
    let n := (s'.curCore.lanes * 64) * b.grp.size / w
    (s.hart h).bind v = some b → s.fillable h = true → b.filling = none → b.entries.length < b.depth →
      (b.kind = 1 → b.cursor < b.total → Reads s' w n (fun k => elementAt w k (b.base.toInt + (b.cursor / b.nin : Nat) * b.ostr.toInt +
          (b.cursor % b.nin : Nat) * b.istr.toInt + k * b.estr.toInt)) x →
        ∃ t, exec .streamFill s = .next t ∧ t.mem = s.mem ∧ t.hart h = (s.hart h).setBind v (some (taken b w (packed w n x) none))) ∧
      (let per := s'.curCore.lanes * 64 * b.grp.size / (8 * b.slice)
       let units := s'.curCore.lanes * 64 * b.grp.size / 64
       b.kind = 2 → b.cursor < b.total → Reads s' 64 units (fun k =>
          let p := b.start + b.cursor * per + k / (b.slice / 8)
          if b.start + b.count ≤ p ∨ b.len ≤ p then .zero else match rowAddr b.extents p with
            | some a => .at' (a.toInt + b.roff + 8 * (k % (b.slice / 8))) 8 0
            | none => .zero) x →
        ∃ t, exec .streamFill s = .next t ∧ t.mem = s.mem ∧ t.hart h = (s.hart h).setBind v (some { taken b w (packed 64 units x) none with
          short := b.short || decide (b.len < min (b.start + (b.cursor + 1) * per) (b.start + b.count)) })) ∧
      (∀ a rest, b.kind = 0 → b.rows = a :: rest → Reads s' w n (fun e => .at' (a.toInt + (e * w / 8 : Nat)) (max 1 (w / 8)) (e * w % 8)) x →
        ∃ t, exec .mrldffRowFill s = .next t ∧ t.mem = s.mem ∧
          t.hart h = (s.hart h).setBind v (some { taken b w (packed w n x) none with rows := rest }))) ∧
  ∀ (s : State),
    let r := s.req
    let s0 : State := { s with fresh := true }
    (∀ leaf level s1 a s2, canonical r.addr = true → Runs (translateLeaf r.die r.asid r.addr r.kind) s0 (leaf, level) s1 →
      Runs (readAst r.asid r.addr) s1 a s2 → ∃ t, exec .pageWalk s = .next t ∧ t.mem = s2.mem ∧ t.harts = s2.harts ∧
        (t.die r.die).tlb.head? = some ⟨r.asid, vpageOf r.addr level, level, leaf⟩ ∧ tget 0 t.hub.asts r.asid.toNat = BitVec.ofNat 256 a) ∧
    (∀ i s1, canonical r.addr = true → (translateLeaf r.die r.asid r.addr r.kind) s0 = (.error (.trap i), s1) → exec .pageWalk s = .next s) ∧
    (let pa := r.addr.toNat
     let ans := (s.die r.die).mailbox (BitVec.ofNat 64 (valueAt s.mem pa 8))
     pa % 16 = 0 → s.inHbm pa = true → Quiet s → Passes s none pa 16 → ∃ t, exec .mailboxRequest s = .next t ∧ t.die r.die = ans.2 ∧
      ∀ a, t.mem.read a = if pa + 8 ≤ a ∧ a < pa + 16 then BitVec.ofNat 8 (ans.1 >>> (8 * (a - pa - 8))) else s.mem.read a) ∧
    Sets .promotionRequest s { s.hub with promotions := s.hub.promotions ++ [r.promotion] } ∧
    (∀ l l' late, let p := r.promotion
      let pa := p.frame.toNat / 2 ^ 16 * 2 ^ 16
      let m1 := s.mem.blit pa s.hub.flash (4096 * p.lba.toNat) (2 ^ pageBits l.level)
      let leaf : BitVec 64 := BitVec.ofNat 64 (2 ^ 56 * late.toNat + p.expected.toNat / 2 ^ 54 % 4 * 2 ^ 54 + p.frame.toNat / 2 ^ 16 % 2 ^ 36 * 2 ^ 16 + p.expected.toNat % 2 ^ 16)
      let slot : KeySlot := tget {} s.hub.keys (p.expected.toNat / 2 ^ 9 % 2 ^ 7)
      let s1 := s0.fromFlash (if slot.loaded then some slot.key else none) pa (4096 * p.lba.toNat) (2 ^ pageBits l.level)
      p ∈ s.hub.promotions → Quiet s → Steady (walk p.asid p.leafVa) s0 l → Steady (walk p.asid p.leafVa) s1 l' →
      (∀ k ∈ sectorsOf p.deadline.toNat 8, k ∉ s.badSectors) → late = decide (p.layer.toNat ≤ valueAt m1 p.deadline.toNat 8) →
      ∃ t, exec .promotionComplete s = .next t ∧ t.harts = s.harts ∧ t.hub.promotions = s.hub.promotions.erase p ∧
        t.hub.superseded = (if l'.ent = p.expected then s.hub.superseded else s.hub.superseded ++ [p]) ∧
        (t.core p.core).well p.handle.val = { (s.core p.core).well p.handle.val with state := .full } ∧
        ∀ a, t.mem.read a = if l'.ent = p.expected ∧ l'.addr ≤ a ∧ a < l'.addr + 8 then BitVec.ofNat 8 (leaf.toNat >>> (8 * (a - l'.addr)))
          else m1.read a) ∧
    ∀ tile, (s.core r.core).shadow = some tile → exec .tileShadowSwap s = .next (s.setCore r.core { s.core r.core with tile := some tile, shadow := none })

/-- R304, R316, R353 to R363: pod messages, the receive engine, flash completions, and the accesses of hosts and supervisor cores.
The interfaces that the spec leaves to UET and CXL and the values handed back are the model's (log 46, 47, 48 and 60), and so are a
message that meets a failing sector (log 77) and the blocks that the media cannot deliver (log 78). -/
def Obligations.ModuleEngines : Prop :=
  ∀ (s : State),
    let r := s.req
    let id := r.barrier.val
    let b := s.barrier 485 id
    let m := r.arrival
    (b.en = true → b.root = s.podIndex → m.expect = none → ∃ t, exec .podBarrierMessage s = .next t ∧ t.mem = s.mem ∧ t.harts = s.harts ∧
      t.barrier 485 id = (let b' := { b with arr := b.arr + m.arrivals, byt := b.byt + m.bytes }
        if s.oneCycle then b' else checked b')) ∧
    (∀ w, b.en = true → b.root = s.podIndex → m.expect = some w → w.extractLsb' 48 14 = 0 → (w.extractLsb' 62 2 = 2 → w.extractLsb' 16 32 = 0) →
      w.extractLsb' 62 2 ≠ 3 → s.oneCycle = false → ∃ t, exec .podBarrierMessage s = .next t ∧ t.mem = s.mem ∧ t.harts = s.harts ∧
        t.barrier 485 id = checked (expecting (checked { b with arr := b.arr + m.arrivals, byt := b.byt + m.bytes }) w)) ∧
    (∀ p, b.en = true → b.root ≠ s.podIndex → r.phase = .phase p →
      Sets .podPhaseMessage s { s.hub with barriers := tput s.hub.barriers (32 * 485 + id) { b with phase := p } }) ∧
    (s.frozenOp 4 0 ≠ none → exec .networkReceive s = .next s) ∧
    (∀ buf, s.frozenOp 4 0 = none → s.hub.netIn = [] → tget none s.hub.netBufs r.message.buffer = some buf → buf.barrier = none → r.message.payload.length ≤ buf.size → r.message.integrity = false →
      buf.pa + r.message.payload.length ≤ buf.record → Quiet s → Passes s none buf.pa r.message.payload.length → Passes s none buf.record 16 →
      let word := r.message.tag ++ BitVec.ofNat 64 (r.message.src.val * 2 ^ 55 + 2 ^ 48 + r.message.payload.length)
      ∃ t, exec .networkReceive s = .next t ∧ t.harts = s.harts ∧
        tget none t.hub.netBufs r.message.buffer = none ∧ t.hub.netIn = [] ∧
        (∀ k, k < 16 → t.mem.read (buf.record + k) = word.extractLsb' (8 * k) 8) ∧
        (∀ a, buf.pa ≤ a → a < buf.pa + r.message.payload.length → t.mem.read a = r.message.payload.getD (a - buf.pa) 0) ∧
        ∀ a, a < buf.pa ∨ (buf.pa + r.message.payload.length ≤ a ∧ (a < buf.record ∨ buf.record + 16 ≤ a)) → t.mem.read a = s.mem.read a) ∧
    (s.frozenOp 4 0 = none → s.hub.netIn = [] → tget none s.hub.netBufs r.message.buffer = none →
      Sets .networkReceive s { s.hub with netIn := [r.message] }) ∧
    (∀ m0, s.frozenOp 4 0 = none → s.hub.netIn = [m0] → tget none s.hub.netBufs m0.buffer = none → m0.flow = r.message.flow →
      Sets .networkReceive s { s.hub with netIn := [m0, r.message] }) ∧
    (let k := r.fring.val
     let ring := s.flashRing k
     let s0 : State := { s with hub := { s.hub with flashBad := r.media } }
     ∀ q, (ring.inflight.find? fun q => q.tag == r.tag) = some q → (flashOp q.entry).bcr = false → r.tag ∈ ring.tags →
      (∀ n s1, (flashOp q.entry).op ≠ 3 → Runs (moveBlocks q (flashOp q.entry).nlb 0) s0 (n, none) s1 → s1.hub.flashRings = s.hub.flashRings →
        ∃ t, exec .flashRequestComplete s = .next t ∧ t.mem = s1.mem ∧ (t.flashRing k).done.head? = some (r.tag, BitVec.ofNat 64 (2 ^ 62 + n * 2 ^ 8)) ∧
          t.hub.flash = s1.hub.flash ∧ t.hub.flashDurable = s1.hub.flashDurable ∧ ∀ x ∈ (t.flashRing k).inflight, x.tag ≠ r.tag) ∧
      (∀ n code cause s1, (flashOp q.entry).op ≠ 3 → Runs (moveBlocks q (flashOp q.entry).nlb 0) s0 (n, some (code, cause)) s1 →
        s1.hub.flashRings = s.hub.flashRings → ∃ t, exec .flashRequestComplete s = .next t ∧ t.mem = s1.mem ∧
          (t.flashRing k).done.head? = some (r.tag, BitVec.ofNat 64 (2 ^ 62 + cause.toNat * 2 ^ 32 + n * 2 ^ 8 + code))) ∧
      ((flashOp q.entry).op = 3 → (∀ p ∈ s.hub.flashPending, ∀ x ∈ p.2, x.2.length = 4096) →
        ∃ t, exec .flashRequestComplete s = .next t ∧ t.mem = s.mem ∧ t.hub.flash = s.hub.flash ∧
        (t.flashRing k).done.head? = some (r.tag, BitVec.ofNat 64 (2 ^ 62)) ∧ ∀ blk,
          let l := tget [] s.hub.flashPending blk
          let there := q.lba ≤ blk ∧ blk < q.lba + q.size
          tget [] t.hub.flashPending blk = (if there then l.filter fun x => decide (q.mark < x.1) else l) ∧
          ∀ i, i < 4096 → t.hub.flashDurable.read (4096 * blk + i) =
            match if there then (l.filter fun x => decide (x.1 ≤ q.mark)).getLast? else none with
            | some x => x.2.getD i 0
            | none => s.hub.flashDurable.read (4096 * blk + i))) ∧
    (r.atHost = true → inHost r.addr.toNat = true → inHost (r.addr.toNat + r.bytes.length - 1) = true → ∃ t, exec .hostCxlMemWrite s = .next t ∧
      t.harts = s.harts ∧ t.hub = s.hub ∧
        ∀ a, t.mem.read a = if r.addr.toNat ≤ a ∧ a < r.addr.toNat + r.bytes.length then r.bytes.getD (a - r.addr.toNat) 0 else s.mem.read a) ∧
    (∀ pa, r.atHost = false → s.frozenOp 5 r.link.val = none → s.hostPa r.link r.addr.toNat r.bytes.length = some pa → Quiet s →
      r.caches = true → pa % 64 + r.bytes.length ≤ 64 → Passes s none (64 * (pa / 64)) 64 →
      ∃ t, exec .hostCxlMemWrite s = .next t ∧ t.harts = s.harts ∧ t.mem = s.mem ∧ t.hub.snoop = [⟨r.link.val, pa / 64, some ((List.range 64).map fun k =>
        if pa % 64 ≤ k ∧ k < pa % 64 + r.bytes.length then r.bytes.getD (k - pa % 64) 0 else s.mem.read (64 * (pa / 64) + k))⟩]) ∧
    (∀ pa, r.atHost = false → s.frozenOp 5 r.link.val = none → s.hostPa r.link r.addr.toNat r.bytes.length = some pa → Quiet s →
      r.caches = false → Passes s none pa r.bytes.length →
      ∃ t, exec .hostCxlMemWrite s = .next t ∧ t.harts = s.harts ∧
        ∀ a, t.mem.read a = if pa ≤ a ∧ a < pa + r.bytes.length then r.bytes.getD (a - pa) 0 else s.mem.read a) ∧
    (∀ pa, s.frozenOp 5 r.link.val = none → s.hostPa r.link r.addr.toNat r.len.val = some pa → Quiet s →
      (∃ k ∈ sectorsOf pa r.len.val, k ∈ s.badSectors) →
      ∃ t, exec .hostCxlMemRead s = .next t ∧ t.harts = s.harts ∧ tget none t.hostValue r.link.val = none) ∧
    (∀ pa, s.frozenOp 5 r.link.val = none → s.hostPa r.link r.addr.toNat r.len.val = some pa → Quiet s → Passes s none pa r.len.val →
      ∃ t, exec .hostCxlMemRead s = .next t ∧ t.harts = s.harts ∧ t.mem = s.mem ∧ t.badSectors = s.badSectors ∧
        t.hub.snoop = (if r.caches then [⟨r.link.val, pa / 64, none⟩] else []) ∧
        tget none t.hostValue r.link.val = some ((List.range r.len.val).map fun k => s.mem.read (pa + k))) ∧
    (∀ n pa, r.op = .load n pa → inHub pa.toNat = false → s.inHbm pa.toNat = true → pa.toNat % n.val = 0 → Quiet s → Passes s none pa.toNat n.val →
      exec .supervisorAccess s = .next { s with supValue := tput s.supValue r.supCore.val (BitVec.ofNat 64 (valueAt s.mem pa.toNat n.val)) }) ∧
    (r.op = .fence → exec .supervisorAccess s = .next s) ∧
    (∀ buffer pa size record x, r.op = .post buffer pa size record x → s.hub.netIn = [] → Sets .supervisorAccess s { s.hub with
      netBufs := tput s.hub.netBufs buffer (some ⟨pa, size, record, x.map fun y => (y.1.val, y.2.val)⟩) }) ∧
    (∀ link k host size pa, r.op = .decoder link k host size pa → Sets .supervisorAccess s { s.hub with
      hdm := tput s.hub.hdm (4 * link.val + k.val) ⟨decide (0 < size), host, size, pa⟩ }) ∧
    (∀ flow dest buffer tag pa size, r.op = .send flow dest buffer tag pa size → Quiet s → Sets .supervisorAccess s { s.hub with
      podOut := s.hub.podOut ++ [.message dest ⟨buffer, Fin.ofNat 512 s.podIndex.toNat, tag, (List.range size).map fun k => s.mem.read (pa + k),
        (sectorsOf pa size).any fun k => s.badSectors.contains k, flow⟩] }) ∧
    (∀ n pa v, (r.op = .swap n pa v ∨ r.op = .add n pa v) → inHub pa.toNat = false → s.inHbm pa.toNat = true → pa.toNat % n.val = 0 → Quiet s →
      Passes s none pa.toNat n.val →
      let old := valueAt s.mem pa.toNat n.val
      let new := if r.op = .swap n pa v then v.toNat else old + v.toNat
      ∃ t, exec .supervisorAccess s = .next t ∧ t.harts = s.harts ∧ t.hub = s.hub ∧ tget 0 t.supValue r.supCore.val = BitVec.ofNat 64 old ∧
        ∀ a, t.mem.read a = if pa.toNat ≤ a ∧ a < pa.toNat + n.val then BitVec.ofNat 8 (new >>> (8 * (a - pa.toNat))) else s.mem.read a) ∧
    ∀ n pa v, r.op = .store n pa v → inHub pa.toNat = false → s.inHbm pa.toNat = true → pa.toNat % n.val = 0 → Quiet s → Passes s none pa.toNat n.val →
      ∃ t, exec .supervisorAccess s = .next t ∧ t.harts = s.harts ∧ t.hub = s.hub ∧
        ∀ a, t.mem.read a = if pa.toNat ≤ a ∧ a < pa.toNat + n.val then BitVec.ofNat 8 (v.toNat >>> (8 * (a - pa.toNat))) else s.mem.read a

/-- R72, R82, R361, R364, R366, R369 to R371: soft errors, degraded cores, power, heat, and reset: what remains is the flash, each block of which
holds one of its contents whole, the microcontroller's store with its repairs, and what service has done to the parts; the populated
size of a die shrinks only where one of its pseudo-channels is retired.
What a reset keeps beyond what R366 and R371 name, and what an unwritten byte reads, is the model's choice (log 4), as is how far a
populated size shrinks (log 80). -/
def Obligations.PowerAndReset : Prop :=
  ∀ (s : State),
    let r := s.req
    let d := s.die r.die
    let above := 3000000 < r.power ∨ 1350000 < r.corePower
    (∀ pa, r.site = .memory pa → r.corrected = false → pa.toNat / 32 ∉ s.badSectors →
      exec .softError s = .next { s with badSectors := pa.toNat / 32 :: s.badSectors }) ∧
    (r.corrected = true → Ignores .softError s) ∧
    (∀ c off, r.site = .scratchpad c off → r.corrected = false → ∃ t, exec .softError s = .next t ∧ off.val / 32 ∈ (t.core c).badSp ∧
      (t.core c).scratch = (s.core c).scratch ∧ ∀ k, k ≠ c → t.core k = s.core k) ∧
    (s.vacant r.core = true → ∃ t, exec .coreKeptDegraded s = .next t ∧
      (∀ k, k < 3 → (t.core r.core).feat.getLsbD k = ((s.core r.core).feat.getLsbD k && decide (k ≠ r.feature.val)))) ∧
    (∃ t, exec .powerSample s = .next t ∧ (∀ k, t.die k = { s.die k with limitedPower := decide above }) ∧ t.mem = s.mem ∧ t.harts = s.harts) ∧
    SetsDie .thermalLimit s r.die { d with limitedHeat := true } ∧ SetsDie .thermalLimitEnd s r.die { d with limitedHeat := false } ∧
    let kept (t : State) : Prop := t.powered = false ∧ t.hub.flashPending = [] ∧ t.hub.flash = t.hub.flashDurable ∧
      (s.hub.flashPending = [] → t.hub.flash = s.hub.flashDurable) ∧
      ((∀ p ∈ s.hub.flashPending, ∀ x ∈ p.2, x.2.length = 4096) → ∀ blk,
        (∀ i, i < 4096 → t.hub.flash.read (4096 * blk + i) = s.hub.flashDurable.read (4096 * blk + i)) ∨
        ∃ p ∈ s.hub.flashPending, p.1 = blk ∧ ∃ x ∈ p.2, ∀ i, i < 4096 → t.hub.flash.read (4096 * blk + i) = x.2.getD i 0)
    (∃ t, exec .powerLoss s = .next t ∧ kept t ∧ t.mcStore = s.mcStore) ∧
    (∃ t, exec .thermalShutdown s = .next t ∧ kept t ∧ t.mcStore = s.mcStore ++ [.thermal r.die]) ∧
    ∃ t, exec .reset s = .next t ∧ t.powered = true ∧ t.mem = [] ∧ t.harts = [] ∧ t.podIndex = r.value.extractLsb' 0 9 ∧ t.hub.flash = s.hub.flash ∧
      t.mcStore = s.mcStore ++ r.repairs.map .repair ∧ t.hub.spareCores = s.hub.spareCores ∧ t.hub.laneSpares = s.hub.laneSpares ∧ t.hub.pipes = [] ∧ t.hub.rings = [] ∧ t.hub.barriers = [] ∧ t.hub.keys = [] ∧ t.hub.astEn = false ∧
      (∀ c, (t.core c).feat = (s.core c).feat ∧ (t.core c).scratch = [] ∧ (t.core c).harts = 0) ∧
      ∀ k, (t.die k).popBytes ≤ (s.die k).popBytes ∧
        ((∀ st ch, .channel st ch ∈ r.repairs → st.val / 3 ≠ k.val) → (t.die k).popBytes = (s.die k).popBytes)

/-- R30, R33, R35, R36, R49, R85, R299: a turn of a stream runs the instruction that the head at its PC decodes to, a reserved encoding as
illegal instruction, whether or not an invalidation is to reach the core in it; the line is the held one, kept as one unit, or the 64
bytes of memory that the PC's page gives, of which one sector may have been fetched before the other; a step of another agent runs that
step; at the end of a cycle that turns share, every barrier that the module counts is checked, every expectation applied, and the check of
the next cycle follows; a member of a pod barrier sends ROOT what the cycle took.
Which stream moves next, and whether it uses its held line, is the agenda's to say (the model's choice, log 2). -/
def Obligations.StepRunsTheDecodedInstruction : Prop :=
  ∀ (s : State) (h : HartId) (st : Stream) (fresh : Bool) (upto : Option Nat) (turn : Turn) (rest : List Turn),
    turn = .run h st fresh ∧ upto = none ∨ fresh = false ∧ (∃ n, turn = .part h st n ∧ upto = some n) →
    let pc := ((s.hart h).st st).pc
    let s0 : State := ({ s with agenda := rest } : State).tick h.die
    let s1 : State := { s0 with curHart := h, curStream := st, fresh := fresh, upto := upto, fallPc := nextPc pc }
    let r := s1.curSt
    let held : Bool := r.line.any fun l => l.addr == lineOf pc
    let memory (pa n : Nat) : List Byte := (List.range n).map fun k => s.mem.read (pa + k)
    let found (b : List Byte) : Fetched := match slotted (scanLine b) (headOf pc) with
      | .head hd tail last => .head hd tail (if last then lineOf pc + 64 else pc + 2)
      | .nextLine => .skip (lineOf pc + 64)
      | .lineFormat => .badLine
    (s.powered = true → s.agenda = turn :: rest → s.canRun h st = true →
      (∀ hd tail next s', Runs fetch s1 (.head hd tail next) s' →
        (∀ i, decodeHead st s'.curCore.harts.toNat hd tail = some i → step s = exec i (s'.issue i hd tail next)) ∧
        (decodeHead st s'.curCore.harts.toNat hd tail = none → step s = exec .reservedEncoding (s'.issue .reservedEncoding hd tail next))) ∧
      (∀ next s', Runs fetch s1 (.skip next) s' → step s = .next (s'.setCurSt { s'.curSt with pc := next })) ∧
      (∀ s', Runs fetch s1 .badLine s' → step s = exec .lineFormat s') ∧
      (∀ i s', fetch s1 = (.error (.trap i), s') → step s = exec .lineFetchFault { s' with req := { cause := i.cause, addr := i.addr } })) ∧
    (∀ l, r.line = some l → l.addr = lineOf pc → fresh = false ∨ headOf pc ≠ 0 ∨ r.wait ≠ none → Runs fetch s1 (found l.bytes) s1) ∧
    (∀ m : Mapped, held = false ∨ (fresh = true ∧ headOf pc = 0 ∧ r.wait = none) → isCanonical (lineOf pc) →
      Steady (translate h.die s1.cur.asid (lineOf pc) .fetch) s1 m → Quiet s1 →
      let kept (b : List Byte) : State := s1.setCurSt { r with line := some ⟨lineOf pc, b⟩, sector := none }
      ((∀ x, r.sector = some x → x.addr ≠ lineOf pc) → Passes s1 (some m.key) m.pa 64 →
        Runs fetch s1 (found (memory m.pa 64)) (kept (memory m.pa 64))) ∧
      (∀ x, r.sector = some x → x.addr = lineOf pc → x.upper = true → Passes s1 (some m.key) m.pa 32 →
        Runs fetch s1 (found (memory m.pa 32 ++ x.bytes)) (kept (memory m.pa 32 ++ x.bytes))) ∧
      ∀ x, r.sector = some x → x.addr = lineOf pc → x.upper = false → Passes s1 (some m.key) (m.pa + 32) 32 →
        Runs fetch s1 (found (x.bytes ++ memory (m.pa + 32) 32)) (kept (x.bytes ++ memory (m.pa + 32) 32))) ∧
    (∀ (upper : Bool) (m : Mapped), s.powered = true → s.agenda = .ahead h st upper :: rest → s.canRun h st = true →
      let s2 : State := { s0 with curHart := h, curStream := st, fresh := false }
      let pa := m.pa + if upper then 32 else 0
      (held = true → step s = .next s2) ∧
      (held = false → isCanonical (lineOf pc) → Steady (translate h.die s2.cur.asid (lineOf pc) .fetch) s2 m → Quiet s2 →
        Passes s2 (some m.key) pa 32 → step s = .next (s2.setCurSt { r with sector := some ⟨lineOf pc, upper, memory pa 32⟩ }))) ∧
    (s.powered = true → s.agenda = .barrierCycle true :: rest → step s = .next { s with agenda := rest, oneCycle := true }) ∧
    (s.powered = true → s.agenda = .barrierCycle false :: rest → (∀ e ∈ s.expects, e.2.1 < 32 ∧ 32 * e.1 + e.2.1 ∈ s.hub.barriers.map Prod.fst) →
      ∃ t, step s = .next t ∧ t.oneCycle = false ∧ t.expects = [] ∧ t.mem = s.mem ∧ t.harts = s.harts ∧
      (∀ n k, k < 32 → n ≠ 485 ∨ (s.barrier n k).root = s.podIndex →
        t.barrier n k = checked (((s.expects.filter fun e => e.1 = n ∧ e.2.1 = k).map fun e => e.2.2).foldl expecting (checked (s.barrier n k)))) ∧
      ∀ k, k < 32 → (s.barrier 485 k).root ≠ s.podIndex → let b := s.barrier 485 k
        t.barrier 485 k = { b with arr := 0, byt := 0 } ∧
        (b.arr ≠ 0 ∨ b.byt ≠ 0 → ∃ w, PodOut.arrival k b.root ⟨Fin.ofNat 512 s.podIndex.toNat, b.arr, b.byt, w⟩ ∈ t.hub.podOut) ∧
        ∀ e ∈ s.expects, e.1 = 485 → e.2.1 = k → ∃ x y, PodOut.arrival k b.root ⟨Fin.ofNat 512 s.podIndex.toNat, x, y, some e.2.2⟩ ∈ t.hub.podOut) ∧
    ∀ i r, s.powered = true → s.agenda = .event i r :: rest → i.encode = none → step s = exec i { s with agenda := rest, req := r, fresh := false, upto := none }

/-- R28, R37, Tables 3.2 and 4.2: words written out from the spec's encodings decode to their instructions on a stream that has them. -/
def Obligations.WordsDecode : Prop :=
  decodeHead .a 0 0x0002 0 = some .halt ∧
  decodeHead .a 0 0x4400 (2 * 2 ^ 10 + 1 * 2 ^ 5 + 3) = some (.add ⟨2, 1, 3⟩) ∧
  decodeHead .a 0 0x4200 (5 * 2 ^ 5 + 7) = some (.qput ⟨0, 5, 7⟩) ∧
  decodeHead .c 0 0x4300 (9 * 2 ^ 10) = some (.wset ⟨9, .free, 0⟩) ∧
  decodeHead .a 0 0x4103 (4 * 2 ^ 13 + 17 * 2 ^ 8) = some (.bar ⟨.pk, 17, 0⟩) ∧
  decodeHead .x 0 0x4F00 (1 * 2 ^ 6 + 2 * 2 ^ 3 + 3) = some (.mand ⟨0, 1, 2, 3⟩) ∧
  decodeHead .a 0 0x4B00 (33 * 2 ^ 10 + 6) = some (.sbind ⟨33, 6⟩) ∧
  decodeHead .x 0 0x5D04 (2 * 2 ^ 10 + 1 * 2 ^ 5 + 4) = some (.blapp ⟨2, 1, 4⟩) ∧
  decodeHead .x 0 0x9000 (8 * 2 ^ 26 + 10 * 2 ^ 20 + 12 * 2 ^ 14 + 3 * 2 ^ 9 + 1 * 2 ^ 7 + 2 * 2 ^ 2) =
    some (.vadd ⟨8, 10, 12, false, false, 3, .g2, .i32, 0⟩) ∧
  decodeHead .a 0 0x4400 (2 ^ 15) = none ∧ decodeHead .x 0 0x4200 7 = none

/-- R22, R28, R37, R38, R47: on every stream and partition, the encoding of a well-formed instruction decodes to that instruction, every
operand at every value; and a head and tail that decode to an instruction other than a hint or a FENCE, whose words are many, are that instruction's encoding. -/
def Obligations.EncodingAndDecodingAgree : Prop :=
  ∀ (st : Stream) (h hd tl : Nat) (i : Instr),
    (i.wellFormed st h = true → i.encode = some (hd, tl) → decodeHead st h hd tl = some i) ∧
    (hd < 2 ^ 16 → tl < 2 ^ (16 * (hd / 2 ^ 14)) → decodeHead st h hd tl = some i → i ≠ .hint → i ≠ .hintMajor3E → i ≠ .fence → i.encode = some (hd, tl))

/-- R22, R27, R29, R30: heads with their tails placed in a line by the assembler's rule are the heads and tails that the fetch unit
finds there, each at its own index; behind the last one it finds the line end where a slot is left. -/
def Obligations.LinePlacement : Prop :=
  ∀ (hs : List (Nat × Nat)), (∀ p ∈ hs, p.1 ≠ 0 ∧ p.1 < 2 ^ 16 ∧ p.2 < 2 ^ (16 * (p.1 / 2 ^ 14))) →
    let total := hs.length + (hs.map fun p => p.1 / 2 ^ 14).sum
    total ≤ 32 →
      let sc := scanLine (slotBytes (lineSlots hs))
      (∀ k hd tl, hs[k]? = some (hd, tl) → slotted sc k = .head hd tl (decide (k + 1 = hs.length))) ∧
      slotted sc hs.length = if total < 32 then .nextLine else .lineFormat

/-- R370: after reset no hart holds a task, no pipeline, ring, barrier, flash ring or address-space table is enabled, the registers
stand at the Reset values of their tables (POPSZ, whose value is per part, apart), and every byte store is in its canonical form (the
model's own form of memory). -/
def Obligations.ResetState : Prop :=
  let s := State.reset
  (∀ h, (s.hart h).task = none ∧ (s.hart h).vl = 0 ∧ (s.hart h).vstart = 0 ∧ (s.hart h).vstat = 0 ∧ (s.hart h).waitlim = 0x00100000 ∧
    (s.hart h).tce = false ∧ (s.hart h).ftz = false ∧
    ∀ st, ((s.hart h).st st).cause = 0 ∧ ((s.hart h).st st).taddr = 0) ∧
  (∀ r : HubReg, (∀ d, r ≠ .popsz d) → s.regValue r = match r with
    | .invctl _ | .flrctl _ => 2 ^ 46
    | _ => 0) ∧
  (∀ k, (s.hub.pipe k).en = false ∧ (s.hub.pipe k).state = 0) ∧ (∀ k, (s.ring k).en = false) ∧ (∀ n k, (s.barrier n k).en = false ∧ (s.barrier n k).phase = 0) ∧
  (∀ k, (s.flashRing k).en = false ∧ (s.flashRing k).idle = true) ∧ (∀ k, (s.keySlot k).loaded = false) ∧ (∀ p, (s.port p).done = true) ∧
  (∀ d, (s.die d).fpEn = false ∧ (s.die d).frEn = false ∧ (s.die d).cfqEn = false ∧ (s.die d).nqHead = (s.die d).nqTail) ∧
  s.hub.astEn = false ∧ (∀ c k, (s.core c).well k = {}) ∧ s.powered = true ∧ MemoriesWf s

/-- Every step keeps every byte store of the module in its canonical form, from every state that has it.
The form is the model's own (log 59). -/
def Obligations.StepKeepsMemories : Prop :=
  ∀ (s s' : State), MemoriesWf s → step s = .next s' → MemoriesWf s'

/-- R170, R171, R177, R180 to R186, R195, R202: every encoding of a floating format has its value by the sign, exponent and fraction fields;
Round gives the neighbour that the mode chooses, with the overflow, tininess and flags of R181, R183 and R184; the arithmetic of the
floating instructions is the exact operation rounded once, with the special values of R182, R183 and R195; minima, compares and classes
follow R195 and Table 13.3, and conversions Table 12.6.
Readings of the model: FP4 overflows from 7 up in every mode (log 63), an infinity under .SAT (log 15), a quiet NaN operand or addend
raises no NV (R182, R183, R218; for the sums of R186 log 96), a fused multiply-add of zero and
infinity with a quiet NaN (log 33, left open here), and the precision of VFEXP2 and VFLOG2 (log 14). -/
def Obligations.NumberFormats : Prop :=
  (∀ (f : Fmt) (ew fw b x : Nat), (f, ew, fw, b) ∈ layouts → x < 2 ^ f.width → Decodes f ew fw b x (decodeF f x)) ∧
  RoundLaw ∧ NanLaw ∧ SpecialLaw ∧ ArithmeticLaw ∧ OrderLaw ∧ ConversionLaw
end

