-- ==== Sys2Proof/Laws/Tab.lean ====
section
/-! SUPPORT. Sparse tables and byte storage: read after write, and the canonical form. -/

namespace Sys2Proof.Machine

theorem tget_tinsert_same {α : Type} (d x : α) (n : Nat) (t : Tab α) (h : ∀ p ∈ t, p.1 ≠ n) : tget d (tinsert n x t) n = x := by
  induction t with
  | nil => simp [tinsert, tget]
  | cons p t ih =>
    obtain ⟨k, v⟩ := p
    simp only [tinsert]
    split
    · simp [tget]
    · have hk : k ≠ n := h (k, v) (by simp)
      simp only [tget, hk, if_false]
      exact ih fun q hq => h q (by simp [hq])

theorem tget_tinsert_other {α : Type} (d x : α) (n m : Nat) (hm : m ≠ n) (t : Tab α) : tget d (tinsert n x t) m = tget d t m := by
  induction t with
  | nil => simp [tinsert, tget, Ne.symm hm]
  | cons p t ih =>
    obtain ⟨k, v⟩ := p
    simp only [tinsert]
    split
    · simp [tget, Ne.symm hm]
    · simp only [tget, ih]

theorem tdel_ne {α : Type} (n : Nat) (t : Tab α) : ∀ p ∈ tdel n t, p.1 ≠ n := by
  induction t with
  | nil => simp [tdel]
  | cons p t ih =>
    obtain ⟨k, v⟩ := p
    simp only [tdel]
    split
    · exact ih
    · intro q hq
      simp only [List.mem_cons] at hq
      rcases hq with rfl | hq
      · assumption
      · exact ih q hq

theorem tget_tdel_same {α : Type} (d : α) (n : Nat) (t : Tab α) : tget d (tdel n t) n = d := by
  induction t with
  | nil => rfl
  | cons p t ih =>
    obtain ⟨k, v⟩ := p
    simp only [tdel]
    split
    · exact ih
    · rename_i h; simp only [tget, h, if_false, ih]

theorem tget_tdel_other {α : Type} (d : α) (n m : Nat) (hm : m ≠ n) (t : Tab α) : tget d (tdel n t) m = tget d t m := by
  induction t with
  | nil => rfl
  | cons p t ih =>
    obtain ⟨k, v⟩ := p
    simp only [tdel]
    split
    · rename_i h; subst h; simp only [tget, Ne.symm hm, if_false, ih]
    · simp only [tget, ih]

@[simp] theorem tget_tput_same {α : Type} (d x : α) (n : Nat) (t : Tab α) : tget d (tput t n x) n = x :=
  tget_tinsert_same d x n _ (tdel_ne n t)

theorem tget_tput_other {α : Type} (d x : α) (n m : Nat) (hm : m ≠ n) (t : Tab α) : tget d (tput t n x) m = tget d t m := by
  rw [tput, tget_tinsert_other d x n m hm, tget_tdel_other d n m hm]

/-- What a table holds after a write. -/
theorem tget_tput {α : Type} (d x : α) (n m : Nat) (t : Tab α) : tget d (tput t n x) m = if m = n then x else tget d t m := by
  split
  · rename_i h; subst h; simp
  · rename_i h; exact tget_tput_other d x n m h t

/-- The members of a written table: the new entry, or an entry of the old one. -/
theorem mem_tput {α : Type} (t : Tab α) (n : Nat) (x : α) (p : Nat × α) (h : p ∈ tput t n x) : p = (n, x) ∨ p ∈ t := by
  have hi : ∀ (u : Tab α), p ∈ tinsert n x u → p = (n, x) ∨ p ∈ u := by
    intro u
    induction u with
    | nil => intro h; simpa [tinsert] using h
    | cons q u ih =>
      obtain ⟨k, v⟩ := q
      simp only [tinsert]
      split
      · intro h; simpa using h
      · intro h
        simp only [List.mem_cons] at h ⊢
        rcases h with h | h
        · exact .inr (.inl h)
        · rcases ih h with h | h
          · exact .inl h
          · exact .inr (.inr h)
  have hd : ∀ (u : Tab α), p ∈ tdel n u → p ∈ u := by
    intro u
    induction u with
    | nil => simp [tdel]
    | cons q u ih =>
      obtain ⟨k, v⟩ := q
      simp only [tdel]
      split
      · intro h; exact List.mem_cons_of_mem _ (ih h)
      · intro h
        simp only [List.mem_cons] at h ⊢
        rcases h with h | h
        · exact .inl h
        · exact .inr (ih h)
  rcases hi _ h with h | h
  · exact .inl h
  · exact .inr (hd _ h)

/-! ### Byte storage -/

/-- A byte reads as it was last written, and every other byte as before. -/
theorem memory_read_write (m : Memory) (a b : Nat) (v : Byte) : (m.write a v).read b = if b = a then v else m.read b := by
  unfold Memory.write Memory.read
  by_cases hv : v = 0
  · subst hv
    rw [if_pos rfl]
    split
    · rename_i h; subst h; exact tget_tdel_same 0 b m
    · rename_i h; exact tget_tdel_other 0 a b h m
  · rw [if_neg hv, tget_tput]

/-- The keys of a canonical storage rise strictly from n. -/
def wfFrom (n : Nat) : Memory → Prop
  | [] => True
  | (a, b) :: rest => n ≤ a ∧ b ≠ 0 ∧ wfFrom (a + 1) rest

theorem wfFrom_mono (m : Memory) (k n : Nat) (h : k ≤ n) (hm : wfFrom n m) : wfFrom k m := by
  cases m with
  | nil => trivial
  | cons p m => obtain ⟨a, b⟩ := p; exact ⟨Nat.le_trans h hm.1, hm.2⟩

theorem wf_cons (a : Nat) (b : Byte) (m : Memory) : Memory.wf ((a, b) :: m) = true ↔ b ≠ 0 ∧ wfFrom (a + 1) m := by
  induction m generalizing a b with
  | nil => simp [Memory.wf, wfFrom]
  | cons q m ih =>
    obtain ⟨c, e⟩ := q
    simp only [Memory.wf, wfFrom, Bool.and_eq_true, decide_eq_true_eq, bne_iff_ne, ih]
    constructor
    · rintro ⟨⟨h1, h2⟩, h3, h4⟩; exact ⟨h2, h1, h3, h4⟩
    · rintro ⟨h2, h1, h3, h4⟩; exact ⟨⟨h1, h2⟩, h3, h4⟩

theorem wf_iff (m : Memory) : m.wf = true ↔ wfFrom 0 m := by
  cases m with
  | nil => simp [Memory.wf, wfFrom]
  | cons p m =>
    obtain ⟨a, b⟩ := p
    rw [wf_cons]
    simp [wfFrom]

theorem wfFrom_tdel (n a : Nat) (m : Memory) (h : wfFrom n m) : wfFrom n (tdel a m) := by
  induction m generalizing n with
  | nil => trivial
  | cons p m ih =>
    obtain ⟨k, v⟩ := p
    simp only [tdel]
    split
    · exact wfFrom_mono _ _ _ (Nat.le_succ_of_le h.1) (ih _ h.2.2)
    · exact ⟨h.1, h.2.1, ih _ h.2.2⟩

theorem wfFrom_tinsert (n a : Nat) (v : Byte) (m : Memory) (ha : n ≤ a) (hv : v ≠ 0) (h : wfFrom n m) (hm : ∀ p ∈ m, p.1 ≠ a) :
    wfFrom n (tinsert a v m) := by
  induction m generalizing n with
  | nil => exact ⟨ha, hv, trivial⟩
  | cons p m ih =>
    obtain ⟨k, w⟩ := p
    simp only [tinsert]
    have hk : k ≠ a := hm (k, w) (by simp)
    split
    · exact ⟨ha, hv, by omega, h.2.1, h.2.2⟩
    · exact ⟨h.1, h.2.1, ih _ (by omega) h.2.2 fun q hq => hm q (by simp [hq])⟩

/-- A write keeps the canonical form. -/
theorem memory_write_wf (m : Memory) (a : Nat) (v : Byte) (h : m.wf = true) : (m.write a v).wf = true := by
  rw [wf_iff] at *
  unfold Memory.write
  split
  · exact wfFrom_tdel 0 a m h
  · rename_i hv
    exact wfFrom_tinsert 0 a v _ (Nat.zero_le _) hv (wfFrom_tdel 0 a m h) (tdel_ne a m)

/-- The canonical form in two parts: strictly rising addresses, and no zero byte. -/
theorem wfFrom_iff (n : Nat) (m : Memory) : wfFrom n m ↔ m.Pairwise (fun p q => p.1 < q.1) ∧ ∀ p ∈ m, n ≤ p.1 ∧ p.2 ≠ 0 := by
  induction m generalizing n with
  | nil => simp [wfFrom]
  | cons p m ih =>
    obtain ⟨a, b⟩ := p
    simp only [wfFrom, ih, List.pairwise_cons, List.mem_cons, forall_eq_or_imp]
    constructor
    · rintro ⟨h1, h2, h3, h4⟩
      exact ⟨⟨fun q hq => (h4 q hq).1, h3⟩, ⟨h1, h2⟩, fun q hq => ⟨by have := (h4 q hq).1; omega, (h4 q hq).2⟩⟩
    · rintro ⟨⟨h1, h2⟩, ⟨h3, h4⟩, h5⟩
      exact ⟨h3, h4, h2, fun q hq => ⟨h1 q hq, (h5 q hq).2⟩⟩

/-- A fill keeps the canonical form. -/
theorem memory_fill_wf (m : Memory) (a n : Nat) (f : Nat → Byte) (h : m.wf = true) : (m.fill a n f).wf = true := by
  rw [wf_iff, wfFrom_iff] at *
  obtain ⟨h1, h2⟩ := h
  unfold Memory.fill
  have hm : ∀ p ∈ (List.range n).filterMap (fun k => if f k = 0 then none else some (a + k, f k)), a ≤ p.1 ∧ p.1 < a + n ∧ p.2 ≠ 0 := by
    intro p hp
    obtain ⟨k, hk, e⟩ := List.mem_filterMap.mp hp
    have hk := List.mem_range.mp hk
    by_cases hz : f k = 0
    · simp [hz] at e
    · simp only [hz, if_false, Option.some.injEq] at e
      subst e
      exact ⟨by simp, by simpa using hk, hz⟩
  refine ⟨?_, fun p hp => ⟨Nat.zero_le _, ?_⟩⟩
  · rw [List.pairwise_append, List.pairwise_append]
    refine ⟨⟨h1.filter _, ?_, fun p hp q hq => ?_⟩, h1.filter _, fun p hp q hq => ?_⟩
    · rw [List.pairwise_filterMap]
      refine List.Pairwise.imp ?_ List.pairwise_lt_range
      intro i j hij p hp q hq
      by_cases hi : f i = 0 <;> by_cases hj : f j = 0 <;> simp [hi, hj] at hp hq
      rw [← hp.2, ← hq.2]; simpa using hij
    · have := hm q hq
      simp only [List.mem_filter, decide_eq_true_eq] at hp
      omega
    · simp only [List.mem_append, List.mem_filter, decide_eq_true_eq] at hp hq
      rcases hp with hp | hp
      · omega
      · have := hm p hp; omega
  · simp only [List.mem_append, List.mem_filter] at hp
    rcases hp with (hp | hp) | hp
    · exact (h2 p hp.1).2
    · exact (hm p hp).2.2
    · exact (h2 p hp.1).2

end Sys2Proof.Machine
end

