-- ==== Sys2Proof/Laws/State.lean ====
section
/-! SUPPORT. One lemma per field per update of the state, and reading back what the named operations write. -/

namespace Sys2Proof.Machine


/-! ### State.setHart -/

@[simp] theorem State.setHart_mem (s : State) (h : HartId) (x : Hart) : (s.setHart h x).mem = s.mem := rfl
@[simp] theorem State.setHart_badSectors (s : State) (h : HartId) (x : Hart) : (s.setHart h x).badSectors = s.badSectors := rfl
@[simp] theorem State.setHart_keyTags (s : State) (h : HartId) (x : Hart) : (s.setHart h x).keyTags = s.keyTags := rfl
@[simp] theorem State.setHart_cores (s : State) (h : HartId) (x : Hart) : (s.setHart h x).cores = s.cores := rfl
@[simp] theorem State.setHart_dies (s : State) (h : HartId) (x : Hart) : (s.setHart h x).dies = s.dies := rfl
@[simp] theorem State.setHart_hub (s : State) (h : HartId) (x : Hart) : (s.setHart h x).hub = s.hub := rfl
@[simp] theorem State.setHart_podIndex (s : State) (h : HartId) (x : Hart) : (s.setHart h x).podIndex = s.podIndex := rfl
@[simp] theorem State.setHart_powered (s : State) (h : HartId) (x : Hart) : (s.setHart h x).powered = s.powered := rfl
@[simp] theorem State.setHart_mcStore (s : State) (h : HartId) (x : Hart) : (s.setHart h x).mcStore = s.mcStore := rfl
@[simp] theorem State.setHart_sup0 (s : State) (h : HartId) (x : Hart) : (s.setHart h x).sup0 = s.sup0 := rfl
@[simp] theorem State.setHart_supValue (s : State) (h : HartId) (x : Hart) : (s.setHart h x).supValue = s.supValue := rfl
@[simp] theorem State.setHart_hostValue (s : State) (h : HartId) (x : Hart) : (s.setHart h x).hostValue = s.hostValue := rfl
@[simp] theorem State.setHart_agenda (s : State) (h : HartId) (x : Hart) : (s.setHart h x).agenda = s.agenda := rfl
@[simp] theorem State.setHart_oneCycle (s : State) (h : HartId) (x : Hart) : (s.setHart h x).oneCycle = s.oneCycle := rfl
@[simp] theorem State.setHart_expects (s : State) (h : HartId) (x : Hart) : (s.setHart h x).expects = s.expects := rfl
@[simp] theorem State.setHart_rr (s : State) (h : HartId) (x : Hart) : (s.setHart h x).rr = s.rr := rfl
@[simp] theorem State.setHart_curHart (s : State) (h : HartId) (x : Hart) : (s.setHart h x).curHart = s.curHart := rfl
@[simp] theorem State.setHart_curStream (s : State) (h : HartId) (x : Hart) : (s.setHart h x).curStream = s.curStream := rfl
@[simp] theorem State.setHart_fresh (s : State) (h : HartId) (x : Hart) : (s.setHart h x).fresh = s.fresh := rfl
@[simp] theorem State.setHart_upto (s : State) (h : HartId) (x : Hart) : (s.setHart h x).upto = s.upto := rfl
@[simp] theorem State.setHart_fallPc (s : State) (h : HartId) (x : Hart) : (s.setHart h x).fallPc = s.fallPc := rfl
@[simp] theorem State.setHart_head (s : State) (h : HartId) (x : Hart) : (s.setHart h x).head = s.head := rfl
@[simp] theorem State.setHart_tail (s : State) (h : HartId) (x : Hart) : (s.setHart h x).tail = s.tail := rfl
@[simp] theorem State.setHart_req (s : State) (h : HartId) (x : Hart) : (s.setHart h x).req = s.req := rfl
@[simp] theorem State.setHart_taskCtr (s : State) (h : HartId) (x : Hart) : (s.setHart h x).taskCtr = s.taskCtr := rfl
@[simp] theorem State.setHart_copyCtr (s : State) (h : HartId) (x : Hart) : (s.setHart h x).copyCtr = s.copyCtr := rfl
@[simp] theorem State.setHart_freeCtr (s : State) (h : HartId) (x : Hart) : (s.setHart h x).freeCtr = s.freeCtr := rfl

/-! ### State.setCore -/

@[simp] theorem State.setCore_mem (s : State) (c : CoreId) (x : Core) : (s.setCore c x).mem = s.mem := rfl
@[simp] theorem State.setCore_badSectors (s : State) (c : CoreId) (x : Core) : (s.setCore c x).badSectors = s.badSectors := rfl
@[simp] theorem State.setCore_keyTags (s : State) (c : CoreId) (x : Core) : (s.setCore c x).keyTags = s.keyTags := rfl
@[simp] theorem State.setCore_harts (s : State) (c : CoreId) (x : Core) : (s.setCore c x).harts = s.harts := rfl
@[simp] theorem State.setCore_dies (s : State) (c : CoreId) (x : Core) : (s.setCore c x).dies = s.dies := rfl
@[simp] theorem State.setCore_hub (s : State) (c : CoreId) (x : Core) : (s.setCore c x).hub = s.hub := rfl
@[simp] theorem State.setCore_podIndex (s : State) (c : CoreId) (x : Core) : (s.setCore c x).podIndex = s.podIndex := rfl
@[simp] theorem State.setCore_powered (s : State) (c : CoreId) (x : Core) : (s.setCore c x).powered = s.powered := rfl
@[simp] theorem State.setCore_mcStore (s : State) (c : CoreId) (x : Core) : (s.setCore c x).mcStore = s.mcStore := rfl
@[simp] theorem State.setCore_sup0 (s : State) (c : CoreId) (x : Core) : (s.setCore c x).sup0 = s.sup0 := rfl
@[simp] theorem State.setCore_supValue (s : State) (c : CoreId) (x : Core) : (s.setCore c x).supValue = s.supValue := rfl
@[simp] theorem State.setCore_hostValue (s : State) (c : CoreId) (x : Core) : (s.setCore c x).hostValue = s.hostValue := rfl
@[simp] theorem State.setCore_agenda (s : State) (c : CoreId) (x : Core) : (s.setCore c x).agenda = s.agenda := rfl
@[simp] theorem State.setCore_oneCycle (s : State) (c : CoreId) (x : Core) : (s.setCore c x).oneCycle = s.oneCycle := rfl
@[simp] theorem State.setCore_expects (s : State) (c : CoreId) (x : Core) : (s.setCore c x).expects = s.expects := rfl
@[simp] theorem State.setCore_rr (s : State) (c : CoreId) (x : Core) : (s.setCore c x).rr = s.rr := rfl
@[simp] theorem State.setCore_curHart (s : State) (c : CoreId) (x : Core) : (s.setCore c x).curHart = s.curHart := rfl
@[simp] theorem State.setCore_curStream (s : State) (c : CoreId) (x : Core) : (s.setCore c x).curStream = s.curStream := rfl
@[simp] theorem State.setCore_fresh (s : State) (c : CoreId) (x : Core) : (s.setCore c x).fresh = s.fresh := rfl
@[simp] theorem State.setCore_upto (s : State) (c : CoreId) (x : Core) : (s.setCore c x).upto = s.upto := rfl
@[simp] theorem State.setCore_fallPc (s : State) (c : CoreId) (x : Core) : (s.setCore c x).fallPc = s.fallPc := rfl
@[simp] theorem State.setCore_head (s : State) (c : CoreId) (x : Core) : (s.setCore c x).head = s.head := rfl
@[simp] theorem State.setCore_tail (s : State) (c : CoreId) (x : Core) : (s.setCore c x).tail = s.tail := rfl
@[simp] theorem State.setCore_req (s : State) (c : CoreId) (x : Core) : (s.setCore c x).req = s.req := rfl
@[simp] theorem State.setCore_taskCtr (s : State) (c : CoreId) (x : Core) : (s.setCore c x).taskCtr = s.taskCtr := rfl
@[simp] theorem State.setCore_copyCtr (s : State) (c : CoreId) (x : Core) : (s.setCore c x).copyCtr = s.copyCtr := rfl
@[simp] theorem State.setCore_freeCtr (s : State) (c : CoreId) (x : Core) : (s.setCore c x).freeCtr = s.freeCtr := rfl

/-! ### State.setDie -/

@[simp] theorem State.setDie_mem (s : State) (d : Fin 4) (x : Die) : (s.setDie d x).mem = s.mem := rfl
@[simp] theorem State.setDie_badSectors (s : State) (d : Fin 4) (x : Die) : (s.setDie d x).badSectors = s.badSectors := rfl
@[simp] theorem State.setDie_keyTags (s : State) (d : Fin 4) (x : Die) : (s.setDie d x).keyTags = s.keyTags := rfl
@[simp] theorem State.setDie_harts (s : State) (d : Fin 4) (x : Die) : (s.setDie d x).harts = s.harts := rfl
@[simp] theorem State.setDie_cores (s : State) (d : Fin 4) (x : Die) : (s.setDie d x).cores = s.cores := rfl
@[simp] theorem State.setDie_hub (s : State) (d : Fin 4) (x : Die) : (s.setDie d x).hub = s.hub := rfl
@[simp] theorem State.setDie_podIndex (s : State) (d : Fin 4) (x : Die) : (s.setDie d x).podIndex = s.podIndex := rfl
@[simp] theorem State.setDie_powered (s : State) (d : Fin 4) (x : Die) : (s.setDie d x).powered = s.powered := rfl
@[simp] theorem State.setDie_mcStore (s : State) (d : Fin 4) (x : Die) : (s.setDie d x).mcStore = s.mcStore := rfl
@[simp] theorem State.setDie_sup0 (s : State) (d : Fin 4) (x : Die) : (s.setDie d x).sup0 = s.sup0 := rfl
@[simp] theorem State.setDie_supValue (s : State) (d : Fin 4) (x : Die) : (s.setDie d x).supValue = s.supValue := rfl
@[simp] theorem State.setDie_hostValue (s : State) (d : Fin 4) (x : Die) : (s.setDie d x).hostValue = s.hostValue := rfl
@[simp] theorem State.setDie_agenda (s : State) (d : Fin 4) (x : Die) : (s.setDie d x).agenda = s.agenda := rfl
@[simp] theorem State.setDie_oneCycle (s : State) (d : Fin 4) (x : Die) : (s.setDie d x).oneCycle = s.oneCycle := rfl
@[simp] theorem State.setDie_expects (s : State) (d : Fin 4) (x : Die) : (s.setDie d x).expects = s.expects := rfl
@[simp] theorem State.setDie_rr (s : State) (d : Fin 4) (x : Die) : (s.setDie d x).rr = s.rr := rfl
@[simp] theorem State.setDie_curHart (s : State) (d : Fin 4) (x : Die) : (s.setDie d x).curHart = s.curHart := rfl
@[simp] theorem State.setDie_curStream (s : State) (d : Fin 4) (x : Die) : (s.setDie d x).curStream = s.curStream := rfl
@[simp] theorem State.setDie_fresh (s : State) (d : Fin 4) (x : Die) : (s.setDie d x).fresh = s.fresh := rfl
@[simp] theorem State.setDie_upto (s : State) (d : Fin 4) (x : Die) : (s.setDie d x).upto = s.upto := rfl
@[simp] theorem State.setDie_fallPc (s : State) (d : Fin 4) (x : Die) : (s.setDie d x).fallPc = s.fallPc := rfl
@[simp] theorem State.setDie_head (s : State) (d : Fin 4) (x : Die) : (s.setDie d x).head = s.head := rfl
@[simp] theorem State.setDie_tail (s : State) (d : Fin 4) (x : Die) : (s.setDie d x).tail = s.tail := rfl
@[simp] theorem State.setDie_req (s : State) (d : Fin 4) (x : Die) : (s.setDie d x).req = s.req := rfl
@[simp] theorem State.setDie_taskCtr (s : State) (d : Fin 4) (x : Die) : (s.setDie d x).taskCtr = s.taskCtr := rfl
@[simp] theorem State.setDie_copyCtr (s : State) (d : Fin 4) (x : Die) : (s.setDie d x).copyCtr = s.copyCtr := rfl
@[simp] theorem State.setDie_freeCtr (s : State) (d : Fin 4) (x : Die) : (s.setDie d x).freeCtr = s.freeCtr := rfl

/-! ### Hart.setV -/

@[simp] theorem Hart.setV_task (x : Hart) (r : Nat) (w : VReg) : (x.setV r w).task = x.task := rfl
@[simp] theorem Hart.setV_a (x : Hart) (r : Nat) (w : VReg) : (x.setV r w).a = x.a := rfl
@[simp] theorem Hart.setV_s (x : Hart) (r : Nat) (w : VReg) : (x.setV r w).s = x.s := rfl
@[simp] theorem Hart.setV_c (x : Hart) (r : Nat) (w : VReg) : (x.setV r w).c = x.c := rfl
@[simp] theorem Hart.setV_t (x : Hart) (r : Nat) (w : VReg) : (x.setV r w).t = x.t := rfl
@[simp] theorem Hart.setV_tset (x : Hart) (r : Nat) (w : VReg) : (x.setV r w).tset = x.tset := rfl
@[simp] theorem Hart.setV_m (x : Hart) (r : Nat) (w : VReg) : (x.setV r w).m = x.m := rfl
@[simp] theorem Hart.setV_ac (x : Hart) (r : Nat) (w : VReg) : (x.setV r w).ac = x.ac := rfl
@[simp] theorem Hart.setV_q (x : Hart) (r : Nat) (w : VReg) : (x.setV r w).q = x.q := rfl
@[simp] theorem Hart.setV_bq (x : Hart) (r : Nat) (w : VReg) : (x.setV r w).bq = x.bq := rfl
@[simp] theorem Hart.setV_vl (x : Hart) (r : Nat) (w : VReg) : (x.setV r w).vl = x.vl := rfl
@[simp] theorem Hart.setV_vstart (x : Hart) (r : Nat) (w : VReg) : (x.setV r w).vstart = x.vstart := rfl
@[simp] theorem Hart.setV_tce (x : Hart) (r : Nat) (w : VReg) : (x.setV r w).tce = x.tce := rfl
@[simp] theorem Hart.setV_ftz (x : Hart) (r : Nat) (w : VReg) : (x.setV r w).ftz = x.ftz := rfl
@[simp] theorem Hart.setV_vstat (x : Hart) (r : Nat) (w : VReg) : (x.setV r w).vstat = x.vstat := rfl
@[simp] theorem Hart.setV_waitlim (x : Hart) (r : Nat) (w : VReg) : (x.setV r w).waitlim = x.waitlim := rfl
@[simp] theorem Hart.setV_featm (x : Hart) (r : Nat) (w : VReg) : (x.setV r w).featm = x.featm := rfl
@[simp] theorem Hart.setV_sa (x : Hart) (r : Nat) (w : VReg) : (x.setV r w).sa = x.sa := rfl
@[simp] theorem Hart.setV_sx (x : Hart) (r : Nat) (w : VReg) : (x.setV r w).sx = x.sx := rfl
@[simp] theorem Hart.setV_sc (x : Hart) (r : Nat) (w : VReg) : (x.setV r w).sc = x.sc := rfl
@[simp] theorem Hart.setV_met (x : Hart) (r : Nat) (w : VReg) : (x.setV r w).met = x.met := rfl
@[simp] theorem Hart.setV_lastRdv (x : Hart) (r : Nat) (w : VReg) : (x.setV r w).lastRdv = x.lastRdv := rfl
@[simp] theorem Hart.setV_popped (x : Hart) (r : Nat) (w : VReg) : (x.setV r w).popped = x.popped := rfl
@[simp] theorem Hart.setV_popBad (x : Hart) (r : Nat) (w : VReg) : (x.setV r w).popBad = x.popBad := rfl
@[simp] theorem Hart.setV_done (x : Hart) (r : Nat) (w : VReg) : (x.setV r w).done = x.done := rfl
@[simp] theorem Hart.setV_pend (x : Hart) (r : Nat) (w : VReg) : (x.setV r w).pend = x.pend := rfl
@[simp] theorem Hart.setV_again (x : Hart) (r : Nat) (w : VReg) : (x.setV r w).again = x.again := rfl
@[simp] theorem Hart.setV_ruling (x : Hart) (r : Nat) (w : VReg) : (x.setV r w).ruling = x.ruling := rfl
@[simp] theorem Hart.setV_binds (x : Hart) (r : Nat) (w : VReg) : (x.setV r w).binds = x.binds := rfl
@[simp] theorem Hart.setV_window (x : Hart) (r : Nat) (w : VReg) : (x.setV r w).window = x.window := rfl
@[simp] theorem Hart.setV_keys (x : Hart) (r : Nat) (w : VReg) : (x.setV r w).keys = x.keys := rfl
@[simp] theorem Hart.setV_quire (x : Hart) (r : Nat) (w : VReg) : (x.setV r w).quire = x.quire := rfl
@[simp] theorem Hart.setV_joining (x : Hart) (r : Nat) (w : VReg) : (x.setV r w).joining = x.joining := rfl
@[simp] theorem Hart.setV_flagWait (x : Hart) (r : Nat) (w : VReg) : (x.setV r w).flagWait = x.flagWait := rfl
@[simp] theorem Hart.setV_tile (x : Hart) (r : Nat) (w : VReg) : (x.setV r w).tile = x.tile := rfl
@[simp] theorem Hart.setV_tileHeld (x : Hart) (r : Nat) (w : VReg) : (x.setV r w).tileHeld = x.tileHeld := rfl
@[simp] theorem Hart.setV_halted (x : Hart) (r : Nat) (w : VReg) : (x.setV r w).halted = x.halted := rfl
@[simp] theorem Hart.setV_halt (x : Hart) (r : Nat) (w : VReg) : (x.setV r w).halt = x.halt := rfl
@[simp] theorem Hart.setV_preempt (x : Hart) (r : Nat) (w : VReg) : (x.setV r w).preempt = x.preempt := rfl
@[simp] theorem Hart.setV_counters (x : Hart) (r : Nat) (w : VReg) : (x.setV r w).counters = x.counters := rfl

/-! ### Hart.setT -/

@[simp] theorem Hart.setT_task (x : Hart) (r : Nat) (w : Wide) : (x.setT r w).task = x.task := rfl
@[simp] theorem Hart.setT_a (x : Hart) (r : Nat) (w : Wide) : (x.setT r w).a = x.a := rfl
@[simp] theorem Hart.setT_s (x : Hart) (r : Nat) (w : Wide) : (x.setT r w).s = x.s := rfl
@[simp] theorem Hart.setT_c (x : Hart) (r : Nat) (w : Wide) : (x.setT r w).c = x.c := rfl
@[simp] theorem Hart.setT_v (x : Hart) (r : Nat) (w : Wide) : (x.setT r w).v = x.v := rfl
@[simp] theorem Hart.setT_tset (x : Hart) (r : Nat) (w : Wide) : (x.setT r w).tset = x.tset := rfl
@[simp] theorem Hart.setT_m (x : Hart) (r : Nat) (w : Wide) : (x.setT r w).m = x.m := rfl
@[simp] theorem Hart.setT_ac (x : Hart) (r : Nat) (w : Wide) : (x.setT r w).ac = x.ac := rfl
@[simp] theorem Hart.setT_q (x : Hart) (r : Nat) (w : Wide) : (x.setT r w).q = x.q := rfl
@[simp] theorem Hart.setT_bq (x : Hart) (r : Nat) (w : Wide) : (x.setT r w).bq = x.bq := rfl
@[simp] theorem Hart.setT_vl (x : Hart) (r : Nat) (w : Wide) : (x.setT r w).vl = x.vl := rfl
@[simp] theorem Hart.setT_vstart (x : Hart) (r : Nat) (w : Wide) : (x.setT r w).vstart = x.vstart := rfl
@[simp] theorem Hart.setT_tce (x : Hart) (r : Nat) (w : Wide) : (x.setT r w).tce = x.tce := rfl
@[simp] theorem Hart.setT_ftz (x : Hart) (r : Nat) (w : Wide) : (x.setT r w).ftz = x.ftz := rfl
@[simp] theorem Hart.setT_vstat (x : Hart) (r : Nat) (w : Wide) : (x.setT r w).vstat = x.vstat := rfl
@[simp] theorem Hart.setT_waitlim (x : Hart) (r : Nat) (w : Wide) : (x.setT r w).waitlim = x.waitlim := rfl
@[simp] theorem Hart.setT_featm (x : Hart) (r : Nat) (w : Wide) : (x.setT r w).featm = x.featm := rfl
@[simp] theorem Hart.setT_sa (x : Hart) (r : Nat) (w : Wide) : (x.setT r w).sa = x.sa := rfl
@[simp] theorem Hart.setT_sx (x : Hart) (r : Nat) (w : Wide) : (x.setT r w).sx = x.sx := rfl
@[simp] theorem Hart.setT_sc (x : Hart) (r : Nat) (w : Wide) : (x.setT r w).sc = x.sc := rfl
@[simp] theorem Hart.setT_met (x : Hart) (r : Nat) (w : Wide) : (x.setT r w).met = x.met := rfl
@[simp] theorem Hart.setT_lastRdv (x : Hart) (r : Nat) (w : Wide) : (x.setT r w).lastRdv = x.lastRdv := rfl
@[simp] theorem Hart.setT_popped (x : Hart) (r : Nat) (w : Wide) : (x.setT r w).popped = x.popped := rfl
@[simp] theorem Hart.setT_popBad (x : Hart) (r : Nat) (w : Wide) : (x.setT r w).popBad = x.popBad := rfl
@[simp] theorem Hart.setT_done (x : Hart) (r : Nat) (w : Wide) : (x.setT r w).done = x.done := rfl
@[simp] theorem Hart.setT_pend (x : Hart) (r : Nat) (w : Wide) : (x.setT r w).pend = x.pend := rfl
@[simp] theorem Hart.setT_again (x : Hart) (r : Nat) (w : Wide) : (x.setT r w).again = x.again := rfl
@[simp] theorem Hart.setT_ruling (x : Hart) (r : Nat) (w : Wide) : (x.setT r w).ruling = x.ruling := rfl
@[simp] theorem Hart.setT_binds (x : Hart) (r : Nat) (w : Wide) : (x.setT r w).binds = x.binds := rfl
@[simp] theorem Hart.setT_window (x : Hart) (r : Nat) (w : Wide) : (x.setT r w).window = x.window := rfl
@[simp] theorem Hart.setT_keys (x : Hart) (r : Nat) (w : Wide) : (x.setT r w).keys = x.keys := rfl
@[simp] theorem Hart.setT_quire (x : Hart) (r : Nat) (w : Wide) : (x.setT r w).quire = x.quire := rfl
@[simp] theorem Hart.setT_joining (x : Hart) (r : Nat) (w : Wide) : (x.setT r w).joining = x.joining := rfl
@[simp] theorem Hart.setT_flagWait (x : Hart) (r : Nat) (w : Wide) : (x.setT r w).flagWait = x.flagWait := rfl
@[simp] theorem Hart.setT_tile (x : Hart) (r : Nat) (w : Wide) : (x.setT r w).tile = x.tile := rfl
@[simp] theorem Hart.setT_tileHeld (x : Hart) (r : Nat) (w : Wide) : (x.setT r w).tileHeld = x.tileHeld := rfl
@[simp] theorem Hart.setT_halted (x : Hart) (r : Nat) (w : Wide) : (x.setT r w).halted = x.halted := rfl
@[simp] theorem Hart.setT_halt (x : Hart) (r : Nat) (w : Wide) : (x.setT r w).halt = x.halt := rfl
@[simp] theorem Hart.setT_preempt (x : Hart) (r : Nat) (w : Wide) : (x.setT r w).preempt = x.preempt := rfl
@[simp] theorem Hart.setT_counters (x : Hart) (r : Nat) (w : Wide) : (x.setT r w).counters = x.counters := rfl

/-! ### Hart.setAc -/

@[simp] theorem Hart.setAc_task (x : Hart) (r : Nat) (w : AccRow) : (x.setAc r w).task = x.task := rfl
@[simp] theorem Hart.setAc_a (x : Hart) (r : Nat) (w : AccRow) : (x.setAc r w).a = x.a := rfl
@[simp] theorem Hart.setAc_s (x : Hart) (r : Nat) (w : AccRow) : (x.setAc r w).s = x.s := rfl
@[simp] theorem Hart.setAc_c (x : Hart) (r : Nat) (w : AccRow) : (x.setAc r w).c = x.c := rfl
@[simp] theorem Hart.setAc_v (x : Hart) (r : Nat) (w : AccRow) : (x.setAc r w).v = x.v := rfl
@[simp] theorem Hart.setAc_t (x : Hart) (r : Nat) (w : AccRow) : (x.setAc r w).t = x.t := rfl
@[simp] theorem Hart.setAc_tset (x : Hart) (r : Nat) (w : AccRow) : (x.setAc r w).tset = x.tset := rfl
@[simp] theorem Hart.setAc_m (x : Hart) (r : Nat) (w : AccRow) : (x.setAc r w).m = x.m := rfl
@[simp] theorem Hart.setAc_q (x : Hart) (r : Nat) (w : AccRow) : (x.setAc r w).q = x.q := rfl
@[simp] theorem Hart.setAc_bq (x : Hart) (r : Nat) (w : AccRow) : (x.setAc r w).bq = x.bq := rfl
@[simp] theorem Hart.setAc_vl (x : Hart) (r : Nat) (w : AccRow) : (x.setAc r w).vl = x.vl := rfl
@[simp] theorem Hart.setAc_vstart (x : Hart) (r : Nat) (w : AccRow) : (x.setAc r w).vstart = x.vstart := rfl
@[simp] theorem Hart.setAc_tce (x : Hart) (r : Nat) (w : AccRow) : (x.setAc r w).tce = x.tce := rfl
@[simp] theorem Hart.setAc_ftz (x : Hart) (r : Nat) (w : AccRow) : (x.setAc r w).ftz = x.ftz := rfl
@[simp] theorem Hart.setAc_vstat (x : Hart) (r : Nat) (w : AccRow) : (x.setAc r w).vstat = x.vstat := rfl
@[simp] theorem Hart.setAc_waitlim (x : Hart) (r : Nat) (w : AccRow) : (x.setAc r w).waitlim = x.waitlim := rfl
@[simp] theorem Hart.setAc_featm (x : Hart) (r : Nat) (w : AccRow) : (x.setAc r w).featm = x.featm := rfl
@[simp] theorem Hart.setAc_sa (x : Hart) (r : Nat) (w : AccRow) : (x.setAc r w).sa = x.sa := rfl
@[simp] theorem Hart.setAc_sx (x : Hart) (r : Nat) (w : AccRow) : (x.setAc r w).sx = x.sx := rfl
@[simp] theorem Hart.setAc_sc (x : Hart) (r : Nat) (w : AccRow) : (x.setAc r w).sc = x.sc := rfl
@[simp] theorem Hart.setAc_met (x : Hart) (r : Nat) (w : AccRow) : (x.setAc r w).met = x.met := rfl
@[simp] theorem Hart.setAc_lastRdv (x : Hart) (r : Nat) (w : AccRow) : (x.setAc r w).lastRdv = x.lastRdv := rfl
@[simp] theorem Hart.setAc_popped (x : Hart) (r : Nat) (w : AccRow) : (x.setAc r w).popped = x.popped := rfl
@[simp] theorem Hart.setAc_popBad (x : Hart) (r : Nat) (w : AccRow) : (x.setAc r w).popBad = x.popBad := rfl
@[simp] theorem Hart.setAc_done (x : Hart) (r : Nat) (w : AccRow) : (x.setAc r w).done = x.done := rfl
@[simp] theorem Hart.setAc_pend (x : Hart) (r : Nat) (w : AccRow) : (x.setAc r w).pend = x.pend := rfl
@[simp] theorem Hart.setAc_again (x : Hart) (r : Nat) (w : AccRow) : (x.setAc r w).again = x.again := rfl
@[simp] theorem Hart.setAc_ruling (x : Hart) (r : Nat) (w : AccRow) : (x.setAc r w).ruling = x.ruling := rfl
@[simp] theorem Hart.setAc_binds (x : Hart) (r : Nat) (w : AccRow) : (x.setAc r w).binds = x.binds := rfl
@[simp] theorem Hart.setAc_window (x : Hart) (r : Nat) (w : AccRow) : (x.setAc r w).window = x.window := rfl
@[simp] theorem Hart.setAc_keys (x : Hart) (r : Nat) (w : AccRow) : (x.setAc r w).keys = x.keys := rfl
@[simp] theorem Hart.setAc_quire (x : Hart) (r : Nat) (w : AccRow) : (x.setAc r w).quire = x.quire := rfl
@[simp] theorem Hart.setAc_joining (x : Hart) (r : Nat) (w : AccRow) : (x.setAc r w).joining = x.joining := rfl
@[simp] theorem Hart.setAc_flagWait (x : Hart) (r : Nat) (w : AccRow) : (x.setAc r w).flagWait = x.flagWait := rfl
@[simp] theorem Hart.setAc_tile (x : Hart) (r : Nat) (w : AccRow) : (x.setAc r w).tile = x.tile := rfl
@[simp] theorem Hart.setAc_tileHeld (x : Hart) (r : Nat) (w : AccRow) : (x.setAc r w).tileHeld = x.tileHeld := rfl
@[simp] theorem Hart.setAc_halted (x : Hart) (r : Nat) (w : AccRow) : (x.setAc r w).halted = x.halted := rfl
@[simp] theorem Hart.setAc_halt (x : Hart) (r : Nat) (w : AccRow) : (x.setAc r w).halt = x.halt := rfl
@[simp] theorem Hart.setAc_preempt (x : Hart) (r : Nat) (w : AccRow) : (x.setAc r w).preempt = x.preempt := rfl
@[simp] theorem Hart.setAc_counters (x : Hart) (r : Nat) (w : AccRow) : (x.setAc r w).counters = x.counters := rfl

/-! ### Hart.setQueue -/

@[simp] theorem Hart.setQueue_task (x : Hart) (q : Nat) (w : List (BitVec 64)) : (x.setQueue q w).task = x.task := rfl
@[simp] theorem Hart.setQueue_a (x : Hart) (q : Nat) (w : List (BitVec 64)) : (x.setQueue q w).a = x.a := rfl
@[simp] theorem Hart.setQueue_s (x : Hart) (q : Nat) (w : List (BitVec 64)) : (x.setQueue q w).s = x.s := rfl
@[simp] theorem Hart.setQueue_c (x : Hart) (q : Nat) (w : List (BitVec 64)) : (x.setQueue q w).c = x.c := rfl
@[simp] theorem Hart.setQueue_v (x : Hart) (q : Nat) (w : List (BitVec 64)) : (x.setQueue q w).v = x.v := rfl
@[simp] theorem Hart.setQueue_t (x : Hart) (q : Nat) (w : List (BitVec 64)) : (x.setQueue q w).t = x.t := rfl
@[simp] theorem Hart.setQueue_tset (x : Hart) (q : Nat) (w : List (BitVec 64)) : (x.setQueue q w).tset = x.tset := rfl
@[simp] theorem Hart.setQueue_m (x : Hart) (q : Nat) (w : List (BitVec 64)) : (x.setQueue q w).m = x.m := rfl
@[simp] theorem Hart.setQueue_ac (x : Hart) (q : Nat) (w : List (BitVec 64)) : (x.setQueue q w).ac = x.ac := rfl
@[simp] theorem Hart.setQueue_bq (x : Hart) (q : Nat) (w : List (BitVec 64)) : (x.setQueue q w).bq = x.bq := rfl
@[simp] theorem Hart.setQueue_vl (x : Hart) (q : Nat) (w : List (BitVec 64)) : (x.setQueue q w).vl = x.vl := rfl
@[simp] theorem Hart.setQueue_vstart (x : Hart) (q : Nat) (w : List (BitVec 64)) : (x.setQueue q w).vstart = x.vstart := rfl
@[simp] theorem Hart.setQueue_tce (x : Hart) (q : Nat) (w : List (BitVec 64)) : (x.setQueue q w).tce = x.tce := rfl
@[simp] theorem Hart.setQueue_ftz (x : Hart) (q : Nat) (w : List (BitVec 64)) : (x.setQueue q w).ftz = x.ftz := rfl
@[simp] theorem Hart.setQueue_vstat (x : Hart) (q : Nat) (w : List (BitVec 64)) : (x.setQueue q w).vstat = x.vstat := rfl
@[simp] theorem Hart.setQueue_waitlim (x : Hart) (q : Nat) (w : List (BitVec 64)) : (x.setQueue q w).waitlim = x.waitlim := rfl
@[simp] theorem Hart.setQueue_featm (x : Hart) (q : Nat) (w : List (BitVec 64)) : (x.setQueue q w).featm = x.featm := rfl
@[simp] theorem Hart.setQueue_sa (x : Hart) (q : Nat) (w : List (BitVec 64)) : (x.setQueue q w).sa = x.sa := rfl
@[simp] theorem Hart.setQueue_sx (x : Hart) (q : Nat) (w : List (BitVec 64)) : (x.setQueue q w).sx = x.sx := rfl
@[simp] theorem Hart.setQueue_sc (x : Hart) (q : Nat) (w : List (BitVec 64)) : (x.setQueue q w).sc = x.sc := rfl
@[simp] theorem Hart.setQueue_met (x : Hart) (q : Nat) (w : List (BitVec 64)) : (x.setQueue q w).met = x.met := rfl
@[simp] theorem Hart.setQueue_lastRdv (x : Hart) (q : Nat) (w : List (BitVec 64)) : (x.setQueue q w).lastRdv = x.lastRdv := rfl
@[simp] theorem Hart.setQueue_popped (x : Hart) (q : Nat) (w : List (BitVec 64)) : (x.setQueue q w).popped = x.popped := rfl
@[simp] theorem Hart.setQueue_popBad (x : Hart) (q : Nat) (w : List (BitVec 64)) : (x.setQueue q w).popBad = x.popBad := rfl
@[simp] theorem Hart.setQueue_done (x : Hart) (q : Nat) (w : List (BitVec 64)) : (x.setQueue q w).done = x.done := rfl
@[simp] theorem Hart.setQueue_pend (x : Hart) (q : Nat) (w : List (BitVec 64)) : (x.setQueue q w).pend = x.pend := rfl
@[simp] theorem Hart.setQueue_again (x : Hart) (q : Nat) (w : List (BitVec 64)) : (x.setQueue q w).again = x.again := rfl
@[simp] theorem Hart.setQueue_ruling (x : Hart) (q : Nat) (w : List (BitVec 64)) : (x.setQueue q w).ruling = x.ruling := rfl
@[simp] theorem Hart.setQueue_binds (x : Hart) (q : Nat) (w : List (BitVec 64)) : (x.setQueue q w).binds = x.binds := rfl
@[simp] theorem Hart.setQueue_window (x : Hart) (q : Nat) (w : List (BitVec 64)) : (x.setQueue q w).window = x.window := rfl
@[simp] theorem Hart.setQueue_keys (x : Hart) (q : Nat) (w : List (BitVec 64)) : (x.setQueue q w).keys = x.keys := rfl
@[simp] theorem Hart.setQueue_quire (x : Hart) (q : Nat) (w : List (BitVec 64)) : (x.setQueue q w).quire = x.quire := rfl
@[simp] theorem Hart.setQueue_joining (x : Hart) (q : Nat) (w : List (BitVec 64)) : (x.setQueue q w).joining = x.joining := rfl
@[simp] theorem Hart.setQueue_flagWait (x : Hart) (q : Nat) (w : List (BitVec 64)) : (x.setQueue q w).flagWait = x.flagWait := rfl
@[simp] theorem Hart.setQueue_tile (x : Hart) (q : Nat) (w : List (BitVec 64)) : (x.setQueue q w).tile = x.tile := rfl
@[simp] theorem Hart.setQueue_tileHeld (x : Hart) (q : Nat) (w : List (BitVec 64)) : (x.setQueue q w).tileHeld = x.tileHeld := rfl
@[simp] theorem Hart.setQueue_halted (x : Hart) (q : Nat) (w : List (BitVec 64)) : (x.setQueue q w).halted = x.halted := rfl
@[simp] theorem Hart.setQueue_halt (x : Hart) (q : Nat) (w : List (BitVec 64)) : (x.setQueue q w).halt = x.halt := rfl
@[simp] theorem Hart.setQueue_preempt (x : Hart) (q : Nat) (w : List (BitVec 64)) : (x.setQueue q w).preempt = x.preempt := rfl
@[simp] theorem Hart.setQueue_counters (x : Hart) (q : Nat) (w : List (BitVec 64)) : (x.setQueue q w).counters = x.counters := rfl

/-! ### Hart.setBind -/

@[simp] theorem Hart.setBind_task (x : Hart) (v : Nat) (w : Option Binding) : (x.setBind v w).task = x.task := rfl
@[simp] theorem Hart.setBind_a (x : Hart) (v : Nat) (w : Option Binding) : (x.setBind v w).a = x.a := rfl
@[simp] theorem Hart.setBind_s (x : Hart) (v : Nat) (w : Option Binding) : (x.setBind v w).s = x.s := rfl
@[simp] theorem Hart.setBind_c (x : Hart) (v : Nat) (w : Option Binding) : (x.setBind v w).c = x.c := rfl
@[simp] theorem Hart.setBind_v (x : Hart) (v : Nat) (w : Option Binding) : (x.setBind v w).v = x.v := rfl
@[simp] theorem Hart.setBind_t (x : Hart) (v : Nat) (w : Option Binding) : (x.setBind v w).t = x.t := rfl
@[simp] theorem Hart.setBind_tset (x : Hart) (v : Nat) (w : Option Binding) : (x.setBind v w).tset = x.tset := rfl
@[simp] theorem Hart.setBind_m (x : Hart) (v : Nat) (w : Option Binding) : (x.setBind v w).m = x.m := rfl
@[simp] theorem Hart.setBind_ac (x : Hart) (v : Nat) (w : Option Binding) : (x.setBind v w).ac = x.ac := rfl
@[simp] theorem Hart.setBind_q (x : Hart) (v : Nat) (w : Option Binding) : (x.setBind v w).q = x.q := rfl
@[simp] theorem Hart.setBind_bq (x : Hart) (v : Nat) (w : Option Binding) : (x.setBind v w).bq = x.bq := rfl
@[simp] theorem Hart.setBind_vl (x : Hart) (v : Nat) (w : Option Binding) : (x.setBind v w).vl = x.vl := rfl
@[simp] theorem Hart.setBind_vstart (x : Hart) (v : Nat) (w : Option Binding) : (x.setBind v w).vstart = x.vstart := rfl
@[simp] theorem Hart.setBind_tce (x : Hart) (v : Nat) (w : Option Binding) : (x.setBind v w).tce = x.tce := rfl
@[simp] theorem Hart.setBind_ftz (x : Hart) (v : Nat) (w : Option Binding) : (x.setBind v w).ftz = x.ftz := rfl
@[simp] theorem Hart.setBind_vstat (x : Hart) (v : Nat) (w : Option Binding) : (x.setBind v w).vstat = x.vstat := rfl
@[simp] theorem Hart.setBind_waitlim (x : Hart) (v : Nat) (w : Option Binding) : (x.setBind v w).waitlim = x.waitlim := rfl
@[simp] theorem Hart.setBind_featm (x : Hart) (v : Nat) (w : Option Binding) : (x.setBind v w).featm = x.featm := rfl
@[simp] theorem Hart.setBind_sa (x : Hart) (v : Nat) (w : Option Binding) : (x.setBind v w).sa = x.sa := rfl
@[simp] theorem Hart.setBind_sx (x : Hart) (v : Nat) (w : Option Binding) : (x.setBind v w).sx = x.sx := rfl
@[simp] theorem Hart.setBind_sc (x : Hart) (v : Nat) (w : Option Binding) : (x.setBind v w).sc = x.sc := rfl
@[simp] theorem Hart.setBind_met (x : Hart) (v : Nat) (w : Option Binding) : (x.setBind v w).met = x.met := rfl
@[simp] theorem Hart.setBind_lastRdv (x : Hart) (v : Nat) (w : Option Binding) : (x.setBind v w).lastRdv = x.lastRdv := rfl
@[simp] theorem Hart.setBind_popped (x : Hart) (v : Nat) (w : Option Binding) : (x.setBind v w).popped = x.popped := rfl
@[simp] theorem Hart.setBind_popBad (x : Hart) (v : Nat) (w : Option Binding) : (x.setBind v w).popBad = x.popBad := rfl
@[simp] theorem Hart.setBind_done (x : Hart) (v : Nat) (w : Option Binding) : (x.setBind v w).done = x.done := rfl
@[simp] theorem Hart.setBind_pend (x : Hart) (v : Nat) (w : Option Binding) : (x.setBind v w).pend = x.pend := rfl
@[simp] theorem Hart.setBind_again (x : Hart) (v : Nat) (w : Option Binding) : (x.setBind v w).again = x.again := rfl
@[simp] theorem Hart.setBind_ruling (x : Hart) (v : Nat) (w : Option Binding) : (x.setBind v w).ruling = x.ruling := rfl
@[simp] theorem Hart.setBind_window (x : Hart) (v : Nat) (w : Option Binding) : (x.setBind v w).window = x.window := rfl
@[simp] theorem Hart.setBind_keys (x : Hart) (v : Nat) (w : Option Binding) : (x.setBind v w).keys = x.keys := rfl
@[simp] theorem Hart.setBind_quire (x : Hart) (v : Nat) (w : Option Binding) : (x.setBind v w).quire = x.quire := rfl
@[simp] theorem Hart.setBind_joining (x : Hart) (v : Nat) (w : Option Binding) : (x.setBind v w).joining = x.joining := rfl
@[simp] theorem Hart.setBind_flagWait (x : Hart) (v : Nat) (w : Option Binding) : (x.setBind v w).flagWait = x.flagWait := rfl
@[simp] theorem Hart.setBind_tile (x : Hart) (v : Nat) (w : Option Binding) : (x.setBind v w).tile = x.tile := rfl
@[simp] theorem Hart.setBind_tileHeld (x : Hart) (v : Nat) (w : Option Binding) : (x.setBind v w).tileHeld = x.tileHeld := rfl
@[simp] theorem Hart.setBind_halted (x : Hart) (v : Nat) (w : Option Binding) : (x.setBind v w).halted = x.halted := rfl
@[simp] theorem Hart.setBind_halt (x : Hart) (v : Nat) (w : Option Binding) : (x.setBind v w).halt = x.halt := rfl
@[simp] theorem Hart.setBind_preempt (x : Hart) (v : Nat) (w : Option Binding) : (x.setBind v w).preempt = x.preempt := rfl
@[simp] theorem Hart.setBind_counters (x : Hart) (v : Nat) (w : Option Binding) : (x.setBind v w).counters = x.counters := rfl

/-! ### Hart.setC -/

@[simp] theorem Hart.setC_task (x : Hart) (r : Nat) (w : BitVec 64) : (x.setC r w).task = x.task := rfl
@[simp] theorem Hart.setC_a (x : Hart) (r : Nat) (w : BitVec 64) : (x.setC r w).a = x.a := rfl
@[simp] theorem Hart.setC_s (x : Hart) (r : Nat) (w : BitVec 64) : (x.setC r w).s = x.s := rfl
@[simp] theorem Hart.setC_v (x : Hart) (r : Nat) (w : BitVec 64) : (x.setC r w).v = x.v := rfl
@[simp] theorem Hart.setC_t (x : Hart) (r : Nat) (w : BitVec 64) : (x.setC r w).t = x.t := rfl
@[simp] theorem Hart.setC_tset (x : Hart) (r : Nat) (w : BitVec 64) : (x.setC r w).tset = x.tset := rfl
@[simp] theorem Hart.setC_m (x : Hart) (r : Nat) (w : BitVec 64) : (x.setC r w).m = x.m := rfl
@[simp] theorem Hart.setC_ac (x : Hart) (r : Nat) (w : BitVec 64) : (x.setC r w).ac = x.ac := rfl
@[simp] theorem Hart.setC_q (x : Hart) (r : Nat) (w : BitVec 64) : (x.setC r w).q = x.q := rfl
@[simp] theorem Hart.setC_bq (x : Hart) (r : Nat) (w : BitVec 64) : (x.setC r w).bq = x.bq := rfl
@[simp] theorem Hart.setC_vl (x : Hart) (r : Nat) (w : BitVec 64) : (x.setC r w).vl = x.vl := rfl
@[simp] theorem Hart.setC_vstart (x : Hart) (r : Nat) (w : BitVec 64) : (x.setC r w).vstart = x.vstart := rfl
@[simp] theorem Hart.setC_tce (x : Hart) (r : Nat) (w : BitVec 64) : (x.setC r w).tce = x.tce := rfl
@[simp] theorem Hart.setC_ftz (x : Hart) (r : Nat) (w : BitVec 64) : (x.setC r w).ftz = x.ftz := rfl
@[simp] theorem Hart.setC_vstat (x : Hart) (r : Nat) (w : BitVec 64) : (x.setC r w).vstat = x.vstat := rfl
@[simp] theorem Hart.setC_waitlim (x : Hart) (r : Nat) (w : BitVec 64) : (x.setC r w).waitlim = x.waitlim := rfl
@[simp] theorem Hart.setC_featm (x : Hart) (r : Nat) (w : BitVec 64) : (x.setC r w).featm = x.featm := rfl
@[simp] theorem Hart.setC_sa (x : Hart) (r : Nat) (w : BitVec 64) : (x.setC r w).sa = x.sa := rfl
@[simp] theorem Hart.setC_sx (x : Hart) (r : Nat) (w : BitVec 64) : (x.setC r w).sx = x.sx := rfl
@[simp] theorem Hart.setC_sc (x : Hart) (r : Nat) (w : BitVec 64) : (x.setC r w).sc = x.sc := rfl
@[simp] theorem Hart.setC_met (x : Hart) (r : Nat) (w : BitVec 64) : (x.setC r w).met = x.met := rfl
@[simp] theorem Hart.setC_lastRdv (x : Hart) (r : Nat) (w : BitVec 64) : (x.setC r w).lastRdv = x.lastRdv := rfl
@[simp] theorem Hart.setC_popped (x : Hart) (r : Nat) (w : BitVec 64) : (x.setC r w).popped = x.popped := rfl
@[simp] theorem Hart.setC_popBad (x : Hart) (r : Nat) (w : BitVec 64) : (x.setC r w).popBad = x.popBad := rfl
@[simp] theorem Hart.setC_done (x : Hart) (r : Nat) (w : BitVec 64) : (x.setC r w).done = x.done := rfl
@[simp] theorem Hart.setC_pend (x : Hart) (r : Nat) (w : BitVec 64) : (x.setC r w).pend = x.pend := rfl
@[simp] theorem Hart.setC_again (x : Hart) (r : Nat) (w : BitVec 64) : (x.setC r w).again = x.again := rfl
@[simp] theorem Hart.setC_ruling (x : Hart) (r : Nat) (w : BitVec 64) : (x.setC r w).ruling = x.ruling := rfl
@[simp] theorem Hart.setC_binds (x : Hart) (r : Nat) (w : BitVec 64) : (x.setC r w).binds = x.binds := rfl
@[simp] theorem Hart.setC_window (x : Hart) (r : Nat) (w : BitVec 64) : (x.setC r w).window = x.window := rfl
@[simp] theorem Hart.setC_keys (x : Hart) (r : Nat) (w : BitVec 64) : (x.setC r w).keys = x.keys := rfl
@[simp] theorem Hart.setC_quire (x : Hart) (r : Nat) (w : BitVec 64) : (x.setC r w).quire = x.quire := rfl
@[simp] theorem Hart.setC_joining (x : Hart) (r : Nat) (w : BitVec 64) : (x.setC r w).joining = x.joining := rfl
@[simp] theorem Hart.setC_flagWait (x : Hart) (r : Nat) (w : BitVec 64) : (x.setC r w).flagWait = x.flagWait := rfl
@[simp] theorem Hart.setC_tile (x : Hart) (r : Nat) (w : BitVec 64) : (x.setC r w).tile = x.tile := rfl
@[simp] theorem Hart.setC_tileHeld (x : Hart) (r : Nat) (w : BitVec 64) : (x.setC r w).tileHeld = x.tileHeld := rfl
@[simp] theorem Hart.setC_halted (x : Hart) (r : Nat) (w : BitVec 64) : (x.setC r w).halted = x.halted := rfl
@[simp] theorem Hart.setC_halt (x : Hart) (r : Nat) (w : BitVec 64) : (x.setC r w).halt = x.halt := rfl
@[simp] theorem Hart.setC_preempt (x : Hart) (r : Nat) (w : BitVec 64) : (x.setC r w).preempt = x.preempt := rfl
@[simp] theorem Hart.setC_counters (x : Hart) (r : Nat) (w : BitVec 64) : (x.setC r w).counters = x.counters := rfl

/-! ### Hart.setA -/

@[simp] theorem Hart.setA_task (x : Hart) (r : Nat) (w : BitVec 64) : (x.setA r w).task = x.task := by unfold Hart.setA; split <;> rfl
@[simp] theorem Hart.setA_s (x : Hart) (r : Nat) (w : BitVec 64) : (x.setA r w).s = x.s := by unfold Hart.setA; split <;> rfl
@[simp] theorem Hart.setA_c (x : Hart) (r : Nat) (w : BitVec 64) : (x.setA r w).c = x.c := by unfold Hart.setA; split <;> rfl
@[simp] theorem Hart.setA_v (x : Hart) (r : Nat) (w : BitVec 64) : (x.setA r w).v = x.v := by unfold Hart.setA; split <;> rfl
@[simp] theorem Hart.setA_t (x : Hart) (r : Nat) (w : BitVec 64) : (x.setA r w).t = x.t := by unfold Hart.setA; split <;> rfl
@[simp] theorem Hart.setA_tset (x : Hart) (r : Nat) (w : BitVec 64) : (x.setA r w).tset = x.tset := by unfold Hart.setA; split <;> rfl
@[simp] theorem Hart.setA_m (x : Hart) (r : Nat) (w : BitVec 64) : (x.setA r w).m = x.m := by unfold Hart.setA; split <;> rfl
@[simp] theorem Hart.setA_ac (x : Hart) (r : Nat) (w : BitVec 64) : (x.setA r w).ac = x.ac := by unfold Hart.setA; split <;> rfl
@[simp] theorem Hart.setA_q (x : Hart) (r : Nat) (w : BitVec 64) : (x.setA r w).q = x.q := by unfold Hart.setA; split <;> rfl
@[simp] theorem Hart.setA_bq (x : Hart) (r : Nat) (w : BitVec 64) : (x.setA r w).bq = x.bq := by unfold Hart.setA; split <;> rfl
@[simp] theorem Hart.setA_vl (x : Hart) (r : Nat) (w : BitVec 64) : (x.setA r w).vl = x.vl := by unfold Hart.setA; split <;> rfl
@[simp] theorem Hart.setA_vstart (x : Hart) (r : Nat) (w : BitVec 64) : (x.setA r w).vstart = x.vstart := by unfold Hart.setA; split <;> rfl
@[simp] theorem Hart.setA_tce (x : Hart) (r : Nat) (w : BitVec 64) : (x.setA r w).tce = x.tce := by unfold Hart.setA; split <;> rfl
@[simp] theorem Hart.setA_ftz (x : Hart) (r : Nat) (w : BitVec 64) : (x.setA r w).ftz = x.ftz := by unfold Hart.setA; split <;> rfl
@[simp] theorem Hart.setA_vstat (x : Hart) (r : Nat) (w : BitVec 64) : (x.setA r w).vstat = x.vstat := by unfold Hart.setA; split <;> rfl
@[simp] theorem Hart.setA_waitlim (x : Hart) (r : Nat) (w : BitVec 64) : (x.setA r w).waitlim = x.waitlim := by unfold Hart.setA; split <;> rfl
@[simp] theorem Hart.setA_featm (x : Hart) (r : Nat) (w : BitVec 64) : (x.setA r w).featm = x.featm := by unfold Hart.setA; split <;> rfl
@[simp] theorem Hart.setA_sa (x : Hart) (r : Nat) (w : BitVec 64) : (x.setA r w).sa = x.sa := by unfold Hart.setA; split <;> rfl
@[simp] theorem Hart.setA_sx (x : Hart) (r : Nat) (w : BitVec 64) : (x.setA r w).sx = x.sx := by unfold Hart.setA; split <;> rfl
@[simp] theorem Hart.setA_sc (x : Hart) (r : Nat) (w : BitVec 64) : (x.setA r w).sc = x.sc := by unfold Hart.setA; split <;> rfl
@[simp] theorem Hart.setA_met (x : Hart) (r : Nat) (w : BitVec 64) : (x.setA r w).met = x.met := by unfold Hart.setA; split <;> rfl
@[simp] theorem Hart.setA_lastRdv (x : Hart) (r : Nat) (w : BitVec 64) : (x.setA r w).lastRdv = x.lastRdv := by unfold Hart.setA; split <;> rfl
@[simp] theorem Hart.setA_popped (x : Hart) (r : Nat) (w : BitVec 64) : (x.setA r w).popped = x.popped := by unfold Hart.setA; split <;> rfl
@[simp] theorem Hart.setA_popBad (x : Hart) (r : Nat) (w : BitVec 64) : (x.setA r w).popBad = x.popBad := by unfold Hart.setA; split <;> rfl
@[simp] theorem Hart.setA_done (x : Hart) (r : Nat) (w : BitVec 64) : (x.setA r w).done = x.done := by unfold Hart.setA; split <;> rfl
@[simp] theorem Hart.setA_pend (x : Hart) (r : Nat) (w : BitVec 64) : (x.setA r w).pend = x.pend := by unfold Hart.setA; split <;> rfl
@[simp] theorem Hart.setA_again (x : Hart) (r : Nat) (w : BitVec 64) : (x.setA r w).again = x.again := by unfold Hart.setA; split <;> rfl
@[simp] theorem Hart.setA_ruling (x : Hart) (r : Nat) (w : BitVec 64) : (x.setA r w).ruling = x.ruling := by unfold Hart.setA; split <;> rfl
@[simp] theorem Hart.setA_binds (x : Hart) (r : Nat) (w : BitVec 64) : (x.setA r w).binds = x.binds := by unfold Hart.setA; split <;> rfl
@[simp] theorem Hart.setA_window (x : Hart) (r : Nat) (w : BitVec 64) : (x.setA r w).window = x.window := by unfold Hart.setA; split <;> rfl
@[simp] theorem Hart.setA_keys (x : Hart) (r : Nat) (w : BitVec 64) : (x.setA r w).keys = x.keys := by unfold Hart.setA; split <;> rfl
@[simp] theorem Hart.setA_quire (x : Hart) (r : Nat) (w : BitVec 64) : (x.setA r w).quire = x.quire := by unfold Hart.setA; split <;> rfl
@[simp] theorem Hart.setA_joining (x : Hart) (r : Nat) (w : BitVec 64) : (x.setA r w).joining = x.joining := by unfold Hart.setA; split <;> rfl
@[simp] theorem Hart.setA_flagWait (x : Hart) (r : Nat) (w : BitVec 64) : (x.setA r w).flagWait = x.flagWait := by unfold Hart.setA; split <;> rfl
@[simp] theorem Hart.setA_tile (x : Hart) (r : Nat) (w : BitVec 64) : (x.setA r w).tile = x.tile := by unfold Hart.setA; split <;> rfl
@[simp] theorem Hart.setA_tileHeld (x : Hart) (r : Nat) (w : BitVec 64) : (x.setA r w).tileHeld = x.tileHeld := by unfold Hart.setA; split <;> rfl
@[simp] theorem Hart.setA_halted (x : Hart) (r : Nat) (w : BitVec 64) : (x.setA r w).halted = x.halted := by unfold Hart.setA; split <;> rfl
@[simp] theorem Hart.setA_halt (x : Hart) (r : Nat) (w : BitVec 64) : (x.setA r w).halt = x.halt := by unfold Hart.setA; split <;> rfl
@[simp] theorem Hart.setA_preempt (x : Hart) (r : Nat) (w : BitVec 64) : (x.setA r w).preempt = x.preempt := by unfold Hart.setA; split <;> rfl
@[simp] theorem Hart.setA_counters (x : Hart) (r : Nat) (w : BitVec 64) : (x.setA r w).counters = x.counters := by unfold Hart.setA; split <;> rfl

/-! ### Hart.setS -/

@[simp] theorem Hart.setS_task (x : Hart) (r : Nat) (w : BitVec 64) : (x.setS r w).task = x.task := by unfold Hart.setS; split <;> rfl
@[simp] theorem Hart.setS_a (x : Hart) (r : Nat) (w : BitVec 64) : (x.setS r w).a = x.a := by unfold Hart.setS; split <;> rfl
@[simp] theorem Hart.setS_c (x : Hart) (r : Nat) (w : BitVec 64) : (x.setS r w).c = x.c := by unfold Hart.setS; split <;> rfl
@[simp] theorem Hart.setS_v (x : Hart) (r : Nat) (w : BitVec 64) : (x.setS r w).v = x.v := by unfold Hart.setS; split <;> rfl
@[simp] theorem Hart.setS_t (x : Hart) (r : Nat) (w : BitVec 64) : (x.setS r w).t = x.t := by unfold Hart.setS; split <;> rfl
@[simp] theorem Hart.setS_tset (x : Hart) (r : Nat) (w : BitVec 64) : (x.setS r w).tset = x.tset := by unfold Hart.setS; split <;> rfl
@[simp] theorem Hart.setS_m (x : Hart) (r : Nat) (w : BitVec 64) : (x.setS r w).m = x.m := by unfold Hart.setS; split <;> rfl
@[simp] theorem Hart.setS_ac (x : Hart) (r : Nat) (w : BitVec 64) : (x.setS r w).ac = x.ac := by unfold Hart.setS; split <;> rfl
@[simp] theorem Hart.setS_q (x : Hart) (r : Nat) (w : BitVec 64) : (x.setS r w).q = x.q := by unfold Hart.setS; split <;> rfl
@[simp] theorem Hart.setS_bq (x : Hart) (r : Nat) (w : BitVec 64) : (x.setS r w).bq = x.bq := by unfold Hart.setS; split <;> rfl
@[simp] theorem Hart.setS_vl (x : Hart) (r : Nat) (w : BitVec 64) : (x.setS r w).vl = x.vl := by unfold Hart.setS; split <;> rfl
@[simp] theorem Hart.setS_vstart (x : Hart) (r : Nat) (w : BitVec 64) : (x.setS r w).vstart = x.vstart := by unfold Hart.setS; split <;> rfl
@[simp] theorem Hart.setS_tce (x : Hart) (r : Nat) (w : BitVec 64) : (x.setS r w).tce = x.tce := by unfold Hart.setS; split <;> rfl
@[simp] theorem Hart.setS_ftz (x : Hart) (r : Nat) (w : BitVec 64) : (x.setS r w).ftz = x.ftz := by unfold Hart.setS; split <;> rfl
@[simp] theorem Hart.setS_vstat (x : Hart) (r : Nat) (w : BitVec 64) : (x.setS r w).vstat = x.vstat := by unfold Hart.setS; split <;> rfl
@[simp] theorem Hart.setS_waitlim (x : Hart) (r : Nat) (w : BitVec 64) : (x.setS r w).waitlim = x.waitlim := by unfold Hart.setS; split <;> rfl
@[simp] theorem Hart.setS_featm (x : Hart) (r : Nat) (w : BitVec 64) : (x.setS r w).featm = x.featm := by unfold Hart.setS; split <;> rfl
@[simp] theorem Hart.setS_sa (x : Hart) (r : Nat) (w : BitVec 64) : (x.setS r w).sa = x.sa := by unfold Hart.setS; split <;> rfl
@[simp] theorem Hart.setS_sx (x : Hart) (r : Nat) (w : BitVec 64) : (x.setS r w).sx = x.sx := by unfold Hart.setS; split <;> rfl
@[simp] theorem Hart.setS_sc (x : Hart) (r : Nat) (w : BitVec 64) : (x.setS r w).sc = x.sc := by unfold Hart.setS; split <;> rfl
@[simp] theorem Hart.setS_met (x : Hart) (r : Nat) (w : BitVec 64) : (x.setS r w).met = x.met := by unfold Hart.setS; split <;> rfl
@[simp] theorem Hart.setS_lastRdv (x : Hart) (r : Nat) (w : BitVec 64) : (x.setS r w).lastRdv = x.lastRdv := by unfold Hart.setS; split <;> rfl
@[simp] theorem Hart.setS_popped (x : Hart) (r : Nat) (w : BitVec 64) : (x.setS r w).popped = x.popped := by unfold Hart.setS; split <;> rfl
@[simp] theorem Hart.setS_popBad (x : Hart) (r : Nat) (w : BitVec 64) : (x.setS r w).popBad = x.popBad := by unfold Hart.setS; split <;> rfl
@[simp] theorem Hart.setS_done (x : Hart) (r : Nat) (w : BitVec 64) : (x.setS r w).done = x.done := by unfold Hart.setS; split <;> rfl
@[simp] theorem Hart.setS_pend (x : Hart) (r : Nat) (w : BitVec 64) : (x.setS r w).pend = x.pend := by unfold Hart.setS; split <;> rfl
@[simp] theorem Hart.setS_again (x : Hart) (r : Nat) (w : BitVec 64) : (x.setS r w).again = x.again := by unfold Hart.setS; split <;> rfl
@[simp] theorem Hart.setS_ruling (x : Hart) (r : Nat) (w : BitVec 64) : (x.setS r w).ruling = x.ruling := by unfold Hart.setS; split <;> rfl
@[simp] theorem Hart.setS_binds (x : Hart) (r : Nat) (w : BitVec 64) : (x.setS r w).binds = x.binds := by unfold Hart.setS; split <;> rfl
@[simp] theorem Hart.setS_window (x : Hart) (r : Nat) (w : BitVec 64) : (x.setS r w).window = x.window := by unfold Hart.setS; split <;> rfl
@[simp] theorem Hart.setS_keys (x : Hart) (r : Nat) (w : BitVec 64) : (x.setS r w).keys = x.keys := by unfold Hart.setS; split <;> rfl
@[simp] theorem Hart.setS_quire (x : Hart) (r : Nat) (w : BitVec 64) : (x.setS r w).quire = x.quire := by unfold Hart.setS; split <;> rfl
@[simp] theorem Hart.setS_joining (x : Hart) (r : Nat) (w : BitVec 64) : (x.setS r w).joining = x.joining := by unfold Hart.setS; split <;> rfl
@[simp] theorem Hart.setS_flagWait (x : Hart) (r : Nat) (w : BitVec 64) : (x.setS r w).flagWait = x.flagWait := by unfold Hart.setS; split <;> rfl
@[simp] theorem Hart.setS_tile (x : Hart) (r : Nat) (w : BitVec 64) : (x.setS r w).tile = x.tile := by unfold Hart.setS; split <;> rfl
@[simp] theorem Hart.setS_tileHeld (x : Hart) (r : Nat) (w : BitVec 64) : (x.setS r w).tileHeld = x.tileHeld := by unfold Hart.setS; split <;> rfl
@[simp] theorem Hart.setS_halted (x : Hart) (r : Nat) (w : BitVec 64) : (x.setS r w).halted = x.halted := by unfold Hart.setS; split <;> rfl
@[simp] theorem Hart.setS_halt (x : Hart) (r : Nat) (w : BitVec 64) : (x.setS r w).halt = x.halt := by unfold Hart.setS; split <;> rfl
@[simp] theorem Hart.setS_preempt (x : Hart) (r : Nat) (w : BitVec 64) : (x.setS r w).preempt = x.preempt := by unfold Hart.setS; split <;> rfl
@[simp] theorem Hart.setS_counters (x : Hart) (r : Nat) (w : BitVec 64) : (x.setS r w).counters = x.counters := by unfold Hart.setS; split <;> rfl

/-! ### Hart.setM -/

@[simp] theorem Hart.setM_task (x : Hart) (r : Nat) (w : Wide) : (x.setM r w).task = x.task := by unfold Hart.setM; split <;> rfl
@[simp] theorem Hart.setM_a (x : Hart) (r : Nat) (w : Wide) : (x.setM r w).a = x.a := by unfold Hart.setM; split <;> rfl
@[simp] theorem Hart.setM_s (x : Hart) (r : Nat) (w : Wide) : (x.setM r w).s = x.s := by unfold Hart.setM; split <;> rfl
@[simp] theorem Hart.setM_c (x : Hart) (r : Nat) (w : Wide) : (x.setM r w).c = x.c := by unfold Hart.setM; split <;> rfl
@[simp] theorem Hart.setM_v (x : Hart) (r : Nat) (w : Wide) : (x.setM r w).v = x.v := by unfold Hart.setM; split <;> rfl
@[simp] theorem Hart.setM_t (x : Hart) (r : Nat) (w : Wide) : (x.setM r w).t = x.t := by unfold Hart.setM; split <;> rfl
@[simp] theorem Hart.setM_tset (x : Hart) (r : Nat) (w : Wide) : (x.setM r w).tset = x.tset := by unfold Hart.setM; split <;> rfl
@[simp] theorem Hart.setM_ac (x : Hart) (r : Nat) (w : Wide) : (x.setM r w).ac = x.ac := by unfold Hart.setM; split <;> rfl
@[simp] theorem Hart.setM_q (x : Hart) (r : Nat) (w : Wide) : (x.setM r w).q = x.q := by unfold Hart.setM; split <;> rfl
@[simp] theorem Hart.setM_bq (x : Hart) (r : Nat) (w : Wide) : (x.setM r w).bq = x.bq := by unfold Hart.setM; split <;> rfl
@[simp] theorem Hart.setM_vl (x : Hart) (r : Nat) (w : Wide) : (x.setM r w).vl = x.vl := by unfold Hart.setM; split <;> rfl
@[simp] theorem Hart.setM_vstart (x : Hart) (r : Nat) (w : Wide) : (x.setM r w).vstart = x.vstart := by unfold Hart.setM; split <;> rfl
@[simp] theorem Hart.setM_tce (x : Hart) (r : Nat) (w : Wide) : (x.setM r w).tce = x.tce := by unfold Hart.setM; split <;> rfl
@[simp] theorem Hart.setM_ftz (x : Hart) (r : Nat) (w : Wide) : (x.setM r w).ftz = x.ftz := by unfold Hart.setM; split <;> rfl
@[simp] theorem Hart.setM_vstat (x : Hart) (r : Nat) (w : Wide) : (x.setM r w).vstat = x.vstat := by unfold Hart.setM; split <;> rfl
@[simp] theorem Hart.setM_waitlim (x : Hart) (r : Nat) (w : Wide) : (x.setM r w).waitlim = x.waitlim := by unfold Hart.setM; split <;> rfl
@[simp] theorem Hart.setM_featm (x : Hart) (r : Nat) (w : Wide) : (x.setM r w).featm = x.featm := by unfold Hart.setM; split <;> rfl
@[simp] theorem Hart.setM_sa (x : Hart) (r : Nat) (w : Wide) : (x.setM r w).sa = x.sa := by unfold Hart.setM; split <;> rfl
@[simp] theorem Hart.setM_sx (x : Hart) (r : Nat) (w : Wide) : (x.setM r w).sx = x.sx := by unfold Hart.setM; split <;> rfl
@[simp] theorem Hart.setM_sc (x : Hart) (r : Nat) (w : Wide) : (x.setM r w).sc = x.sc := by unfold Hart.setM; split <;> rfl
@[simp] theorem Hart.setM_met (x : Hart) (r : Nat) (w : Wide) : (x.setM r w).met = x.met := by unfold Hart.setM; split <;> rfl
@[simp] theorem Hart.setM_lastRdv (x : Hart) (r : Nat) (w : Wide) : (x.setM r w).lastRdv = x.lastRdv := by unfold Hart.setM; split <;> rfl
@[simp] theorem Hart.setM_popped (x : Hart) (r : Nat) (w : Wide) : (x.setM r w).popped = x.popped := by unfold Hart.setM; split <;> rfl
@[simp] theorem Hart.setM_popBad (x : Hart) (r : Nat) (w : Wide) : (x.setM r w).popBad = x.popBad := by unfold Hart.setM; split <;> rfl
@[simp] theorem Hart.setM_done (x : Hart) (r : Nat) (w : Wide) : (x.setM r w).done = x.done := by unfold Hart.setM; split <;> rfl
@[simp] theorem Hart.setM_pend (x : Hart) (r : Nat) (w : Wide) : (x.setM r w).pend = x.pend := by unfold Hart.setM; split <;> rfl
@[simp] theorem Hart.setM_again (x : Hart) (r : Nat) (w : Wide) : (x.setM r w).again = x.again := by unfold Hart.setM; split <;> rfl
@[simp] theorem Hart.setM_ruling (x : Hart) (r : Nat) (w : Wide) : (x.setM r w).ruling = x.ruling := by unfold Hart.setM; split <;> rfl
@[simp] theorem Hart.setM_binds (x : Hart) (r : Nat) (w : Wide) : (x.setM r w).binds = x.binds := by unfold Hart.setM; split <;> rfl
@[simp] theorem Hart.setM_window (x : Hart) (r : Nat) (w : Wide) : (x.setM r w).window = x.window := by unfold Hart.setM; split <;> rfl
@[simp] theorem Hart.setM_keys (x : Hart) (r : Nat) (w : Wide) : (x.setM r w).keys = x.keys := by unfold Hart.setM; split <;> rfl
@[simp] theorem Hart.setM_quire (x : Hart) (r : Nat) (w : Wide) : (x.setM r w).quire = x.quire := by unfold Hart.setM; split <;> rfl
@[simp] theorem Hart.setM_joining (x : Hart) (r : Nat) (w : Wide) : (x.setM r w).joining = x.joining := by unfold Hart.setM; split <;> rfl
@[simp] theorem Hart.setM_flagWait (x : Hart) (r : Nat) (w : Wide) : (x.setM r w).flagWait = x.flagWait := by unfold Hart.setM; split <;> rfl
@[simp] theorem Hart.setM_tile (x : Hart) (r : Nat) (w : Wide) : (x.setM r w).tile = x.tile := by unfold Hart.setM; split <;> rfl
@[simp] theorem Hart.setM_tileHeld (x : Hart) (r : Nat) (w : Wide) : (x.setM r w).tileHeld = x.tileHeld := by unfold Hart.setM; split <;> rfl
@[simp] theorem Hart.setM_halted (x : Hart) (r : Nat) (w : Wide) : (x.setM r w).halted = x.halted := by unfold Hart.setM; split <;> rfl
@[simp] theorem Hart.setM_halt (x : Hart) (r : Nat) (w : Wide) : (x.setM r w).halt = x.halt := by unfold Hart.setM; split <;> rfl
@[simp] theorem Hart.setM_preempt (x : Hart) (r : Nat) (w : Wide) : (x.setM r w).preempt = x.preempt := by unfold Hart.setM; split <;> rfl
@[simp] theorem Hart.setM_counters (x : Hart) (r : Nat) (w : Wide) : (x.setM r w).counters = x.counters := by unfold Hart.setM; split <;> rfl

end Sys2Proof.Machine
end

