-- ==== Sys2Proof/Laws/Frames.lean ====
section
/-! SUPPORT. Reading back harts, cores, dies and registers; what completing an instruction, waiting and trapping do; the laws of
the outcome functions. -/

namespace Sys2Proof.Machine

/-! ### Keys -/

theorem hartKey_inj (g h : HartId) (e : hartKey g = hartKey h) : g = h := by
  obtain ⟨d, c, k⟩ := g
  obtain ⟨d', c', k'⟩ := h
  simp only [hartKey] at e
  have := c.isLt; have := c'.isLt; have := k.isLt; have := k'.isLt
  have h3 : k.val = k'.val := by omega
  have h2 : c.val = c'.val := by omega
  have h1 : d.val = d'.val := by omega
  simp [Fin.ext_iff, h1, h2, h3]

theorem coreKey_inj (g h : CoreId) (e : coreKey g = coreKey h) : g = h := by
  obtain ⟨d, c⟩ := g
  obtain ⟨d', c'⟩ := h
  simp only [coreKey] at e
  have := c.isLt; have := c'.isLt
  have h2 : c.val = c'.val := by omega
  have h1 : d.val = d'.val := by omega
  simp [Fin.ext_iff, h1, h2]

/-! ### Reading back -/

@[simp] theorem hart_setHart (s : State) (h : HartId) (x : Hart) : (s.setHart h x).hart h = x := by
  simp [State.hart, State.setHart]

theorem hart_setHart_ne (s : State) (h g : HartId) (x : Hart) (e : g ≠ h) : (s.setHart h x).hart g = s.hart g := by
  simp only [State.hart, State.setHart]
  exact tget_tput_other _ _ _ _ (fun k => e (hartKey_inj _ _ k)) _

@[simp] theorem hart_setCore (s : State) (c : CoreId) (x : Core) (h : HartId) : (s.setCore c x).hart h = s.hart h := rfl
@[simp] theorem hart_setDie (s : State) (d : Fin 4) (x : Die) (h : HartId) : (s.setDie d x).hart h = s.hart h := rfl
@[simp] theorem core_setHart (s : State) (h : HartId) (x : Hart) (c : CoreId) : (s.setHart h x).core c = s.core c := rfl
@[simp] theorem core_setDie (s : State) (d : Fin 4) (x : Die) (c : CoreId) : (s.setDie d x).core c = s.core c := rfl
@[simp] theorem die_setHart (s : State) (h : HartId) (x : Hart) (d : Fin 4) : (s.setHart h x).die d = s.die d := rfl
@[simp] theorem die_setCore (s : State) (c : CoreId) (x : Core) (d : Fin 4) : (s.setCore c x).die d = s.die d := rfl

@[simp] theorem core_setCore (s : State) (c : CoreId) (x : Core) : (s.setCore c x).core c = x := by
  simp [State.core, State.setCore]

theorem core_setCore_ne (s : State) (c e : CoreId) (x : Core) (h : e ≠ c) : (s.setCore c x).core e = s.core e := by
  simp only [State.core, State.setCore]
  exact tget_tput_other _ _ _ _ (fun k => h (coreKey_inj _ _ k)) _

@[simp] theorem die_setDie (s : State) (d : Fin 4) (x : Die) : (s.setDie d x).die d = x := by
  simp [State.die, State.setDie]

theorem die_setDie_ne (s : State) (d e : Fin 4) (x : Die) (h : e ≠ d) : (s.setDie d x).die e = s.die e := by
  simp only [State.die, State.setDie]
  exact tget_tput_other _ _ _ _ (fun k => h (Fin.ext k)) _

@[simp] theorem cur_setCur (s : State) (x : Hart) : (s.setCur x).cur = x := by simp [State.cur, State.setCur]
@[simp] theorem setCur_curHart (s : State) (x : Hart) : (s.setCur x).curHart = s.curHart := rfl
@[simp] theorem setCur_curStream (s : State) (x : Hart) : (s.setCur x).curStream = s.curStream := rfl
@[simp] theorem setCur_fallPc (s : State) (x : Hart) : (s.setCur x).fallPc = s.fallPc := rfl
@[simp] theorem setCur_die (s : State) (x : Hart) (d : Fin 4) : (s.setCur x).die d = s.die d := rfl
@[simp] theorem setCur_core (s : State) (x : Hart) (c : CoreId) : (s.setCur x).core c = s.core c := rfl
@[simp] theorem setCur_mem (s : State) (x : Hart) : (s.setCur x).mem = s.mem := rfl
@[simp] theorem setCur_hub (s : State) (x : Hart) : (s.setCur x).hub = s.hub := rfl

theorem setCur_hart_ne (s : State) (x : Hart) (h : HartId) (e : h ≠ s.curHart) : (s.setCur x).hart h = s.hart h :=
  hart_setHart_ne s _ _ x e

@[simp] theorem setCur_setCur (s : State) (x y : Hart) : ((s.setCur x).setCur y).cur = y := by simp

@[simp] theorem st_setSt (x : Hart) (st : Stream) (r : StreamRec) : (x.setSt st r).st st = r := by cases st <;> rfl

/-! ### Registers (R162) -/

/-- A scalar register reads as it was written, but register 0 of the A- and X-streams reads zero. -/
theorem getR_setR_same (x : Hart) (st : Stream) (r : Nat) (w : BitVec 64) :
    (x.setR st r w).getR st r = if r = 0 ∧ st ≠ .c then 0 else w := by
  cases st <;> by_cases h : r = 0 <;> simp [Hart.setR, Hart.getR, Hart.setA, Hart.getA, Hart.setS, Hart.getS, Hart.setC, Hart.getC, h]

theorem getR_setR_other (x : Hart) (st : Stream) (r q : Nat) (w : BitVec 64) (h : q ≠ r) : (x.setR st r w).getR st q = x.getR st q := by
  cases st <;> by_cases hr : r = 0 <;>
    simp [Hart.setR, Hart.getR, Hart.setA, Hart.getA, Hart.setS, Hart.getS, Hart.setC, Hart.getC, hr, tget_tput_other _ _ _ _ h]
  all_goals rw [tget_tput_other _ _ _ _ (by omega)]

@[simp] theorem getV_setV (x : Hart) (r : Nat) (w : VReg) : (x.setV r w).getV r = w := by simp [Hart.getV, Hart.setV]
theorem getV_setV_ne (x : Hart) (r q : Nat) (w : VReg) (h : q ≠ r) : (x.setV r w).getV q = x.getV q := by
  simp [Hart.getV, Hart.setV, tget_tput_other _ _ _ _ h]
@[simp] theorem getT_setT (x : Hart) (r : Nat) (w : Wide) : (x.setT r w).getT r = w := by simp [Hart.getT, Hart.setT]
@[simp] theorem getAc_setAc (x : Hart) (r : Nat) (w : AccRow) : (x.setAc r w).getAc r = w := by simp [Hart.getAc, Hart.setAc]
theorem getAc_setAc_ne (x : Hart) (r q : Nat) (w : AccRow) (h : q ≠ r) : (x.setAc r w).getAc q = x.getAc q := by
  simp [Hart.getAc, Hart.setAc, tget_tput_other _ _ _ _ h]
@[simp] theorem queue_setQueue (x : Hart) (q : Nat) (l : List (BitVec 64)) : (x.setQueue q l).queue q = l := by
  simp [Hart.queue, Hart.setQueue]
theorem queue_setQueue_ne (x : Hart) (q r : Nat) (l : List (BitVec 64)) (h : r ≠ q) : (x.setQueue q l).queue r = x.queue r := by
  simp [Hart.queue, Hart.setQueue, tget_tput_other _ _ _ _ h]
@[simp] theorem bind_setBind (x : Hart) (v : Nat) (b : Option Binding) : (x.setBind v b).bind v = b := by simp [Hart.bind, Hart.setBind]
theorem bind_setBind_ne (x : Hart) (v u : Nat) (b : Option Binding) (h : u ≠ v) : (x.setBind v b).bind u = x.bind u := by
  simp [Hart.bind, Hart.setBind, tget_tput_other _ _ _ _ h]

/-- M0 reads all-ones whatever is written; every other mask reads as written. -/
theorem getM_setM (x : Hart) (r : Nat) (w : Wide) : (x.setM r w).getM r = if r = 0 then BitVec.allOnes 4096 else w := by
  by_cases h : r = 0 <;> simp [Hart.getM, Hart.setM, h]

/-! ### Counting -/

@[simp] theorem countDie_hart (s : State) (d : Fin 4) (k : BitVec 8) (n : Nat) (h : HartId) : (s.countDie d k n).hart h = s.hart h := by
  simp only [State.countDie]; split <;> rfl

theorem countDie_eq (s : State) (d : Fin 4) (k : BitVec 8) (n : Nat) : ∃ ds, s.countDie d k n = { s with dies := ds } := by
  simp only [State.countDie]; split
  · exact ⟨s.dies, rfl⟩
  · exact ⟨_, rfl⟩

theorem countDie_die (s : State) (d : Fin 4) (k : BitVec 8) (n : Nat) (e : Fin 4) :
    ((s.countDie d k n).die e).uncounted = (s.die e).uncounted := by
  simp only [State.countDie]
  split
  · rfl
  · by_cases h : e = d
    · subst h; simp [Die.uncounted]
    · rw [die_setDie_ne _ _ _ _ h]

/-- Counting changes event counters and nothing else. -/
theorem countHart_only (s : State) (h : HartId) (k : BitVec 8) (n : Nat) :
    (∃ hs ds, s.countHart h k n = { s with harts := hs, dies := ds }) ∧
    (∀ d, ((s.countHart h k n).die d).uncounted = (s.die d).uncounted) ∧
    ((s.countHart h k n).hart h).uncounted = (s.hart h).uncounted ∧ ∀ g, g ≠ h → (s.countHart h k n).hart g = s.hart g := by
  simp only [State.countHart]
  split
  · obtain ⟨ds, e⟩ := countDie_eq s h.die k n
    exact ⟨⟨s.harts, ds, e⟩, fun d => countDie_die s _ _ _ d, by simp, fun g _ => by simp⟩
  · refine ⟨?_, fun d => ?_, ?_, fun g hg => ?_⟩
    · obtain ⟨ds, e⟩ := countDie_eq (s.setHart h { s.hart h with counters := bump k n (s.hart h).counters }) h.die k n
      exact ⟨_, ds, e⟩
    · rw [countDie_die]; simp
    · simp [Hart.uncounted]
    · simp [hart_setHart_ne _ _ _ _ hg]

@[simp] theorem countHart_fallPc (s : State) (h : HartId) (k : BitVec 8) (n : Nat) : (s.countHart h k n).fallPc = s.fallPc := by
  obtain ⟨⟨_, _, e⟩, _⟩ := countHart_only s h k n; rw [e]
@[simp] theorem countHart_curHart (s : State) (h : HartId) (k : BitVec 8) (n : Nat) : (s.countHart h k n).curHart = s.curHart := by
  obtain ⟨⟨_, _, e⟩, _⟩ := countHart_only s h k n; rw [e]
@[simp] theorem countHart_curStream (s : State) (h : HartId) (k : BitVec 8) (n : Nat) : (s.countHart h k n).curStream = s.curStream := by
  obtain ⟨⟨_, _, e⟩, _⟩ := countHart_only s h k n; rw [e]

/-! ### Becoming -/

theorem Becomes.refl (s : State) : Becomes s s s.cur := ⟨⟨⟨_, _, _, rfl⟩, fun _ => rfl⟩, rfl, fun _ _ => rfl⟩

theorem Becomes.curHart {s t : State} {x : Hart} (h : Becomes s t x) : t.curHart = s.curHart := by
  obtain ⟨⟨⟨_, _, _, e⟩, _⟩, _⟩ := h; rw [e]
theorem Becomes.curStream {s t : State} {x : Hart} (h : Becomes s t x) : t.curStream = s.curStream := by
  obtain ⟨⟨⟨_, _, _, e⟩, _⟩, _⟩ := h; rw [e]

theorem Becomes.setCur {s t : State} {x : Hart} (h : Becomes s t x) (y : Hart) : Becomes s (t.setCur y) y := by
  have hc := h.curHart
  obtain ⟨⟨⟨hs, ds, pc, h1⟩, h2⟩, h3, h4⟩ := h
  refine ⟨⟨⟨tput hs (hartKey s.curHart) y, ds, pc, ?_⟩, fun d => by simpa using h2 d⟩, by simp, fun g hg => ?_⟩
  · subst h1; rfl
  · rw [setCur_hart_ne _ _ _ (by rw [hc]; exact hg)]; exact h4 g hg

theorem Becomes.count {s t : State} {x : Hart} (h : Becomes s t x) (k : BitVec 8) (n : Nat) : Becomes s (t.countHart t.curHart k n) x := by
  have hc := h.curHart
  obtain ⟨⟨⟨hs, ds, pc, h1⟩, h2⟩, h3, h4⟩ := h
  obtain ⟨⟨hs', ds', c1⟩, c2, c3, c4⟩ := countHart_only t t.curHart k n
  refine ⟨⟨⟨hs', ds', pc, ?_⟩, fun d => (c2 d).trans (h2 d)⟩, ?_, fun g hg => ?_⟩
  · rw [c1, h1]
  · have : (t.countHart t.curHart k n).cur = (t.countHart t.curHart k n).hart t.curHart := by simp [State.cur]
    rw [this, c3]; exact h3
  · rw [c4 g (by rw [hc]; exact hg)]; exact h4 g hg

/-- A change of the fall-through PC touches no hart. -/
theorem Becomes.goTo {s t : State} {x : Hart} (h : Becomes s t x) (pc : BitVec 64) : Becomes s { t with fallPc := pc } x := by
  obtain ⟨⟨⟨hs, ds, _, h1⟩, h2⟩, h3, h4⟩ := h
  exact ⟨⟨⟨hs, ds, pc, by rw [h1]⟩, h2⟩, h3, h4⟩

/-- Completing an instruction: the hart in execution goes past it, and nothing else changes but event counters. -/
theorem complete_becomes {s t : State} (h : Becomes s t t.cur) : Becomes s t.complete (t.cur.past t.curStream t.fallPc) := by
  have key : t.complete = (t.setCur (t.cur.past t.curStream t.fallPc)).countHart t.curHart 0x01 1 := by
    simp only [State.complete]
    congr 2
    cases t.curStream <;> simp [Hart.past, Hart.setSt, Hart.st]
  rw [key]
  exact (h.setCur _).count 0x01 1

theorem uncounted_eq {x y : Hart} (h : x.uncounted = y.uncounted) : x = { y with counters := x.counters } := by
  cases x; cases y; simp only [Hart.uncounted, Hart.mk.injEq] at h ⊢; simp [h]

/-- A hart that becomes x past its instruction has completed it. -/
theorem completes_of {s t : State} {x : Hart} {pc : BitVec 64} (h : Becomes s t (x.past s.curStream pc)) (hp : t.fallPc = pc)
    (hh : x.halted = s.cur.halted) : Completes s t := by
  have e := uncounted_eq h.2.1
  have hs := h.curStream
  refine ⟨h.curHart, hs, ?_, ?_, ?_⟩
  · rw [State.curSt, hs, e]; cases s.curStream <;> simp [Hart.past, Hart.st, hp]
  · rw [State.curSt, hs, e]; cases s.curStream <;> simp [Hart.past, Hart.st]
  · rw [e]; cases s.curStream <;> simp [Hart.past, hh]

/-! ### Outcomes -/

theorem settle_ok {m : Act Unit} {s t : State} (h : m s = (.ok (), t)) : settle m s = .next t := by simp [settle, h]

theorem bind_ok {α β : Type} {m : Act α} {f : α → Act β} {s t : State} {a : α} (h : m s = (.ok a, t)) : (m >>= f) s = f a t := by
  show (ExceptT.bind m f) s = f a t
  simp only [ExceptT.bind, ExceptT.mk]
  show (StateT.bind m _) s = _
  simp only [StateT.bind]
  show (let p := m s; _) = _
  rw [h]
  rfl

theorem bind_err {α β : Type} {m : Act α} {f : α → Act β} {s t : State} {e : Stop} (h : m s = (.error e, t)) :
    (m >>= f) s = (.error e, t) := by
  show (ExceptT.bind m f) s = _
  simp only [ExceptT.bind, ExceptT.mk]
  show (StateT.bind m _) s = _
  simp only [StateT.bind]
  show (let p := m s; _) = _
  rw [h]
  rfl

@[simp] theorem modify_run (f : State → State) (s : State) : (modify f : Act Unit) s = (.ok (), f s) := rfl
@[simp] theorem get_run (s : State) : (get : Act State) s = (.ok s, s) := rfl
@[simp] theorem set_run (s t : State) : (set t : Act Unit) s = (.ok (), t) := rfl
@[simp] theorem pure_run {α : Type} (a : α) (s : State) : (pure a : Act α) s = (.ok a, s) := rfl
@[simp] theorem throw_run {α : Type} (e : Stop) (s : State) : (throw e : Act α) s = (.error e, s) := rfl
@[simp] theorem getCur_run (s : State) : getCur s = (.ok s.cur, s) := rfl
@[simp] theorem modCur_run (f : Hart → Hart) (s : State) : modCur f s = (.ok (), s.setCur (f s.cur)) := rfl
@[simp] theorem reg_run (r : Fin 32) (s : State) : reg r s = (.ok (s.getR r), s) := rfl
@[simp] theorem setReg_run (r : Fin 32) (w : BitVec 64) (s : State) : setReg r w s = (.ok (), s.setR r w) := rfl

/-- A translation that the die's TLB and the hub hold leaves the state. -/
theorem translateCur_held {s : State} {a : BitVec 64} {k : AccessKind} (c : Cached) (e : Nat × BitVec 256) (g : AstEntry) (h1 : canonical a = true) (h2 : s.fresh = false)
    (h3 : s.cachedFor s.curHart.die s.cur.asid a k = some c) (h4 : permits c.leaf k = true) (h5 : entTier c.leaf ≠ 2)
    (h6 : inHub (paOf c.leaf c.level a) = false) (h7 : s.inHbm (paOf c.leaf c.level a) = true) (h8 : s.hub.astEn = true)
    (h9 : (s.hub.asts.find? fun p => p.1 == s.cur.asid.toNat) = some e) (h10 : astOf e.2.toNat = some g) (h11 : g.keys.getLsbD (entKey c.leaf) = true)
    (h12 : (tget {} s.hub.keys (entKey c.leaf) : KeySlot).loaded = true) :
    Steady (translateCur a k) s ⟨paOf c.leaf c.level a, c.leaf, (tget {} s.hub.keys (entKey c.leaf) : KeySlot).key, c.level⟩ := by
  have q1 : checkLeaf c.leaf a k s = (.ok (), s) := by
    unfold checkLeaf; rw [if_neg (by simp [h4]), if_neg (by simpa using h5)]; rfl
  have q2 : translateLeaf s.curHart.die s.cur.asid a k true s = (.ok (c.leaf, c.level), s) := by
    unfold translateLeaf
    rw [bind_ok (get_run s)]
    simp only [h2, h3, Bool.false_eq_true, if_false]
    exact bind_ok q1
  have q3 : placePa c.leaf c.level a s = (.ok (paOf c.leaf c.level a), s) := by
    unfold placePa
    rw [bind_ok (get_run s)]
    simp only [h6, h7]; rfl
  have q4 : astEntry s.cur.asid a s = (.ok (some g), s) := by
    unfold astEntry
    rw [bind_ok (get_run s)]
    simp only [h8, h2, h9, h10, Bool.false_eq_true, if_false, if_true]; rfl
  have q5 : keyFor s.cur.asid c.leaf a s = (.ok (tget {} s.hub.keys (entKey c.leaf) : KeySlot).key, s) := by
    unfold keyFor
    rw [bind_ok q4]
    simp only [h11, Bool.not_true, Bool.false_eq_true, if_false]
    rw [bind_ok (get_run s)]
    simp only [h12, Bool.not_true, Bool.false_eq_true, if_false]; rfl
  unfold Steady translateCur
  rw [bind_ok (get_run s)]
  simp only [h1, Bool.not_true, Bool.false_eq_true, if_false]
  unfold Machine.translate
  rw [bind_ok q2]
  exact (bind_ok q3).trans ((bind_ok q5).trans rfl)

theorem waitFor_run (c : Bool) (s : State) (h : c = true) : waitFor c s = (.ok (), s) := by subst h; rfl
theorem trapIf_run (c : Bool) (k : BitVec 16) (s : State) (h : c = false) : trapIf c k s = (.ok (), s) := by subst h; rfl

/-- An effect that succeeds completes its instruction. -/
theorem finish_ok {m : Act Unit} {s t : State} (h : m s = (.ok (), t)) : finish m s = .next t.complete := by
  unfold finish
  apply settle_ok
  rw [bind_ok h]
  rfl

/-- A trap ends an instruction in its entry. -/
theorem finish_trap {m : Act Unit} {s t : State} {i : TrapInfo} (h : m s = (.error (.trap i), t)) : finish m s = .next (takeTrap i t) := by
  simp only [finish, settle, bind_err h]

/-- A wait keeps the instruction where it is. -/
theorem finish_wait {m : Act Unit} {s t : State} (h : m s = (.error .wait, t)) : finish m s = .next (beginWait t) := by
  simp only [finish, settle, bind_err h]

/-- An access that an invalidation stopped leaves its stream at the instruction, waiting for nothing (R85). -/
theorem finish_again {m : Act Unit} {s t : State} (h : m s = (.error .again, t)) :
    finish m s = .next (t.setCurSt { t.curSt with wait := none, on := none }) := by
  simp only [finish, settle, bind_err h]

/-- An effect on the hart in execution alone completes its instruction. -/
theorem finish_becomes {m : Act Unit} {s t : State} (h : m s = (.ok (), t)) (hb : Becomes s t t.cur) :
    ∃ u, finish m s = .next u ∧ Becomes s u (t.cur.past s.curStream t.fallPc) ∧ u.fallPc = t.fallPc := by
  refine ⟨t.complete, finish_ok h, ?_, ?_⟩
  · have := complete_becomes hb
    rwa [hb.curStream] at this
  · simp [State.complete]

/-! ### Traps and waits -/

/-- Taking a trap changes only the hart in execution. -/
theorem takeTrap_becomes (i : TrapInfo) (s : State) :
    Becomes s (takeTrap i s) ((s.cur.setSt s.curStream { s.curSt with after := s.fallPc }).takeTrap s.curStream i) :=
  (Becomes.refl s).setCur _

end Sys2Proof.Machine
end

