-- ==== Sys2Proof/Laws/Elements.lean ====
section
/-! SUPPORT. Elements of register groups, the template of R26, and what its instructions leave. -/

namespace Sys2Proof.Machine

/-! ### Elements of a number -/

theorem elemAt_lt (w v e : Nat) : elemAt w v e < 2 ^ w := Nat.mod_lt _ (Nat.two_pow_pos w)

theorem elemAt_putElem_same (w v e x : Nat) : elemAt w (putElem w v e x) e = x % 2 ^ w := by
  have hp := Nat.two_pow_pos (w * e)
  have hw := Nat.two_pow_pos w
  have key : putElem w v e x / 2 ^ (w * e) = v / 2 ^ (w * (e + 1)) * 2 ^ w + x % 2 ^ w := by
    unfold putElem
    rw [show w * (e + 1) = w * e + w by ring, Nat.pow_add]
    have : v / (2 ^ (w * e) * 2 ^ w) * (2 ^ (w * e) * 2 ^ w) + x % 2 ^ w * 2 ^ (w * e) + v % 2 ^ (w * e)
        = v % 2 ^ (w * e) + 2 ^ (w * e) * (v / (2 ^ (w * e) * 2 ^ w) * 2 ^ w + x % 2 ^ w) := by ring
    rw [this, Nat.add_mul_div_left _ _ hp, Nat.div_eq_of_lt (Nat.mod_lt _ hp), Nat.zero_add]
  unfold elemAt
  rw [key, Nat.mul_add_mod_self_right, Nat.mod_mod]

theorem elemAt_eq_bits (w v e k : Nat) (h : k < w) : (elemAt w v e).testBit k = v.testBit (w * e + k) := by
  unfold elemAt
  rw [Nat.testBit_mod_two_pow, Nat.testBit_div_two_pow]
  simp [h, Nat.add_comm]

theorem putElem_testBit (w v e x k : Nat) :
    (putElem w v e x).testBit k = if w * e ≤ k ∧ k < w * (e + 1) then x.testBit (k - w * e) else v.testBit k := by
  have hlow : x % 2 ^ w * 2 ^ (w * e) + v % 2 ^ (w * e) < 2 ^ (w * (e + 1)) := by
    have h1 := Nat.mod_lt x (Nat.two_pow_pos w)
    have h2 := Nat.mod_lt v (Nat.two_pow_pos (w * e))
    rw [show w * (e + 1) = w + w * e by ring, Nat.pow_add]
    calc x % 2 ^ w * 2 ^ (w * e) + v % 2 ^ (w * e) < x % 2 ^ w * 2 ^ (w * e) + 2 ^ (w * e) := by omega
      _ = (x % 2 ^ w + 1) * 2 ^ (w * e) := by ring
      _ ≤ 2 ^ w * 2 ^ (w * e) := Nat.mul_le_mul_right _ h1
  have e1 : putElem w v e x = 2 ^ (w * (e + 1)) * (v / 2 ^ (w * (e + 1))) + (2 ^ (w * e) * (x % 2 ^ w) + v % 2 ^ (w * e)) := by
    unfold putElem; ring
  rw [e1, Nat.testBit_two_pow_mul_add _ (by rw [Nat.mul_comm (2 ^ (w * e))]; exact hlow)]
  by_cases h1 : k < w * (e + 1)
  · rw [if_pos h1, Nat.testBit_two_pow_mul_add _ (Nat.mod_lt _ (Nat.two_pow_pos _))]
    by_cases h2 : k < w * e
    · rw [if_pos h2, if_neg (by omega), Nat.testBit_mod_two_pow]; simp [h2]
    · rw [if_neg h2, if_pos ⟨by omega, h1⟩, Nat.testBit_mod_two_pow]
      have : k - w * e < w := by rw [Nat.mul_add] at h1; omega
      simp [this]
  · rw [if_neg h1, if_neg (by omega), Nat.testBit_div_two_pow]
    congr 1; omega

theorem elemAt_putElem_other (w v e x i : Nat) (h : i ≠ e) : elemAt w (putElem w v e x) i = elemAt w v i := by
  apply Nat.eq_of_testBit_eq
  intro k
  by_cases hk : k < w
  · rw [elemAt_eq_bits _ _ _ _ hk, elemAt_eq_bits _ _ _ _ hk, putElem_testBit, if_neg]
    rintro ⟨h1, h2⟩
    rcases Nat.lt_or_gt_of_ne h with h3 | h3
    · have : w * (i + 1) ≤ w * e := Nat.mul_le_mul_left _ h3
      rw [Nat.mul_add] at this; omega
    · have : w * (e + 1) ≤ w * i := Nat.mul_le_mul_left _ h3
      omega
  · have h0 := Nat.lt_of_lt_of_le (elemAt_lt w (putElem w v e x) i) (Nat.pow_le_pow_right (by omega) (Nat.le_of_not_lt hk))
    have h1 := Nat.lt_of_lt_of_le (elemAt_lt w v i) (Nat.pow_le_pow_right (by omega) (Nat.le_of_not_lt hk))
    rw [Nat.testBit_lt_two_pow h0, Nat.testBit_lt_two_pow h1]

/-- Each listed element gets its value and no other element changes. -/
theorem foldElems_elem (w : Nat) (f : Nat → Res) (es : List Nat) (v : Nat) (fl : Flags) (i : Nat) :
    elemAt w (foldElems w f es v fl).1 i = if i ∈ es then (f i).1 % 2 ^ w else elemAt w v i := by
  induction es generalizing v fl with
  | nil => simp [foldElems]
  | cons e es ih =>
    simp only [foldElems, ih]
    by_cases hi : i ∈ es
    · simp [hi]
    · by_cases he : i = e
      · subst he; simp [hi, elemAt_putElem_same]
      · simp [hi, he, elemAt_putElem_other _ _ _ _ _ he]

/-- The flags are those of every listed element. -/
theorem foldElems_flags (w : Nat) (f : Nat → Res) (es : List Nat) (v : Nat) (fl : Flags) :
    (foldElems w f es v fl).2 = es.foldl (fun fl e => fl ||| (f e).2) fl := by
  induction es generalizing v fl with
  | nil => rfl
  | cons e es ih => simp only [foldElems, List.foldl, ih]

/-! ### Groups -/

theorem lanes_le (s : State) : s.regBits ≤ 2048 := by
  unfold State.regBits State.lanes Core.lanes
  have : 32 >>> s.curCore.harts.toNat ≤ 32 := by rw [Nat.shiftRight_eq_div_pow]; exact Nat.div_le_self _ _
  omega

theorem group_bits (x : Hart) (wb r n k : Nat) :
    (x.group wb r n).testBit k = if k < wb * n then (x.getV (r + k / wb)).toNat.testBit (k % wb) else false := by
  unfold Hart.group
  rcases Nat.eq_zero_or_pos wb with h0 | hw
  · subst h0
    have : ∀ l : List Nat, l.foldr (fun i acc => (x.getV (r + i)).toNat % 2 ^ 0 + acc * 2 ^ 0) 0 = 0 := by
      intro l; induction l with
      | nil => rfl
      | cons a l ih => simp [List.foldr, Nat.mod_one]
    rw [this]; simp
  have gen : ∀ (m b k : Nat), (((List.range' b m).foldr (fun i acc => (x.getV (r + i)).toNat % 2 ^ wb + acc * 2 ^ wb) 0)).testBit k =
      if k < wb * m then (x.getV (r + (b + k / wb))).toNat.testBit (k % wb) else false := by
    intro m
    induction m with
    | zero => intro b k; simp
    | succ m ih =>
      intro b k
      rw [List.range'_succ, List.foldr_cons, Nat.add_comm, Nat.mul_comm _ (2 ^ wb), Nat.testBit_two_pow_mul_add _ (Nat.mod_lt _ (Nat.two_pow_pos _))]
      by_cases hk : k < wb
      · have h1 : k < wb * (m + 1) := by rw [Nat.mul_add]; omega
        rw [if_pos hk, if_pos h1, Nat.testBit_mod_two_pow, Nat.div_eq_of_lt hk, Nat.mod_eq_of_lt hk]
        simp [hk]
      · rw [if_neg hk, ih]
        have e1 : k / wb = (k - wb) / wb + 1 := Nat.div_eq_sub_div hw (Nat.le_of_not_lt hk)
        have e2 : (k - wb) % wb = k % wb := (Nat.mod_eq_sub_mod (Nat.le_of_not_lt hk)).symm
        rw [e2, e1]
        have : (k - wb < wb * m) ↔ (k < wb * (m + 1)) := by rw [Nat.mul_add]; omega
        simp only [this, Nat.add_assoc, Nat.add_comm 1]
  have := gen n 0 k
  rw [← List.range_eq_range'] at this
  simpa using this

/-- Writing a group touches the vector registers alone. -/
theorem setGroup_v (x : Hart) (wb r n v : Nat) : ∃ u, x.setGroup wb r n v = { x with v := u } := by
  unfold Hart.setGroup
  generalize List.range n = l
  induction l generalizing x with
  | nil => exact ⟨x.v, rfl⟩
  | cons i l ih =>
    obtain ⟨u, e⟩ := ih (x.setV (r + i) (BitVec.ofNat 2048 (v / 2 ^ (wb * i) % 2 ^ wb)))
    exact ⟨u, by rw [List.foldl_cons, e]; rfl⟩

theorem setGroup_getV (x : Hart) (wb r n v q : Nat) :
    (x.setGroup wb r n v).getV q = if r ≤ q ∧ q < r + n then BitVec.ofNat 2048 (v / 2 ^ (wb * (q - r)) % 2 ^ wb) else x.getV q := by
  unfold Hart.setGroup
  induction n with
  | zero => simp
  | succ n ih =>
    rw [List.range_succ, List.foldl_append]
    simp only [List.foldl_cons, List.foldl_nil]
    by_cases h : q = r + n
    · subst h; simp
    · rw [getV_setV_ne _ _ _ _ h, ih]
      have : (r ≤ q ∧ q < r + n) ↔ (r ≤ q ∧ q < r + (n + 1)) := by omega
      simp only [this]

/-- A group reads as it was written. -/
theorem group_setGroup (x : Hart) (wb r n v : Nat) (hw : wb ≤ 2048) : (x.setGroup wb r n v).group wb r n = v % 2 ^ (wb * n) := by
  apply Nat.eq_of_testBit_eq
  intro k
  rw [group_bits, Nat.testBit_mod_two_pow]
  split
  · rename_i hk
    rcases Nat.eq_zero_or_pos wb with h0 | hp
    · subst h0; omega
    have h1 : k / wb < n := by rw [Nat.div_lt_iff_lt_mul hp, Nat.mul_comm]; exact hk
    have h2 : k % wb < wb := Nat.mod_lt _ hp
    rw [setGroup_getV, if_pos ⟨Nat.le_add_right _ _, Nat.add_lt_add_left h1 _⟩]
    rw [BitVec.toNat_ofNat, Nat.add_sub_cancel_left, Nat.testBit_mod_two_pow, Nat.testBit_mod_two_pow, Nat.testBit_div_two_pow]
    have : k % wb + wb * (k / wb) = k := Nat.mod_add_div k wb
    rw [this]
    simp [h2, hk, Nat.lt_of_lt_of_le h2 hw]
  · rename_i hk; simp [hk]

/-- A group keeps its bits where another one is written. -/
theorem group_setGroup_other (x : Hart) (wb r n v q m : Nat) (h : q + m ≤ r ∨ r + n ≤ q) : (x.setGroup wb r n v).group wb q m = x.group wb q m := by
  apply Nat.eq_of_testBit_eq
  intro k
  rw [group_bits, group_bits]
  split
  · rename_i hk
    rcases Nat.eq_zero_or_pos wb with h0 | hp
    · subst h0; omega
    have h1 : k / wb < m := by rw [Nat.div_lt_iff_lt_mul hp, Nat.mul_comm]; exact hk
    rw [setGroup_getV, if_neg]
    generalize k / wb = e at h1
    omega
  · rfl

theorem elemAt_mod (w v e b : Nat) (h : w * (e + 1) ≤ b) : elemAt w (v % 2 ^ b) e = elemAt w v e := by
  apply Nat.eq_of_testBit_eq
  intro k
  by_cases hk : k < w
  · rw [elemAt_eq_bits _ _ _ _ hk, elemAt_eq_bits _ _ _ _ hk, Nat.testBit_mod_two_pow]
    rw [Nat.mul_add] at h
    have : w * e + k < b := by omega
    simp [this]
  · have h0 := Nat.lt_of_lt_of_le (elemAt_lt w (v % 2 ^ b) e) (Nat.pow_le_pow_right (by omega) (Nat.le_of_not_lt hk))
    have h1 := Nat.lt_of_lt_of_le (elemAt_lt w v e) (Nat.pow_le_pow_right (by omega) (Nat.le_of_not_lt hk))
    rw [Nat.testBit_lt_two_pow h0, Nat.testBit_lt_two_pow h1]

/-! ### Opening operands -/

/-- Popping entries whose sectors all passed leaves no failed element. -/
theorem pop_fields (x : Hart) (wb v : Nat) (b : Binding) (h : ∃ e rest, b.entries = e :: rest ∧ e.bad = []) :
    ∃ vs bs, x.pop wb v b = { x with v := vs, binds := bs, popped := x.popped ++ [v] } := by
  obtain ⟨e, rest, h1, h2⟩ := h
  obtain ⟨u, hu⟩ := setGroup_v (x.setBind v (some { b with entries := rest, tag := e.tag, tagWidth := e.width })) wb v b.grp.size e.data.toNat
  refine ⟨u, (x.setBind v (some { b with entries := rest, tag := e.tag, tagWidth := e.width })).binds, ?_⟩
  simp only [Hart.pop, h1, hu, h2]
  simp [Hart.setBind]

theorem pops_fields (l : List (Nat × Binding)) (x : Hart) (wb : Nat) (h : ∀ p ∈ l, ∃ e rest, p.2.entries = e :: rest ∧ e.bad = []) :
    ∃ vs bs ps, l.foldl (fun x p => x.pop wb p.1 p.2) x = { x with v := vs, binds := bs, popped := ps } := by
  induction l generalizing x with
  | nil => exact ⟨x.v, x.binds, x.popped, rfl⟩
  | cons p l ih =>
    obtain ⟨vs, bs, e⟩ := pop_fields x wb p.1 p.2 (h p (by simp))
    obtain ⟨vs', bs', ps', e'⟩ := ih (x.pop wb p.1 p.2) (fun q hq => h q (by simp [hq]))
    exact ⟨vs', bs', ps', by rw [List.foldl_cons, e', e]⟩

/-- Opening operands changes the vector registers, the queues of the bound sources and the record of what was popped. -/
theorem opened_fields (x : Hart) (wb : Nat) (srcs dsts : List Operand) (h : Opens x srcs dsts) :
    ∃ vs bs ps, x.opened wb srcs = { x with v := vs, binds := bs, popped := ps } :=
  pops_fields _ _ _ h.entry

theorem openOperands_ok (s : State) (srcs dsts : List Operand) (h : Opens s.cur srcs dsts) (always : Bool := false) :
    openOperands srcs dsts always s = (.ok (), s.setCur (s.cur.opened s.regBits srcs)) := by
  have hs : srcs.any (badSource s.cur) = false := by
    rw [List.any_eq_false]; intro o ho; simpa using h.source o ho
  have hd : dsts.any (badDest s.cur) = false := by
    rw [List.any_eq_false]; intro o ho; simpa using h.dest o ho
  have hf : (s.cur.toPop srcs).filter (fun p => !s.cur.popped.contains p.1) = s.cur.toPop srcs := by
    rw [List.filter_eq_self]; intro p _; simp [h.popped]
  unfold openOperands
  rw [bind_ok (get_run s)]
  simp only [hf]
  rw [bind_ok (trapIf_run _ _ s (by simp [hs, hd]))]
  rw [bind_ok (waitFor_run _ s (by
    rw [List.all_eq_true]; intro p hp
    obtain ⟨e, rest, h1, _⟩ := h.entry p hp
    simp [h1]))]
  rw [bind_ok (waitFor_run _ s (by
    rw [Bool.or_eq_true, List.all_eq_true]; right; intro p hp
    simpa using h.room p hp))]
  rw [h.popBad]
  rfl

theorem failedElem_none (x : Hart) (wb : Nat) (srcs : List Operand) (es : List Nat) (h : x.popBad = []) : failedElem x wb srcs es = none := by
  simp [failedElem, failedPiece, h]

theorem whole_ok {m : Act Unit} {s t : State} (h : m s = (.ok (), t)) : whole m s = (.ok (), t) := by
  simp only [whole, h]

theorem mapM_read (s : State) (srcs : List Operand) :
    srcs.mapM readOperand s = (.ok (srcs.map fun o => s.cur.bits s.regBits o), s) := by
  induction srcs with
  | nil => rfl
  | cons o srcs ih =>
    rw [List.mapM_cons, bind_ok (show readOperand o s = (.ok (s.cur.bits s.regBits o), s) from rfl), bind_ok ih]
    rfl

theorem performList_ok (s : State) (srcs : List Operand) (mask : Nat) (h : s.cur.popBad = []) :
    performList srcs mask s = (.ok (s.active mask, none), s) := by
  unfold performList
  rw [bind_ok (get_run s), failedElem_none _ _ _ _ h]
  rfl

theorem guardWhole_ok (s : State) (srcs : List Operand) (es : List Nat) (h : s.cur.popBad = []) : guardWhole srcs es s = (.ok (), s) := by
  unfold guardWhole
  rw [bind_ok (get_run s), failedElem_none _ _ _ _ h]
  rfl

theorem checkLength_ok (s : State) (n : Nat) (h : s.cur.vl.toNat ≤ n) : checkLength n s = (.ok (), s) := by
  unfold checkLength
  rw [bind_ok (getCur_run s)]
  exact trapIf_run _ _ _ (by simpa using h)

theorem readDest_ok (s : State) (o : Operand) (h : s.cur.spent = false) : readDest o false s = (.ok (s.cur.before s.regBits o), s) := by
  unfold readDest Hart.before
  rw [bind_ok (get_run s)]
  simp only [Bool.or_false, h]
  split <;> rfl

/-- Reading a destination changes nothing. -/
theorem readDest_some (s : State) (o : Operand) (r : Bool) : ∃ v, readDest o r s = (.ok v, s) := by
  unfold readDest
  rw [bind_ok (get_run s)]
  split
  · exact ⟨_, rfl⟩
  · exact ⟨_, rfl⟩

theorem writeDest_ok (s : State) (o : Operand) (v : Nat) : writeDest o v true s = (.ok (), s.setCur (s.cur.wrote s.regBits o v)) := by
  unfold writeDest
  rw [bind_ok (get_run s)]
  rfl

/-- A result is written from VSTART up. -/
theorem writeResult_ok (s : State) (o : Operand) (v : Nat) (h : s.cur.spent = false) :
    writeResult o v true s = (.ok (), s.setCur (s.cur.wrote s.regBits o v)) := by
  unfold writeResult
  rw [bind_ok (getCur_run s), if_neg (of_decide_eq_false h)]
  exact writeDest_ok s o v

theorem writeResult_spent (s : State) (o : Operand) (v : Nat) (d : Bool) (h : s.cur.spent = true) : writeResult o v d s = (.ok (), s) := by
  unfold writeResult
  rw [bind_ok (getCur_run s), if_pos (of_decide_eq_true h)]
  rfl

theorem active_spent (s : State) (mask : Nat) (h : s.cur.spent = true) : s.active mask = [] := by
  have h : s.cur.vl.toNat ≤ s.cur.vstart.toNat := of_decide_eq_true h
  unfold State.active activeList
  rw [List.filter_eq_nil_iff]
  intro e he
  have he := List.mem_range.mp he
  have : ¬ s.cur.vstart.toNat ≤ e := by omega
  simp [this]

theorem raiseFlags_run (fl : Flags) (s : State) : raiseFlags fl s = (.ok (), s.setCur { s.cur with vstat := s.cur.vstat ||| fl }) := rfl

@[simp] theorem setCur_regBits (s : State) (x : Hart) : (s.setCur x).regBits = s.regBits := rfl
@[simp] theorem setCur_lanes (s : State) (x : Hart) : (s.setCur x).lanes = s.lanes := rfl
@[simp] theorem setCur_curCore (s : State) (x : Hart) : (s.setCur x).curCore = s.curCore := rfl

theorem active_opened (s : State) (srcs dsts : List Operand) (mask : Nat) (h : Opens s.cur srcs dsts) :
    (s.setCur (s.cur.opened s.regBits srcs)).active mask = s.active mask := by
  obtain ⟨vs, bs, ps, e⟩ := opened_fields s.cur s.regBits srcs dsts h
  simp only [State.active, cur_setCur]
  rw [e]

theorem spent_opened (x : Hart) (wb : Nat) (srcs dsts : List Operand) (h : Opens x srcs dsts) : (x.opened wb srcs).spent = x.spent := by
  obtain ⟨vs, bs, ps, e⟩ := opened_fields x wb srcs dsts h
  rw [e]; rfl

/-- The template of R26: every check passes, so the elements are performed, the flags are raised and VSTART is cleared. -/
theorem elementwise_ok (s : State) (n mask : Nat) (srcs : List Operand) (dst : Operand) (f : List Nat → Nat → Nat → Res)
    (hl : s.cur.vl.toNat ≤ n) (ho : Opens s.cur srcs [dst]) :
    let wb := s.regBits
    let y := s.cur.opened wb srcs
    let old := y.before wb dst
    let r := foldElems dst.w (f (srcs.map (y.bits wb)) old) (s.active mask) old 0
    let z := y.resulted wb dst r.1
    ∃ t, elementwise n mask srcs dst f s = (.ok (), t) ∧ Becomes s t t.cur ∧ t.fallPc = s.fallPc ∧
      t.cur = { z with vstat := z.vstat ||| r.2, vstart := 0 } := by
  intro wb y old r z
  obtain ⟨vs, bs, ps, hy⟩ := opened_fields s.cur wb srcs [dst] ho
  have hpb : (s.setCur y).cur.popBad = [] := by rw [cur_setCur]; show y.popBad = []; rw [show y = _ from hy]; exact ho.popBad
  have hsp : y.spent = s.cur.spent := spent_opened _ _ _ _ ho
  let s1 := s.setCur y
  have e1 : s1.cur = y := cur_setCur s y
  have e2 : s1.regBits = wb := rfl
  have h0 := (Becomes.refl s).setCur y
  -- the instruction up to the write of its result
  have pre : ∀ s2, (∃ o', readDest dst false s1 = (.ok o', s1) ∧
      let q := foldElems dst.w (f (srcs.map (y.bits wb)) o') (s.active mask) o' 0
      writeResult dst q.1 true s1 = (.ok (), s2) ∧ q.2 = r.2) →
      elementwise n mask srcs dst f s =
        (.ok (), (s2.setCur { s2.cur with vstat := s2.cur.vstat ||| r.2 }).setCur
          { (s2.setCur { s2.cur with vstat := s2.cur.vstat ||| r.2 }).cur with vstart := 0 }) := by
    rintro s2 ⟨o', h1, h2, h3⟩
    unfold elementwise
    apply whole_ok
    rw [bind_ok (checkLength_ok s n hl), bind_ok (getCur_run s)]
    have hp : (!s.cur.popped.isEmpty) = false := by simp [ho.popped]
    simp only [hp]
    rw [bind_ok (openOperands_ok s srcs [dst] ho), bind_ok (performList_ok s1 srcs mask hpb), active_opened s srcs [dst] mask ho]
    simp only
    rw [bind_ok (mapM_read s1 srcs), bind_ok h1]
    simp only [e1, e2]
    rw [← h3]
    change (writeResult dst _ true >>= fun _ => raiseFlags _ >>= fun _ => endElements none) s1 = _
    rw [bind_ok h2, bind_ok (raiseFlags_run _ _)]
    rfl
  by_cases hs : y.spent = true
  · have ha : s.active mask = [] := active_spent s mask (by rw [← hsp]; exact hs)
    obtain ⟨o', h1⟩ := readDest_some s1 dst false
    have hz : z = y := by simp [z, Hart.resulted, hs]
    have key := pre s1 ⟨o', h1, writeResult_spent s1 dst _ _ (by rw [e1]; exact hs), by simp [ha, r, foldElems]⟩
    refine ⟨_, key, ?_, rfl, by simp [e1, hz]⟩
    simpa using (h0.setCur { s1.cur with vstat := s1.cur.vstat ||| r.2 }).setCur { s1.cur with vstat := s1.cur.vstat ||| r.2, vstart := 0 }
  · have hs : y.spent = false := by simpa using hs
    have hz : z = y.wrote wb dst r.1 := by simp [z, Hart.resulted, hs]
    have h1 := readDest_ok s1 dst (by rw [e1]; exact hs)
    rw [e1, e2] at h1
    have h2 := writeResult_ok s1 dst r.1 (by rw [e1]; exact hs)
    rw [e1, e2] at h2
    have key := pre _ ⟨_, h1, h2, rfl⟩
    refine ⟨_, key, ?_, rfl, by simp [hz]⟩
    simpa using ((h0.setCur (y.wrote wb dst r.1)).setCur { y.wrote wb dst r.1 with vstat := (y.wrote wb dst r.1).vstat ||| r.2 }).setCur
      { y.wrote wb dst r.1 with vstat := (y.wrote wb dst r.1).vstat ||| r.2, vstart := 0 }

/-- Writing a destination touches its registers and the queues. -/
theorem wrote_fields (x : Hart) (wb : Nat) (o : Operand) (v : Nat) :
    ∃ bs, x.wrote wb o v = { x.setGroup wb o.reg o.n v with binds := bs } := by
  unfold Hart.wrote
  simp only
  generalize ((x.setGroup wb o.reg o.n v).toPush [o]) = l
  generalize x.setGroup wb o.reg o.n v = y
  induction l generalizing y with
  | nil => exact ⟨y.binds, rfl⟩
  | cons p l ih =>
    obtain ⟨bs, e⟩ := ih (y.setBind p.1 (some { p.2 with entries := p.2.entries ++ [{ data := BitVec.ofNat 16384 (y.group wb p.1 p.2.grp.size) }] }))
    exact ⟨bs, by rw [List.foldl_cons, e]; rfl⟩

/-- Each element of a written destination reads as it was written. -/
theorem wrote_elem (x : Hart) (wb : Nat) (o : Operand) (v e : Nat) (hw : wb ≤ 2048) (he : o.w * (e + 1) ≤ wb * o.n) :
    (x.wrote wb o v).elem wb o e = elemAt o.w v e := by
  obtain ⟨bs, h⟩ := wrote_fields x wb o v
  unfold Hart.elem Hart.bits
  have : (x.wrote wb o v).group wb o.reg o.n = (x.setGroup wb o.reg o.n v).group wb o.reg o.n := by rw [h]; rfl
  rw [this, group_setGroup _ _ _ _ _ hw, elemAt_mod _ _ _ _ he]

/-- Each element of a result reads as it was written, and where nothing is written, as before. -/
theorem resulted_elem (x : Hart) (wb : Nat) (o : Operand) (v e : Nat) (hw : wb ≤ 2048) (he : o.w * (e + 1) ≤ wb * o.n) :
    (x.resulted wb o v).elem wb o e = if x.spent then x.elem wb o e else elemAt o.w v e := by
  unfold Hart.resulted
  split
  · rfl
  · exact wrote_elem x wb o v e hw he

end Sys2Proof.Machine
end

