-- ==== Sys2Proof/Laws/MemLaws.lean ====
section
/-! SUPPORT. Physical memory when no stash and no host holds a line: recalls change nothing, and reads and writes of checked
sectors do what they say. -/

namespace Sys2Proof.Machine

theorem backInvalidate_quiet (s : State) (ln : Nat) (h : Quiet s) : s.backInvalidate ln = s := by
  unfold State.backInvalidate
  simp only [h.2, List.filter_nil, List.foldl_nil]
  rw [← h.2]

theorem recallStash_quiet (s : State) (ln : Nat) (w : Bool) (k : Option (Nat × Nat)) (h : Quiet s) : s.recallStash ln w k = s := by
  unfold State.recallStash
  have : ∀ (l : Tab Core) (hl : ∀ p ∈ l, p.2.stash = []) (f : State → Nat × Core → State), (∀ s p, p.2.stash = [] → f s p = s) → l.foldl f s = s := by
    intro l hl f hf
    induction l with
    | nil => rfl
    | cons p l ih => rw [List.foldl_cons, hf s p (hl p (by simp))]; exact ih fun q hq => hl q (by simp [hq])
  apply this _ h.1
  intro s p hp
  simp [others, hp]

theorem recall_quiet (s : State) (ln : Nat) (w : Bool) (k : Option (Nat × Nat)) (h : Quiet s) : s.recall ln w k = s := by
  unfold State.recall
  rw [backInvalidate_quiet s ln h, recallStash_quiet s ln w k h]

theorem recallAll_quiet (s : State) (pa n : Nat) (w : Bool) (k : Option (Nat × Nat)) (h : Quiet s) : s.recallAll pa n w k = s := by
  unfold State.recallAll
  generalize linesOf pa n = l
  induction l with
  | nil => rfl
  | cons a l ih => rw [List.foldl_cons, recall_quiet s a w k h]; exact ih

theorem readPa_ok (s : State) (key : Option (BitVec 512)) (pa n : Nat) (va : BitVec 64) (hq : Quiet s) (hp : Passes s key pa n) :
    readPa key pa n va none s = (.ok (readBytes s.mem pa n), s) := by
  have h1 : (sectorsOf pa n).any (fun k => s.badSectors.contains k) = false := by
    rw [List.any_eq_false]; intro k hk; simpa using (hp k hk).1
  have h2 : (sectorsOf pa n).any (s.otherKey key) = false := by
    rw [List.any_eq_false]; intro k hk; simpa using (hp k hk).2
  unfold readPa
  rw [bind_ok (modify_run _ _), recallAll_quiet s _ _ _ _ hq, bind_ok (get_run s)]
  simp only [h1, h2]
  rfl

theorem writeBytes_read (m : Memory) (pa a : Nat) (bytes : List Byte) :
    (writeBytes m pa bytes).read a = if pa ≤ a ∧ a < pa + bytes.length then bytes.getD (a - pa) 0 else m.read a := by
  induction bytes generalizing m pa with
  | nil => simp [writeBytes]
  | cons b bs ih =>
    simp only [writeBytes, ih, memory_read_write, List.length_cons]
    by_cases h1 : a = pa
    · subst h1
      have h2 : ¬ (a + 1 ≤ a ∧ a < a + 1 + bs.length) := by omega
      have h3 : a ≤ a ∧ a < a + (bs.length + 1) := by omega
      rw [if_neg h2, if_pos rfl, if_pos h3]; simp
    · by_cases h2 : pa + 1 ≤ a ∧ a < pa + 1 + bs.length
      · have h3 : pa ≤ a ∧ a < pa + (bs.length + 1) := by omega
        rw [if_pos h2, if_pos h3, show a - pa = (a - (pa + 1)) + 1 by omega, List.getD_cons_succ]
      · have h3 : ¬ (pa ≤ a ∧ a < pa + (bs.length + 1)) := by omega
        rw [if_neg h2, if_neg h3, if_neg h1]

/-- Every write of bytes keeps the canonical form. -/
theorem writeBytes_wf (m : Memory) (pa : Nat) (bytes : List Byte) (h : m.wf = true) : (writeBytes m pa bytes).wf = true := by
  induction bytes generalizing m pa with
  | nil => exact h
  | cons b bs ih => exact ih _ _ (memory_write_wf m pa b h)

theorem poke_ok (s : State) (key : Option (BitVec 512)) (pa : Nat) (bytes : List Byte) (hq : Quiet s) :
    ∃ bad tags, s.poke key pa bytes none = { s with mem := writeBytes s.mem pa bytes, badSectors := bad, keyTags := tags } := by
  unfold State.poke
  simp only [recallAll_quiet s _ _ _ _ hq]
  exact ⟨_, _, rfl⟩

theorem writePa_ok (s : State) (key : Option (BitVec 512)) (pa : Nat) (bytes : List Byte) (va : BitVec 64) (hq : Quiet s)
    (hp : Passes s key pa bytes.length) :
    writePa key pa bytes va none s = (.ok (), s.poke key pa bytes none) := by
  have h1 : (partialSectors pa bytes.length).any (fun k => s.badSectors.contains k || s.otherKey key k) = false := by
    rw [List.any_eq_false]; intro k hk
    have := hp k (List.mem_of_mem_filter hk)
    simp [this.1, this.2]
  have h2 : checkWrite key pa bytes.length va none s = (.ok (), s) := by
    unfold checkWrite
    rw [bind_ok (modify_run _ _), recallAll_quiet s _ _ _ _ hq, bind_ok (get_run s)]
    simp only [h1]
    rfl
  unfold writePa
  rw [bind_ok h2]
  rfl

end Sys2Proof.Machine
end

