-- ==== Sys2Proof/Machine/Accesses.lean ====
section
/-! DEFINITION. The terms of the consistency model (R309, R310): the agents, the locations, the register cells, the turns of an
outcome; the accesses, and the operations with which an instruction's accesses are recorded in the order in which it makes them. -/

namespace Sys2Proof.Machine.Consistency

/-! ### Agents, locations, kinds -/

/-- An agent (R309), with where it lies (R312). An engine operation is a short-lived thread of its own; `n` tells the operations of
one engine apart. -/
inductive Agent where
  | stream (h : HartId) (st : Stream)
  | inCore (c : CoreId) (n : Nat)
  | inDie (d : Fin 4) (n : Nat)
  | onHub (n : Nat) (j : Nat := 0)
  | supervisor (k : Nat)
  | host (link : Nat)
  deriving DecidableEq, Repr

/-- The core, the quad and the die of an agent, where it lies within one. -/
def Agent.core : Agent → Option (Nat × Nat)
  | .stream h _ => some (h.die.val, h.core.val)
  | .inCore c _ => some (c.die.val, c.core.val)
  | _ => none
def Agent.quad (a : Agent) : Option (Nat × Nat) := a.core.map fun (d, c) => (d, c / 4)
def Agent.die : Agent → Option Nat
  | .stream h _ => some h.die.val
  | .inCore c _ => some c.die.val
  | .inDie d _ => some d.val
  | _ => none

/-- Both lie in one place. -/
def samePlace {α : Type} [BEq α] (f : Agent → Option α) (a b : Agent) : Bool :=
  match f a, f b with
  | some x, some y => x == y
  | _, _ => false

/-- A scope covers two agents when both lie within one extent of it (R4, R312); each scope holds the ones before it, and every scope
covers an agent with itself. Every agent of one module lies within .PK. -/
def covers (s : Scope) (a b : Agent) : Bool :=
  a == b ||
  match s with
  | .ln => false
  | .co => samePlace Agent.core a b
  | .qd => samePlace Agent.quad a b
  | .di => samePlace Agent.die a b
  | .pk | .pd => true

/-- A narrower or equal scope (R4). -/
def rank : Scope → Nat
  | .ln => 0 | .co => 1 | .qd => 2 | .di => 3 | .pk => 4 | .pd => 5

/-- The narrower of two scopes. -/
def narrower (a b : Scope) : Scope := if rank a ≤ rank b then a else b

/-- A location: a byte of physical memory (of which the storage of a stage queue is one, R319), a byte of a scratchpad outside a
stash, an entry of a blotter ring by its position (R309). -/
inductive Loc where
  | mem (pa : Nat)
  | pad (core off : Nat)
  | ring (k p : Nat)
  deriving DecidableEq, Repr

/-- The ordering kinds of pages (Table 6.3). -/
inductive Kind where
  | so | rc | un
  deriving DecidableEq, Repr

/-- The kind that governs an access is that of the leaf which translates it (R88, R317). -/
def kindOf (leaf : BitVec 64) : Kind :=
  match entOk leaf with
  | 0 => .so
  | 2 => .un
  | _ => .rc

/-- The translation through which an access goes: the die that makes it, the address space and the page (R81). -/
structure Via where
  die   : Fin 4
  asid  : BitVec 16
  level : Nat
  vpage : Nat
  deriving DecidableEq, Repr

def Via.of (d : Fin 4) (asid : BitVec 16) (va : BitVec 64) (level : Nat) : Via := ⟨d, asid, level, vpageOf va level⟩

/-! ### Register cells (R311) -/

/-- What an instruction carries from one to the next: a scalar register, 4 bits of the vector register file, a mask bit, a parent
index, an accumulator row, the tile, a codebook bank, a control register, a copy of a window and the window's address, the value of a
key; the ruling state; what a binding reads from, and the copy of a well; an entry of a queue as it is put and as it is taken; 4 bits
of an entry as it is filled and, of a kind-3 binding, as it is popped; what the branches of a stream were decided by. -/
inductive Cell where
  | scalar (st : Stream) (r : Nat)
  | vec (k : Nat)
  | mask (m e : Nat)
  | parent (t e : Nat)
  | acc (r : Nat)
  | tile
  | book (b : Nat)
  | ctl (n : Nat)
  | window (i : Nat)
  | windowBase
  | key (k : Nat)
  | ruling
  | binding (v : Nat)
  | row (v : Nat)
  | well (core handle : Nat)
  | put (q : Nat)
  | taken (q : Nat)
  | filled (v k : Nat)
  | popped (v k : Nat)
  | branch (st : Stream)
  deriving DecidableEq, Repr

/-! ### The turns of an outcome -/

/-- How a supervisor core's access depends on an earlier one (R316): by its address, its data, or a branch. -/
inductive Dep where
  | addr | data | control
  deriving DecidableEq, Repr

/-- A turn of an outcome, with the machine as it finds it. A supervisor core's access carries what the model does not hold of that
core: the kind of its page, and the accesses, by their places, that it depends on (R316). -/
structure Inst where
  turn  : Turn
  found : State
  kind  : Kind := .rc
  given : List (Nat × Dep) := []
  deriving DecidableEq, Repr

/-- The machine after it. -/
def Inst.after (i : Inst) : State :=
  match stepTurn i.turn i.found with
  | .next t => t
  | _ => i.found

/-- The stream whose turn it is, and with what its turn begins. -/
def Inst.runs (i : Inst) : Option (HartId × Stream × Bool × Option Nat) :=
  match i.turn with
  | .run h st fresh => some (h, st, fresh, none)
  | .part h st pages => some (h, st, false, some pages)
  | .ahead h st _ => some (h, st, false, none)
  | _ => none

/-- The machine as the turn's stream finds it (as stepRun sets it). -/
def Inst.entered (i : Inst) : State :=
  match i.runs with
  | some (h, st, fresh, upto) =>
    { i.found.tick h.die with curHart := h, curStream := st, fresh := fresh, upto := upto, fallPc := nextPc ((i.found.hart h).st st).pc }
  | none => match i.turn with
    | .event _ r => { i.found with req := r, fresh := false, upto := none }
    | _ => i.found

/-- The instruction that a turn executes, and the machine in which it does so; none where a stream fetches ahead, has no head to
execute, or may not move, and at the ends of a barrier unit's cycle. -/
def Inst.issued (i : Inst) : Option (Instr × State) :=
  match i.turn with
  | .event x _ => if x.encode.isNone then some (x, i.entered) else none
  | .ahead _ _ _ | .barrierCycle _ => none
  | .run h st _ | .part h st _ =>
    if !i.found.canRun h st then none
    else match fetch i.entered with
      | (.ok (.head hd tail next), s) =>
        (decodeHead st s.curCore.harts.toNat hd tail).map fun x => (x, s.issue x hd tail next)
      | _ => none

/-- The instruction, and the machine in which it executes; NOP where the turn executes none. -/
def Inst.instr (i : Inst) : Instr := match i.issued with | some (x, _) => x | none => .nop
def Inst.s (i : Inst) : State := match i.issued with | some (_, s) => s | none => i.entered

/-- It is a turn of a stream. -/
def Inst.inStream (i : Inst) : Bool := i.runs.isSome

/-- The agent whose turn it is; a step of an engine is an operation of its own, but the iterations of one copy are one
operation. -/
def Inst.agent (n : Nat) (i : Inst) : Agent :=
  let r := i.s.req
  match i.runs with
  | some (h, st, _, _) => .stream h st
  | none => match i.instr with
    | .supervisorAccess | .registerWrite | .invalidation => .supervisor r.supCore.val
    | .hostCxlMemWrite | .hostCxlMemRead => .host r.link.val
    | .copyIteration => .inCore r.core (match ((i.s.core r.core).well r.handle.val).copy with | some c => 2 * c.seq + 1 | none => 2 * n)
    | .copyqDelivery => .inCore r.core (2 * n)
    | .streamFill | .mrldffRowFill => .inCore (coreOf r.hart) (2 * n)
    | .pageWalk | .hartSwapOut | .launchDispatch | .copyFaultRecordPending => .inDie r.die (2 * n)
    | .mailboxRequest => .inDie r.die (2 * n)
    | _ => .onHub (4 * n)

/-- An instruction of a stream has completed: its PC has moved, or it stands at or has left its rendezvous. -/
def ended (i : Inst) : Bool :=
  let a := (i.found.hart i.s.curHart).st i.s.curStream
  let b := (i.after.hart i.s.curHart).st i.s.curStream
  i.issued.isSome && (b.pc != a.pc || b.stat != a.stat)

/-- An invalidation has come between the elements of an instruction, which goes on in a later turn (R85). -/
def Inst.cut (i : Inst) : Bool :=
  match i.turn with
  | .part h st _ =>
    let b := (i.after.hart h).st st
    i.issued.isSome && !ended i && !(i.after.hart h).halted && b.wait.isNone
  | _ => false

/-! ### Accesses -/

/-- What makes an access: the instruction itself; a load for the entry that it fills; the walk unit; the hub for an address-space
entry; a fetch of a line; a unit that works for an instruction; an engine that works of itself. -/
inductive Role where
  | own | fill | walk | ast | fetch | unit | engine
  deriving DecidableEq, Repr

/-- One access (R309): what it reads and writes, at which locations and through which port and translation; `part` orders the accesses
of one instruction where it names an order; `needs` are the cells, and `after` the accesses of the same turn, from which its address
and its data come; `dst` are the cells that what it reads goes to; `apart` is the engine whose thread makes it, where that is not the
turn's own agent; `scalar` marks the accesses of R280, `vstx` the elements of R251, `atomic` the read and write of R314's third
condition, `lock` the first and last accesses of a line held locked (R95), `region` the stash region through which it goes, `stash`
a stash instruction (R131). -/
structure Access where
  reads   : List (Loc × Nat) := []
  writes  : List (Loc × Nat) := []
  role    : Role := .own
  kind    : Kind := .rc
  port    : Nat := 0
  elem    : Nat := 0
  part    : Nat := 0
  needs   : List Cell := []
  after   : List Nat := []
  dst     : List Cell := []
  acquire : Option Scope := none
  release : Option Scope := none
  apart   : Option Agent := none
  via     : Option Via := none
  scalar  : Bool := false
  vstx    : Bool := false
  atomic  : Bool := false
  lock    : Bool := false
  region  : Option (Nat × Nat) := none
  stash   : Bool := false
  deriving DecidableEq, Repr

/-! ### What locations hold -/

/-- Every store that a stash or a host's cache still holds is in memory. -/
def settled (s : State) : State :=
  let s := s.cores.foldl (fun s (k, c) => c.stash.foldl (fun s r => (s.flushRegion (coreOfKey k) r).1) s) s
  s.hub.snoop.foldl State.takeBack s

/-- The value of a location, in a settled machine. -/
def valueAt (s : State) : Loc → Nat
  | .mem pa => (s.mem.read pa).toNat
  | .pad c off => ((tget {} s.cores c : Core).scratch.read off).toNat
  | .ring k p => ((s.ring k).entry p).word.toNat

def look (s : State) (l : List Loc) : List (Loc × Nat) := l.map fun x => (x, valueAt s x)

def memBytes (pa n : Nat) : List Loc := (List.range n).map fun k => .mem (pa + k)

/-- Where an access goes: its locations under one kind, through a translation, or within a stash region. -/
structure Spot where
  kind : Kind
  locs : List Loc
  via  : Option Via := none
  region : Option (Nat × Nat) := none
  deriving DecidableEq, Repr

/-- An access of a spot. -/
def Access.at' (a : Access) (p : Spot) : Access := { a with kind := p.kind, via := p.via, region := p.region }
def Access.reading (a : Access) (s : State) (p : Spot) : Access := { a.at' p with reads := look (settled s) p.locs }
def Access.writing (a : Access) (t : State) (p : Spot) : Access := { a.at' p with writes := look t p.locs }

/-! ### Recording -/

/-- A turn as it goes on: its place in the outcome, the machine, the accesses so far, and whether a violation stopped it. -/
structure Log where
  n : Nat
  s : State
  l : List Access := []
  violated : Bool := false

/-- What an instruction does of its accesses, up to where it stops; what it has done stays. -/
abbrev Rec (α : Type) := OptionT (StateM Log) α

def now : Rec State := do return (← get).s
def turnNo : Rec Nat := do return (← get).n

/-- Records an access, and answers its place. -/
def say (a : Access) : Rec Nat := do
  let g ← get
  set { g with l := g.l ++ [a] }
  return g.l.length

def sayAll (l : List Access) : Rec (List Nat) := l.mapM say

/-- An operation of the machine. -/
def act {α : Type} (m : Act α) : Rec α := do
  let g ← get
  match m g.s with
  | (.ok a, s) =>
    set { g with s := s }
    return a
  | (.error e, s) =>
    set { g with s := s, violated := g.violated || match e with | .trap i => i.cause == Cause.violation | _ => false }
    failure

/-- Goes on where an attempt stops. -/
def attempt {α : Type} (m : Rec α) : Rec (Option α) := fun g => let r := m g; (some r.1, r.2)

/-- The members of a list up to the first at which an attempt stops. -/
def upTo {α β : Type} (f : α → Rec β) : List α → Rec (List (α × β))
  | [] => pure []
  | x :: xs => do
    match ← attempt (f x) with
    | some y => return (x, y) :: (← upTo f xs)
    | none => return []

/-- The accesses of a recording. -/
def recorded (n : Nat) (s : State) (m : Rec Unit) : List Access := (m { n := n, s := s }).2.l

/-- What an operation answers, none where it stops. -/
def ask {α : Type} (s : State) (m : Act α) : Option α :=
  match m s with
  | (.ok a, _) => some a
  | (.error _, _) => none

/-! ### Translations (R78, R79, R83) -/

/-- The table entries that a walk reads, from the root down. -/
def entriesOf (s : State) (va : BitVec 64) : (fuel level p : Nat) → List Nat
  | 0, _, _ => []
  | fuel + 1, level, p =>
    let at' := p + 8 * tableIndex va level
    if !s.inHbm at' then []
    else
      let e := BitVec.ofNat 64 (leNat (s.peek at' 8))
      at' :: (if !e.getLsbD 0 || e.getLsbD 1 || malformedEntry e level then [] else entriesOf s va fuel (level - 1) (entFrame e * 2 ^ 16))

/-- The hub reads an address-space entry that it does not hold, with an acquire at .PK (R83). -/
def astRead (asid : BitVec 16) (v : Via) : Rec Unit := do
  let s ← now
  if s.hub.astEn && (s.fresh || (s.hub.asts.find? fun p => p.1 == asid.toNat).isNone) then
    let _ ← say { reads := look (settled s) (memBytes (s.hub.astBase.toNat * 2 ^ 21 + 32 * asid.toNat) 32), role := .ast, acquire := some .pk
                  apart := some (.onHub (4 * (← turnNo) + 1)), via := some v }
  else pure ()

/-- The thread of the walk unit: each entry is read with an acquire at .PK, and a change of A or D is one read and one write of the leaf,
at .PK too. -/
def walkReads (d : Fin 4) (asid : BitVec 16) (va : BitVec 64) (k : AccessKind) (v : Via) : Rec Unit := do
  let s ← now
  match ask s (astEntry asid va) with
  | some (some a) =>
    let t := settled s
    let w : Access := { role := .walk, acquire := some .pk, apart := some (.inDie d (2 * (← turnNo) + 1)), via := some v }
    let _ ← sayAll ((entriesOf t va 4 3 a.root).map fun p => { w with reads := look t (memBytes p 8) })
    match ask s (do let l ← walk asid va; checkLeaf l.ent va k; return l) with
    | some l =>
      let e := touched l.ent k
      if e = l.ent then pure ()
      else
        let _ ← say { w with part := 1, reads := look t (memBytes l.addr 8), writes := (memBytes l.addr 8).zip ((leBytes 8 e.toNat).map BitVec.toNat)
                             atomic := true, release := some .pk }
    | none => pure ()
  | _ => pure ()

/-- The accesses of a translation: the address-space entry where the hub does not hold it, and the walk where the die holds no translation
that serves. -/
def walks (d : Fin 4) (asid : BitVec 16) (va : BitVec 64) (k : AccessKind) : Rec Unit := do
  let s ← now
  let v := Via.of d asid va ((ask s (leafLevel d asid va k)).getD 0)
  astRead asid v
  if s.fresh || (s.cachedFor d asid va k).isNone then walkReads d asid va k v else pure ()

/-- The place that a translation gives n bytes. -/
def Spot.of (d : Fin 4) (asid : BitVec 16) (va : BitVec 64) (m : Mapped) (n : Nat) : Spot :=
  ⟨kindOf m.leaf, memBytes m.pa n, some (Via.of d asid va m.level), none⟩

/-- A place of the hart in execution. -/
def Spot.cur (s : State) (va : BitVec 64) (m : Mapped) (n : Nat) : Spot := Spot.of s.curHart.die s.cur.asid va m n

/-- An aligned scalar access of n bytes at an exact address. -/
def placeR (g : Int) (n : Nat) (k : AccessKind) : Rec Spot := do
  let s ← now
  if canonicalInt g && (vaOfInt g).toNat % n == 0 then walks s.curHart.die s.cur.asid (vaOfInt g) k else pure ()
  return Spot.cur s (vaOfInt g) (← act (translateAligned g n k)) n

/-- An address among those of one access, whose pages are translated once each (R86). -/
def sortR (pages : List Page) (g : Int) (n : Nat) (k : AccessKind) : Rec (Place Mapped × List Page) := do
  let s ← now
  let va := vaOfInt g
  if canonicalInt g && va.toNat % n == 0 && (pageOf pages va).isNone && !(s.upto.any fun b => decide (b ≤ pages.length)) then
    walks s.curHart.die s.cur.asid va k
  else pure ()
  act (sortOne pages g n k)

/-- The elements of an access (R86). -/
def sortAll (addr : Nat → Int) (n : Nat) (k : AccessKind) : List Page → List Nat → Rec (Sorted Mapped)
  | _, [] => pure []
  | pages, e :: es => do
    let (r, pages) ← sortR pages (addr e) n k
    return (e, r) :: (← sortAll addr n k pages es)

/-- The lines of a block, each page translated once, up to the first fault. -/
def blockFrom (d : Fin 4) (asid : BitVec 16) (k : AccessKind) : List Page → List (BitVec 64 × Nat) → Rec (List (BitVec 64 × Nat × Mapped))
  | _, [] => pure []
  | pages, (a, len) :: rest => do
    if canonical a && (pageOf pages a).isNone then walks d asid a k else pure ()
    let (m, pages) ← act (translateOnce d asid k true pages a)
    return (a, len, m) :: (← blockFrom d asid k pages rest)

def blockR (d : Fin 4) (asid : BitVec 16) (va : BitVec 64) (n : Nat) (k : AccessKind) : Rec (List (BitVec 64 × Nat × Mapped)) :=
  blockFrom d asid k [] (linePieces va n)

/-- The accesses of a block, line by line, and their places. -/
def readBlockR (d : Fin 4) (asid : BitVec 16) (va : BitVec 64) (n : Nat) (a : Access) : Rec (List Nat) := do
  let ps ← blockR d asid va n .read
  let s ← now
  sayAll (ps.map fun (x, len, m) => a.reading s (Spot.of d asid x m len))

def writeBlockR (t : State) (d : Fin 4) (asid : BitVec 16) (va : BitVec 64) (n : Nat) (a : Access) : Rec (List Nat) := do
  let ps ← blockR d asid va n .write
  sayAll (ps.map fun (x, len, m) => a.writing t (Spot.of d asid x m len))

/-- Those of the hart in execution. -/
def readCurR (va : BitVec 64) (n : Nat) (a : Access) : Rec (List Nat) := do
  let s ← now
  readBlockR s.curHart.die s.cur.asid va n a
def writeCurR (t : State) (va : BitVec 64) (n : Nat) (a : Access) : Rec (List Nat) := do
  let s ← now
  writeBlockR t s.curHart.die s.cur.asid va n a

/-- Bytes of one sector of a scratchpad (R119, R124): its own, in order as on an RC page, or, in a stash, those of the memory behind it,
once the line is made ready. -/
def offR (c : CoreId) (off n : Nat) (write : Bool) : Rec Spot := do
  match ((← now).core c).regionAt off with
  | none => return ⟨.rc, (List.range n).map fun i => .pad (coreKey c) (off + i), none, none⟩
  | some g =>
    let i := off % 4096 / 64
    let va := g.lineVa i + BitVec.ofNat 64 (off % 64)
    if (g.line i).isNone then
      walks c.die g.asid (g.lineVa i) .read
      act (padPrepare c off false)
    else pure ()
    if write then
      walks c.die g.asid va .write
      act (padPrepare c off true)
    else pure ()
    let s ← now
    match (s.regionOf c g).line i with
    | none => failure
    | some l =>
      let kind := match ask s (translateLeaf c.die g.asid va .read) with | some (e, _) => kindOf e | none => .rc
      return ⟨kind, memBytes (l.pa + off % 64) n, some (Via.of c.die g.asid va l.level), some (coreKey c, g.offset)⟩

/-- The place of an element of a scratchpad access. -/
def padR (a : Int) (n : Nat) (write : Bool) : Rec Spot := do
  match (← now).padRef a with
  | some r => offR r.core r.off n write
  | none => failure

/-- Reads of a block of scratchpads, sector by sector. -/
def padBlockR (sa : Int) (n : Nat) (a : Access) : Rec (List Nat) :=
  (sectorPieces sa.toNat n).mapM fun (o, len) => do
    let p ← padR o len false
    say (a.reading (← now) p)

/-! ### What the streams' accesses carry -/

/-- The ports (R310, R292): lane e mod L for an element of a vector access, lane 0 for a scalar access of the X-stream, the A-stream's
own port. -/
def aPort : Nat := 32
def scalarPort (s : State) : Nat := if s.curStream = .a then aPort else 0
def lanePort (s : State) (e : Nat) : Nat := e % s.lanes

def acquires (o : Order) (sc : Scope) : Option Scope := if o == .aq || o == .aqrl then some sc else none
def releases (o : Order) (sc : Scope) : Option Scope := if o == .rl || o == .aqrl then some sc else none

/-- The cell of a scalar register; register 0 of A and S carries nothing. -/
def regCell (s : State) (r : Nat) : List Cell := if r = 0 && s.curStream != .c then [] else [.scalar s.curStream r]
def branches (s : State) : List Cell := [.branch s.curStream]

/-- The cells of element e of an operand. -/
def elemCells (s : State) (o : Operand) (e : Nat) : List Cell :=
  (List.range (max 1 (o.w / 4))).map fun j => .vec (o.reg * (s.regBits / 4) + e * (o.w / 4) + j)

/-- The cells of element e, of width w, of an entry of register v as it is filled. -/
def filledCells (v w e : Nat) : List Cell := (List.range (max 1 (w / 4))).map fun j => .filled v (e * w / 4 + j)

/-- A scalar access, and another access of an instruction. -/
def scalarAccess (s : State) : Access := { port := scalarPort s, scalar := s.curStream == .a }
def plainAccess (s : State) (regs : List Nat) : Access := { port := scalarPort s, needs := regs.flatMap (regCell s) }

/-- The active elements that an instruction works on. -/
def actives (s : State) (mask : Fin 8) : List Nat := activeList s.cur.vstart.toNat s.cur.vl.toNat (s.maskBits mask.val)

end Sys2Proof.Machine.Consistency
end

