-- ==== Sys2Proof/Machine/StreamAccesses.lean ====
section
/-! DEFINITION. The accesses that each instruction of a stream makes, in the consistency model (R309, R310): each is recorded as the
instruction's own meaning goes on, so that what a trap, a fault or a wait leaves out makes no access. -/

namespace Sys2Proof.Machine.Consistency

/-! ### Scalar accesses (R291, R256) -/

def loadR (n : Nat) (o : HT32M) (dst : List Cell) : Rec Unit := do
  let s ← now
  let p ← placeR (scalarAddr (s.getR o.base) o.disp) n .read
  let a : Access := { scalarAccess s with needs := regCell s o.base.val, dst := dst, acquire := acquires o.order o.scope, release := releases o.order o.scope }
  let _ ← say (a.reading (← now) p)

def storeR (n : Nat) (o : HT32M) : Rec Unit := do
  let s ← now
  let p ← placeR (scalarAddr (s.getR o.base) o.disp) n .write
  let a : Access := { scalarAccess s with needs := regCell s o.base.val ++ regCell s o.d.val ++ branches s
                                          acquire := acquires o.order o.scope, release := releases o.order o.scope }
  let _ ← say { a.at' p with writes := p.locs.zip ((leBytes n (s.getR o.d).toNat).map BitVec.toNat) }

/-- The value at a place. -/
def wordAt (s : State) (p : Spot) : Nat := leNat ((look (settled s) p.locs).map fun x => BitVec.ofNat 8 x.2)

/-- An atomic is one read and one write, performed as a single access (R309); `f` gives what is written, none where it is a load (R256). -/
def atomicR (f : Nat → Nat → Nat → Option Nat) (o : HT48VM) : Rec Unit := do
  let s ← now
  let n := fmtBytes o.fmt
  let d : Fin 32 := Fin.ofNat 32 o.v.val
  let g := scalarAddr (s.getR o.base) o.disp
  let p ← placeR g n .write
  let _ ← act (hbmPlace g n)
  let s ← now
  let a : Access := { scalarAccess s with needs := regCell s o.base.val ++ regCell s o.s.val ++ regCell s o.v.val ++ branches s, dst := regCell s d.val
                                          acquire := acquires o.order o.scope }
  match f (wordAt s p) ((s.getR o.s).toNat % 256 ^ n) ((s.getR d).toNat % 256 ^ n) with
  | some v =>
    let _ ← say { a.reading s p with writes := p.locs.zip ((leBytes n v).map BitVec.toNat), atomic := true, release := releases o.order o.scope }
  | none =>
    let _ ← say (a.reading s p)

/-! ### Vector stores (R250 to R252) -/

/-- Element stores in ascending order. A 4-bit element merges into its byte, as it stands after the elements before it. -/
def elementStores (s : State) (w : Nat) (data : Nat → Nat) (mark : Nat → Access) (l : List (Nat × Spot)) : List Access :=
  let t := settled s
  l.foldl (fun (l : List Access) (e, p) =>
    let old (x : Loc) : Nat := match (l.flatMap (·.writes)).reverse.find? fun y => y.1 == x with | some y => y.2 | none => valueAt t x
    let a : Access := { (mark e).at' p with elem := e, port := lanePort s e }
    l ++ [if w = 4 then { a with reads := p.locs.map fun x => (x, old x), writes := p.locs.map fun x => (x, mergeNibble e (old x) (data e)) }
          else { a with writes := p.locs.zip ((leBytes (w / 8) (data e)).map BitVec.toNat) }]) []

/-- What an element of a vector store carries. -/
def storeMark (s : State) (v : Operand) (order : Order) (scope : Scope) (needs : Nat → List Cell) (e : Nat) : Access :=
  { needs := elemCells s v e ++ needs e ++ branches s, acquire := acquires order scope, release := releases order scope }

/-- The elements of a global store that are performed: those below the first that merges into a failing sector (R111). -/
def storedOf (w : Nat) (l : List (Nat × Mapped)) : Act (List (Nat × Mapped)) := do
  forEach l fun (_, m) => modify fun s => s.recallAll m.pa (max 1 (w / 8)) true none
  let s ← get
  return (mergeCut (fun x => nibbles w x.1 x.2.pa) (fun x k => s.badSectors.contains k || s.otherKey (some x.2.key) k) (l.length + 1) l none).1

/-- A vector access opens its sources, and waits where they are not there (R149). -/
def openR (f : Fmt) (g : Group) (mask : Fin 8) (srcs : List Operand) : Rec Nat := act (do
  checkLength (← countOf g f)
  let mk ← govMask mask
  openOperands srcs []
  return mk)

/-- A global vector store, as globalStore performs it. -/
def globalR (f : Fmt) (g : Group) (mask : Fin 8) (srcs : List Operand) (order : Order) (scope : Scope) (needs : Nat → List Cell) (vstx : Bool)
    (addr : List Nat → Nat → Int) : Rec Unit := do
  let w := f.width
  let mk ← openR f g mask srcs
  let (es, bad) ← act (remaining srcs mk)
  let vals ← act (srcs.mapM readOperand)
  let l ← sortAll (addr vals) (max 1 (w / 8)) .write [] es
  let (l, _) ← act (do return belowBad bad (← passed l))
  let l ← act (storedOf w l)
  let s ← now
  match srcs with
  | v :: _ =>
    let _ ← sayAll (elementStores s w (elemAt w (val vals 0)) (fun e => { storeMark s v order scope needs e with vstx := vstx })
      (l.map fun (e, m) => (e, Spot.cur s (vaOfInt (addr vals e)) m (max 1 (w / 8)))))
  | [] => pure ()

def storeV (o : HT48VM) : Operand := ⟨o.v.val, o.group.size, o.fmt.width⟩

/-! ### The scratchpad (R118, R160) -/

/-- The address function of VLDP and VSTP. -/
def padAddrOf (s : State) (o : HT48VM) : Nat → Int :=
  padAddr (scalarAddr (s.getR o.base) o.disp) (if o.s = 0 then none else some (s.getR o.s).toInt) o.fmt.width

def vldpR (o : HT48VM) : Rec Unit := do
  let w := o.fmt.width
  let size := max 1 (w / 8)
  let s ← now
  let addr := padAddrOf s o
  let dst := storeV o
  act (do
    checkLength (← countOf o.group o.fmt)
    trapIf ((← getCur).bindings.any fun (v, b) => overlaps dst v b) Cause.stream)
  let es := activeList s.cur.vstart.toNat s.cur.vl.toNat (← act (govMask o.mask))
  let (es, _, _) := padPart s false addr (padElems s addr size es)
  act (padGuards addr es)
  let _ ← upTo (fun e => do
    let p ← padR (addr e) size false
    let a : Access := { elem := e, port := lanePort s e, needs := regCell s o.base.val ++ regCell s o.s.val, dst := elemCells s dst e
                        acquire := acquires o.order o.scope, release := releases o.order o.scope }
    say (a.reading (← now) p)) es

def vstpR (o : HT48VM) : Rec Unit := do
  let w := o.fmt.width
  let size := max 1 (w / 8)
  let src := storeV o
  let mk ← openR o.fmt o.group o.mask [src]
  let (es, bad) ← act (performList [src] mk)
  let v ← act (readOperand src)
  let s ← now
  let addr := padAddrOf s o
  let (es, fault, trim) := padElems s addr size es
  act (padGuards addr es)
  let (es, _, _) := padPart s true addr (es, endFault fault (if trim.isSome then none else bad), trim)
  let l ← upTo (fun e => padR (addr e) size true) es
  if (← get).violated then failure else pure ()
  let s ← now
  let refs := l.filterMap fun (e, _) => (s.padRef (addr e)).map fun r => (e, r)
  let kept := (mergeCut (fun (x : Nat × PadRef) => nibbles w x.1 x.2.place) (fun x _ => (s.core x.2.core).badSp.contains (x.2.off / 32))
    (refs.length + 1) refs none).1.map Prod.fst
  let _ ← sayAll (elementStores s w (elemAt w v) (storeMark s src o.order o.scope fun _ => regCell s o.base.val ++ regCell s o.s.val)
    (l.filter fun x => kept.contains x.1))

/-- The tile loads (R229, R233, R234): the header, then the image where the header fits. -/
def tileR (o : HT48VM) : Rec Unit := do
  act (modCore Core.swapTile)
  let s ← now
  let sa := scalarAddr (s.getR o.base) o.disp
  let a : Access := { port := scalarPort s, needs := regCell s o.base.val, dst := [.tile], acquire := acquires o.order o.scope }
  act (padAligned sa)
  let h := leNat (← act (padBlock sa 64))
  let _ ← padBlockR sa 64 a
  if headerOk (headerOf h) o.fmt then
    match ask s (readTile o.fmt sa) with
    | some x =>
      let _ ← padBlockR (sa + 64) (x.image.length - 64) a
    | none => pure ()
  else pure ()

/-- CBLOAD (R235). -/
def cbloadR (o : HT48VM) : Rec Unit := do
  act (needFeature 1)
  let s ← now
  let sa := scalarAddr (s.getR o.base) o.disp
  act (padAligned sa)
  let _ ← act (padBlock sa 2048)
  let _ ← padBlockR sa 2048 { port := scalarPort s, needs := regCell s o.base.val, dst := [.book (o.v.val % 2)], acquire := acquires o.order o.scope }

/-! ### Flags and windows (R255, R306) -/

/-- The flag-wait unit reads the armed flags in order, up to the first that is not satisfied; `fin` marks the reads with which the wait
ends, which carry its acquire. -/
def watchR (o : HT48VM) (base : Int) (v : Nat) (fin : Bool) : List Nat → Rec Unit
  | [] => pure ()
  | e :: es => do
    let n := o.fmt.width / 8
    let p ← placeR (flagAddr base n e) n .read
    let s ← now
    let a : Access := { role := .unit, elem := e, port := lanePort s e, needs := regCell s o.base.val, apart := some (.inCore s.curCoreId (2 * (← turnNo)))
                        acquire := if fin then acquires o.order o.scope else none }
    let _ ← say (a.reading s p)
    if fmtInt o.fmt (elemAt o.fmt.width v e) ≤ fmtInt o.fmt (wordAt s p) then watchR o base v fin es else pure ()

/-- VWAITF: the pages of the flags as they are armed, then the armed prefix. -/
def vwaitfR (o : HT48VM) (fin : Bool) : Rec Unit := do
  let n := o.fmt.width / 8
  let src := storeV o
  let mk ← openR o.fmt o.group o.mask [src]
  let v ← act (readOperand src)
  act (modify fun s => { s with upto := none })
  let s ← now
  let base := scalarAddr (s.getR o.base) o.disp
  match s.cur.flagWait.filter fun w => !w.arming with
  | some w => watchR o base v fin w.armed
  | none =>
    let (es, bad) ← act (remaining [src] mk)
    let _ ← sortAll (flagAddr base n) n .read [] es
    let w ← act (armFlags base n s.cur.vl.toNat es bad)
    if w.arming then pure () else watchR o base v fin w.armed

/-- AMERGE: one read and one write of each element, as a single access; `t` is the machine after it. -/
def amergeR (t : State) : Rec Unit := do
  let s ← now
  match s.cur.window with
  | none => pure ()
  | some w =>
    let n := w.fmt.width / 8
    let addr (i : Nat) : Int := w.base.toInt + (i * n : Nat)
    let rl := (decHT48VM s.tail.toNat).bind fun o => releases o.order o.scope
    let es := (List.range w.wn).filter fun i => decide (s.cur.vstart.toNat ≤ i) && !(w.copiesOf s.lanes i).isEmpty
    let (l, _) ← act (passed (hbmPages addr (← sortAll addr n .write [] es)))
    let _ ← upTo (fun (i, m) => do
      let _ ← act (readPa (some m.key) m.pa n (vaOfInt (addr i)))
      let s ← now
      let p := Spot.cur s (vaOfInt (addr i)) m n
      let a : Access := { elem := i, port := lanePort s i, needs := .windowBase :: .window i :: branches s, release := rl, atomic := true }
      say { a.reading s p with writes := look t p.locs }) l

/-! ### Loads into bound registers (R155 to R159) -/

/-- Translates the pages of the elements of an entry (R86). -/
def sourcesR (src : Nat → Source) : List Page → List Nat → Rec (Sorted (Option Spot))
  | _, [] => pure []
  | pages, e :: es => do
    match src e with
    | .zero => return (e, .at' none) :: (← sourcesR src pages es)
    | .fault c a => return (e, .fault { cause := c, addr := a }) :: (← sourcesR src pages es)
    | .at' a n _ =>
      let (r, pages) ← sortR pages a n .read
      let s ← now
      return (e, r.map fun m => some (Spot.cur s (vaOfInt a) m n)) :: (← sourcesR src pages es)

/-- The reads that fill elements, of width w, of an entry of register v. -/
def fillR (v w : Nat) (src : Nat → Source) (es : List Nat) (a : Nat → Access) : Rec Unit := do
  let (l, _) := passing (← sourcesR src [] es)
  let s ← now
  let _ ← sayAll (l.filterMap fun (e, p) => p.map fun p => { (a e).reading s p with elem := e, dst := filledCells v w e })

/-- What a fill of an explicit load carries: it is a thread of an engine of the core, forked by the load (Table 22.2); with .AQ its reads
are acquires. -/
def fillMark (s : State) (n : Nat) (needs : List Cell) (acq : Option Scope) : Access :=
  { role := .fill, needs := needs, acquire := acq, apart := some (.inCore s.curCoreId (2 * n)) }

/-- An explicit load of n elements into the binding of v, once it has a place. -/
def explicitR (v : Nat) (g : Group) (w n : Nat) (src : Nat → Source) (needs : Nat → List Cell) (acq : Option Scope) : Rec Unit := do
  let b ← act (loadBinding v g)
  act (waitFor ((b.filling.isSome || b.room) && b.rows.isEmpty))
  let k ← turnNo
  let s ← now
  fillR v w src (b.toRead n) fun e => fillMark s k (needs e) acq

/-- VLD, VLDS, VLDFF. -/
def vldR (strided : Bool) (o : HT48VM) : Rec Unit := do
  let s ← now
  let w := o.fmt.width
  let full := entryElems s o.group w
  let a := (s.getR o.s).toNat
  let n := if bits a 32 16 = 0 then full else bits a 32 16
  act (trapIf (bits a 48 16 != 0 || (!strided && bits a 0 32 != 0) || decide (full < n)) Cause.stream)
  let base := scalarAddr (s.getR o.base) o.disp
  let stride := (BitVec.ofNat 32 a).toInt
  explicitR o.v.val o.group w n (fun e => if strided then sourceOf w e (base + e * stride) else sourceOf w e (base + (e * w / 8 : Nat)))
    (fun _ => regCell s o.base.val ++ regCell s o.s.val) (acquires o.order o.scope)

/-- VLDW. -/
def vldwR (o : HT48VM) : Rec Unit := do
  let s ← now
  let w := o.fmt.width
  let base := scalarAddr (s.getR o.base) o.disp
  explicitR o.v.val o.group w (entryElems s o.group w) (fun e => sourceOf w e (base + (e * w / 8 : Nat))) (fun _ => regCell s o.base.val)
    (acquires o.order o.scope)

/-- A read of the load's own of a chunk object. -/
def chunkReadR (a : Int) (n : Nat) (x : Access) : Rec (List Nat) := do
  if canonicalInt a then readCurR (vaOfInt a) n x else failure

/-- The heads of the chunks of a VLDCH as it reads them: the offset, the bitmap, the next offset. -/
def chunkHeadsR (obj : Int) (tab data nch c : Nat) (x : Access) : List Nat → Rec Unit
  | [] => pure ()
  | k :: ks => do
    if nch ≤ c + k then chunkHeadsR obj tab data nch c x ks
    else
      let p ← chunkReadR (obj + tab + 4 * (c + k : Nat)) 4 x
      let off ← act (chunkRead (obj + tab + 4 * (c + k : Nat)) 4)
      if off % 16 != 0 then failure else pure ()
      let _ ← chunkReadR (obj + data + off) 16 { x with after := x.after ++ p }
      if c + k + 1 < nch then
        let _ ← chunkReadR (obj + tab + 4 * (c + k + 1 : Nat)) 4 x
      else pure ()
      chunkHeadsR obj tab data nch c x ks

/-- VLDCH (R158). -/
def vldchR (o : HT48VM) : Rec Unit := do
  let b ← act (loadBinding o.v.val o.group)
  let s ← now
  let w := o.fmt.width
  let n := entryElems s o.group w
  act (do
    trapIf (decide (w < 4) || decide (32 < w) || n % 128 != 0) Cause.stream
    waitFor ((b.filling.isSome || b.room) && b.rows.isEmpty))
  let obj := scalarAddr (s.getR o.base) o.disp
  let c := (s.getR o.s).toNat
  let e0 := b.partial'.2.2
  let k ← turnNo
  let x := fillMark s k (regCell s o.base.val ++ regCell s o.s.val) (acquires o.order o.scope)
  if (vaOfInt obj).toNat % 64 != 0 then failure else pure ()
  let h ← chunkReadR obj 32 x
  let (nch, tab, data) ← act (chunkHeader obj o.fmt)
  let ks := rangeFrom (e0 / 128) (n / 128)
  let _ ← attempt (chunkHeadsR obj tab data nch c { x with after := h } ks)
  let own := List.range (← get).l.length
  let heads ← act (chunkHeads obj w nch tab data c ks)
  fillR o.v.val w (chunkSource w heads) (b.toRead n) fun _ => { x with after := own }

/-- The cells of element e of the index entry that a load pops. -/
def indexCells (x : Fin 64) (e : Nat) : List Cell := (List.range 16).map fun j => .popped x.val (16 * e + j)

/-- VLDX and VLDT (R159). -/
def vldxR (o : HT48VX) : Rec Unit := do
  let (_, idx, wb) ← act (do
    let _ ← loadBinding o.v.val o.group
    indexEntry o.x.val)
  let s ← now
  let w := o.fmt.width
  let base := (s.getR o.base).toInt + o.disp.toInt
  explicitR o.v.val o.group w (min (entryElems s o.group w) (wb / 64)) (fun e => sourceOf w e (base + (BitVec.ofNat 64 (elemAt 64 idx e)).toInt))
    (fun e => regCell s o.base.val ++ indexCells o.x e) none

def vldtR (o : HT48VX) : Rec Unit := do
  let (_, v, wb) ← act (do
    let _ ← loadBinding o.v.val o.group
    indexEntry o.x.val)
  let s ← now
  let w := o.fmt.width
  act (trapIf (decide (wb < 1024)) Cause.stream)
  match shapeOf o.fmt (entryElems s o.group w) v with
  | none => pure ()
  | some sh =>
    explicitR o.v.val o.group w sh.count (sh.source w ((s.getR o.base).toInt + o.disp.toInt))
      (fun _ => regCell s o.base.val ++ (List.range 16).flatMap (indexCells o.x)) none

/-- SBIND (R152, R153): the record, and the descriptor of a KV-extent stream, whose read is an acquire at .DI (R106). -/
def sbindR (o : HT16VS) : Rec Unit := do
  let s ← now
  let a := s.getR o.s
  if o.s = 0 ∨ a.toNat % 64 ≠ 0 ∨ !canonical a then pure ()
  else
    let x : Access := { plainAccess s [o.s.val] with dst := [.binding o.v.val] }
    let rec' ← readCurR a 64 x
    let r ← act (readBlockCur a 64)
    match recordOf (leNat r) with
    | some b =>
      if b.kind = 2 ∧ bindFits s.cur o.v.val b then
        let _ ← act (withDescriptor o.v.val b)
        let _ ← readCurR b.base 320 { x with acquire := some .di, after := rec' }
      else pure ()
    | none => pure ()

/-! ### Descriptors (R93 to R104) -/

/-- Runs an operation that writes a block, and records the writes as they stand after it. -/
def writeThrough (va : BitVec 64) (n : Nat) (m : Act Unit) (a : Access) : Rec (List Nat) := do
  let s ← now
  let ps ← blockR s.curHart.die s.cur.asid va n .write
  act m
  let s ← now
  sayAll (ps.map fun (x, len, m) => a.writing (settled s) (Spot.cur s x m len))

/-- The descriptor of KVXL, KVAPP and KVTRUNC (R100): its header, whose line stays locked (R95), and its entries. -/
def descR (va : BitVec 64) (a : Access) : Rec (Desc × List Nat) := do
  act (trapIf (!canonical va || va.toNat % 64 != 0) Cause.kvDescriptor)
  let h ← readCurR va 64 { a with lock := true }
  let hd ← act (readBlockCur va 64)
  let e ← readCurR (va + 64) (16 * min (bits (leNat hd) 32 5) 16) { a with after := h }
  return (← act (liveDesc va), h ++ e)

/-- KVMAP (R101): nothing is written where the image is not valid. -/
def kvmapR (o : HT16R) : Rec Unit := do
  let s ← now
  let a := s.getR o.a
  let b := s.getR o.b
  let src := if b = 0 then a else b
  let x := plainAccess s [o.a.val, o.b.val]
  if !canonical src || src.toNat % 64 != 0 then failure else pure ()
  let rd ← readCurR src 320 { x with dst := regCell s o.d.val }
  let v := leNat (← act (readBlockCur src 320))
  if descCode v != 0 || !canonical a || a.toNat % 64 != 0 then pure ()
  else
    let _ ← writeThrough a 320 (writeBlockCur a (leBytes 320 (v ||| 2 ^ 63)))
      { x with part := 1, release := some .di, needs := x.needs ++ branches s, after := rd }

/-- KVXL (R102): an acquire at .DI (R106). -/
def kvxlR (o : HT16R) : Rec Unit := do
  let s ← now
  let _ ← descR (s.getR o.a) { plainAccess s [o.a.val] with acquire := some .di, dst := regCell s o.d.val }

/-- KVAPP (R103): the descriptor; the new extent's entry and word; the row, from the scratchpad; then LEN, whose release at .DI orders
them. -/
def kvappR (o : HT16R) : Rec Unit := do
  let s ← now
  let va := s.getR o.a
  let sb := s.getR o.b
  let a := plainAccess s [o.a.val]
  let (d, ds) ← descR va { a with dst := regCell s o.d.val }
  act (do
    trapIf (sb.toNat % 64 != 0 || decide (0x80000 < sb.toNat + d.rowb)) Cause.kvDescriptor
    trapIf (decide (d.len = 2 ^ 32 - 1) && d.len != capOf d.exts) Cause.kvDescriptor)
  let a := { a with needs := a.needs ++ branches s, after := ds }
  let d ← if d.len = capOf d.exts then do
      act (trapIf (d.cnt == 16) Cause.kvExtentLimit)
      let at' := va + 64 + BitVec.ofNat 64 (16 * d.cnt)
      let e ← blockR s.curHart.die s.cur.asid at' 16 .write
      let h ← blockR s.curHart.die s.cur.asid va 8 .write
      let d' ← act (kvappGrow va d)
      let s ← now
      let _ ← sayAll ((e ++ h).map fun (x, len, m) => ({ a with part := 1 } : Access).writing (settled s) (Spot.cur s x m len))
      pure d'
    else pure d
  match rowAddr d.exts d.len with
  | none => pure ()
  | some r =>
    let ps ← blockR s.curHart.die s.cur.asid r d.rowb .write
    let row ← padBlockR sb.toNat d.rowb { a with part := 1, needs := regCell s o.b.val }
    act (rowOut sb.toNat d.rowb r)
    let s ← now
    let _ ← sayAll (ps.map fun (x, len, m) => ({ a with part := 1, after := ds ++ row } : Access).writing (settled s) (Spot.cur s x m len))
    let _ ← writeThrough va 8 (writeBlockCur va (leBytes 8 { d with len := d.len + 1 }.dword0)) { a with part := 2, release := some .di, lock := true }

/-- KVTRUNC (R104). -/
def kvtruncR (o : HT16R) : Rec Unit := do
  let s ← now
  let va := s.getR o.a
  let n := (s.getR o.b).toNat
  let a := plainAccess s [o.a.val, o.b.val]
  let (d, ds) ← descR va { a with dst := regCell s o.d.val }
  if d.len ≤ n then pure ()
  else
    let gone := extentsFrom n 0 d.exts
    let _ ← act ((gone.filter (·.pool)).mapM fun e => folioEngine e.base e.ord.toNat)
    let _ ← writeThrough va 8 (writeBlockCur va (leBytes 8 { d with len := n, cnt := d.cnt - gone.length }.dword0))
      { a with part := 1, release := some .pk, lock := true, needs := a.needs ++ branches s, after := ds }

/-! ### Stage queues and rings (R64, R264, R265) -/

/-- SQPUSH: a store of the queue's storage, with a release at .DI. -/
def sqpushR (o : HT16R) : Rec Unit := do
  let s ← now
  let i := s.getR o.a
  let hi := s.getR (o.b + 1)
  let (t, q) ← act (ownQueue i)
  act (do
    trapIf (q.prod == 31 || q.prod != t.stage || bits hi.toNat 50 2 == 3) Cause.stageQueue
    waitFor (!q.full)
    pushStage t.slot i.toNat (hi ++ s.getR o.b))
  let _ ← say { plainAccess s [o.a.val, o.b.val, o.b.val + 1] with
    writes := look (settled (← now)) (memBytes ((s.hub.pipe t.slot).ringAddr i.toNat (q.pushed % q.depth)) 16), release := some .di
    needs := regCell s o.a.val ++ regCell s o.b.val ++ regCell s (o.b.val + 1) ++ branches s }

/-- SQPOP: a load of it, with an acquire at .PK. -/
def sqpopR (o : HT16R) : Rec Unit := do
  let s ← now
  let i := s.getR o.a
  let (t, q) ← act (ownQueue i)
  act (do
    trapIf (q.cons != t.stage) Cause.stageQueue
    waitFor (!q.entries.isEmpty))
  let _ ← say { plainAccess s [o.a.val] with
    reads := look (settled s) (memBytes ((s.hub.pipe t.slot).ringAddr i.toNat ((q.pushed - q.entries.length) % q.depth)) 16), acquire := some .pk
    dst := regCell s o.d.val ++ regCell s (o.d.val + 1) }

/-- BLAPP: a store of the entry that it appends; `t` is the machine after it. -/
def blappR (o : HT16R) (t : State) : Rec Unit := do
  let s ← now
  let k := (s.getR o.a).toNat
  if (s.ring k).app = (t.ring k).app then pure ()
  else
    let _ ← say { plainAccess s [o.a.val, o.b.val] with
      writes := look t [.ring k (s.ring k).app.toNat], release := some .di, needs := regCell s o.a.val ++ regCell s o.b.val ++ branches s }

/-- The entry form of BLREAD, where it returns an entry: a load of it, with an acquire at .DI. -/
def blreadR (o : HT16R) (fin : Bool) : Rec Unit := do
  let s ← now
  let k := (s.getR o.a).toNat
  let p := (s.getR o.b).toNat
  if !fin || (s.getR o.b).getLsbD 63 || decide (p < (s.ring k).rel.toNat) then pure ()
  else
    let _ ← say { plainAccess s [o.a.val, o.b.val] with reads := look s [.ring k p], acquire := some .di, dst := regCell s o.d.val }

/-! ### Objects that the hub reads for an instruction (R68, R275 to R277) -/

/-- An engine's read of an object's bytes, of HBM-tier pages. -/
def hubR (asid : BitVec 16) (va : BitVec 64) (n : Nat) (a : Access) : Rec (List Nat) := do
  let l ← readBlockR 0 asid va n a
  let _ ← act (hubRead asid va n)
  return l

/-- The work of an engine of HD for an instruction. -/
def hubMark (s : State) (n : Nat) (regs : List Nat) (dst : List Cell) : Access :=
  { plainAccess s regs with role := .unit, part := 1, apart := some (.onHub (4 * n + 2)), dst := dst }

/-- A vocabulary's header and five tables. -/
def vocabR (asid : BitVec 16) (va : BitVec 64) (a : Access) : Rec Unit := do
  let hd ← hubR asid va 64 a
  let h := leNat (← act (hubRead asid va 64))
  if !vocabHeaderOk h then pure ()
  else
    let _ ← ([(0, 256), (1, 32), (2, 1024), (3, 72 * bits h 96 16), (4, 16 * 2 ^ bits h 112 8)] : List (Nat × Nat)).mapM fun (i, n) =>
      hubR asid (va + BitVec.ofNat 64 (vocabOffset h i)) n { a with after := hd }

/-- VOCSWAP: an install, by an address space that may, of a vocabulary id that exists. -/
def vocswapR (o : HT16R) : Rec Unit := do
  let s ← now
  let asid := s.cur.asid
  let va := s.getR o.b
  astRead asid (Via.of s.curHart.die asid va 0)
  let ok := match ← act (astEntry asid va) with | some a => a.voc | none => false
  if !ok || decide (63 < (s.getR o.a).toNat) || va == 0 || va.toNat % 64 != 0 then pure ()
  else vocabR asid va (hubMark s (← turnNo) [o.a.val, o.b.val] (regCell s o.d.val))

/-- GMRESET: the header of an object, and its tables where it is not installed yet. -/
def gmresetR (o : HT16R) : Rec Unit := do
  let s ← now
  let n ← act (ownCtx o.a)
  let asid := s.cur.asid
  let va := s.getR o.b
  let a := hubMark s (← turnNo) [o.a.val, o.b.val] (regCell s o.d.val)
  if va = 0 ∨ va.toNat % 64 ≠ 0 ∨ (s.frozenOp 3 (stencilEngine n)).isSome then pure ()
  else
    let hd ← hubR asid va 64 a
    let h := leNat (← act (hubRead asid va 64))
    let obj := objectOf asid va h
    if ((s.hub.installed (stencilEngine n)).any fun x => x.asid == asid && x.va == va) || !objectHeaderOk h then pure ()
    else
      let _ ← ([(obj.classOff, obj.tokens), (obj.transOff, 8 * obj.states * obj.classes), (obj.maskOff, 64 * obj.chunks * obj.states)] :
        List (Nat × Nat)).mapM fun (off, len) => hubR asid (va + BitVec.ofNat 64 off) len { a with after := hd }

/-- GMSTEP: the token's class, then the transition and the mask of the state. -/
def gmstepR (o : HT16R) : Rec Unit := do
  let s ← now
  let n ← act (ownCtx o.a)
  let t := (s.getR o.b).toNat
  let c := s.ctx n
  match c.obj with
  | none => pure ()
  | some obj =>
    if decide (obj.tokens ≤ t) || o.d.val % 2 != 0 || decide (o.d.val < 2) || decide (14 < o.d.val) || (s.frozenOp 3 (stencilEngine n)).isSome then pure ()
    else
      let a := hubMark s (← turnNo) [o.a.val, o.b.val] (regCell s o.d.val ++ regCell s (o.d.val + 1))
      let rd (off len : Nat) (a : Access) : Rec (List Nat) := hubR obj.asid (obj.va + BitVec.ofNat 64 off) len a
      let cls ← rd (obj.classOff + t) 1 a
      let cl ← act (obj.read (obj.classOff + t) 1)
      let _ ← rd (obj.transOff + 8 * (c.state * obj.classes + cl)) 8 { a with after := cls }
      let _ ← rd (obj.maskOff + 64 * obj.chunks * c.state + t / 8) 1 a

/-- GMMASK: 64 bytes of the state's mask. -/
def gmmaskR (o : HT32V) : Rec Unit := do
  let s ← now
  let n ← act (ownCtx (Fin.ofNat 32 o.a.val))
  let w := (s.getR (Fin.ofNat 32 o.b.val)).toNat
  let c := s.ctx n
  match c.obj with
  | none => pure ()
  | some obj =>
    let dst : Operand := ⟨o.d.val, o.group.size, 8⟩
    if bits w 32 32 != 0 || decide (obj.chunks ≤ w) || (s.frozenOp 3 (stencilEngine n)).isSome then pure ()
    else
      act (openOperands [] [dst] true)
      let _ ← hubR obj.asid (obj.va + BitVec.ofNat 64 (obj.maskOff + 64 * (c.state * obj.chunks + w))) 64
        (hubMark s (← turnNo) [o.a.val, o.b.val] ((List.range 64).flatMap (elemCells s dst)))

/-! ### Everything else -/

/-- The code-object descriptor, read as an A-stream load (R284). -/
def forkR (o : HT16Q) : Rec Unit := do
  let s ← now
  let a := s.getR o.s
  if !s.cur.lastRdv || !canonical a || a.toNat % 32 != 0 then pure ()
  else
    let _ ← readCurR a 32 { scalarAccess s with needs := regCell s o.s.val }

/-- The stash instructions (R131): a mapping is translated for read (R127); SPINV gives the locations of the dirty sectors that it drops
the values that memory has held (R130). What SPUNMAP leaves is recorded with the regions that go. -/
def stashR (o : HT16R) (t : State) : Instr → Rec Unit
  | .spmap _ => do
    let s ← now
    let off ← act (stashOffset (s.getR o.a))
    let va := s.getR o.b
    if !canonical va || va.toNat % 4096 != 0 || decide (64 ≤ s.curCore.stash.length) ||
        s.curCore.stash.any (fun r => r.offset == off || (r.va == va && r.asid == s.cur.asid)) then pure ()
    else
      walks s.curHart.die s.cur.asid va .read
      if ((t.core s.curCoreId).regionAt off).isSome then
        let _ ← say { plainAccess s [o.a.val, o.b.val] with stash := true, region := some (coreKey s.curCoreId, off) }
      else pure ()
  | .spinv _ => do
    let s ← now
    match s.curCore.regionAt (s.getR o.a).toNat with
    | none => pure ()
    | some r =>
      let dropped := r.valid.flatMap fun (_, l) => (if l.dirty.1 then memBytes l.pa 32 else []) ++ (if l.dirty.2 then memBytes (l.pa + 32) 32 else [])
      let _ ← say { plainAccess s [o.a.val] with stash := true, region := some (coreKey s.curCoreId, r.offset), writes := look s dropped }
  | .spflush _ => do
    let s ← now
    if (s.curCore.regionAt (s.getR o.a).toNat).isSome then
      let _ ← say { plainAccess s [o.a.val] with stash := true, region := some (coreKey s.curCoreId, (s.getR o.a).toNat) }
    else pure ()
  | _ => pure ()

/-- The failed elements of entries popped before a fault, read again (R341). -/
def rereadsR : Rec Unit := do
  let s ← now
  if s.curStream != .x then pure ()
  else
    let _ ← s.cur.popBad.mapM fun (_, b) => attempt (do
      let n := (b.width + 7) / 8
      let p ← match b.pad with
        | some (c, off) => offR c off n false
        | none => placeR b.va.toInt n .read
      let _ ← say (({ role := .unit, apart := some (.inCore s.curCoreId (2 * (← turnNo))) } : Access).reading (← now) p))

/-- The accesses of an instruction of a stream: `fin` says that it completes with this turn, `t` is the machine after it, settled. The
C-stream makes none (R310). -/
def streamR (i : Instr) (fin : Bool) (t : State) : Rec Unit := do
  let s ← now
  match i with
  | .ldb o | .ldbn o => loadR 1 o (regCell s o.d.val)
  | .ldh o | .ldhn o => loadR 2 o (regCell s o.d.val)
  | .ldw o | .ldwn o => loadR 4 o (regCell s o.d.val)
  | .ldd o => loadR 8 o (regCell s o.d.val)
  | .waiteq o | .waitne o => loadR 4 o []
  | .stb o => storeR 1 o
  | .sth o => storeR 2 o
  | .stw o => storeR 4 o
  | .std o => storeR 8 o
  | .amoadd o => atomicR (fun old x _ => some ((old + x) % 2 ^ o.fmt.width)) o
  | .amomin o => atomicR (fun old x _ => some (if fmtInt o.fmt old ≤ fmtInt o.fmt x then old else x)) o
  | .amomax o => atomicR (fun old x _ => some (if fmtInt o.fmt old ≤ fmtInt o.fmt x then x else old)) o
  | .amoand o => atomicR (fun old x _ => some (old &&& x)) o
  | .amoor o => atomicR (fun old x _ => some (old ||| x)) o
  | .amoswp o => atomicR (fun _ x _ => some x) o
  | .amocas o => atomicR (fun old x cmp => if old = cmp then some x else none) o
  | .vst o =>
    let base := scalarAddr (s.getR o.base) o.disp
    globalR o.fmt o.group o.mask [storeV o] o.order o.scope (fun _ => regCell s o.base.val) false fun _ e => base + (e * o.fmt.width / 8 : Nat)
  | .vsts o =>
    let base := scalarAddr (s.getR o.base) o.disp
    let st := (s.getR o.s).toInt
    globalR o.fmt o.group o.mask [storeV o] o.order o.scope (fun _ => regCell s o.base.val ++ regCell s o.s.val) false fun _ e => base + e * st
  | .vstx o =>
    let base := (s.getR o.base).toInt + o.disp.toInt
    let x := indexOperand o.x o.group o.fmt
    globalR o.fmt o.group o.mask [⟨o.v.val, o.group.size, o.fmt.width⟩, x] o.order o.scope (fun e => regCell s o.base.val ++ elemCells s x e) true
      fun vals e => base + (BitVec.ofNat 64 (elemAt 64 (val vals 1) e)).toInt
  | .vstp o => vstpR o
  | .vldp o => vldpR o
  | .mtload o | .mtloadq o => tileR o
  | .cbload o => cbloadR o
  | .vwaitf o => vwaitfR o fin
  | .amerge => amergeR t
  | .vld o | .vldff o => vldR false o
  | .vlds o => vldR true o
  | .vldw o => vldwR o
  | .vldch o => vldchR o
  | .vldx o => vldxR o
  | .vldt o => vldtR o
  | .sbind o => sbindR o
  | .kvmap o => kvmapR o
  | .kvxl o => kvxlR o
  | .kvapp o => kvappR o
  | .kvtrunc o => kvtruncR o
  | .sqpush o => sqpushR o
  | .sqpop o => sqpopR o
  | .blapp o => blappR o t
  | .blread o => blreadR o fin
  | .flpost o =>
    let _ ← readCurR (s.getR o.b) 64 (plainAccess s [o.b.val])
  | .vocswap o => vocswapR o
  | .gmreset o => gmresetR o
  | .gmstep o => gmstepR o
  | .gmmask o => gmmaskR o
  | .fork o => forkR o
  | .spmap o | .spinv o | .spflush o => stashR o t i
  | .mrldff o =>
    -- the pages of the rows (R239); the rows are read by MRLDFF_ROW_FILL
    match s.cur.bind o.v.val with
    | some b =>
      if b.kind != 0 || b.grp != o.group || b.fmt != o.fa || !canonical (s.getR o.s) || (s.getR o.s).toNat % 64 != 0 then pure ()
      else
        act (modify fun s => { s with upto := none })
        let l := rowLines (s.getR o.s) (s.regBits * b.grp.size / 8) b.fmt.width o.count.val
        let _ ← sortAll (fun k => match l[k]? with | some (_, _, p) => p.toInt | none => 0) 1 .read [] (List.range l.length)
    | none => pure ()
  | _ => pure ()

end Sys2Proof.Machine.Consistency
end

