-- ==== Sys2Proof/Machine/EngineAccesses.lean ====
section
/-! DEFINITION. The accesses of fetches, of the engines, of the supervisor cores and of the hosts, in the consistency model, and all the
accesses of a turn (R36, R309, R316, R355). -/

namespace Sys2Proof.Machine.Consistency

/-! ### Fetches (R35, R36) -/

/-- The sectors, by their offsets, that a turn of a stream fetches of its line. -/
def fetched (i : Inst) (s : State) : List Nat :=
  let r := s.curSt
  match i.turn with
  | .ahead _ _ upper => if (r.holds false).isSome then [] else [if upper then 32 else 0]
  | _ =>
    if (r.holds s.fresh).isSome then []
    else match r.sector.filter fun x => x.addr == lineOf r.pc with
      | none => [0, 32]
      | some x => [if x.upper then 0 else 32]

/-- A fetch: each 32-byte sector of the line is read whole, and is wholly old or wholly new. -/
def fetchR (i : Inst) : Rec Unit := do
  let s ← now
  let la := lineOf s.curSt.pc
  let l := fetched i s
  if l.isEmpty || !canonical la then pure ()
  else
    walks s.curHart.die s.cur.asid la .fetch
    let m ← act (translate s.curHart.die s.cur.asid la .fetch)
    let s ← now
    let _ ← sayAll (l.map fun o => ({ role := .fetch } : Access).reading s (Spot.cur s (la + BitVec.ofNat 64 o) { m with pa := m.pa + o } 32))

/-! ### Copies and fills (R134 to R136, R153, R239) -/

/-- One side of an iteration: the source's reads. -/
def copyReadR (pad : Bool) (g : Int) (n : Nat) (a : Access) : Rec (List Nat) := do
  let s ← now
  if pad then
    match unitPieces s g n with
    | none => failure
    | some ps =>
      act (forEach ps fun (r, _) => padGuard g r)
      ps.mapM fun (r, len) => do
        let p ← offR r.core r.off len false
        say (a.reading (← now) p)
  else if !canonicalInt g || g % 8 != 0 then failure
  else readCurR (vaOfInt g) n a

/-- The bytes of a write that are performed: a merge into a failing sector is not (R111). -/
def keptBytes (pa n : Nat) (fails : Nat → Bool) : List Loc :=
  (sectorPieces pa n).flatMap fun (o, len) => if decide (len < 32) && fails (o / 32) then [] else memBytes o len

/-- The destination's writes of the bytes b. -/
def copyWriteR (pad : Bool) (g : Int) (b : Moved) (a : Access) : Rec Unit := do
  let s ← now
  let n := b.length
  if pad then
    match unitPieces s g n with
    | none => failure
    | some ps =>
      act (forEach ps fun (r, _) => padGuard g r)
      let l ← ps.mapM fun (r, len) => do return (r, len, ← offR r.core r.off len true)
      let old ← now
      act (copyWrite pad g b)
      let t := settled (← now)
      let _ ← sayAll (l.filterMap fun (r, len, p) =>
        if decide (len < 32) && (old.core r.core).badSp.contains (r.off / 32) then none else some (a.writing t p))
  else if !canonicalInt g || g % 8 != 0 then failure
  else
    let ps ← blockR s.curHart.die s.cur.asid (vaOfInt g) n .write
    let old ← now
    act (copyWrite pad g b)
    let s ← now
    let _ ← sayAll (ps.map fun (x, len, m) =>
      let p := Spot.cur s x m len
      a.writing (settled s) { p with locs := keptBytes m.pa len fun k => old.badSectors.contains k || old.otherKey (some m.key) k })

/-- One iteration of a copy: its source, then its destination. -/
def copyR : Rec Unit := do
  let s ← now
  let (core, handle) := (s.req.core, s.req.handle.val)
  match s.activeCopy core handle with
  | none => pure ()
  | some (h, x, _, c) =>
    if c.total ≤ c.iter then pure ()
    else
      act (modify fun s => { (s.setHart h x) with curHart := h, curStream := .c })
      let a : Access := { role := .engine, needs := [.well (coreKey core) handle] }
      let pad := c.ctl.getLsbD 16
      let rd ← copyReadR pad (c.source c.iter) c.unit a
      let b ← act (copyRead pad (c.source c.iter) c.unit)
      if c.dest.isSome then pure ()
      else copyWriteR (!pad) (c.target c.iter) b { a with part := 1, after := rd }

/-- The fill of one entry of a stream, or of a row. -/
def streamFillR (row : Bool) : Rec Unit := do
  let s ← now
  let h := s.req.hart
  let v := s.req.reg.val
  match (s.hart h).bind v with
  | none => pure ()
  | some b =>
    let ready := s.fillable h && (if row then !b.rows.isEmpty && (b.filling.isSome || b.room)
      else (b.kind == 1 || b.kind == 2) && (b.filling.isSome || (decide (b.cursor < b.total) && b.room)))
    if !ready then pure ()
    else
      act (modify fun s => { s with curHart := h, curStream := .a })
      let s ← now
      let w := if row || b.kind = 1 then b.fmt.width else 64
      let src (e : Nat) : Source :=
        if row then match b.rows with
          | a :: _ => .at' (a.toInt + (e * w / 8 : Nat)) (max 1 (w / 8)) 0
          | [] => .zero
        else fillSource b b.index (positionsPer s b) e
      fillR v w src (b.toRead (s.regBits * b.grp.size / w)) fun _ => { role := .fill, needs := if row then [.row v] else [.binding v] }

/-! ### The engines of the hub -/

/-- LIGATURE_PUSH: the vocabulary as the engine tokenises, then the entry that it pushes, to be acquired at .PK (R62). -/
def ligatureR (t : State) : Rec Unit := do
  let s ← now
  match s.hub.openOf s.req.value with
  | some r =>
    if r.ready && !r.cancelled && r.engine == s.req.engine then
      match (s.hub.versions r.vocab.toNat).find? fun v => v.version == r.version with
      | some v =>
        let _ ← attempt (vocabR v.asid v.va { role := .engine })
      | none => pure ()
    else pure ()
  | none => pure ()
  let _ ← (s.hub.pipes.flatMap fun (k, p) => p.queues.zipIdx.map fun (q, j) => (k, p, q, j)).mapM fun (k, p, q, j) => do
    match (t.hub.pipe k).queue j with
    | some y =>
      if q.pushed < y.pushed then
        let _ ← say { role := .engine, part := 1, release := some .pk, writes := look t (memBytes (p.ringAddr j (q.pushed % q.depth)) 16) }
      else pure ()
    | none => pure ()

/-- The entries and render bytes that the scribe reads (R270, R271); `t` is the machine after it. -/
def scribeR (t : State) : Rec Unit := do
  let s ← now
  let k := s.req.ring.val
  let r := s.ring k
  let base := r.rtab.toNat * 64
  let s' := settled s
  let rd (pa n : Nat) (x : List Nat) : Rec Nat := say { role := .engine, reads := look s' (memBytes pa n), after := x }
  let _ ← (List.range ((t.ring k).emit.toNat - r.emit.toNat)).mapM fun j => do
    let p := r.emit.toNat + j
    let e := r.entry p
    let x ← say { role := .engine, reads := look s [.ring k p] }
    if e.fin then pure ()
    else
      let hd ← rd base 16 []
      let v := leNat (s'.peek base 16)
      if bits v 0 32 ≠ 0x52444E52 ∨ bits v 64 64 % 64 ≠ 0 ∨ bits v 32 32 ≤ e.token.toNat then pure ()
      else
        let at' := base + 64 + 8 * e.token.toNat
        let en ← rd at' 8 [x, hd]
        let w := leNat (s'.peek at' 8)
        if bits w 40 24 ≠ 0 then pure ()
        else
          let _ ← rd (base + bits v 64 64 + bits w 0 32) (bits w 32 8) [hd, en]

/-- PROMOTION_COMPLETE (R91): the page's writes; the deadline word, with an acquire at .PK; then the walk to the leaf and its
compare-and-swap at .PK. -/
def promotionR : Rec Unit := do
  let s ← now
  let p := s.req.promotion
  if !s.hub.promotions.contains p then pure ()
  else
    act (modify fun s => { s with fresh := true })
    let s ← now
    let level := match ask s (walk p.asid p.leafVa) with | some l => l.level | none => 0
    act (promote p)
    let t := settled (← now)
    let old := settled s
    let _ ← say { role := .engine, writes := look t (memBytes (p.frame.toNat / 2 ^ 16 * 2 ^ 16) (2 ^ pageBits level)) }
    let _ ← say { role := .engine, part := 1, acquire := some .pk, reads := look old (memBytes p.deadline.toNat 8) }
    match ask s (astEntry p.asid p.leafVa) with
    | some (some a) =>
      let w : Access := { role := .engine, part := 2, acquire := some .pk }
      if s.hub.astEn then
        let _ ← say { w with reads := look old (memBytes (s.hub.astBase.toNat * 2 ^ 21 + 32 * p.asid.toNat) 32) }
      else pure ()
      let _ ← sayAll ((entriesOf old p.leafVa 4 3 a.root).map fun x => { w with reads := look old (memBytes x 8) })
      match ask s (walk p.asid p.leafVa) with
      | some l =>
        let swaps := l.ent == p.expected
        let _ ← say { w with part := 3, reads := look old (memBytes l.addr 8), writes := if swaps then look t (memBytes l.addr 8) else []
                             atomic := swaps, release := if swaps then some .pk else none }
      | none => pure ()
    | _ => pure ()

/-- The messages that land (R363): the payload in full, then the completion record, with a release at .PK. Each is an operation of the
receive engine of its own. -/
def landR (apart : Nat → Agent) (blocked : List Nat) : List PodMessage → Rec Unit
  | [] => pure ()
  | m :: rest => do
    let s ← now
    match if blocked.contains m.flow then none else tget none s.hub.netBufs m.buffer with
    | none => landR apart (m.flow :: blocked) rest
    | some b =>
      let n := min m.payload.length b.size
      act (modify fun s => let s := s.land m b; { s with hub := { s.hub with netBufs := tput s.hub.netBufs m.buffer none } })
      let t := settled (← now)
      let a : Access := { role := .engine, apart := some (apart rest.length) }
      if (ask s (checkWrite none b.pa n 0)).isSome then
        let _ ← say { a with writes := look t (memBytes b.pa n) }
      else pure ()
      if (ask s (checkWrite none b.record 16 0)).isSome then
        let _ ← say { a with part := 1, release := some .pk, writes := look t (memBytes b.record 16) }
      else pure ()
      landR apart blocked rest

/-- A flash request (R360): the blocks that it moves whole, and the translations of the block at which it stops. -/
def flashR : Rec Unit := do
  let s ← now
  match (s.flashRing s.req.fring.val).inflight.find? fun q => q.tag == s.req.tag with
  | none => pure ()
  | some q =>
    let o := flashOp q.entry
    act (modHub fun h => { h with flashBad := s.req.media })
    let moved := match ask (← now) (moveBlocks q (if o.op = 3 then 0 else o.nlb) 0) with | some (i, _) => i | none => 0
    let _ ← upTo (fun i => do
      let va := o.va + BitVec.ofNat 64 (4096 * i)
      let ps ← blockR q.die q.asid va 4096 (if o.op = 1 then .write else .read)
      if moved ≤ i then failure else pure ()
      let old ← now
      let _ ← act (moveBlock q i)
      let t := settled (← now)
      sayAll (ps.map fun (x, len, m) =>
        let p := Spot.of q.die q.asid x m len
        if o.op = 1 then ({ role := .engine } : Access).writing t p else ({ role := .engine } : Access).reading old p))
      (List.range (if o.op = 3 then 0 else o.nlb))

/-- An install of a pipeline reads its object and the descriptors of its stages (R318 to R320). -/
def installR (k : Nat) (v : BitVec 64) : Rec Unit := do
  let s ← now
  let p := s.hub.pipe k
  if !v.getLsbD 0 || p.en then pure ()
  else
    let asid := v.extractLsb' 48 16
    let a : Access := { role := .engine, apart := some (.onHub (4 * (← turnNo) + 2)) }
    let hd ← hubR asid p.addr 64 a
    let h := leNat (← act (hubRead asid p.addr 64))
    let n := 32 * bits h 16 5 + 16 * bits h 24 6
    let tab ← hubR asid (p.addr + 64) n { a with after := hd }
    let b ← act (hubRead asid (p.addr + 64) n)
    let _ ← (List.range (bits h 16 5)).mapM fun i => do
      match stageOf (leNat (tableEntry b 32 i)) with
      | some st => readBlockR 0 asid st.desc 32 { a with after := tab }
      | none => failure

/-- A write of a register, by the supervisor: that of PLCTL installs a pipeline. -/
def registerR (pa : Nat) (v : BitVec 64) : Rec Unit :=
  match hubReg pa with
  | some (.plctl k) => installR k v
  | _ => pure ()

/-! ### Supervisor cores and hosts (R316, R355) -/

/-- A supervisor core's access: `kind` is that of its page. -/
def supervisorR (kind : Kind) : Rec Unit := do
  let s ← now
  let r := s.req
  let n ← turnNo
  let a : Access := { kind := kind, acquire := if r.aq then some .pk else none, release := if r.rl then some .pk else none }
  let word (k : Nat) (pa : BitVec 64) : Rec Nat := do
    if inHub pa.toNat then failure else pure ()
    act (supLoad pa.toNat k)
  let rd (k : Nat) (pa : BitVec 64) : Spot := ⟨kind, memBytes pa.toNat k, none, none⟩
  let put (k : Nat) (pa : BitVec 64) (m : Act Unit) (read : Bool) : Rec Unit := do
    let old ← now
    act m
    let x := a.writing (settled (← now)) (rd k pa)
    let _ ← say (if read then { x with reads := look (settled old) (memBytes pa.toNat k), atomic := true } else x)
  let swap (k : Nat) (pa : BitVec 64) (f : Nat → Option Nat) : Rec Unit := do
    match f (← word k pa) with
    | some v => put k pa (supStore pa.toNat k v) true
    | none =>
      let _ ← say { a.reading (← now) (rd k pa) with release := none }
  match r.op with
  | .load k pa =>
    let _ ← word k.val pa
    let _ ← say (a.reading (← now) (rd k.val pa))
  | .store k pa v =>
    if inHub pa.toNat then registerR pa.toNat v else put k.val pa (supStore pa.toNat k.val v.toNat) false
  | .swap k pa v => swap k.val pa fun _ => some (v.toNat % 256 ^ k.val)
  | .add k pa v => swap k.val pa fun old => some ((old + v.toNat) % 256 ^ k.val)
  | .cas k pa old new => swap k.val pa fun x => if x = old.toNat % 256 ^ k.val then some (new.toNat % 256 ^ k.val) else none
  | .send _ _ _ _ pa size =>
    let _ ← say { a with reads := look (settled s) (memBytes pa size), release := some .pd }
  | .post k pa size record barrier =>
    act (modHub fun h => { h with netBufs := tput h.netBufs k (some ⟨pa, size, record, barrier.map fun x => (x.1.val, x.2.val)⟩) })
    landR (fun j => .onHub (4 * n + 3) j) [] s.hub.netIn
  | .fence | .decoder _ _ _ _ _ => pure ()

/-- A host's access of bytes of the module: a store that the host keeps in its cache is seen by whoever recalls the line (R354), and one
that is aborted is not performed (R355). A write is a release at .PK for the earlier writes of its link. -/
def hostR (write : Bool) : Rec Unit := do
  let s ← now
  let r := s.req
  let n := if write then r.bytes.length else r.len.val
  let put (m : State → State) (pa : Nat) : Rec Unit := do
    act (modify m)
    let _ ← say { writes := look (settled (← now)) (memBytes pa n), release := some .pk }
  if write && r.atHost then
    let pa := r.addr.toNat
    if inHost pa && inHost (pa + n - 1) then put (fun s => s.hostPut pa r.bytes) pa else pure ()
  else if (s.frozenOp 5 r.link.val).isSome then pure ()
  else match s.hostPa r.link r.addr.toNat n with
    | none => pure ()
    | some pa =>
      let t := (linesOf pa n).foldl (fun s ln => s.hostRecall r.link.val ln write) s
      if !write then
        if (t.hostBytes pa n).isNone then pure ()
        else
          let _ ← say { reads := look (settled s) (memBytes pa n) }
      else
        let kept := r.caches && decide (pa % 64 + n ≤ 64)
        let aborted := if kept then (t.hostBytes (64 * (pa / 64)) 64).isNone else (t.hostStore pa r.bytes).isNone
        if aborted then pure () else put (fun s => s.hostWrite r.link pa r.bytes r.caches) pa

/-- The mailbox (R108): the request word, then the answer. -/
def mailboxR : Rec Unit := do
  let s ← now
  let pa := s.req.addr.toNat
  if pa % 16 = 0 ∧ (s.inHbm pa ∨ inHost pa) then
    let rd ← say { role := .engine, reads := look (settled s) (memBytes pa 8) }
    match execMailboxRequest s with
    | .next t =>
      let _ ← say { role := .engine, part := 1, after := [rd], writes := look (settled t) (memBytes (pa + 8) 8) }
    | _ => pure ()
  else pure ()

/-- The accesses of a step of another agent: `t` is the machine after it, settled. -/
def engineR (i : Instr) (kind : Kind) (t : State) : Rec Unit := do
  let s ← now
  let n ← turnNo
  match i with
  | .copyIteration => copyR
  | .streamFill => streamFillR false
  | .mrldffRowFill => streamFillR true
  | .pageWalk =>
    act (modify fun s => { s with fresh := true })
    if canonical s.req.addr then walks s.req.die s.req.asid s.req.addr s.req.kind else pure ()
  | .ligaturePush => ligatureR t
  | .scribeEmit => scribeR t
  | .promotionComplete => promotionR
  | .networkReceive =>
    if (s.frozenOp 4 0).isSome then pure () else landR (fun j => .onHub (4 * n + 3) j) [] (s.hub.netIn ++ [s.req.message])
  | .flashRequestComplete => flashR
  | .supervisorAccess => supervisorR kind
  | .registerWrite => registerR s.req.addr.toNat s.req.value
  | .hostCxlMemRead => hostR false
  | .hostCxlMemWrite => hostR true
  | .mailboxRequest => mailboxR
  | _ => pure ()

/-! ### What any turn may do beside -/

/-- The stash regions that go with a turn (R128): their lines become plain scratchpad, whole. -/
def unmapped (i : Inst) (s t : State) : Rec Unit := do
  let n ← turnNo
  let own := match i.instr with | .spunmap _ => true | _ => false
  let _ ← (s.cores.flatMap fun (k, c) => c.stash.map fun r => (k, r)).mapM fun (k, r) => do
    if (((tget {} t.cores k : Core).stash).any fun x => x.offset == r.offset && x.va == r.va && x.owner == r.owner) then pure ()
    else
      let _ ← say { role := if own then .own else .engine, stash := true, region := some (k, r.offset), needs := if own then branches s else []
                    apart := if own then none else some (.inCore (coreOfKey k) (2 * n))
                    reads := look (settled s) (r.valid.flatMap fun (_, l) => memBytes l.pa 64)
                    writes := look t ((List.range 4096).map fun o => .pad k (r.offset + o)) }

/-- The records that a turn has written: fault records of copies (R140), notices (R333), restart records (R331). -/
def recordsOf (s t : State) (d : Fin 4) : List (Nat × Nat) :=
  let x := s.die d
  let y := t.die d
  ((List.range (y.cfqHead - x.cfqHead).toNat).map fun j => (x.cfqBase.toNat * 2 ^ 15 + 32 * ((x.cfqHead.toNat + j) % 1024), 32)) ++
  ((List.range (y.nqHead - x.nqHead).toNat).map fun j => (x.nqBase.toNat * 2 ^ 15 + 8 * ((x.nqHead.toNat + j) % 4096), 8)) ++
  (y.frames.filterMap fun (k, f) => if f.isSome && (tget none x.frames k).isNone then some (x.slotAddr k, 128) else none)

/-- Each record is written last, with a release at .PK; the frames that a launch resumes have been read (R335). -/
def recordsR (i : Inst) (s t : State) : Rec Unit := do
  let n ← turnNo
  match i.instr with
  | .reset => pure ()
  | x =>
    let _ ← allDies.mapM fun d => do
      let own := match x with | .copyIteration | .hartSwapOut | .copyFaultRecordPending => true | _ => false
      let a : Access := { role := .engine, part := 4, apart := if own then none else some (.inDie d (2 * n)) }
      let _ ← sayAll ((recordsOf s t d).map fun (pa, len) => { a with writes := look t (memBytes pa len), release := some .pk })
      sayAll ((s.die d).frames.filterMap fun (k, f) =>
        if f.isSome && (tget none (t.die d).frames k).isNone then some { a with reads := look (settled s) (memBytes ((s.die d).slotAddr k) 128) } else none)

/-- Every access of a turn, in the order in which it makes them. -/
def Inst.accesses (n : Nat) (i : Inst) : List Access :=
  let t := settled i.after
  recorded n i.entered (do
    match i.runs with
    | some (h, st, _, _) =>
      if !i.found.canRun h st then pure ()
      else
        let _ ← attempt (fetchR i)
        match i.issued with
        | some (x, s) =>
          modify fun g => { g with s := s }
          let _ ← attempt rereadsR
          let _ ← attempt (if st = .c then pure () else streamR x (ended i) t)
        | none => pure ()
    | none => match i.issued with
      | some (x, _) =>
        let _ ← attempt (engineR x i.kind t)
      | none => pure ()
    unmapped i i.found t
    recordsR i i.found t)

end Sys2Proof.Machine.Consistency
end

