-- ==== Sys2Proof/Machine/Flows.lean ====
section
/-! DEFINITION. What depends on what (R311): the cells from which an instruction computes each cell that it writes, and the loads whose
values an outcome's instructions have carried to each cell. -/

namespace Sys2Proof.Machine.Consistency

/-- An instruction computes its cells `dst` from the cells `src`, whatever the computation is; what its own accesses read goes to the
cells that they name. -/
structure Flow where
  dst : List Cell
  src : List Cell := []
  deriving DecidableEq, Repr

/-! ### Vector instructions, element by element -/

/-- Element e of the result from element e of each source, and from no other element. -/
def each (s : State) (es : List Nat) (d : Operand) (srcs : List Operand) : List Flow :=
  es.map fun e => { dst := elemCells s d e, src := srcs.flatMap fun o => elemCells s o e }

/-- Every element of a list of elements of an operand. -/
def cellsOf (s : State) (o : Operand) (es : List Nat) : List Cell := es.flatMap (elemCells s o)

/-- A compare: bit e of the mask from element e of each source. -/
def eachBit (s : State) (es : List Nat) (m : Nat) (srcs : List Operand) : List Flow :=
  es.map fun e => { dst := [.mask m e], src := srcs.flatMap fun o => elemCells s o e }

/-- The elements of an operand, and the bits of a mask. -/
def allElems (s : State) (o : Operand) : List Nat := List.range (s.numElems o.n o.w)
def maskCells (s : State) (m : Nat) : List Cell := if m = 0 then [] else (List.range (s.lanes * 128)).map (.mask m)

/-- The parent indices of a topology group. -/
def parentCells (s : State) (t : Nat) (es : List Nat) : List Cell :=
  es.map fun e => .parent (t + e / (8 * s.lanes)) (e % (8 * s.lanes))

/-- The forest of a tree instruction, and the cells that decide it. -/
def forest (s : State) (o : HT48T) : Forest := forestOf (s.cur.parent s.lanes o.t.val) s.cur.vl.toNat
def forestCells (s : State) (o : HT48T) : List Cell := parentCells s o.t.val (List.range s.cur.vl.toNat)

/-- A tree result: element e from the elements of a that `reads` gives, and from the topology. -/
def treeFlows (s : State) (o : HT48T) (es : List Nat) (reads : Nat → List Nat) : List Flow :=
  es.map fun e => { dst := elemCells s (treeDst o) e, src := cellsOf s (treeSrc o) (reads e) ++ forestCells s o }

/-- The status word of a tree instruction. -/
def statusFlow (s : State) (o : HT48T) : Flow := { dst := regCell s o.s.val, src := forestCells s o }

/-- The elements from VSTART to VL − 1. -/
def fromStart (s : State) : List Nat := rangeFrom s.cur.vstart.toNat s.cur.vl.toNat

/-- The value of an operand once its entries are popped. -/
def popped (t : State) (o : Operand) : Nat := t.cur.group t.regBits o.reg o.n

/-- The tree family (R217 to R223). -/
def treeInstr (s : State) (i : Instr) : List Flow :=
  let f (o : HT48T) : Forest := forest s o
  let all : List Nat := List.range s.cur.vl.toNat
  match i with
  | .tfrom o => (actives s o.mask).map fun e => { dst := parentCells s o.u.val [e], src := elemCells s (treeSrc o) e }
  | .tto o => (actives s o.mask).map fun e => { dst := elemCells s (treeDst o) e, src := parentCells s o.t.val [e] }
  | .tup o => treeFlows s o (actives s o.mask) ((f o).subtree ·) ++ [statusFlow s o]
  | .tdown o => treeFlows s o (actives s o.mask) (fun e => ((f o).path e).getD []) ++ [statusFlow s o]
  | .tbcast o => (fromStart s).map (fun e =>
        { dst := elemCells s (treeDst o) e
          src := cellsOf s (treeSrc o) (((f o).path e).getD []) ++ forestCells s o ++ (((f o).path e).getD []).map (.mask o.mask.val) : Flow }) ++ [statusFlow s o]
  | .tbcastRoot o => treeFlows s o (fromStart s) (fun e => ((f o).root e).toList) ++ [statusFlow s o]
  | .tdepth o => treeFlows s o (actives s o.mask) (fun _ => []) ++ [statusFlow s o]
  | .tanc o => treeFlows s o (actives s o.mask) (fun e => [e]) ++ [statusFlow s o]
  | .tancIsa o => (actives s o.mask).map (fun e =>
        { dst := elemCells s (treeDst o) e, src := forestCells s o ++ parentCells s o.u.val [e] : Flow }) ++ [statusFlow s o]
  | .troot o => treeFlows s o (actives s o.mask) (fun _ => []) ++ all.map (fun e => { dst := [.mask (o.u.val % 8) e], src := forestCells s o : Flow }) ++ [statusFlow s o]
  | .tcontr o =>
    let src := cellsOf s (treeSrc o) all ++ forestCells s o ++ maskCells s o.mask.val
    [{ dst := cellsOf s (treeDst o) all ++ parentCells s o.u.val all, src := src }, { dst := regCell s o.s.val, src := src }]
  | .tchk o => all.flatMap (fun e =>
        [{ dst := [.mask (o.d.val % 8) e], src := forestCells s o }, { dst := [.mask (o.u.val % 8) e], src := forestCells s o : Flow }]) ++ [statusFlow s o]
  | _ => []

/-- The integer, floating, conversion and movement families: `t` is the machine after the instruction. -/
def vectorInstr (s t : State) (i : Instr) : List Flow :=
  match i with
  | .vadd o | .vsub o | .vmul o | .vmulh o | .vadds o | .vsubs o | .vavg o | .vmin o | .vmax o | .vand o | .vor o | .vxor o
  | .vsll o | .vsrl o | .vsra o | .vrot o | .vclmul o | .vclmulh o => each s (actives s o.mask) (dstD o) [srcA o, srcB o]
  | .vmacc o => each s (actives s o.mask) (dstD o) [srcA o, srcB o, dstD o]
  | .vabs o | .vneg o | .vnot o | .vmv o | .vpopc o | .vfirst o => each s (actives s o.mask) (dstD o) [srcA o]
  | .vcmpEqInt o | .vcmpNeInt o | .vcmpLtInt o | .vcmpGeInt o => eachBit s (actives s o.mask) (o.d.val) [srcA o, srcB o]
  | .vsel o => (fromStart s).map fun e =>
      { dst := elemCells s (dstD o) e, src := elemCells s (srcA o) e ++ elemCells s (srcB o) e ++ [.mask o.mask.val e] }
  | .vfadd o | .vfsub o | .vfmul o | .vfdiv o | .vfmin o | .vfmax o => each s (actives s o.mask) (fD o) [fA o, fB o]
  | .vfma o | .vfms o | .vfnma o => each s (actives s o.mask) (fD o) [fA o, fB o, fC o]
  | .vfsqrt o | .vfrcp o | .vfrsq o | .vfexp2 o | .vflog2 o | .vfabs o | .vfneg o | .vfclass o => each s (actives s o.mask) (fD o) [fA o]
  | .vcmpEqFp o | .vcmpNeFp o | .vcmpLtFp o | .vcmpGeFp o => eachBit s (actives s o.mask) (o.d.val) [fA o, fB o]
  | .vcvt o => each s (actives s o.mask) (mixedOperand o.d.val o.group o.fd (wider o.fd o.fs)) [mixedOperand o.a.val o.group o.fs (wider o.fd o.fs)]
  | .vdq o => (actives s o.mask).map fun e =>
      { dst := elemCells s ⟨o.d.val, o.group.size, o.fd.width⟩ e
        src := elemCells s (mixedOperand o.a.val o.group o.fs o.fd) e ++ elemCells s ⟨o.b.val, 1, 8⟩ (e / blockSize o.var) ++
          cellsOf s ⟨o.c.val, o.group.size, 32⟩ (List.range (2 * s.lanes * o.group.size)) }
  | .vscale o =>
    let bs := blockSize o.var
    (List.range 128).map fun j =>
      { dst := elemCells s ⟨o.d.val, 1, 8⟩ j
        src := regCell s o.c.val ++ cellsOf s ⟨o.a.val, o.group.size, o.fs.width⟩ ((actives s o.mask).filter fun e => e / 128 == j * bs / 128) }
  | .vqmarg o | .vqmargClamp o =>
    let g := o.group.size
    let bs := blockSize o.var
    let src : Operand := ⟨o.a.val, g, o.fs.width⟩
    let act := actives s o.mask
    let whole := regCell s o.c.val ++ cellsOf s src act ++ cellsOf s ⟨o.b.val, 1, 8⟩ (act.map (· / bs))
    act.map (fun e =>
      { dst := elemCells s (mixedOperand o.d.val o.group o.fd o.fs) e
        src := regCell s o.c.val ++ cellsOf s src (act.filter fun k => k / 128 == e / 128) ++ elemCells s ⟨o.b.val, 1, 8⟩ (e / bs) : Flow }) ++
    [{ dst := cellsOf s ⟨o.d.val + g, g, 32⟩ (List.range (2 * s.lanes * g)), src := whole }, { dst := regCell s o.c.val, src := whole }]
  | .vredAdd o | .vredMin o | .vredMax o | .vredAnd o | .vredOr o | .vredXor o =>
    [{ dst := elemCells s (dstD o) 0, src := elemCells s (srcB o) 0 ++ cellsOf s (srcA o) (actives s o.mask) }]
  | .vscanAdd o | .vscanMin o | .vscanMax o | .vscanAnd o | .vscanOr o | .vscanXor o =>
    (actives s o.mask).map fun e =>
      { dst := elemCells s (dstD o) e, src := elemCells s (srcB o) 0 ++ cellsOf s (srcA o) ((actives s o.mask).filter fun k => decide (k ≤ e)) }
  | .vperm o => (actives s o.mask).map fun e =>
      { dst := elemCells s (dstD o) e
        src := elemCells s (srcB o) e ++
          let k := elemAt o.fmt.width (popped t (srcB o)) e
          if k < s.numElems o.group.size o.fmt.width then elemCells s (srcA o) k else [] }
  | .vslideUp o => ((actives s o.mask).filter fun e => decide ((s.cur.getS o.b.val).toNat ≤ e)).map fun e =>
      { dst := elemCells s (dstD o) e, src := regCell s o.b.val ++ elemCells s (srcA o) (e - (s.cur.getS o.b.val).toNat) }
  | .vslideDown o => (actives s o.mask).map fun e =>
      let k := e + (s.cur.getS o.b.val).toNat
      { dst := elemCells s (dstD o) e
        src := regCell s o.b.val ++ if k < s.numElems o.group.size o.fmt.width then elemCells s (srcA o) k else [] }
  | .vpermw o =>
    let w := o.fmt.width
    let idx : Operand := ⟨o.b.val, o.group.size, 64⟩
    let win := (t.cur.bind o.a.val).bind fun b => b.tag.map fun g => (b.grp.size, g, s.regBits * b.grp.size / b.tagWidth)
    (actives s o.mask).flatMap fun e =>
      let place := elemCells s idx e
      let hit : List Cell := match win with
        | some (g, tag, n) =>
          let k := ((BitVec.ofNat 64 (elemAt 64 (popped t idx) e)).toInt - tag.toInt) / (w / 8 : Nat)
          if 0 ≤ k ∧ k < n then elemCells s ⟨o.a.val, g, w⟩ k.toNat else []
        | none => []
      [{ dst := if hit.isEmpty then [] else elemCells s (mixedOperand o.d.val o.group o.fmt .i64) e, src := place ++ hit }, { dst := [.mask o.mask.val e], src := place : Flow }]
  | .vcomp o =>
    let sel := activeList 0 s.cur.vl.toNat (s.maskBits o.mask.val)
    (List.range s.cur.vl.toNat).map fun j =>
      { dst := elemCells s (dstD o) j, src := maskCells s o.mask.val ++ match sel[j]? with | some e => elemCells s (srcA o) e | none => [] }
  | .vexpd o =>
    let sel := activeList 0 s.cur.vl.toNat (s.maskBits o.mask.val)
    sel.map fun e => { dst := elemCells s (dstD o) e, src := maskCells s o.mask.val ++ elemCells s (srcA o) (sel.idxOf e) }
  | .vid o => each s (actives s o.mask) (dstD o) []
  | .vsplat o => (actives s o.mask).map fun e => { dst := elemCells s (dstD o) e, src := regCell s o.a.val }
  | .vrand o => (actives s o.mask).map fun e => { dst := elemCells s (dstD o) e, src := regCell s o.a.val ++ regCell s o.b.val }
  | .vmvsToScalar o =>
    [{ dst := regCell s o.d.val, src := regCell s o.b.val ++ elemCells s (srcA o) (s.cur.getS o.b.val).toNat }]
  | .vmvsToVector o =>
    [{ dst := elemCells s (dstD o) (s.cur.getS o.b.val).toNat, src := regCell s o.a.val ++ regCell s o.b.val }]
  | _ => []

/-- The mask, matrix, window and key families. -/
def unitInstr (s t : State) (i : Instr) : List Flow :=
  match i with
  | .mand o | .mor o | .mxor o => (List.range (s.lanes * 128)).map fun e => { dst := [.mask o.md.val e], src := [.mask o.ma.val e, .mask o.mb.val e] }
  | .mnot o => (List.range (s.lanes * 128)).map fun e => { dst := [.mask o.md.val e], src := [.mask o.ma.val e] }
  | .mpopc o | .mfirst o => [{ dst := regCell s o.s.val, src := (List.range s.cur.vl.toNat).map (.mask o.ma.val) }]
  | .mset o => [{ dst := maskCells s o.md.val, src := regCell s o.s.val }]
  | .mrow o | .mrowz o =>
    let g := o.group.size
    let zero := match i with | .mrowz _ => true | _ => false
    [{ dst := [.acc o.row.val]
       src := cellsOf s ⟨o.v.val, g, o.fa.width⟩ (fromStart s) ++ [.tile] ++ regCell s o.s.val ++ regCell s (o.s.val + 1) ++
         (if o.count.val % 2 = 1 then cellsOf s ⟨o.v.val + g, g, 32⟩ (List.range (2 * s.lanes * g)) else []) ++ (if zero then [] else [.acc o.row.val]) }]
  | .mdrain o => (actives s o.mask).map fun e => { dst := elemCells s ⟨o.v.val, o.group.size, o.fd.width⟩ e, src := [.acc o.row.val] }
  | .mtload o | .mtloadq o => [{ dst := [.tile], src := if o.fmt = .cb2 then [.book 0, .book 1] else [] }]
  | .mclr o => [{ dst := (List.range o.count.val).map fun k => .acc (o.row.val + k) }]
  | .mstat o => [{ dst := regCell s o.s.val, src := [.acc o.row.val, .tile] }]
  | .vaacc o =>
    let idx := indexOperand o.x o.group o.fmt
    let ix := popped t idx
    (actives s o.mask).map fun e =>
      { dst := [.window (elemAt 64 ix e)], src := .window (elemAt 64 ix e) :: (elemCells s ⟨o.v.val, o.group.size, o.fmt.width⟩ e ++ elemCells s idx e) }
  | .awin o => [{ dst := .windowBase :: (List.range (s.getR o.s).toNat).map .window, src := regCell s o.base.val }]
  | .kins o | .kacc o =>
    let ka := keysOf o.a o.group
    let vb := valuesOf o.b.val o
    let ks := popped t ka
    let es := actives s o.mask
    es.map (fun e => { dst := [.key (elemAt 64 ks e)], src := .key (elemAt 64 ks e) :: (elemCells s ka e ++ elemCells s vb e) : Flow }) ++
    es.map (fun e => { dst := [.mask o.mask.val e], src := cellsOf s ka (es.filter fun k => decide (k ≤ e)) : Flow }) ++
    [{ dst := regCell s o.d.val, src := cellsOf s ka es }]
  | .klook o =>
    let ka := keysOf o.a o.group
    let ks := popped t ka
    (actives s o.mask).flatMap fun e =>
      [{ dst := elemCells s (valuesOf o.d.val o) e, src := .key (elemAt 64 ks e) :: elemCells s ka e }, { dst := [.mask o.mask.val e], src := elemCells s ka e : Flow }]
  | .kdrain o =>
    let all := s.cur.keys.map fun p => Cell.key p.1.toNat
    let es := List.range s.cur.vl.toNat
    [{ dst := cellsOf s (keysOf o.d o.group) es ++ cellsOf s (valuesOf (o.d.val + o.group.size) o) es, src := all }, { dst := regCell s o.b.val, src := all }]
  | .kclr => [{ dst := s.cur.keys.map fun p => Cell.key p.1.toNat }]
  | _ => []

/-! ### Scalar instructions, queues, bindings and copies -/

/-- A scalar result of register d. -/
def scalarFlow (s : State) (d : Nat) (srcs : List Nat) : List Flow := [{ dst := regCell s d, src := srcs.flatMap (regCell s) }]

/-- A branch: the stores after it depend on what decides it (R311). -/
def branchFlow (s : State) (src : List Cell) : Flow := { dst := branches s, src := branches s ++ src }

/-- The copy of a well, from C0 and the ruling state (R133). -/
def copyFlow (s : State) (handle : Nat) (src : List Cell) : List Flow :=
  [{ dst := [.well (coreKey s.curCoreId) handle], src := .scalar .c 0 :: .ruling :: src }]

def scalarInstr (s : State) (i : Instr) : List Flow :=
  match i with
  | .add o | .sub o | .and o | .or o | .xor o | .sll o | .srl o | .sra o | .mul o | .mulh o | .mulhn o | .div o | .divn o | .rem o | .remn o
  | .min o | .max o | .minn o | .maxn o | .slt o | .sltn o => scalarFlow s o.d.val [o.a.val, o.b.val]
  | .mov o | .clz o | .popc o => scalarFlow s o.d.val [o.a.val]
  | .addi o | .andi o | .ori o | .xori o | .slli o | .srli o | .srai o => scalarFlow s o.d.val [o.a.val]
  | .limm o => scalarFlow s o.d.val []
  | .jal o => scalarFlow s o.d.val []
  | .loop o => [branchFlow s (regCell s o.d.val)]
  | .beq o | .bne o | .blt o | .bge o | .bltn o | .bgen o => [branchFlow s (regCell s o.a.val ++ regCell s o.b.val)]
  | .bq _ => [branchFlow s [.taken 32]]
  | .jr o => [branchFlow s (regCell s o.a.val)]
  | .ctlr o => [{ dst := regCell s o.d.val, src := [.ctl o.imm.toNat] }]
  | .ctlw o => [{ dst := [.ctl o.imm.toNat], src := regCell s o.a.val }]
  | .qput o => [{ dst := [.put o.q.val], src := regCell s o.s.val }]
  | .bqput o => [{ dst := [.put 32], src := regCell s o.s.val }]
  | .qget o => [{ dst := regCell s o.s.val, src := [.taken o.q.val] }]
  -- the value loaded is that of the access, which names its register
  | .ldb o | .ldh o | .ldw o | .ldd o | .ldbn o | .ldhn o | .ldwn o => scalarFlow s o.d.val []
  | .amoadd o | .amomin o | .amomax o | .amoand o | .amoor o | .amoswp o | .amocas o => scalarFlow s o.v.val []
  | .sqpop o => scalarFlow s o.d.val [] ++ scalarFlow s (o.d.val + 1) []
  | .blread o => scalarFlow s o.d.val (if (s.getR o.b).getLsbD 63 then [o.a.val, o.b.val] else [])
  | .kvmap o => scalarFlow s o.d.val []
  | .kvxl o | .kvtrunc o => scalarFlow s o.d.val [o.b.val]
  | .kvapp o => scalarFlow s o.d.val []
  -- results of the units, from their operands
  | .gmstep o => scalarFlow s o.d.val [o.a.val, o.b.val] ++ scalarFlow s (o.d.val + 1) [o.a.val, o.b.val]
  | .blapp o | .blrel o | .blveto o | .gmreset o | .vocswap o | .flpost o | .flpoll o | .qjoin o | .spmap o => scalarFlow s o.d.val [o.a.val, o.b.val]
  | .spunmap o | .spflush o | .spinv o | .fpop o | .fpcnt o | .sqcnt o | .featq o => scalarFlow s o.d.val [o.a.val]
  | .qleave o => scalarFlow s o.d.val []
  | .wget o => scalarFlow s o.s.val []
  | .sstat o => scalarFlow s o.s.val []
  | .vwaitf o => scalarFlow s o.s.val []
  | .vldff o => scalarFlow s o.s.val [o.s.val]
  | .mrldff o => scalarFlow s (o.row.val % 32) []
  -- what streams and copies read from
  | .sbind o => [{ dst := [.binding o.v.val], src := regCell s o.s.val }]
  | .sskip o => [{ dst := [.binding o.v.val], src := .binding o.v.val :: regCell s o.s.val }]
  | .rbase o => [{ dst := [.ruling], src := regCell s o.a.val ++ regCell s o.b.val }]
  | .copy o => copyFlow s o.handle.val []
  | .copyq o => copyFlow s (s.getR o.s).toNat (regCell s o.s.val)
  | .fork _ => { dst := [.ruling, .scalar .c 0] } :: (List.range 7).map fun k => { dst := [.scalar .c (k + 1)], src := [.scalar .a (k + 1)] }
  | _ => []

/-- The register whose binding the fills of an instruction or a step go to. -/
def filledReg (s : State) : Instr → Option Nat
  | .vld o | .vlds o | .vldff o | .vldw o | .vldch o => some o.v.val
  | .vldx o | .vldt o => some o.v.val
  | .streamFill | .mrldffRowFill => some s.req.reg.val
  | _ => none

/-- Every flow of an instruction, by the cells of the hart on whose work it is. -/
def Inst.flows (i : Inst) : List Flow :=
  let s := i.s
  let t := i.after
  if i.inStream then scalarInstr s i.instr ++ vectorInstr s t i.instr ++ unitInstr s t i.instr ++ treeInstr s i.instr else []

/-- The hart to which the cells of an instruction's flows belong. -/
def Inst.hart (i : Inst) : Nat := match i.runs with | some (h, _, _, _) => hartKey h | none => hartKey i.s.req.hart

/-- The harts whose tile a multicast latches (R234). -/
def Inst.latches (i : Inst) : List Nat :=
  match i.instr, i.s.cur.quire with
  | .mtloadq _, some (q, _) =>
    let m := ((i.s.die i.s.curHart.die).quire q).members
    (i.s.harts.filter fun p => m.contains p.2.taskNo).map Prod.fst
  | _, _ => []

/-! ### What the cells carry through an outcome -/

/-- The first entry of a list by key. -/
def find {κ α : Type} [DecidableEq κ] (d : α) (l : List (κ × α)) (k : κ) : α :=
  match l.find? fun p => p.1 == k with
  | some p => p.2
  | none => d
def place {κ α : Type} [DecidableEq κ] (l : List (κ × α)) (k : κ) (x : α) : List (κ × α) := (k, x) :: l.filter fun p => p.1 != k

/-- An entry of a bound register as it was filled: by which turns of the outcome, and the loads that its parts of 4 bits carry. -/
structure Filled where
  fillers : List Nat
  parts : List (Nat × List Nat)
  deriving DecidableEq, Repr

/-- The loads, by their places among the accesses of the outcome, that each cell of a hart carries; the entries of its queues with the
turn that put each, and of its bound registers, with the turns that have filled the next one so far; for each row that is requested what
its address carries; for each well the load of each byte that its COPYQ has read. -/
structure Carried where
  cells   : List ((Nat × Cell) × List Nat) := []
  queues  : List ((Nat × Nat) × List (Nat × List Nat)) := []
  entries : List ((Nat × Nat) × List Filled) := []
  filling : List ((Nat × Nat) × List Nat) := []
  rows    : List ((Nat × Nat) × List (List Nat)) := []
  bytes   : List ((Nat × Nat) × List Nat) := []
  deriving DecidableEq, Repr

/-- The copy of a well is no hart's own. -/
def Cell.home (h : Nat) : Cell → Nat
  | .well _ _ => 0
  | _ => h

def Carried.of (c : Carried) (h : Nat) (l : List Cell) : List Nat := (l.flatMap fun x => find [] c.cells (x.home h, x)).dedup
def Carried.set (c : Carried) (h : Nat) (l : List Cell) (ids : List Nat) : Carried :=
  { c with cells := l.foldl (fun m x => place m (x.home h, x) ids) c.cells }

/-- The length of queue q of a hart; the branch queues follow the others. -/
def queueLen (x : Hart) (q : Nat) : Nat := if q < 32 then (x.queue q).length else if q = 32 then x.bq.length else 0

/-- The entries that leave their queues: their heads become what is taken. -/
def takeQueues (s t : State) (h : Nat) (c : Carried) : Carried :=
  (List.range 33).foldl (fun c q =>
    let a := queueLen (tget {} s.harts h) q
    let b := queueLen (tget {} t.harts h) q
    if b < a then
      match find [] c.queues (h, q) with
      | x :: rest => { c.set h [.taken q] x.2 with queues := place c.queues (h, q) (rest.drop (a - b - 1)) }
      | [] => c
    else c) c

/-- The entries that come into their queues. -/
def putQueues (n : Nat) (s t : State) (h : Nat) (c : Carried) : Carried :=
  (List.range 33).foldl (fun c q =>
    if queueLen (tget {} s.harts h) q < queueLen (tget {} t.harts h) q then
      { c with queues := place c.queues (h, q) (find [] c.queues (h, q) ++ [(n, c.of h [.put q])]) }
    else c) c

/-- The bindings of a hart with the number of their entries, before and after a step. -/
def bindingsOf (s t : State) (h : Nat) : List (Nat × Nat × Nat × Nat) :=
  let x : Hart := tget {} s.harts h
  let y : Hart := tget {} t.harts h
  ((x.bindings ++ y.bindings).map Prod.fst).dedup.map fun v =>
    let len (z : Hart) : Nat := match z.bind v with | some b => b.entries.length | none => 0
    let kind := match y.bind v <|> x.bind v with | some b => b.kind | none => 0
    (v, kind, len x, len y)

/-- What the oldest entry of a kind-3 binding carries, for a load that goes by it (R159). -/
def showEntry (h v : Nat) (c : Carried) : Carried :=
  match find [] c.entries (h, v) with
  | x :: _ => x.parts.foldl (fun c p => c.set h [.popped v p.1] p.2) c
  | [] => c

/-- The entries that leave bound registers: one that is popped gives its parts to the register's own storage (R149), unless it is the
index of a load; those of a binding that is freed go with it. -/
def popEntries (s t : State) (h : Nat) (c : Carried) : Carried :=
  (bindingsOf s t h).foldl (fun c (v, kind, a, b) =>
    if ((tget {} t.harts h : Hart).bind v).isNone then { c with entries := place c.entries (h, v) [], filling := place c.filling (h, v) [], rows := place c.rows (h, v) [] }
    else if b < a then
      match find [] c.entries (h, v) with
      | x :: rest =>
        let c := { c with entries := place c.entries (h, v) (rest.drop (a - b - 1)) }
        if kind = 3 then c else x.parts.foldl (fun c p => c.set h [.vec (v * (s.regBits / 4) + p.1)] p.2) c
      | [] => c
    else c) c

/-- The entries that come into bound registers: of kind 3, the register's own storage; of a COPYQ, the bytes that its copy read; of a
fill, the elements read. -/
def pushEntries (n : Nat) (i : Inst) (t : State) (h : Nat) (c : Carried) : Carried :=
  let s := i.s
  (bindingsOf s t h).foldl (fun c (v, kind, a, b) =>
    if a < b then
      let y : Hart := tget {} t.harts h
      let wide := match y.bind v with | some b => s.regBits * b.grp.size / 4 | none => 0
      let part (k : Nat) : List Nat :=
        if kind = 3 then c.of h [.vec (v * (s.regBits / 4) + k)]
        else match i.instr with
        | .copyqDelivery =>
          let w := (s.core s.req.core).well s.req.handle.val
          match w.copy with
          | some x => ((find [] c.bytes (coreKey s.req.core, s.req.handle.val))[tget 0 x.landed y.taskNo * x.width + k / 2]?).toList
          | none => []
        | _ => c.of h [.filled v k]
      let e : Filled := ⟨find [] c.filling (h, v) ++ [n], (List.range wide).map fun k => (k, part k)⟩
      let c := { c with entries := place c.entries (h, v) (find [] c.entries (h, v) ++ [e]), filling := place c.filling (h, v) [] }
      c.set h ((List.range wide).map (.filled v)) []
    else if filledReg s i.instr = some v ∧ h = i.hart then { c with filling := place c.filling (h, v) (find [] c.filling (h, v) ++ [n]) }
    else c) c

/-- The rows that an MRLDFF requests, and the row that a fill has completed (R239). -/
def moveRows (i : Inst) (t : State) (h : Nat) (c : Carried) : Carried :=
  let rows (z : State) (v : Nat) : Nat := match (tget {} z.harts h : Hart).bind v with | some b => b.rows.length | none => 0
  match i.instr with
  | .mrldff o =>
    let new := rows t o.v.val - rows i.s o.v.val
    { c with rows := place c.rows (h, o.v.val) (find [] c.rows (h, o.v.val) ++ List.replicate new (c.of h (regCell i.s o.s.val))) }
  | .mrldffRowFill =>
    let v := i.s.req.reg.val
    if rows t v < rows i.s v then { c with rows := place c.rows (h, v) ((find [] c.rows (h, v)).drop 1) } else c
  | _ => c

/-- The bytes that an iteration of a COPYQ reads; a new copy begins with none. -/
def takeBytes (i : Inst) (base : Nat) (acc : List Access) (c : Carried) : Carried :=
  match i.instr with
  | .copyIteration =>
    let k := (coreKey i.s.req.core, i.s.req.handle.val)
    { c with bytes := place c.bytes k (find [] c.bytes k ++ acc.zipIdx.flatMap fun (a, j) => if a.role == .engine then a.reads.map fun _ => base + j else []) }
  | .copyq o =>
    { c with bytes := place c.bytes (coreKey i.s.curCoreId, (i.s.getR o.s).toNat) [] }
  | _ => c

/-- What leaves queues and bound registers before an instruction computes, and what the load by an index entry or of a row goes by. -/
def Carried.taken (c : Carried) (i : Inst) : Carried :=
  let h := i.hart
  let c := match i.instr with
    | .vldx o | .vldt o => showEntry h o.x.val c
    | .mrldffRowFill => c.set h [.row i.s.req.reg.val] ((find [] c.rows (h, i.s.req.reg.val)).headD [])
    | _ => c
  popEntries i.s i.after h (takeQueues i.s i.after h c)

/-- The loads that come to each cell that an instruction writes: what its sources carried, and its own reads, which stand from `base`. -/
def Carried.written (c : Carried) (base : Nat) (i : Inst) (acc : List Access) : List (Cell × List Nat) :=
  let h := i.hart
  let l := (i.flows.flatMap fun f => let ids := c.of h f.src; f.dst.map fun x => (x, ids)) ++
    acc.zipIdx.flatMap fun (a, k) => a.dst.map fun x => (x, [base + k])
  ((l.map Prod.fst).dedup).map fun x => (x, ((l.filter fun p => p.1 == x).flatMap Prod.snd).dedup)

/-- One turn, at place n of the outcome, whose accesses stand from `base`. -/
def Carried.step (c : Carried) (n base : Nat) (i : Inst) (acc : List Access) : Carried :=
  let h := i.hart
  let c := moveRows i i.after h (c.taken i)
  let c := (c.written base i acc).foldl (fun c (x, ids) => (if x = .tile then i.latches else []).foldl (fun c k => c.set k [x] ids) (c.set h [x] ids)) c
  let c := takeBytes i base acc (putQueues n i.s i.after h c)
  (i.after.harts.map Prod.fst).foldl (fun c k => pushEntries n i i.after k c) c

end Sys2Proof.Machine.Consistency
end

