-- ==== Sys2Proof/Machine/Consistency.lean ====
section
/-! DEFINITION. The consistency model (R309 to R317): which outcomes of a set of agents the spec allows. The machine of Step.lean
performs every access at once, in the order of its turns, which is one of the outcomes allowed here (log 7); this file says what the
others are. -/

namespace Sys2Proof.Machine.Consistency

/-! ### Outcomes -/

/-- A candidate outcome: the turns, in an order in which each stream's are in program order, each with the machine as it finds it; the
write that each read of a location takes its value from (a reader, a location, a writer, by their places among the nodes; a read that is
not listed takes the initial value); the coherence order of each location (R314). -/
structure Outcome where
  insts : List Inst
  rf    : List (Nat × Loc × Nat) := []
  co    : List (Loc × List Nat) := []
  deriving DecidableEq, Repr

/-- What a node stands for: an access; the release or fork side of an instruction; its acquire or join side. -/
inductive Side where
  | access | fork | done
  deriving DecidableEq, Repr

/-- A node of the order O: its turn's place, the access, the agent that makes it. -/
structure Node where
  inst  : Nat
  acc   : Access
  agent : Agent
  side  : Side := .access
  deriving DecidableEq, Repr

/-- The last place before n that satisfies a predicate. -/
def lastBefore (n : Nat) (p : Nat → Bool) : Option Nat := (List.range n).reverse.find? p

/-! ### What an instruction orders beside its accesses (Table 22.1) -/

/-- The scope of a FENCE, by the minor of its head (R307); `fence rw,rw` of a supervisor core acts as FENCE.PK (R316). -/
def fenceScope (i : Inst) : Option Scope :=
  match i.instr with
  | .fence => match i.s.head.toNat with
    | 0x0008 => some .ln | 0x0009 => some .co | 0x000A => some .qd | 0x000B => some .di | 0x000C => some .pk | 0x000D => some .pd
    | _ => none
  | .supervisorAccess => match i.s.req.op with
    | .fence => some .pk
    | _ => none
  | _ => none

/-- CS, the scope of a copy (Table 9.1). -/
def copyScope (c : Copy) : Scope :=
  match bits c.ctl.toNat 18 2 with
  | 0 => .co | 1 => .qd | 2 => .di | _ => .pk

/-- The well that an instruction or a step concerns: its core and handle. -/
def wellOf (i : Inst) : Option (CoreId × Nat) :=
  match i.instr with
  | .wset o | .wwait o | .wfree o | .copy o | .copycan o => some (i.s.curCoreId, o.handle.val)
  | .copyq o => some (i.s.curCoreId, (i.s.getR o.s).toNat)
  | .copyIteration => some (i.s.req.core, i.s.req.handle.val)
  | _ => none

/-- That well, before and after the turn. -/
def Inst.wellIn (i : Inst) (s : State) : Well := match wellOf i with | some (c, k) => (s.core c).well k | none => {}

/-- A COPY or COPYQ that issues a copy. -/
def issues (i : Inst) : Option Copy :=
  match i.instr with
  | .copy _ | .copyq _ => if ended i then (i.wellIn i.after).copy else none
  | _ => none

/-- The turn frees its well (Table 9.2). -/
def frees (i : Inst) : Bool := (i.wellIn i.s).state != .free && (i.wellIn i.after).state == .free

/-- A satisfied WWAIT for the state in which a copy has ended, full or filling-faulted (R138). -/
def joinsCopy (i : Inst) : Bool :=
  match i.instr with
  | .wwait o => ended i && (o.state == .full || o.state == .faulted)
  | _ => false

/-- A release or veto that is not ignored (R266, R267). -/
def ringMoved (i : Inst) (k : Nat) : Bool := ended i && (i.after.ring k).ign == (i.s.ring k).ign

/-- A FLPOST that posts a request (R359). -/
def posts (i : Inst) (k : Nat) : Bool := (i.s.flashRing k).inflight.length < (i.after.flashRing k).inflight.length

/-- The completion word that an FLPOLL returns: 0 where it returns none. -/
def completion (i : Inst) (o : HT16R) : BitVec 64 :=
  let r := i.s.flashRing (i.s.getR o.a).toNat
  let b := i.s.getR o.b
  if !ended i || !r.en || decide (2 ^ 32 ≤ b.toNat) || !r.tags.contains (b.truncate 32) then 0 else r.word (b.truncate 32)

/-- The barriers at which a turn arrives, or that it credits with bytes, each with the phase in which it does so (R299, R301); those of
a member of a pod barrier are in a message to its ROOT (R304). -/
def arrivals (i : Inst) : List (Nat × BitVec 32) :=
  match i.turn, i.instr with
  | .barrierCycle _, _ | _, .barexp _ | _, .barrierEnable | _, .barrierDisable | _, .registerWrite | _, .podPhaseMessage | _, .reset => []
  | _, _ =>
    (i.after.hub.barriers.filterMap fun (k, b) =>
      let a : Barrier := tget {} i.s.hub.barriers k
      if a.arr != b.arr || a.byt != b.byt || a.phase != b.phase then some (k, a.phase) else none) ++
    ((i.after.hub.podOut.drop i.s.hub.podOut.length).filterMap fun
      | .arrival id _ m => if m.arrivals != 0 || m.bytes != 0 then some (32 * podNetwork + id, (i.s.barrier podNetwork id).phase) else none
      | _ => none)

/-- The acquire and the release that an instruction performs where no access of its own carries them; `cs` is the scope of the copy that a
WWAIT joins. -/
def orders (cs : Scope) (i : Inst) : Option Scope × Option Scope :=
  let fin (x : Option Scope) : Option Scope := if ended i then x else none
  let pk (b : Bool) : Option Scope := if b then some .pk else none
  match i.instr with
  | .bararr o => (none, fin (some o.scope))
  | .barwait o => (fin (some o.scope), none)
  | .bar o => (fin (some o.scope), if (arrivals i).isEmpty then none else some o.scope)
  | .wset _ => (fin (some .co), none)
  | .wfree _ => (none, fin (some .co))
  | .wwait _ => (if joinsCopy i then some cs else none, none)
  | .copycan _ => (none, if frees i then some (match (i.wellIn i.s).copy with | some c => copyScope c | none => .co) else none)
  | .fpop _ => (fin (some .di), none)
  | .fpush _ => (none, pk (ended i))
  | .blrel o | .blveto o => (none, pk (ringMoved i (i.s.getR o.a).toNat))
  | .flpost o => (none, pk (posts i (i.s.getR o.a).toNat))
  | .flpoll o => (pk (completion i o != 0), none)
  | .vocswap o | .gmreset o => (none, pk (ended i && i.s.getR o.b != 0))
  | .mtloadq _ => (none, fin (some .di))
  | .vld o | .vlds o | .vldff o | .vldw o | .vldch o | .vwaitf o => (fin (acquires o.order o.scope), none)
  | _ => (none, none)

/-- An instruction that forks another thread, or that a rendezvous joins (Table 22.2). -/
def forks (i : Inst) : Bool :=
  match i.instr with
  | .rdv | .copy _ | .copyq _ | .sbind _ | .sskip _ | .mrldff _ | .fork _
  | .vld _ | .vlds _ | .vldff _ | .vldw _ | .vldch _ | .vldx _ | .vldt _ => ended i
  | _ => false

/-- It latches a tile, or works with the one latched (R226, R234). -/
def usesTile (i : Inst) : Bool :=
  match i.instr with
  | .mtload _ | .mrow _ | .mrowz _ | .mstat _ => i.issued.isSome
  | _ => false

/-- The nodes of a turn: its accesses, then its release or fork side, then its acquire or join side. -/
def Inst.nodes (n : Nat) (cs : Scope) (i : Inst) : List Node :=
  let a := i.agent n
  let (acq, rel) := orders cs i
  ((i.accesses n).map fun x => { inst := n, acc := x, agent := x.apart.getD a }) ++
  (if rel.isSome || forks i then [{ inst := n, acc := { part := 8, release := rel }, agent := a, side := .fork }] else []) ++
  (if acq.isSome || (i.instr == .rdv && ended i) || usesTile i then [{ inst := n, acc := { part := 9, acquire := acq }, agent := a, side := .done }] else [])

/-- An outcome with its nodes, turn by turn. -/
structure Graph where
  o     : Outcome
  nodes : List Node

/-- The scope of the copy that the well of turn n has held last. -/
def Outcome.copyScopeAt (o : Outcome) (n : Nat) (i : Inst) : Scope :=
  match (o.insts.take n).reverse.find? fun k => wellOf k == wellOf i && (issues k).isSome with
  | some k => match issues k with | some c => copyScope c | none => .co
  | none => .co

def Outcome.graph (o : Outcome) : Graph := ⟨o, o.insts.zipIdx.flatMap fun (i, n) => i.nodes n (o.copyScopeAt n i)⟩

variable (g : Graph)

def Graph.inst (n : Nat) : Inst := g.o.insts.getD n ⟨.barrierCycle false, {}, .rc, []⟩
def Graph.turns : List Nat := List.range g.o.insts.length
def Graph.node (k : Nat) : Node := g.nodes.getD k { inst := 0, acc := {}, agent := .onHub 0 }
def Graph.ids : List Nat := List.range g.nodes.length
def Graph.pairs : List (Nat × Nat) := g.ids.flatMap fun i => g.ids.map fun j => (i, j)
def Graph.agentOf (n : Nat) : Agent := (g.inst n).agent n

/-- The accesses of a turn, and the place of the first. -/
def Graph.accesses (n : Nat) : List Access := (g.nodes.filter fun x => x.inst == n && x.side == .access).map (·.acc)
def Graph.base (n : Nat) : Nat := g.nodes.findIdx fun x => x.inst == n

/-! ### Program order -/

/-- The turn in which the instruction of turn n began: an invalidation may have cut it into several (R85). -/
def headFrom (g : Graph) : (fuel n : Nat) → Nat
  | 0, n => n
  | fuel + 1, n =>
    match lastBefore n fun m => g.agentOf m == g.agentOf n && (g.inst m).issued.isSome with
    | some m => if (g.inst n).inStream && (g.inst m).cut then headFrom g fuel m else n
    | none => n
def Graph.head (n : Nat) : Nat := headFrom g n n

/-- Turn m precedes turn n in one stream, or one supervisor core, or on one link (R309). -/
def Graph.earlier (m n : Nat) : Bool := g.agentOf m == g.agentOf n && decide (g.head m < g.head n)

/-- Node x precedes node y in program order: an earlier instruction, or an earlier part of one. Fetches, and the threads of the engines
that an instruction forks, are in no program order with its stream. -/
def Graph.before (x y : Node) : Bool :=
  x.agent == y.agent && x.acc.role != .fetch && y.acc.role != .fetch &&
  (g.earlier x.inst y.inst || (x.inst == y.inst && decide (x.acc.part < y.acc.part)))

/-- A fence covers a node: the accesses of its own stream or supervisor core, and, on the A-stream, the fills of its explicit loads; on
the C-stream nothing (R307). -/
def Graph.covered (x : Node) (f : Nat) : Bool :=
  g.agentOf x.inst == g.agentOf f && (x.acc.role == .own || x.acc.role == .fill) &&
  (!(g.inst f).inStream || (g.inst f).s.curStream == .x || (g.inst f).s.curStream == .a) && (x.acc.role == .own || (g.inst f).s.curStream == .a)

/-- The scopes of the fences that stand between a node and turn n, and cover the node. -/
def Graph.fencesTo (x : Node) (n : Nat) : List Scope :=
  g.turns.filterMap fun f => if g.earlier x.inst f && g.earlier f n && g.covered x f then fenceScope (g.inst f) else none

/-- Those that stand between two nodes and cover both. -/
def Graph.fences (x y : Node) : List Scope :=
  g.turns.filterMap fun f =>
    if g.earlier x.inst f && g.earlier f y.inst && g.covered x f && g.covered y f then fenceScope (g.inst f) else none

/-- An edge of the order O; it counts at the given scope, or at every scope. -/
structure Edge where
  src : Nat
  dst : Nat
  at' : Option Scope
  deriving DecidableEq, Repr

def Access.locs (a : Access) : List Loc := a.reads.map Prod.fst ++ a.writes.map Prod.fst
def Access.shares (a b : Access) : Bool := a.locs.any b.locs.contains
def Node.isAccess (x : Node) : Bool := !x.acc.locs.isEmpty
def Node.supervised (x : Node) : Bool := match x.agent with | .supervisor _ => true | _ => false

/-- One location, on an SO or RC page or in a scratchpad through any ports, on a UN page through one (Table 22.1). -/
def sameLocation (x y : Access) : Bool := x.shares y && (x.kind != .un || y.kind != .un || x.port == y.port)

/-- Stash instructions are in program order with the accesses to their region (R131). -/
def sameRegion (x y : Access) : Bool := (x.stash || y.stash) && x.region.isSome && x.region == y.region

/-- The elements of one vector access: on SO pages in ascending order, and those of a VSTX that meet in a byte (R251, R252). -/
def Graph.elements (x y : Node) : Bool :=
  g.head x.inst == g.head y.inst && x.agent == y.agent && decide (x.acc.elem < y.acc.elem) &&
  ((x.acc.kind == .so && y.acc.kind == .so) || (x.acc.vstx && y.acc.vstx && x.acc.shares y.acc))

/-- The cases of Table 22.1 for two nodes (R310): same location, SO, acquire, release, fence, elements. A supervisor core keeps an order
of its own for one location (R316). -/
def Graph.programEdges (i j : Nat) : List Edge :=
  let x := g.node i
  let y := g.node j
  (if g.before x y then
    (if sameLocation x.acc y.acc && !x.supervised then [⟨i, j, none⟩] else []) ++
    (if sameRegion x.acc y.acc then [⟨i, j, none⟩] else []) ++
    (if x.isAccess && y.isAccess && y.acc.kind == .so then [⟨i, j, none⟩] else []) ++
    (match x.acc.acquire with | some s => [⟨i, j, some s⟩] | none => []) ++
    (match y.acc.release with | some s => [⟨i, j, some s⟩] | none => [])
  else []) ++
  ((g.fences x y).map fun s => ⟨i, j, some s⟩) ++
  (if g.elements x y then [⟨i, j, none⟩] else [])

/-- What the cells carry before turn n, its entries taken. -/
def Graph.held (n : Nat) : Carried :=
  (List.range n).foldl (fun c k => c.step k (g.base k) (g.inst k) (g.accesses k)) {}
def Graph.carried (n : Nat) : Carried := (g.held n).taken (g.inst n)

/-- The dependencies (R311): from each load whose value the cells of an access's address, data or preceding branches carry, and from
each load of the turn's own that it goes by. A branch is among the cells of stores only. -/
def Graph.dependencies : List Edge :=
  g.turns.flatMap fun n =>
    let c := g.carried n
    let b := g.base n
    (g.accesses n).zipIdx.flatMap fun (a, k) =>
      ((c.of (g.inst n).hart a.needs ++ a.after.map (b + ·)).filter fun i => !(g.node i).acc.reads.isEmpty).map fun i => ⟨i, b + k, none⟩

/-! ### Reads and coherence -/

/-- The writer that a read takes a location's value from; none for the initial value. -/
def Graph.source (r : Nat) (a : Loc) : Option Nat := (g.o.rf.find? fun t => t.1 == r && t.2.1 == a).map (·.2.2)

/-- The coherence order of a location. -/
def Graph.coOf (a : Loc) : List Nat := find [] g.o.co a

/-- Writer w comes before writer w' in the coherence order of a location; the initial value comes before every writer. -/
def Graph.coBefore (a : Loc) (w : Option Nat) (w' : Nat) : Bool :=
  let l := g.coOf a
  match w with
  | none => l.contains w'
  | some w => l.contains w && l.contains w' && decide (l.idxOf w < l.idxOf w')

/-- The locations of an outcome. -/
def Graph.locs : List Loc := (g.nodes.flatMap fun x => x.acc.locs).dedup

/-- An acquire observes a release (R312): it reads a location from the release, or from a later write of it by an atomic or by the
releasing agent. -/
def Graph.observes (acq rel : Nat) : Bool :=
  (g.node acq).acc.reads.any fun (a, _) =>
    match g.source acq a with
    | none => false
    | some w => (g.node rel).acc.writes.any fun (b, _) =>
        b == a && (w == rel || (g.coBefore a (some rel) w && ((g.node w).acc.atomic || (g.node w).agent == (g.node rel).agent)))

/-- A release and the acquire that observes it, both of a scope that covers the two agents; the edge counts at the narrower scope. What
stands before the release and after the acquire follows by Table 22.1. -/
def Graph.syncEdges : List Edge :=
  g.pairs.filterMap fun (r, a) =>
    match (g.node r).acc.release, (g.node a).acc.acquire with
    | some s1, some s2 =>
      let x := (g.node r).agent
      let y := (g.node a).agent
      if x != y && g.observes a r && covers s1 x y && covers s2 x y then some ⟨r, a, some (narrower s1 s2)⟩ else none
    | _, _ => none

/-- Reads-from edges between agents, coherence edges, from-read edges (R314). -/
def Graph.readsFrom : List Edge :=
  g.o.rf.filterMap fun (r, _, w) => if (g.node r).agent != (g.node w).agent then some ⟨w, r, none⟩ else none
def Graph.coherence : List Edge :=
  g.o.co.flatMap fun (_, l) => l.zipIdx.flatMap fun (i, k) => (l.drop (k + 1)).map fun j => ⟨i, j, none⟩
def Graph.fromReads : List Edge :=
  g.pairs.flatMap fun (r, w) =>
    ((g.node r).acc.reads.filter fun (a, _) => g.coBefore a (g.source r a) w && r != w).map fun _ => ⟨r, w, none⟩

/-! ### Supervisor cores (R316) -/

/-- The access of a supervisor core depends on an earlier one of that core. -/
def Graph.dependsOn (j i : Nat) (p : Dep → Bool) : Bool :=
  (g.inst (g.node j).inst).given.any fun (k, d) => k == i && p d && g.before (g.node i) (g.node j) && !(g.node i).acc.reads.isEmpty

/-- The order that RVWMO preserves between two accesses of one supervisor core, beside what an acquire, a release, a fence and the page
kinds give (R316; PRESUMED, log 81): a store after an access of its location; two loads of one location, with no store between them, that
read different writes; an atomic and a load that reads from it; a release before an acquire; an address, data or control dependency; a
load that reads a store which depends on an earlier load; a store after an access whose address depends on a load. -/
def Graph.supervisorOrder (i j : Nat) : Bool :=
  let x := g.node i
  let y := g.node j
  let loads (z : Node) : Bool := !z.acc.reads.isEmpty
  let stores (z : Node) : Bool := !z.acc.writes.isEmpty
  let between (k : Nat) : Bool := g.before x (g.node k) && g.before (g.node k) y
  x.supervised && g.before x y &&
  ((x.acc.shares y.acc && stores y) ||
   (loads x && loads y && y.acc.reads.any fun (a, _) =>
     x.acc.locs.contains a && (g.source i a != g.source j a) &&
     !(g.ids.any fun k => between k && ((g.node k).acc.writes.map Prod.fst).contains a)) ||
   (x.acc.atomic && loads y && y.acc.reads.any fun (a, _) => g.source j a == some i) ||
   (x.acc.release.isSome && y.acc.acquire.isSome) ||
   g.dependsOn j i (fun | .addr => true | _ => stores y) ||
   (loads y && g.ids.any fun k => between k && g.dependsOn k i (· != .control) && y.acc.reads.any fun (a, _) => g.source j a == some k) ||
   (stores y && g.ids.any fun k => between k && g.dependsOn k i (· == .addr)))

def Graph.supervisorEdges : List Edge :=
  g.pairs.filterMap fun (i, j) => if g.supervisorOrder i j then some ⟨i, j, none⟩ else none

/-! ### The joins of Table 22.2 -/

/-- Everything on the release or fork side comes before everything on the acquire or join side, at a scope. -/
structure Join where
  rel   : Node → Bool
  acq   : Node → Bool
  scope : Scope

/-- What the stream of turn n did up to it: everything before its instruction, the accesses of its own, and where it forks. -/
def Graph.upTo (n : Nat) (x : Node) : Bool :=
  x.agent == g.agentOf n && x.acc.role != .fetch && (g.earlier x.inst n || (g.head x.inst == g.head n && x.side != .done))
/-- What that stream does from turn n on. -/
def Graph.onFrom (n : Nat) (y : Node) : Bool :=
  y.agent == g.agentOf n && y.acc.role != .fetch && (g.earlier n y.inst || (y.inst == n && y.side != .fork))
/-- The nodes of a turn; those of the threads that its instruction forks. -/
def madeBy (n : Nat) (x : Node) : Bool := x.inst == n && x.acc.role != .fetch
def forkedBy (n : Nat) (x : Node) : Bool := x.inst == n && x.acc.apart.isSome

/-- The turns that satisfy a predicate. -/
def Graph.places (p : Inst → Bool) : List Nat := g.turns.filter fun k => p (g.inst k)

/-- A thread that the instruction of turn n forks begins after what an acquire or a fence of its stream orders before that instruction:
from each acquire, at its scope, and from what each fence covers. `own` counts an acquire of the instruction itself, where it has
completed when the thread begins. -/
def Graph.gates (own : Bool) (n : Nat) (acq : Node → Bool) : List Join :=
  (g.nodes.filter fun x => g.upTo n x && (own || x.inst != n) && x.acc.acquire.isSome).filterMap (fun x => x.acc.acquire.map fun sc => ⟨(· == x), acq, sc⟩) ++
  g.turns.filterMap fun f =>
    if g.earlier f n then (fenceScope (g.inst f)).map fun sc => ⟨fun x => g.earlier x.inst f && g.covered x f, acq, sc⟩ else none

/-- What an instruction of a stream has units do for it, and its walks and fills, come after its stream's earlier acquires (R78,
R154). -/
def Graph.units : List Join :=
  (g.places Inst.inStream).flatMap fun n => if g.nodes.any (forkedBy n) then g.gates false n (forkedBy n) else []

def isRdv (h : HartId) (st : Stream) (i : Inst) : Bool := i.instr == .rdv && ended i && i.s.curHart == h && i.s.curStream == st

/-- A rendezvous: the k-th RDV of each stream of a hart, with the explicit loads before it (R283). -/
def Graph.rendezvous : List Join :=
  let rdvs := g.places fun i => i.instr == .rdv && ended i
  let count (n : Nat) : Nat := ((List.range n).filter fun k => isRdv (g.inst n).s.curHart (g.inst n).s.curStream (g.inst k)).length
  rdvs.flatMap fun n => rdvs.filterMap fun m =>
    if (g.inst n).s.curHart == (g.inst m).s.curHart && count n == count m then
      some ⟨fun x => g.upTo n x || (x.acc.role == .fill && g.earlier x.inst n), g.onFrom m, .co⟩
    else none

/-- A queue: from the put of an entry to the QGET or BQ that takes it, for the A-stream's scalar accesses (R280). -/
def Graph.queues : List Join :=
  (g.places Inst.inStream).filterMap fun n =>
    let i := g.inst n
    let q : Option Nat := match i.instr with | .qget o => some o.q.val | .bq _ => some 32 | _ => none
    q.bind fun q =>
      if queueLen (tget {} i.after.harts i.hart) q < queueLen (tget {} i.s.harts i.hart) q then
        (find [] (g.held n).queues (i.hart, q)).head?.map fun x => ⟨fun y => y.acc.scalar && g.upTo x.1 y, g.onFrom n, .co⟩
      else none

/-- A wait on a barrier that ends with the turn: the barrier and the phase p waited for. -/
def waits (i : Inst) : List (Nat × BitVec 32) :=
  let at' (o : HT16S) : Nat := 32 * (networkOf i.s.curHart o.scope).getD 0 + o.id.val
  if !ended i then []
  else match i.instr with
  | .barwait o => [(at' o, BitVec.ofNat 32 (i.s.getR o.s).toNat)]
  | .bar o => match i.s.curSt.arrival with
    | some r => [(32 * r.network + r.id, r.phase)]
    | none => [(at' o, (tget {} i.s.hub.barriers (at' o) : Barrier).phase)]
  | _ => []

/-- The scope of a barrier's network (R296). -/
def networkScope (net : Nat) : Scope :=
  if net < 384 then .co else if net < 480 then .qd else if net < 484 then .di else if net = 484 then .pk else .pd

/-- A barrier: from each arrival in phase p, with the stream's accesses or the engine's writes before it, to each satisfied wait on p
(R301). -/
def Graph.barriers : List Join :=
  g.turns.flatMap fun n => (arrivals (g.inst n)).flatMap fun a =>
    g.turns.flatMap fun m => (waits (g.inst m)).filterMap fun w =>
      if w == a && decide (n ≤ m) then some ⟨if (g.inst n).inStream then g.upTo n else madeBy n, g.onFrom m, networkScope (a.1 / 32)⟩ else none

/-- A copy (R138): from its COPY or COPYQ to each iteration, and from both, as it becomes full or faulted, to the WWAIT; at CS. -/
def Graph.copies : List Join :=
  g.turns.flatMap fun f =>
    match issues (g.inst f) with
    | none => []
    | some c =>
      let its := g.turns.filter fun k => decide (f < k) && (g.inst k).instr == .copyIteration &&
        match ((g.inst k).wellIn (g.inst k).s).copy with | some x => x.seq == c.seq | none => false
      let next := (g.turns.find? fun k => decide (f < k) && wellOf (g.inst k) == wellOf (g.inst f) && (issues (g.inst k)).isSome).getD g.o.insts.length
      its.map (fun k => ⟨g.upTo f, madeBy k, copyScope c⟩) ++
      (g.turns.filter fun n => decide (f < n) && decide (n < next) && wellOf (g.inst n) == wellOf (g.inst f) && joinsCopy (g.inst n)).map fun n =>
        ⟨fun x => g.upTo f x || (its.contains x.inst && decide (x.inst < n) && x.acc.role == .engine && decide (x.acc.part < 4)), g.onFrom n, copyScope c⟩

/-- A handle: from the WFREE, or the COPYCAN, that freed it to the WSET that claims it (R143). -/
def Graph.handles : List Join :=
  (g.places fun i => ended i && match i.instr with | .wset _ => true | _ => false).filterMap fun n =>
    (lastBefore n fun k => wellOf (g.inst k) == wellOf (g.inst n) && frees (g.inst k)).bind fun f =>
      match (g.inst f).instr with
      | .wfree _ | .copycan _ => some ⟨g.upTo f, g.onFrom n, .co⟩
      | _ => none

/-- The instructions that fork the fill that turn n makes: what binds the register, moves its cursor, or asks for a row; an explicit load
forks its own. -/
def Graph.filledFor (n : Nat) : List Nat :=
  let i := g.inst n
  match i.instr with
  | .streamFill | .mrldffRowFill =>
    (List.range n).filter fun k =>
      let x := g.inst k
      x.inStream && ended x && x.s.curHart == i.s.req.hart && match x.instr with
        | .sbind y | .sskip y => y.v == i.s.req.reg
        | .mrldff y => y.v == i.s.req.reg
        | _ => false
  | .vld _ | .vlds _ | .vldff _ | .vldw _ | .vldch _ | .vldx _ | .vldt _ => [n]
  | _ => []

/-- The reads of a fill. -/
def fillReads (n : Nat) (x : Node) : Bool := x.inst == n && x.acc.role == .fill

/-- The fills (R154, R239): from the instructions that fork one, with what their stream did before, to its reads, and, past an acquire or
a fence of that stream, at the scope of that too (R106); from both to the instruction that pops the entry; and to the acquire of a load
with .AQ. -/
def Graph.fills : List Join :=
  g.turns.flatMap fun n =>
    let i := g.inst n
    let turn := i.instr == .streamFill || i.instr == .mrldffRowFill
    (g.filledFor n).flatMap (fun k => ⟨g.upTo k, fillReads n, .co⟩ :: if turn then g.gates true k (madeBy n) else []) ++
    (g.nodes.filter fun y => y.inst == n && y.side == .done).filterMap (fun y => y.acc.acquire.map fun sc => ⟨fillReads n, (· == y), sc⟩) ++
    (bindingsOf i.s i.after i.hart).flatMap fun (v, _, a, b) =>
      ((find [] (g.held n).entries (i.hart, v)).take (a - b)).flatMap fun e => e.fillers.flatMap fun f =>
        ⟨fillReads f, g.onFrom n, .co⟩ :: (g.filledFor f).map fun k => ⟨g.upTo k, g.onFrom n, .co⟩

/-- A VWAITF with .AQ: its flag-wait unit's reads come before its acquire (R306). -/
def Graph.flagWaits : List Join :=
  g.turns.filterMap fun n =>
    match (g.inst n).instr with
    | .vwaitf y => (acquires y.order y.scope).map fun sc => ⟨forkedBy n, fun x => x.inst == n && x.side == .done, sc⟩
    | _ => none

/-- The scribe: from each BLREL that is not ignored to its reads (R266, R271). -/
def Graph.scribes : List Join :=
  (g.places fun i => i.instr == .scribeEmit).flatMap fun n =>
    let r := (g.inst n).s.req.ring.val
    ((List.range n).filter fun k => match (g.inst k).instr with
      | .blrel x => ((g.inst k).s.getR x.a).toNat == r && ringMoved (g.inst k) r
      | _ => false).map fun k => ⟨g.upTo k, madeBy n, .pk⟩

/-- A flash request: from the FLPOST that posts it to the engine's accesses, and from those to the FLPOLL that returns its completion
word (R360). -/
def Graph.flashes : List Join :=
  (g.places fun i => i.instr == .flashRequestComplete).flatMap fun n =>
    let r := (g.inst n).s.req
    ((lastBefore n fun k => match (g.inst k).instr with
        | .flpost y => ((g.inst k).s.getR y.a).toNat == r.fring.val && posts (g.inst k) r.fring.val &&
            ((g.inst k).s.flashRing r.fring.val).next == r.tag
        | _ => false).toList.map fun f => ⟨g.upTo f, madeBy n, .pk⟩) ++
    (g.places fun j => match j.instr with
        | .flpoll y => (j.s.getR y.a).toNat == r.fring.val && j.s.getR y.b == r.tag.zeroExtend 64 && completion j y != 0
        | _ => false).filterMap fun m => if n < m then some ⟨madeBy n, g.onFrom m, .pk⟩ else none

/-- The objects that the hub reads for an instruction once it has released at .PK: a vocabulary, an automaton (R68, R277). -/
def Graph.objects : List Join :=
  (g.places fun i => match i.instr with | .vocswap _ | .gmreset _ => true | _ => false).map fun n => ⟨g.upTo n, fun x => x.inst == n && x.acc.role == .unit, .pk⟩

/-- The accesses of a walk. -/
def walking (x : Node) : Bool := x.acc.role == .walk || x.acc.role == .ast

/-- A walk joins, with what it has read, the accesses that go through its translation: those of the turn that forks it, or, where a turn
makes no walk, those that go through the translation that the last PAGE_WALK cached (R78, R81, R83). -/
def Graph.walks : List Join :=
  g.turns.flatMap fun n =>
    let mine := g.nodes.filter fun x => x.inst == n
    let vias := (mine.filterMap fun x => x.acc.via).dedup
    vias.flatMap fun v =>
      let uses (x : Node) : Bool := x.inst == n && !walking x && x.acc.via == some v
      let walked (m : Nat) (x : Node) : Bool := x.inst == m && walking x && x.acc.via == some v
      ⟨fun x => walked n x && x.acc.role == .ast, fun x => walked n x && x.acc.role == .walk, .pk⟩ ::
      if mine.any (walked n) then [⟨walked n, uses, .pk⟩]
      else ((lastBefore n fun m => (g.inst m).instr == .pageWalk && g.nodes.any (walked m)).toList.map fun m => ⟨walked m, uses, .pk⟩)

/-- The streams that a FORK starts fetch after it, and after what its stream did before (R36). -/
def Graph.fetches : List Join :=
  (g.places fun i => ended i && match i.instr with | .fork _ => true | _ => false).flatMap fun f =>
    let after (x : Node) : Bool := x.acc.role == .fetch && decide (f < x.inst) && (g.inst x.inst).s.curHart == (g.inst f).s.curHart
    ⟨g.upTo f, after, .pk⟩ :: g.gates true f after

/-! ### Invalidations (R81, R85, R314, R317) -/

/-- A translation lies in the range of a port. -/
def inRange (x : InvPort) (v : Via) : Bool := x.covers ⟨v.asid, v.vpage, v.level, 0⟩

/-- The load with which a supervisor core finds DONE = 1. -/
def readsDone (i : Inst) (p : Nat) : Bool :=
  match i.instr, i.s.req.op with
  | .supervisorAccess, .load _ pa => (match hubReg pa.toNat with | some (.invctl q) => q == p | _ => false) && (i.s.port p).done
  | _, _ => false

/-- An invalidation: every access through a translation of its range that comes before DONE becomes 1 is performed before what the
supervisor core does once it has read that; and a walk of the range that comes after it begins after what the core did before it wrote
INVCTL. -/
def Graph.invalidations : List Join :=
  (List.range 8).flatMap fun p =>
    (g.places fun i => !(i.found.port p).done && (i.after.port p).done).flatMap fun d =>
      let range := (g.inst d).found.port p
      let via (x : Node) : Bool := match x.acc.via with | some v => inRange range v | none => false
      let next := (g.turns.find? fun k => decide (d < k) && !((g.inst k).after.port p).done).getD g.o.insts.length
      ((g.turns.filter fun m => decide (d < m) && decide (m < next) && readsDone (g.inst m) p).map fun m =>
        ⟨fun x => decide (x.inst < d) && via x, g.onFrom m, .pk⟩) ++
      ((lastBefore d fun k => ((g.inst k).found.port p).done && !((g.inst k).after.port p).done).toList.map fun k =>
        ⟨g.upTo k, fun y => decide (d < y.inst) && walking y && via y, .pk⟩)

/-- Every join of Table 22.2 that is not carried by a location. The stage queue, the ligature push, the append, the blotter, the
network's record, the promotion, the table entries of a walk and a host's writes are: their releases are observed by acquires of the
same location. -/
def Graph.joins : List Join :=
  g.units ++ g.rendezvous ++ g.queues ++ g.barriers ++ g.copies ++ g.handles ++ g.fills ++ g.flagWaits ++ g.scribes ++ g.flashes ++ g.objects ++
  g.walks ++ g.fetches ++ g.invalidations

def Graph.joinEdges : List Edge :=
  g.joins.flatMap fun j =>
    (g.ids.filter fun x => j.rel (g.node x)).flatMap fun x =>
      (g.ids.filter fun y => x != y && j.acq (g.node y)).map fun y => ⟨x, y, some j.scope⟩

/-! ### What is done one at a time -/

/-- The ring that an operation concerns (R260). -/
def ringOf (i : Inst) : Option Nat :=
  match i.instr with
  | .blapp o | .blread o | .blrel o | .blveto o => some (i.s.getR o.a).toNat
  | .scribeEmit | .blotterRingEnable | .blotterRingDisable => some i.s.req.ring.val
  | _ => none

/-- The harts whose tile a turn latches or works with (R226, R234). -/
def tilesOf (i : Inst) : List Nat :=
  match i.instr with
  | .mtloadq _ => if ended i then i.latches else []
  | _ => if usesTile i then [i.hart] else []

/-- An operation on a stage queue (R64). -/
def queueing (i : Inst) : Bool := match i.instr with | .sqpush _ | .sqpop _ | .ligaturePush => true | _ => false

def Access.inRing (a : Access) : Bool := a.locs.any fun | .ring _ _ => true | _ => false

/-- An access lies within a region of a scratchpad: as a stash access, or as a plain one. -/
def inRegion (r : Nat × Nat) (a : Access) : Bool :=
  a.region == some r || a.locs.any fun | .pad c off => c == r.1 && decide (r.2 ≤ off) && decide (off < r.2 + 4096) | _ => false

/-- Two nodes of operations that are made one at a time, in the order of their turns: those of one ring (R260, R313); those of a stage
queue's storage; the latching of a tile and the work with it, which uses one whole tile (R234); the mapping or unmapping of a stash
region and any access to it (R131). -/
def Graph.oneAtATime (x y : Node) : Bool :=
  let a := g.inst x.inst
  let b := g.inst y.inst
  let op (z : Node) : Bool := z.side != .access || z.acc.inRing
  ((ringOf a).isSome && ringOf a == ringOf b && op x && op y) ||
  (queueing a && queueing b && x.acc.shares y.acc) ||
  (x.side != .access && y.side != .access && (tilesOf a).any (tilesOf b).contains) ||
  (x.acc.stash && (match x.acc.region with | some r => inRegion r y.acc | none => false)) ||
  (y.acc.stash && (match y.acc.region with | some r => inRegion r x.acc | none => false))

def Graph.turnEdges : List Edge :=
  g.pairs.filterMap fun (x, y) =>
    if decide ((g.node x).inst < (g.node y).inst) && g.oneAtATime (g.node x) (g.node y) then some ⟨x, y, none⟩ else none

/-- The order O. -/
def Graph.order : List Edge :=
  (g.pairs.flatMap fun (i, j) => g.programEdges i j) ++ g.dependencies ++ g.supervisorEdges ++ g.syncEdges ++ g.joinEdges ++ g.turnEdges ++
  g.readsFrom ++ g.coherence ++ g.fromReads

/-! ### The conditions of R314 -/

/-- A cycle of edges: each ends where the next begins, and the last where the first begins. -/
def IsCycle (c : List Edge) : Prop :=
  c ≠ [] ∧ List.IsChain (fun e f : Edge => e.dst = f.src) c ∧ (c.getLast?.map (·.dst)) = (c.head?.map (·.src))

/-- Every edge of a cycle counts at a scope that covers every agent of the cycle. -/
def Graph.counts (c : List Edge) : Prop :=
  ∀ e ∈ c, ∀ s, e.at' = some s → ∀ f ∈ c, ∀ h ∈ c, covers s (g.node f.src).agent (g.node h.src).agent = true

/-- Condition 1. -/
def Graph.acyclic : Prop := ∀ c : List Edge, (∀ e ∈ c, e ∈ g.order) → IsCycle c → ¬ g.counts c

/-- The program order of one location: that of the first case of Table 22.1, of a supervisor core too (on a UN page, through one port,
Table 22.6). -/
def Graph.locationOrder : List Edge :=
  g.pairs.filterMap fun (i, j) => if g.before (g.node i) (g.node j) && sameLocation (g.node i).acc (g.node j).acc then some ⟨i, j, none⟩ else none

/-- Condition 2: the edges of O among a location's accesses, with the program order of one location, have no cycle. -/
def Graph.perLocation : Prop :=
  ∀ a ∈ g.locs, ∀ c : List Edge,
    (∀ e ∈ c, a ∈ (g.node e.src).acc.locs ∧ a ∈ (g.node e.dst).acc.locs ∧ e ∈ g.order ++ g.locationOrder) → ¬ IsCycle c

/-- No other agent's write of a location falls between what node r reads of it and the write of node k. -/
def Graph.undisturbed (r k : Nat) (a : Loc) : Prop :=
  ∀ w ∈ g.ids, (g.node w).agent ≠ (g.node k).agent → ¬ (g.coBefore a (g.source r a) w = true ∧ g.coBefore a (some w) k = true)

/-- Condition 3, for the read and the write of an atomic; and a descriptor's line is locked for the whole of an instruction (R95). -/
def Graph.atomicity : Prop :=
  (∀ k ∈ g.ids, (g.node k).acc.atomic = true → ∀ a ∈ (g.node k).acc.writes.map Prod.fst, a ∈ (g.node k).acc.reads.map Prod.fst → g.undisturbed k k a) ∧
  (∀ r ∈ g.ids, ∀ k ∈ g.ids, (g.node r).inst = (g.node k).inst → (g.node r).acc.lock = true → (g.node k).acc.lock = true →
    ∀ a ∈ (g.node k).acc.writes.map Prod.fst, a ∈ (g.node r).acc.reads.map Prod.fst → g.undisturbed r k a)

/-- The value that a location holds before the outcome. -/
def Graph.initial (a : Loc) : Nat := valueAt (settled (g.inst 0).found) a

/-- What is read of each location is what its writer wrote, or what the location held at first. -/
def Graph.readValues : Prop :=
  ∀ k ∈ g.ids, ∀ p ∈ (g.node k).acc.reads,
    match g.source k p.1 with
    | some w => w ∈ g.ids ∧ p ∈ (g.node w).acc.writes
    | none => g.initial p.1 = p.2

/-- Condition 4: a turn finds in each location what it held at first, or what some access of the outcome wrote. -/
def Graph.fromSomewhere : Prop :=
  ∀ n ∈ g.turns, ∀ a : Loc, valueAt (settled (g.inst n).found) a = g.initial a ∨
    ∃ k ∈ g.ids, (a, valueAt (settled (g.inst n).found) a) ∈ (g.node k).acc.writes

/-- The coherence order of each location lists exactly the writers of it, each once. -/
def Graph.coWf : Prop :=
  ∀ a ∈ g.locs, (g.coOf a).Nodup ∧ ∀ k, k ∈ g.coOf a ↔ k ∈ g.ids ∧ a ∈ (g.node k).acc.writes.map Prod.fst

/-! ### SPINV (R130) -/

/-- The sector of a region behind which a byte of memory lies is dirty. -/
def dirtyAt (s : State) (r : Nat × Nat) (a : Loc) : Bool :=
  match a with
  | .mem pa => (tget {} s.cores r.1 : Core).stash.any fun x => x.offset == r.2 && x.valid.any fun (_, l) =>
      l.pa / 64 == pa / 64 && (if pa % 64 < 32 then l.dirty.1 else l.dirty.2)
  | _ => false

/-- Node w stored to a location through the region that node k invalidates, and its sector has stayed dirty since. -/
def Graph.dropped (w k : Nat) (a : Loc) : Bool :=
  let x := g.node w
  let y := g.node k
  match y.acc.region with
  | none => false
  | some r => !x.acc.stash && x.acc.region == some r && decide (x.inst < y.inst) && (x.acc.writes.map Prod.fst).contains a &&
      (List.range (y.inst - x.inst)).all fun j => dirtyAt (g.inst (x.inst + 1 + j)).found r a

/-- An SPINV leaves each location of a sector that it drops as though the hart had never stored to it: the value of the last write before
it that it does not drop; and what it drops is read through the region only. -/
def Graph.restored : Prop :=
  ∀ k ∈ g.ids, (g.node k).acc.stash = true → ∀ p ∈ (g.node k).acc.writes, (∃ w ∈ g.ids, g.dropped w k p.1 = true) →
    (match ((g.coOf p.1).takeWhile (· != k)).reverse.find? fun w => !g.dropped w k p.1 with
      | some w => p ∈ (g.node w).acc.writes
      | none => g.initial p.1 = p.2) ∧
    ∀ r ∈ g.ids, ∀ w, g.source r p.1 = some w → g.dropped w k p.1 = true → (g.node r).acc.region = (g.node k).acc.region

/-! ### The run -/

/-- What a turn takes over from the one before it in the outcome: the whole machine but the bytes of memory and of the scratchpads, and
of the lines that hosts have modified, which the reads-from map decides; and whose turn it is. -/
def carriedOver (s : State) : State :=
  { s with mem := [], agenda := [], rr := 0, curHart := ⟨0, 0, 0⟩, curStream := .a, fresh := false, upto := none, fallPc := 0, head := 0, tail := 0, req := {}
           cores := s.cores.map fun (k, c) => (k, { c with scratch := [] })
           hub := { s.hub with snoop := s.hub.snoop.map fun e => { e with dirty := e.dirty.map fun _ => [] } } }

/-- A clean sector of a stash holds what memory holds. -/
def coherent (s : State) : Prop :=
  ∀ p ∈ s.cores, ∀ r ∈ p.2.stash, ∀ l ∈ r.valid, ∀ k < 64,
    (if k < 32 then l.2.dirty.1 else l.2.dirty.2) = false → p.2.scratch.read (r.offset + 64 * l.1 + k) = s.mem.read (l.2.pa + k)

/-- The turns follow from one another: each completes, and the next finds the machine that it left. -/
def Outcome.runs (o : Outcome) : Prop :=
  (∀ i ∈ o.insts, coherent i.found ∧ stepTurn i.turn i.found = .next i.after) ∧
  ∀ n, n + 1 < o.insts.length → carriedOver (o.graph.inst (n + 1)).found = carriedOver (o.graph.inst n).after

/-- An outcome with its choices is allowed (R314). -/
def Outcome.allowed (o : Outcome) : Prop :=
  o.runs ∧ o.graph.coWf ∧ o.graph.readValues ∧ o.graph.fromSomewhere ∧ o.graph.acyclic ∧ o.graph.perLocation ∧ o.graph.atomicity ∧ o.graph.restored

end Sys2Proof.Machine.Consistency
end

