-- ==== Sys2Proof/Machine/Geometry.lean ====
section
/-! DEFINITION. What the spec fixes of where things lie and how long they take: the HBM interleave (R72), the home slice (R110),
the sector check (R112), the scratchpad banks and their rounds (R116, R117), the vector sequencer's choice (R210), the tree
unit's steps and latency (R212). No instruction's result depends on them (R6, R110, R117, R210, R212), so they are functions
of addresses, counts and the slice map. -/

namespace Sys2Proof.Machine

/-! ### HBM (R72) -/

/-- The granule of an offset into a die's window. -/
def granule (o : Nat) : Nat := o / 256

/-- The HBM stack of an offset into the window of die d. -/
def hbmStack (d o : Nat) : Nat := 3 * d + granule o % 3

/-- The pseudo-channel, 0 to 63. -/
def hbmPch (o : Nat) : Nat := (granule o / 3 % 64) ^^^ (granule o / 192 % 64)

/-! ### Home slices (R110) -/

/-- The twelve-bit fold of a physical address, and the logical slice. -/
def sliceFold (pa : Nat) : Nat := bits pa 6 12 ^^^ bits pa 18 12 ^^^ bits pa 30 8
def logicalSlice (pa : Nat) : Nat := sliceFold pa % 128

/-- The physical slice that the slice map of the line's die gives it. -/
def State.physicalSlice (s : State) (pa : Nat) : Nat :=
  tget (logicalSlice pa) (s.die (Fin.ofNat 4 (pa / 2 ^ 38))).sliceMap (logicalSlice pa)

/-! ### Flash channels (R356) -/

/-- The channel of a block of a partition: stripes of 16 blocks over the 16 channels. -/
def flashChannel (block : Nat) : Nat := block / 16 % 16

/-! ### The sector check (R112) -/

/-- One bit enters the CRC-16 register of polynomial 0x8BB7. -/
def crcBit (r : BitVec 16) (b : Bool) : BitVec 16 :=
  if (r.getMsbD 0).xor b then (r <<< 1) ^^^ 0x8BB7 else r <<< 1

/-- A byte enters, most significant bit first. -/
def crcByte (r : BitVec 16) (b : Byte) : BitVec 16 := (List.range 8).foldl (fun r k => crcBit r (b.getMsbD k)) r

/-- The check of a sector's plaintext. -/
def sectorCheck (bytes : List Byte) : BitVec 16 := bytes.foldl crcByte 0

/-! ### The vector sequencer (R210) -/

/-- A hart that has an element group ready for a shared unit: its number, its pass-over count, and the element groups that its
instruction has left. -/
structure Contender where
  hart : Nat
  passed : Nat
  left : Nat
  deriving DecidableEq, Repr

/-- The least member by a key, the first in the list on a tie; the list is in ascending hart number. -/
def leastBy (key : Contender → Nat) : List Contender → Option Contender
  | [] => none
  | c :: cs => match leastBy key cs with
    | some m => if key m < key c then some m else some c
    | none => some c

/-- The hart that the sequencer grants in a core of h harts. -/
def grant (h : Nat) (ready : List Contender) : Option Contender :=
  if ready.any fun c => decide (65 - h ≤ c.passed) then leastBy (fun c => 64 - c.passed) ready
  else leastBy (·.left) ready

/-- The pass-over counts after a grant. -/
def passOver (h : Nat) (ready : List Contender) : List Contender :=
  match grant h ready with
  | none => ready
  | some g => ready.map fun c => if c.hart = g.hart then { c with passed := 0 } else { c with passed := c.passed + 1 }

/-! ### The tree unit (R212) -/

/-- The least k, up to the fuel, with n ≤ 2^k. -/
def ceilLog2 (n : Nat) : (fuel k : Nat) → Nat
  | 0, k => k
  | fuel + 1, k => if n ≤ 2 ^ k then k else ceilLog2 n fuel (k + 1)

/-- The doubling steps of an instruction of N elements. -/
def doublingSteps (n : Nat) : Nat := max 1 (ceilLog2 n 16 0)

/-- The operand's element groups on L lanes at group size g. -/
def elementGroups (g lanes : Nat) : Nat := g * lanes / 4

/-- Cycles from the start to the last write: a doubling instruction, TCONTR, TFROM and TTO. -/
def doublingLatency (d g : Nat) : Nat := 4 + d * (2 + g)
def contractLatency (d g : Nat) : Nat := 4 + 2 * d * (2 + g) + g
def moveLatency (g : Nat) : Nat := 2 + g

end Sys2Proof.Machine
end

