-- ==== Sys2Proof/Tests/Slice0.lean ====
section
/-! SUPPORT. Tests: words of the spec's encodings, ill-formed terms, single steps, and a state and operands that meet the hypotheses
of each statement. Expected values come from the rules of spec/ that the comments name, worked out by hand. -/

set_option Elab.async false

open Sys2Proof Sys2Proof.Machine Sys2Proof.Spec

namespace Sys2Proof.Tests

/-! ### A small module -/

/-- A hart with a task of address space 1 whose streams run. -/
def hart0 : Hart :=
  { task := some ⟨1, 1, 0, 0, 0, false⟩, sa := { stat := .running }, sx := { stat := .running }, sc := { stat := .running } }

/-- Leaves with every permission, A and D set: frame 1, and frame 2 with STASHABLE. -/
def leaf1 : BitVec 64 := 0x1007F
def leaf2 : BitVec 64 := 0x4000000002007F

/-- Address space 1 has a table entry with the grant of key 0; pages 1 and 2 are cached and map to themselves. -/
def base : State :=
  { mem := [(32, 1), (48, 1)], harts := [(0, hart0)], dies := [(0, { tlb := [⟨1, 1, 0, leaf1⟩, ⟨1, 2, 0, leaf2⟩] })]
    hub := { astEn := true, keys := [(0, { loaded := true })] }, fallPc := 2 }

def onA (x : Hart) : State := { base with harts := [(0, x)] }
def onX (x : Hart) : State := { base with harts := [(0, x)], curStream := .x }
def onC (x : Hart) : State := { base with harts := [(0, x)], curStream := .c }
def withMem (s : State) (a n v : Nat) : State := { s with mem := writeBytes s.mem a (leBytes n v) }
def withReq (s : State) (r : Request) : State := { s with req := r }

/-- The state after an instruction, or the state itself where it does not go on. -/
def after (i : Instr) (s : State) : State := match exec i s with | .next t => t | _ => s

/-- What a step of the module leaves. -/
def stepped (s : State) : State := match step s with | .next t => t | _ => s

/-- The state that runs a table word next. -/
def placed (s : State) (nbits w : Nat) : State := s.withFetchWord nbits w

/-! ### From Bool to the terms of the statements -/

def gives {α : Type} [DecidableEq α] (m : Act α) (s : State) (a : α) (t : State) : Bool :=
  match m s with
  | (.ok b, u) => decide (b = a) && decide (u = t)
  | _ => false

theorem runs_of_gives {α : Type} [DecidableEq α] {m : Act α} {s t : State} {a : α} (h : gives m s a t = true) : Runs m s a t := by
  unfold gives at h; unfold Runs
  split at h
  · rename_i b u e
    simp only [Bool.and_eq_true, decide_eq_true_eq] at h
    obtain ⟨rfl, rfl⟩ := h
    exact e
  · cases h

theorem steady_of_gives {α : Type} [DecidableEq α] {m : Act α} {s : State} {a : α} (h : gives m s a s = true) : Steady m s a :=
  runs_of_gives h

/-- An effect answers something that a test accepts, and leaves the state. -/
def answers {α : Type} (m : Act α) (s : State) (p : α → Bool) : Bool :=
  match m s with
  | (.ok b, t) => decide (t = s) && p b
  | _ => false

theorem steady_of_answers {α : Type} {m : Act α} {s : State} {p : α → Bool} (h : answers m s p = true) : ∃ a, Steady m s a ∧ p a = true := by
  unfold answers at h
  split at h
  · rename_i b t q
    simp only [Bool.and_eq_true, decide_eq_true_eq] at h
    obtain ⟨rfl, hp⟩ := h
    exact ⟨b, q, hp⟩
  · cases h

/-- The first fault of a sorted access is element e's, with a cause. -/
def faultsAt (e : Nat) (c : BitVec 16) (l : Sorted Spot) : Bool :=
  match l[e]? with
  | some (k, .fault i) => k == e && i.cause == c
  | _ => false

theorem fault_of_faultsAt {e : Nat} {c : BitVec 16} {l : Sorted Spot} (h : faultsAt e c l = true) : ∃ i, l[e]? = some (e, .fault i) ∧ i.cause = c := by
  unfold faultsAt at h
  split at h
  · rename_i k i q
    simp only [Bool.and_eq_true, beq_iff_eq] at h
    obtain ⟨rfl, hc⟩ := h
    exact ⟨i, q, hc⟩
  · cases h

/-- An effect stops with a trap and leaves the state. -/
def stopsWith {α : Type} (m : Act α) (s : State) (i : TrapInfo) : Bool :=
  match m s with
  | (.error e, t) => decide (e = .trap i) && decide (t = s)
  | _ => false

theorem error_of_stopsWith {α : Type} {m : Act α} {s : State} {i : TrapInfo} (h : stopsWith m s i = true) : m s = (.error (.trap i), s) := by
  unfold stopsWith at h
  split at h
  · rename_i e t q
    simp only [Bool.and_eq_true, decide_eq_true_eq] at h
    obtain ⟨rfl, rfl⟩ := h
    exact q
  · cases h

theorem canonical_of {a : BitVec 64} (h : ∀ k, k < 64 → 56 ≤ k → a.getLsbD k = a.getLsbD 56) : isCanonical a := fun k h1 h2 => h k h2 h1

def quiet (s : State) : Bool := s.cores.all (fun p => p.2.stash.isEmpty) && s.hub.snoop.isEmpty

theorem quiet_of {s : State} (h : quiet s = true) : Quiet s := by
  simp only [quiet, Bool.and_eq_true, List.all_eq_true, List.isEmpty_iff] at h
  exact h

def passes (s : State) (key : Option (BitVec 512)) (pa n : Nat) : Bool :=
  (sectorsOf pa n).all fun k => decide (k ∉ s.badSectors) && !s.otherKey key k

theorem passes_of {s : State} {key : Option (BitVec 512)} {pa n : Nat} (h : passes s key pa n = true) : Passes s key pa n := by
  intro k hk
  simpa [passes] using (List.all_eq_true.1 h k hk)

def reachable (s : State) (g : Int) (n : Nat) (k : AccessKind) (m : Mapped) : Bool :=
  decide (-(2 ^ 56) ≤ g ∧ g < 2 ^ 56) && decide (g % n = 0) && gives (translateCur (BitVec.ofInt 64 g) k) s m s && passes s (some m.key) m.pa n && quiet s

theorem accessible_of {s : State} {g : Int} {n : Nat} {k : AccessKind} {m : Mapped} (h : reachable s g n k m = true) : Accessible s g n k m := by
  simp only [reachable, Bool.and_eq_true, decide_eq_true_eq] at h
  obtain ⟨⟨⟨⟨h1, h2⟩, h3⟩, h4⟩, h5⟩ := h
  exact ⟨h1, h2, steady_of_gives h3, passes_of h4, quiet_of h5⟩

/-- The place of an address in a page that maps to itself. -/
def sameAt (leaf : BitVec 64) (a : BitVec 64) : Mapped := { pa := a.toNat, leaf := leaf, key := 0 }

def readsAt (s : State) (w : Nat) (leaf : BitVec 64) (x : Nat) : Source → Bool
  | .zero => decide (x = 0)
  | .at' a n sh =>
    let va := BitVec.ofInt 64 a
    decide (-(2 ^ 56) ≤ a ∧ a < 2 ^ 56) && decide (va.toNat % n = 0) && gives (translateCur va .read) s (sameAt leaf va) s &&
      passes s (some 0) va.toNat n && decide (x = valueAt s.mem va.toNat n / 2 ^ sh % 2 ^ w)
  | .fault _ _ => false

/-- Elements of one page, or of several with one leaf, read as x. -/
def reads (s : State) (w n : Nat) (leaf : BitVec 64) (src : Nat → Source) (x : Nat → Nat) : Bool :=
  quiet s && s.upto.isNone && (List.range n).all fun e => readsAt s w leaf (x e) (src e)

theorem reads_of {s : State} {w n : Nat} (leaf : BitVec 64) {src : Nat → Source} {x : Nat → Nat} (h : reads s w n leaf src x = true) : Reads s w n src x := by
  simp only [reads, Bool.and_eq_true, Option.isNone_iff_eq_none] at h
  refine ⟨quiet_of h.1.1, h.1.2, fun e => sameAt leaf ((addressOf (src e)).getD 0), fun e he => ?_, fun e _ k _ _ => ⟨rfl, rfl, rfl⟩⟩
  have q := List.all_eq_true.1 h.2 e (List.mem_range.2 he)
  show ReadsAt s w (sameAt leaf ((addressOf (src e)).getD 0)) (x e) (src e)
  revert q
  cases src e with
  | zero => exact fun q => of_decide_eq_true (p := x e = 0) q
  | fault => exact fun q => absurd q (by simp [readsAt])
  | at' a n sh =>
    intro q
    simp only [readsAt, Bool.and_eq_true, decide_eq_true_eq] at q
    obtain ⟨⟨⟨⟨q1, q2⟩, q3⟩, q4⟩, q5⟩ := q
    exact ⟨q1.1, q1.2, q2, steady_of_gives q3, passes_of q4, q5⟩

/-- Places that share one leaf. -/
theorem onePage_of {es : List Nat} {va : Nat → BitVec 64} {M : Nat → Mapped} {l : BitVec 64} {k : BitVec 512} {v : Nat}
    (h : ∀ e, (M e).leaf = l ∧ (M e).level = v ∧ (M e).key = k) : OnePage es va M := fun e _ q _ _ => by
  obtain ⟨h1, h2, h3⟩ := h e
  obtain ⟨g1, g2, g3⟩ := h q
  exact ⟨g1.trans h1.symm, g2.trans h2.symm, g3.trans h3.symm⟩

def openable (x : Hart) (srcs dsts : List Operand) : Bool :=
  srcs.all (fun o => !badSource x o) && dsts.all (fun o => !badDest x o) && x.popped.isEmpty && x.popBad.isEmpty && x.done.isEmpty &&
  (x.toPop srcs).all (fun p => match p.2.entries with | e :: _ => e.bad.isEmpty | [] => false) &&
  (x.toPush dsts).all fun p => decide (p.2.entries.length < p.2.depth)

theorem opens_of {x : Hart} {srcs dsts : List Operand} (h : openable x srcs dsts = true) : Opens x srcs dsts := by
  simp only [openable, Bool.and_eq_true, List.all_eq_true, List.isEmpty_iff, decide_eq_true_eq, Bool.not_eq_true'] at h
  obtain ⟨⟨⟨⟨⟨⟨h1, h2⟩, h3⟩, h4⟩, hd⟩, h5⟩, h6⟩ := h
  refine ⟨h1, h2, h3, h4, hd, fun p hp => ?_, h6⟩
  have := h5 p hp
  split at this
  · rename_i e rest q
    exact ⟨e, rest, q, by simpa using this⟩
  · cases this

/-! ### Words written out from Tables 3.2, 3.3, 3.4 and 4.2: head = tlen · 2^14 + major · 2^8 + minor -/

def head (tlen major minor : Nat) : Nat := tlen * 2 ^ 14 + major * 2 ^ 8 + minor

theorem test_decode_no_operand : decodeHead .a 0 (head 0 0 3) 0 = some .rdv ∧ decodeHead .c 0 (head 0 0 0xB) 0 = some .fence ∧
    decodeHead .x 0 (head 0 0 0x85) 0 = some .hint ∧ decodeHead .x 0 (head 2 0x3E 7) 12345 = some .hintMajor3E := by decide
theorem test_decode_barexp : decodeHead .x 0 (head 1 1 1) (0b001 * 2 ^ 13 + 9 * 2 ^ 8 + 12) = some (.barexp ⟨.co, 9, 12⟩) := by decide
theorem test_decode_qdrain : decodeHead .x 0 (head 1 2 2) (0b10100000 * 2 ^ 8 + 1 * 2 ^ 5 + 15) = some (.qdrainX ⟨0xA0, 1, 15⟩) ∧
    decodeHead .a 0 (head 1 2 2) (0b10100000 * 2 ^ 8 + 1 * 2 ^ 5) = some (.qdrainA ⟨0xA0, 1, 0⟩) := by decide
theorem test_decode_wwait : decodeHead .x 0 (head 1 3 1) (63 * 2 ^ 10 + 0b100 * 2 ^ 7) = some (.wwait ⟨63, .faulted, 0⟩) := by decide
theorem test_decode_slt : decodeHead .x 0 (head 1 4 0x13) (15 * 2 ^ 10 + 14 * 2 ^ 5 + 13) = some (.slt ⟨15, 14, 13⟩) := by decide
theorem test_decode_addi : decodeHead .c 0 (head 2 5 0) (0xFFFE * 2 ^ 16 + 7 * 2 ^ 5 + 6) = some (.addi ⟨0xFFFE, 7, 6⟩) := by decide
theorem test_decode_limm : decodeHead .a 0 (head 3 6 0) (0x89ABCDEF * 2 ^ 16 + 31) = some (.limm ⟨0x89ABCDEF, 31⟩) := by decide
theorem test_decode_loop : decodeHead .c 0 (head 3 7 2) (0x7FFFFFF * 2 ^ 21 + 5 * 2 ^ 16 + 3) = some (.loop ⟨0x7FFFFFF, 5, 3⟩) := by decide
theorem test_decode_bgen : decodeHead .a 0 (head 2 8 5) (0x7FF * 2 ^ 21 + 30 * 2 ^ 16 + 2 * 2 ^ 5 + 1) = some (.bgen ⟨0x7FF, 30, 2, 1⟩) := by decide
theorem test_decode_std : decodeHead .x 0 (head 2 9 0xB) (0x8000 * 2 ^ 16 + 4 * 2 ^ 13 + 2 * 2 ^ 11 + 8 * 2 ^ 5 + 9) =
    some (.std ⟨0x8000, .pk, .rl, 8, 9⟩) := by decide
theorem test_decode_amocas : decodeHead .a 0 (head 3 0xA 6) (31 * 2 ^ 42 + 1 * 2 ^ 37 + 2 * 2 ^ 32 + 0x10 * 2 ^ 16 + 7 * 2 ^ 11 + 3 * 2 ^ 4 + 5 * 2) =
    some (.amocas ⟨31, 1, 2, 0x10, .n64, 0, .g1, .aqrl, .pd, false⟩) := by decide
theorem test_decode_copyq : decodeHead .c 0 (head 1 0xB 4) (62 * 2 ^ 10 + 5) = some (.copyq ⟨62, 5⟩) := by decide
theorem test_decode_rule : decodeHead .c 0 (head 3 0xC 0) (5 * 2 ^ 45 + 0x7FFF * 2 ^ 30 + 0x4000 * 2 ^ 15 + 1) = some (.rule ⟨5, 0x7FFF, 0x4000, 1⟩) := by decide
theorem test_decode_rbase : decodeHead .c 0 (head 1 0xD 0) (6 * 2 ^ 10 + 7 * 2 ^ 5) = some (.rbase ⟨6, 7, 0⟩) := by decide
theorem test_decode_qjoin : decodeHead .x 0 (head 1 0xE 4) (3 * 2 ^ 10 + 2 * 2 ^ 5 + 1) = some (.qjoin ⟨3, 2, 1⟩) := by decide
theorem test_decode_mset : decodeHead .x 0 (head 1 0xF 6) (15 * 2 ^ 11 + 7 * 2 ^ 6) = some (.mset ⟨15, 7, 0, 0⟩) := by decide
theorem test_decode_vcmp : decodeHead .x 0 (head 2 0x10 0x16) (7 * 2 ^ 26 + 60 * 2 ^ 20 + 56 * 2 ^ 14 + 2 ^ 13 + 2 ^ 12 + 5 * 2 ^ 9 + 2 * 2 ^ 7 + 4 * 2 ^ 2) =
    some (.vcmpLtInt ⟨7, 60, 56, true, true, 5, .g4, .n8, 0⟩) := by decide
theorem test_decode_vfma : decodeHead .x 0 (head 3 0x11 3) (8 * 2 ^ 42 + 16 * 2 ^ 36 + 24 * 2 ^ 30 + 32 * 2 ^ 24 + 2 ^ 21 + 6 * 2 ^ 18 + 3 * 2 ^ 16 +
    0xE * 2 ^ 11 + 0xE * 2 ^ 6 + 3 * 2 ^ 3 + 2 ^ 2) = some (.vfma ⟨8, 16, 24, 32, false, false, true, 6, .g8, .fp32, .fp32, .rdn, true, 0⟩) := by decide
theorem test_decode_vscale : decodeHead .x 0 (head 3 0x12 4) (9 * 2 ^ 42 + 12 * 2 ^ 36 + 3 * 2 ^ 24 + 2 ^ 16 + 0xA * 2 ^ 11 + 0xD * 2 ^ 6 + 1) =
    some (.vscale ⟨9, 12, 0, 3, false, false, false, 0, .g2, .fp8a, .bf16, .rne, false, 1⟩) := by decide
theorem test_decode_vslide : decodeHead .x 0 (head 2 0x13 0x12) (1 * 2 ^ 26 + 2 * 2 ^ 20 + 9 * 2 ^ 14 + 6 * 2 ^ 2 + 1) =
    some (.vslideDown ⟨1, 2, 9, false, false, 0, .g1, .n32, 1⟩) := by decide
theorem test_decode_tup : decodeHead .x 0 (head 3 0x14 2) (2 * 2 ^ 42 + 4 * 2 ^ 36 + 6 * 2 ^ 32 + 2 ^ 27 + 3 * 2 ^ 24 + 2 ^ 22 + 5 * 2 ^ 17 + 3 * 2 ^ 13 + 11 * 2 ^ 8) =
    some (.tup ⟨2, 4, 6, 0, true, 3, .g2, .n16, 3, 11, 0⟩) := by decide
theorem test_decode_mrow : decodeHead .x 0 (head 3 0x15 0) (127 * 2 ^ 41 + 4 * 2 ^ 35 + 2 ^ 29 + 0xA * 2 ^ 24 + 1 * 2 ^ 8 + 6 * 2 ^ 3) =
    some (.mrow ⟨127, 4, false, 0, .g2, .fp8a, .i8, .rne, false, 1, 6⟩) := by decide
theorem test_decode_mtload : decodeHead .x 0 (head 3 0x16 0) (3 * 2 ^ 37 + 0x40 * 2 ^ 16 + 0xC * 2 ^ 11 + 1 * 2 ^ 4 + 1 * 2) =
    some (.mtload ⟨0, 3, 0, 0x40, .fp16, 0, .g1, .aq, .co, false⟩) := by decide
theorem test_decode_vldp : decodeHead .x 0 (head 3 0x17 0) (40 * 2 ^ 42 + 5 * 2 ^ 37 + 6 * 2 ^ 32 + 0x7FFF * 2 ^ 16 + 2 * 2 ^ 11 + 7 * 2 ^ 8 + 3 * 2 ^ 6) =
    some (.vldp ⟨40, 5, 6, 0x7FFF, .i32, 7, .g8, .plain, .ln, false⟩) := by decide
theorem test_decode_vldff : decodeHead .a 0 (head 3 0x18 2) (33 * 2 ^ 42 + 20 * 2 ^ 37 + 21 * 2 ^ 32 + 0x0008 * 2 ^ 16 + 0x0E * 2 ^ 11) =
    some (.vldff ⟨33, 20, 21, 8, .fp32, 0, .g1, .plain, .ln, false⟩) := by decide
theorem test_decode_vldx : decodeHead .a 0 (head 3 0x19 0) (34 * 2 ^ 42 + 22 * 2 ^ 37 + 50 * 2 ^ 31 + 2 ^ 30 + 0x2001 * 2 ^ 16 + 3 * 2 ^ 11 + 2 ^ 6) =
    some (.vldx ⟨34, 22, 50, true, 0x2001, .i64, 0, .g2, .plain, .ln, false⟩) := by decide
theorem test_decode_vsts : decodeHead .x 0 (head 3 0x1A 1) (44 * 2 ^ 42 + 7 * 2 ^ 37 + 8 * 2 ^ 32 + 0xFFF0 * 2 ^ 16 + 1 * 2 ^ 11 + 2 * 2 ^ 8 + 2 * 2 ^ 6 + 1) =
    some (.vsts ⟨44, 7, 8, 0xFFF0, .i16, 2, .g4, .plain, .ln, true⟩) := by decide
theorem test_decode_kins : decodeHead .x 0 (head 2 0x1B 0) (9 * 2 ^ 26 + 2 * 2 ^ 20 + 4 * 2 ^ 14 + 6 * 2 ^ 2) =
    some (.kins ⟨9, 2, 4, false, false, 0, .g1, .n32, 0⟩) := by decide
theorem test_decode_kvapp : decodeHead .x 0 (head 1 0x1C 2) (1 * 2 ^ 10 + 2 * 2 ^ 5 + 3) = some (.kvapp ⟨1, 2, 3⟩) := by decide
theorem test_decode_flpoll : decodeHead .a 0 (head 1 0x1D 0xD) (31 * 2 ^ 10 + 30 * 2 ^ 5 + 29) = some (.flpoll ⟨31, 30, 29⟩) := by decide

/-- R32, R47, R48, R52: a wrong tail length, an unlisted minor, another stream, a reserved major. -/
theorem test_decode_reserved : decodeHead .a 0 (head 2 4 0) 0 = none ∧ decodeHead .a 0 (head 1 4 0x19) 0 = none ∧
    decodeHead .x 0 (head 1 2 0) 0 = none ∧ decodeHead .a 0 (head 1 0x20 0) 0 = none ∧ decodeHead .c 0 (head 0 0 5) 0 = none := by decide

/-- A table word runs as the first instruction after reset: ADD A3, A1, A2 (match 0x44000000). -/
theorem test_table_word : decodeTableWord 32 0x44000823 = some (.add ⟨2, 1, 3⟩) := by decide +kernel
theorem test_placed_word : (match step (State.reset.withFetchWord 32 0x44000823) with
    | .next t => decide ((t.hart ⟨0, 0, 0⟩).sa.pc = 64)
    | _ => false) = true := by decide +kernel

/-! ### Ill-formed terms, which the checks of R37, R38, R41, R42, R45, R50 and R165 refuse -/

theorem test_refuses_scalar_register : (Instr.add ⟨16, 1, 3⟩).wellFormed .x 0 = false ∧ (Instr.limm ⟨0, 8⟩).wellFormed .c 0 = false ∧
    (Instr.add ⟨16, 1, 3⟩).wellFormed .a 0 = true := by decide
theorem test_refuses_stream : (Instr.qput ⟨0, 0, 1⟩).wellFormed .x 0 = false ∧ (Instr.wset ⟨0, .free, 0⟩).wellFormed .a 0 = false := by decide
theorem test_refuses_unused_field : (Instr.mov ⟨1, 1, 3⟩).wellFormed .a 0 = false ∧ (Instr.qput ⟨1, 0, 1⟩).wellFormed .a 0 = false ∧
    (Instr.wget ⟨0, .full, 1⟩).wellFormed .x 0 = false ∧ (Instr.bararr ⟨.co, 0, 1⟩).wellFormed .a 0 = false ∧ (Instr.rbase ⟨1, 1, 1⟩).wellFormed .c 0 = false ∧
    (Instr.mand ⟨1, 1, 1, 1⟩).wellFormed .x 0 = false ∧ (Instr.bq ⟨0, 0, 1, 0⟩).wellFormed .x 0 = false := by decide
theorem test_refuses_scope_and_order : (Instr.bar ⟨.ln, 0, 0⟩).wellFormed .a 0 = false ∧ (Instr.ldd ⟨0, .ln, .rl, 1, 1⟩).wellFormed .a 0 = false ∧
    (Instr.std ⟨0, .ln, .aq, 1, 1⟩).wellFormed .a 0 = false ∧ (Instr.ldd ⟨0, .pk, .plain, 1, 1⟩).wellFormed .a 0 = false ∧
    (Instr.vldp ⟨0, 1, 0, 0, .i32, 0, .g1, .aq, .ln, false⟩).wellFormed .x 0 = false := by decide
theorem test_refuses_range : (Instr.slli ⟨64, 1, 1⟩).wellFormed .a 0 = false ∧ (Instr.featq ⟨8, 0, 1⟩).wellFormed .a 0 = false ∧
    (Instr.loop ⟨0, 0, 0⟩).wellFormed .a 0 = false ∧ (Instr.rule ⟨6, 1, 0, 0⟩).wellFormed .c 0 = false ∧ (Instr.rule ⟨0, 0, 0, 0⟩).wellFormed .c 0 = false ∧
    (Instr.qdrainA ⟨0, 2, 0⟩).wellFormed .a 0 = false ∧ (Instr.sqpush ⟨1, 2, 0⟩).wellFormed .a 0 = false := by decide
theorem test_refuses_control_register : (Instr.ctlr ⟨0, 0, 1⟩).wellFormed .a 0 = false ∧ (Instr.ctlw ⟨6, 1, 0⟩).wellFormed .x 0 = false ∧
    (Instr.ctlr ⟨7, 0, 1⟩).wellFormed .x 0 = false := by decide
theorem test_refuses_group : (Instr.vadd ⟨1, 2, 4, false, false, 0, .g2, .i32, 0⟩).wellFormed .x 0 = false ∧
    (Instr.vadd ⟨0, 2, 5, false, false, 0, .g4, .i32, 0⟩).wellFormed .x 0 = false ∧
    (Instr.tto ⟨0, 0, 15, 0, false, 0, .g2, .n16, 0, 0, 0⟩).wellFormed .x 0 = false ∧
    (Instr.vcvt ⟨1, 2, 0, 0, false, false, false, 0, .g4, .fp16, .fp32, .rne, false, 0⟩).wellFormed .x 0 = false ∧
    (Instr.vstx ⟨0, 1, 1, false, 0, .i32, 0, .g1, .plain, .ln, false⟩).wellFormed .x 0 = false := by decide
theorem test_refuses_format : (Instr.vadd ⟨0, 1, 2, false, false, 0, .g1, .fp32, 0⟩).wellFormed .x 0 = false ∧
    (Instr.vfadd ⟨0, 1, 2, 0, false, false, false, 0, .g1, .fp32, .fp16, .rne, false, 0⟩).wellFormed .x 0 = false ∧
    (Instr.vfclass ⟨0, 1, 0, 0, false, false, false, 0, .g1, .n16, .fp32, .rne, false, 0⟩).wellFormed .x 0 = false ∧
    (Instr.vqmarg ⟨0, 1, 2, 3, false, false, false, 0, .g1, .fp16, .fp32, .rne, false, 0⟩).wellFormed .x 0 = false ∧
    (Instr.vsts ⟨0, 1, 2, 0, .i4, 0, .g1, .plain, .ln, false⟩).wellFormed .x 0 = false ∧
    (Instr.amoadd ⟨0, 1, 2, 0, .i16, 0, .g1, .plain, .ln, false⟩).wellFormed .a 0 = false ∧
    (Instr.awin ⟨0, 1, 2, 0, .i16, 0, .g1, .plain, .ln, false⟩).wellFormed .x 0 = false ∧
    (Instr.tfrom ⟨0, 0, 0, 0, false, 0, .g1, .i8, 0, 0, 0⟩).wellFormed .x 0 = false ∧
    (Instr.tup ⟨0, 1, 2, 0, false, 0, .g1, .fp32, 1, 0, 0⟩).wellFormed .x 0 = false ∧
    (Instr.mtload ⟨0, 1, 0, 0, .fp32, 0, .g1, .plain, .ln, false⟩).wellFormed .x 0 = false ∧
    (Instr.mrow ⟨0, 0, false, 0, .g1, .fp32, .i8, .rne, false, 0, 0⟩).wellFormed .x 0 = false := by decide
theorem test_refuses_row : (Instr.mrow ⟨64, 0, false, 0, .g1, .fp8a, .i8, .rne, false, 0, 0⟩).wellFormed .x 1 = false ∧
    (Instr.mrow ⟨64, 0, false, 0, .g1, .fp8a, .i8, .rne, false, 0, 0⟩).wellFormed .x 0 = true ∧
    (Instr.mrow ⟨0, 0, false, 0, .g1, .fp16, .i8, .rne, false, 1, 0⟩).wellFormed .x 0 = false := by decide
theorem test_refuses_scalar_in_vector_field : (Instr.vsplat ⟨0, 16, 0, false, false, 0, .g1, .i32, 0⟩).wellFormed .x 0 = false ∧
    (Instr.vcmpEqInt ⟨8, 0, 1, false, false, 0, .g1, .i32, 0⟩).wellFormed .x 0 = false := by decide

/-! ### Witnesses: states and operands that meet the hypotheses of the statements, clause by clause -/

def withA (l : Tab (BitVec 64)) : State := onA { hart0 with a := l }
def withS (l : Tab (BitVec 64)) : State := onX { hart0 with s := l }

/-- Jumps: a target at the end of the low half, LOOP that ends with a target out of range, JR to an odd and to an even address. -/
theorem witness_Jumps :
    isCanonical (Spec.target (withA []).curSt.pc ((⟨0, 31, 0⟩ : HT48J).off.signExtend 64) 31) ∧
    ((withA [(1, 1)]).getR 1 - 1 = 0) ∧ isCanonical ((withA [(1, 0x00FFFFFFFFFFFFFE)]).getR 1) ∧
    ((withA [(1, 0x00FFFFFFFFFFFFFE)]).getR 1).getLsbD 0 = false ∧ ((withA [(1, 1)]).getR 1).getLsbD 0 = true ∧
    (let far : State := onA { hart0 with a := [(1, 0x0100000000000000)], sa := { stat := .running, pc := 0x00FFFFFFFFFFFFC0 } }
     ¬ isCanonical (Spec.target far.curSt.pc ((⟨1, 0, 1⟩ : HT48J).off.signExtend 64) 0) ∧ far.getR 1 - 1 ≠ 0 ∧ ¬ isCanonical (far.getR 1)) := by
  refine ⟨canonical_of (by decide), by decide, canonical_of (by decide), by decide, by decide, ⟨fun h => ?_, by decide, fun h => ?_⟩⟩
  · exact absurd (h 57 (by decide) (by decide)) (by decide)
  · exact absurd (h 57 (by decide) (by decide)) (by decide)

/-- Branches: equal and unequal sources, a target outside the canonical range, a branch queue with a bit, and an empty one. -/
theorem witness_Branches :
    let s := withA [(1, 5), (2, 5)]
    let far : State := onA { hart0 with sa := { stat := .running, pc := 0x00FFFFFFFFFFFFC0 } }
    (fun p : (HT32B → Instr) × (BitVec 64 → BitVec 64 → Bool) => p ∈ branchRows) (.beq, fun a b => a == b) ∧
    (s.getR 1 == s.getR 2) = true ∧ (s.getR 1 == s.getR 0) = false ∧ isCanonical (Spec.target s.curSt.pc ((3 : BitVec 11).signExtend 64) 2) ∧
    ¬ isCanonical (Spec.target far.curSt.pc ((1 : BitVec 11).signExtend 64) 0) ∧ (onX { hart0 with bq := [true] }).cur.bq = true :: [] ∧
    (onX hart0).cur.bq = [] ∧ (onX hart0).cur.waitlim ≠ 0 := by
  refine ⟨by simp [branchRows], by decide, by decide, canonical_of (by decide), fun h => absurd (h 57 (by decide) (by decide)) (by decide), by decide, by decide, by decide⟩

/-- ControlRegisters: the numbers of Table 11.2; heads that decode, and ones that do not: no field to write, no such number, no such
stream. -/
theorem witness_ControlRegisters : (∀ k ∈ ([0, 1, 2, 3, 4, 5, 6, 0x10, 0x11] : List (BitVec 16)), ∃ o : HT32I, o.imm = k) ∧
    decodeHead .x 0 0x8508 (6 * 2 ^ 16 + 1) = some (.ctlr ⟨6, 0, 1⟩) ∧ decodeHead .a 0 0x8509 (4 * 2 ^ 16 + 3 * 2 ^ 5) = some (.ctlw ⟨4, 3, 0⟩) ∧
    decodeHead .x 0 0x8509 (5 * 2 ^ 16) = none ∧ decodeHead .x 0 0x8508 (7 * 2 ^ 16 + 1) = none ∧ decodeHead .a 0 0x8508 1 = none ∧
    decodeHead .c 0 0x8509 (4 * 2 ^ 16) = none :=
  ⟨fun k _ => ⟨⟨k, 0, 0⟩, rfl⟩, by decide, by decide, by decide, by decide, by decide, by decide⟩

/-- QueueInstructions: 15 entries and 16, none and one, WAITLIM 0, the branch queue with 31 bits. -/
theorem witness_QueueInstructions :
    let q (n : Nat) : Hart := { hart0 with q := [(3, List.replicate n 7)], bq := List.replicate 31 true }
    ((onA (q 15)).cur.queue 3).length < 16 ∧ 16 ≤ ((onA (q 16)).cur.queue 3).length ∧ (onA (q 16)).cur.waitlim ≠ 0 ∧
    (onX (q 1)).cur.queue 3 = 7 :: [] ∧ (onX (q 0)).cur.queue 3 = [] ∧ (onA (q 0)).cur.bq.length < 32 ∧
    (onA { q 16 with waitlim := 0 }).cur.waitlim = 0 ∧ (onA (q 16)).curSt.wait = none ∧
    (∀ k, k < 8 → (0x08 : BitVec 8).getLsbD k = true → (onA (q 0)).cur.queue k = []) ∧ (1 % 2 = 1 → (onA hart0).cur.bq = []) ∧
    (onX hart0).curStream = .x := by
  decide

/-- Rendezvous: the last stream at RDV, one that waits for another, and one where another has halted. -/
theorem witness_Rendezvous :
    let met : State := onA { hart0 with sx := { stat := .atRdv }, sc := { stat := .atRdv } }
    let gone : State := onA { hart0 with sc := { stat := .halted } }
    ((met.cur.st met.curStream).stat = .running ∧ met.cur.met = false ∧ ∀ st, st ≠ met.curStream → (met.cur.st st).stat = .atRdv) ∧
    ((base.cur.st base.curStream).stat = .running ∧ base.cur.met = false ∧ (∀ st, (base.cur.st st).stat ≠ .halted) ∧
      (base.cur.st .x).stat = .running ∧ Stream.x ≠ base.curStream ∧ base.cur.waitlim ≠ 0) ∧
    ((gone.cur.st gone.curStream).stat = .running ∧ gone.cur.met = false ∧ (gone.cur.st .c).stat = .halted) := by
  refine ⟨⟨by decide, by decide, fun st h => by cases st <;> first | exact absurd rfl h | decide⟩, ⟨by decide, by decide, fun st => by cases st <;> decide, by decide,
    by decide, by decide⟩, by decide, by decide, by decide⟩

/-- A code-object descriptor at 0x10040: entries 0x10000, 0x10040, 0x10080, feature mask 1. -/
def forkAt : State := withMem (onA { hart0 with a := [(1, 0x10040)], lastRdv := true }) 0x10040 32 (1 * 2 ^ 192 + 0x10080 * 2 ^ 128 + 0x10040 * 2 ^ 64 + 0x10000)
def forkDesc : List Byte := leBytes 32 (1 * 2 ^ 192 + 0x10080 * 2 ^ 128 + 0x10040 * 2 ^ 64 + 0x10000)

theorem witness_ForkStarts :
    let v := leNat forkDesc
    let ent (k : Nat) : BitVec 64 := BitVec.ofNat 64 (v / 2 ^ (64 * k))
    let fm := BitVec.ofNat 3 (v / 2 ^ 192)
    forkAt.cur.lastRdv = true ∧ isCanonical (forkAt.getR 1) ∧ (forkAt.getR 1).toNat % 32 = 0 ∧ Steady (readBlockCur (forkAt.getR 1) 32) forkAt forkDesc ∧
    v < 2 ^ 195 ∧ (∀ k, k < 3 → isCanonical (ent k) ∧ (ent k).toNat % 64 = 0) ∧ fm &&& forkAt.curCore.feat = fm ∧ base.cur.lastRdv = false := by
  refine ⟨by decide, canonical_of (by decide), by decide, steady_of_gives (by decide +kernel), by decide +kernel, fun k h => ?_, by decide +kernel, by decide⟩
  match k, h with
  | 0, _ => exact ⟨canonical_of (by decide +kernel), by decide +kernel⟩
  | 1, _ => exact ⟨canonical_of (by decide +kernel), by decide +kernel⟩
  | 2, _ => exact ⟨canonical_of (by decide +kernel), by decide +kernel⟩

/-- HaltStops: a first stream, and the last. -/
theorem witness_HaltStops :
    let last : State := onC { hart0 with sa := { stat := .halted }, sx := { stat := .halted } }
    ((base.cur.st .x).stat ≠ .halted ∧ Stream.x ≠ base.curStream ∧ ∀ st, st ≠ base.curStream → (base.cur.st st).stat ≠ .atRdv) ∧
    last.cur.task.isSome = true ∧ (∀ st, st ≠ last.curStream → (last.cur.st st).stat = .halted) ∧ (∀ p ∈ last.cores, p.2.wells = [] ∧ p.2.stash = []) ∧
    last.cur.binds = [] ∧ last.cur.quire = none ∧
    (tget {} (last.die last.curHart.die).assign (8 * last.curHart.core.val + last.curHart.hart.val) : Assign) = {} ∧ ∀ p ∈ last.hub.pipes, p.2.state ≠ 2 := by
  refine ⟨⟨by decide, by decide, fun st _ => by cases st <;> decide⟩, by decide, fun st h => by cases st <;> first | exact absurd rfl h | decide, by decide, by decide, by decide, by decide, by decide⟩

theorem witness_InstructionsWithoutEffect : base.cur.preempt = none ∧
    (tget {} (base.die base.curHart.die).assign (8 * base.curHart.core.val + base.curHart.hart.val) : Assign).mark = none ∧
    (onA { hart0 with preempt := some .supervisor }).cur.preempt.isSome = true := by decide

/-- ExceptionEntries: a TRAP; a fetch fault that a translation gives, and a violation; each stream. -/
theorem witness_ExceptionEntries : (∃ o : HT32I, (Instr.trap o, Cause.software, (none : Option Stream)) ∈
      [(Instr.svcall o, Cause.serviceCall, some (onA hart0).curStream), (Instr.trap o, Cause.software, none)]) ∧
    (∀ c ∈ [Cause.notPresent, Cause.violation], (withReq base { cause := c }).req.cause ∈ [Cause.nonCanonical, Cause.nonexistent, Cause.notPresent,
      Cause.malformed, Cause.permission, Cause.notResident, Cause.key, Cause.integrity, Cause.violation]) ∧
    (onA hart0).curStream = .a ∧ (onX hart0).curStream = .x ∧ (onC hart0).curStream = .c :=
  ⟨⟨⟨7, 0, 0⟩, by simp⟩, by simp [withReq], rfl, rfl, rfl⟩

/-- ScalarMemory: the last byte of a page, an address past the canonical range, an odd address. -/
theorem witness_ScalarMemory :
    (loadRows.map fun p => (p.2.1, p.2.2)) = [(1, true), (2, true), (4, true), (8, true), (1, false), (2, false), (4, false)] ∧
    Accessible (withA [(1, 0x1FFF8)]) (address (withA [(1, 0x1FFF8)]) ⟨0, .ln, .plain, 1, 3⟩) 8 .read ⟨0x1FFF8, leaf1, 0, 0⟩ ∧
    Accessible (withA [(1, 0x20000)]) (address (withA [(1, 0x20000)]) ⟨0xFFFF, .ln, .plain, 1, 3⟩) 1 .write ⟨0x1FFFF, leaf1, 0, 0⟩ ∧
    (¬ (-(2 ^ 56) ≤ address (withA [(1, 0x00FFFFFFFFFFFFFF)]) ⟨1, .ln, .plain, 1, 3⟩ ∧ address (withA [(1, 0x00FFFFFFFFFFFFFF)]) ⟨1, .ln, .plain, 1, 3⟩ < 2 ^ 56)) ∧
    (let g := address (withA [(1, 0x10000)]) ⟨3, .ln, .plain, 1, 3⟩
     (-(2 ^ 56) ≤ g ∧ g < 2 ^ 56) ∧ g % 4 ≠ 0) := by
  refine ⟨rfl, accessible_of (by decide +kernel), accessible_of (by decide +kernel), by decide +kernel, by decide +kernel⟩

/-- Atomics: I32 at 0x10000; the compared value equal, and not. -/
theorem witness_Atomics :
    let s := withMem (withA [(1, 0x10000), (3, 9)]) 0x10000 4 9
    let o : HT48VM := ⟨3, 1, 2, 0, .i32, 0, .g1, .aqrl, .pk, false⟩
    o.fmt ∈ [Fmt.i32, .n32, .i64, .n64] ∧ o.v.val < 32 ∧ Accessible s ((s.getR o.base).toInt + o.disp.toInt) 4 .write ⟨0x10000, leaf1, 0, 0⟩ ∧ entTier leaf1 = 0 ∧
    valueAt s.mem 0x10000 4 = (s.getR 3).toNat ∧ valueAt s.mem 0x10000 4 ≠ (s.getR 2).toNat := by
  refine ⟨by decide, by decide, accessible_of (by decide +kernel), by decide, by decide +kernel, by decide +kernel⟩

/-- MemoryWaits: the word is 9; a flag of 9 with a target of 9 and of 10. -/
theorem witness_MemoryWaits :
    let s := withMem (withA [(1, 0x10000), (3, 9)]) 0x10000 4 9
    let f (n : BitVec 2048) : State :=
      { onX { hart0 with s := [(1, 0x10000)], v := [(4, n)], vl := 1 } with mem := [(0x10000, 9)], hub := { base.hub with asts := [(1, 2 ^ 128 + 1)] } }
    let src : Operand := ⟨4, 1, 32⟩
    Accessible s (address s ⟨0, .ln, .plain, 1, 3⟩) 4 .read ⟨0x10000, leaf1, 0, 0⟩ ∧ valueAt s.mem 0x10000 4 = (s.getR 3).toNat % 2 ^ 32 ∧
    valueAt s.mem 0x10000 4 ≠ (s.getR 2).toNat % 2 ^ 32 ∧ s.cur.waitlim ≠ 0 ∧
    (∀ n ∈ ([9, 10] : List (BitVec 2048)), 4 ∈ [1, 2, 4, 8] ∧ (f n).cur.vl.toNat ≤ (f n).regBits * 1 / 32 ∧ (f n).cur.flagWait = none ∧
      ((f n).active (Spec.mask (f n) 0)).length + (f n).flagsHeld ≤ 64 ∧ (f n).active (Spec.mask (f n) 0) = [0] ∧ Opens (f n).cur [src] [] ∧
      (∀ w, Accessible ((f n).setCur { (f n).cur.opened (f n).regBits [src] with flagWait := w }) 0x10000 4 .read ⟨0x10000, leaf1, 0, 0⟩) ∧
      (f n).curSt.wait = none ∧ entTier leaf1 = 0 ∧ OnePage [0] (fun e => BitVec.ofInt 64 (0x10000 + (e * 4 : Nat))) fun _ => ⟨0x10000, leaf1, 0, 0⟩) ∧
    fmtInt .i32 (((f 9).cur.opened (f 9).regBits [src]).elem (f 9).regBits src 0) ≤ fmtInt .i32 (valueAt (f 9).mem 0x10000 4) ∧
    ¬ fmtInt .i32 (((f 10).cur.opened (f 10).regBits [src]).elem (f 10).regBits src 0) ≤ fmtInt .i32 (valueAt (f 10).mem 0x10000 4) := by
  refine ⟨accessible_of (by decide +kernel), by decide +kernel, by decide +kernel, by decide, fun n hn => ?_, by decide +kernel, by decide +kernel⟩
  rcases List.mem_pair.1 hn with rfl | rfl
  · exact ⟨by decide, by decide, by decide, by decide +kernel, by decide +kernel, opens_of (by decide +kernel),
      fun w => ⟨by decide, by decide, translateCur_held ⟨1, 1, 0, leaf1⟩ (1, 2 ^ 128 + 1) ⟨0, false, 1⟩ (by decide) rfl rfl (by decide) (by decide) (by decide)
        (show base.inHbm 0x10000 = true by decide) rfl rfl (by decide +kernel) (by decide) rfl, passes_of (s := base) (key := some 0) (pa := 0x10000) (n := 4) (by decide), quiet_of (s := base) (by decide)⟩, by decide, by decide, onePage_of fun _ => ⟨rfl, rfl, rfl⟩⟩
  · exact ⟨by decide, by decide, by decide, by decide +kernel, by decide +kernel, opens_of (by decide +kernel),
      fun w => ⟨by decide, by decide, translateCur_held ⟨1, 1, 0, leaf1⟩ (1, 2 ^ 128 + 1) ⟨0, false, 1⟩ (by decide) rfl rfl (by decide) (by decide) (by decide)
        (show base.inHbm 0x10000 = true by decide) rfl rfl (by decide +kernel) (by decide) rfl, passes_of (s := base) (key := some 0) (pa := 0x10000) (n := 4) (by decide), quiet_of (s := base) (by decide)⟩, by decide, by decide, onePage_of fun _ => ⟨rfl, rfl, rfl⟩⟩

/-- A vector of one lane of the X-stream's operands: VL = N (boundary), a bound source with an entry, a kind-3 destination with room. -/
def vecHart : Hart :=
  { hart0 with vl := 64, v := [(1, 5), (2, 7)], binds := [(1, some { entries := [{ data := 9 }] }), (3, some { kind := 3 })] }
def vs : State := onX vecHart
def vop : HT32V := ⟨3, 1, 2, false, false, 0, .g1, .i32, 0⟩

/-- VectorIntegerResults, VectorMoveResults, VectorCompares: the premises of Elementwise and WritesMask. -/
theorem witness_Elementwise : vop.fmt ∈ intFormats ∧ vs.cur.vl.toNat ≤ elems vs vop ∧ elems vs vop = 64 ∧ Opens vs.cur [opA vop, opB vop] [opD vop] ∧
    Opens vs.cur [opA vop] [opD vop] ∧ Opens vs.cur [] [opD vop] ∧ Opens vs.cur [opA vop, opB vop] [] ∧
    Opens (onX { hart0 with vl := 64 }).cur [opA vop, opB vop, opD vop] [opD vop] := by
  refine ⟨by decide, by decide, by decide, opens_of (by decide +kernel), opens_of (by decide +kernel), opens_of (by decide +kernel), opens_of (by decide +kernel),
    opens_of (by decide +kernel)⟩

def fop : HT48V := ⟨8, 1, 2, 5, false, false, false, 0, .g1, .fp32, .fp32, .rup, true, 0⟩

theorem witness_VectorFloatResults : fop.fd = fop.fs ∧ vs.cur.vl.toNat ≤ fpElems vs fop ∧ Opens vs.cur [fpA fop] [fpD fop] ∧
    Opens vs.cur [fpA fop, fpB fop] [fpD fop] ∧ Opens vs.cur [fpA fop, fpB fop, fpC fop] [fpD fop] ∧ Opens vs.cur [fpA fop, fpB fop] [] ∧
    (let o : HT48V := { fop with fd := .n32 }
     (o.fs, o.fd) ∈ [(Fmt.fp32, Fmt.n32), (.fp16, .n16), (.bf16, .n16)] ∧ Opens vs.cur [fpA o] [⟨o.d.val, o.group.size, o.fd.width⟩]) := by
  refine ⟨rfl, by decide, opens_of (by decide +kernel), opens_of (by decide +kernel), opens_of (by decide +kernel), opens_of (by decide +kernel), by decide,
    opens_of (by decide +kernel)⟩

/-- NumberFormats: the widest encoding of a format; an exact magnitude of 1.5 and one that lies between two places; operands that an
encoding gives; a NaN and an infinity; an integer and a scale at its end. -/
theorem witness_NumberFormats :
    ((Fmt.fp4, 2, 1, 1) ∈ layouts ∧ (15 : Nat) < 2 ^ Fmt.fp4.width ∧ (Fmt.fp32, 8, 23, 127) ∈ layouts) ∧
    (let x : Exact := ⟨true, 3, -1, false⟩
     |(-1.5 : ℝ)| = x.m * 2 ^ x.e ∧ ((-1.5 : ℝ) < 0 ↔ x.neg = true)) ∧
    (let x : Exact := ⟨false, 2 ^ 24, -24, true⟩
     2 ^ (23 + 1) ≤ x.m ∧ (x.m : ℝ) * 2 ^ x.e < |(1 + 2 ^ (-30 : ℤ) : ℝ)| ∧ |(1 + 2 ^ (-30 : ℤ) : ℝ)| < (x.m + 1) * 2 ^ x.e) ∧
    (FVal.fin false 8388608 (-23) = readF .fp32 false 0x3F800000 ∧ FVal.fin true 0 (-24) = readF .fp16 true 0x8001) ∧
    (anyNan [.inf true, .nan true] ∧ ¬ anyNan [.inf true, .fin false 1 0]) ∧ (decodeF .fp8b 0x7C = .inf false ∧ decodeF .fp8a 0x7F = .nan false) ∧
    (Fmt.i4 ∈ anyInts ∧ (15 : Nat) < 2 ^ Fmt.i4.width ∧ (254 : Nat) ≠ 255) := by
  refine ⟨by decide, ⟨by norm_num [abs_of_neg], by norm_num⟩, ⟨by norm_num, by norm_num [abs_of_pos], by norm_num [abs_of_pos]⟩, by decide, ⟨⟨.nan true, by simp, true, rfl⟩, fun h => ?_⟩,
    by decide, by decide⟩
  obtain ⟨v, hv, s, hs⟩ := h
  rcases List.mem_pair.1 hv with rfl | rfl <;> cases hs

/-- BoundRegisters: VL one above N; a kind-3 source, a bound destination; an empty queue, a full kind-3 queue; with several bindings, a
kind-3 destination with room, VSTART at VL and below. -/
theorem witness_BoundRegisters :
    let fop' : HT48V := ⟨3, 1, 2, 5, false, false, false, 0, .g1, .fp32, .fp32, .rne, false, 0⟩
    let forms (s : State) := operandForms s vop fop'
    let bound (vl vstart : BitVec 13) (src : Binding) (dst : Binding) : State :=
      onX { hart0 with vl := vl, vstart := vstart, binds := [(1, some src), (3, some dst), (40, some {})] }
    let one : Entry := { data := 9 }
    let long := bound 65 0 {} {}
    let full := bound 1 0 { entries := [one] } { kind := 3, entries := List.replicate 8 one, depth := 8 }
    let room (vstart : BitVec 13) := bound 1 vstart { entries := [one] } { kind := 3 }
    (vop.fmt ∈ intFormats ∧ fop'.fd = fop'.fs ∧
      ∀ s ∈ [long, full], (Instr.vadd vop, elems s vop, [opA vop, opB vop], opD vop) ∈ forms s ∧ (Instr.vabs vop, elems s vop, [opA vop], opD vop) ∈ forms s ∧
        (Instr.vredAdd vop, elems s vop, [opA vop, opB vop], opD vop) ∈ forms s ∧ (Instr.vfma fop', fpElems s fop', [fpA fop', fpB fop', fpC fop'], fpD fop') ∈ forms s) ∧
    elems long vop + 1 = long.cur.vl.toNat ∧ elems full vop = fpElems full fop' ∧ full.cur.vl.toNat ≤ elems full vop ∧
    (badSource (bound 1 0 { kind := 3 } {}).cur (opA vop) = true ∧ badDest (bound 1 0 {} {}).cur (opD vop) = true) ∧
    (let s := bound 1 0 {} { kind := 3 }
     (∀ p ∈ [opA vop, opB vop], badSource s.cur p = false) ∧ badDest s.cur (opD vop) = false ∧ s.cur.waitlim ≠ 0 ∧ s.cur.popped = [] ∧
      ∃ b, b ∈ s.cur.toPop [opA vop, opB vop] ∧ b.2.entries = []) ∧
    ((∀ p ∈ [opA vop, opB vop], badSource full.cur p = false) ∧ badDest full.cur (opD vop) = false ∧ full.cur.waitlim ≠ 0 ∧ full.cur.popped = [] ∧
      full.cur.vstart.toNat < full.cur.vl.toNat ∧ ∃ b, b ∈ full.cur.toPush [opD vop] ∧ b.2.depth ≤ b.2.entries.length) ∧
    ∀ v ∈ ([0, 1] : List (BitVec 13)), Opens (room v).cur [opA vop, opB vop] [opD vop] ∧ ((room v).cur.binds.map Prod.fst).Nodup ∧
      (if v = 0 then (room v).cur.vstart.toNat < (room v).cur.vl.toNat else (room v).cur.vl.toNat ≤ (room v).cur.vstart.toNat) := by
  refine ⟨⟨by decide, rfl, fun s _ => ⟨?_, ?_, ?_, ?_⟩⟩, by decide +kernel, by decide +kernel, by decide +kernel, ⟨by decide +kernel, by decide +kernel⟩,
    ⟨by decide +kernel, by decide +kernel, by decide, by decide, ⟨((1 : Nat), ({} : Binding)), by decide +kernel, rfl⟩⟩,
    ⟨by decide +kernel, by decide +kernel, by decide, by decide, by decide, ⟨((3 : Nat), ({ kind := 3, entries := List.replicate 8 { data := 9 }, depth := 8 } : Binding)),
      by decide +kernel, by decide⟩⟩, fun v hv => ?_⟩
  · simp [operandForms, vectorRows]
  · simp [operandForms, vectorUnaryRows]
  · simp [operandForms, reduceRows]
  · simp [operandForms, floatRows3]
  · rcases List.mem_pair.1 hv with rfl | rfl
    · exact ⟨opens_of (by decide +kernel), by decide, by decide⟩
    · exact ⟨opens_of (by decide +kernel), by decide, by decide⟩

def cvt : HT48V := ⟨8, 4, 2, 6, false, false, false, 0, .g1, .fp8a, .fp32, .rne, true, 0⟩
def plain (vl : Nat) : State := onX { hart0 with vl := BitVec.ofNat 13 vl, s := [(6, 2)] }

theorem witness_ConversionResults :
    let s := plain 64
    cvt.fd ≠ .acc80 ∧ cvt.fs ≠ .acc80 ∧ s.cur.vl.toNat ≤ s.regBits * cvt.group.size / (wider cvt.fd cvt.fs).width ∧
    Opens s.cur [mixedOperand cvt.a.val cvt.group cvt.fs (wider cvt.fd cvt.fs)] [mixedOperand cvt.d.val cvt.group cvt.fd (wider cvt.fd cvt.fs)] ∧
    Opens s.cur [mixedOperand 4 .g1 .fp8a .fp32, ⟨2, 1, 8⟩, ⟨6, 1, 32⟩] [⟨8, 1, 32⟩] ∧ Opens s.cur [] [⟨8, 1, 32⟩] := by
  refine ⟨by decide, by decide, by decide, opens_of (by decide +kernel), opens_of (by decide +kernel), opens_of (by decide +kernel)⟩

/-- ScaleBlocks: k of 8 and of 9; an election; blocks with a NaN, without a nonzero element, and with a greatest magnitude. -/
theorem witness_ScaleBlocks :
    let s (k : BitVec 64) : State := onX { hart0 with vl := 64, s := [(6, k)] }
    (∀ k, k ∈ ([8, 9] : List (BitVec 64)) → (s k).cur.vl.toNat ≤ fpElems (s k) cvt) ∧ ((s 8).cur.getS cvt.c.val).toNat ≤ 8 ∧ 8 < ((s 9).cur.getS cvt.c.val).toNat ∧
    Opens (s 8).cur [⟨cvt.a.val, 1, 32⟩] [⟨cvt.d.val, 1, 8⟩] ∧
    (let act : List (Nat × FVal) := [(0, .fin false 3 0), (4095, .fin true 5 1)]
     (act.map Prod.fst).Nodup ∧ (∀ x ∈ act, x.1 < 4096) ∧ (0, FVal.fin false 3 0) ∈ act) ∧
    ((∃ v ∈ [FVal.inf false], ∀ n m e, v ≠ .fin n m e) ∧ (∀ v ∈ [FVal.fin true 0 7], ∃ n e, v = .fin n 0 e) ∧
      (∀ v ∈ [FVal.fin false 3 0, .fin true 1 0], ∃ n' m' e', v = .fin n' m' e' ∧ magLt 3 0 m' e' = false)) := by
  refine ⟨fun k hk => ?_, by decide, by decide, opens_of (by decide +kernel), ⟨by decide, by decide, by simp⟩, ⟨FVal.inf false, by simp, fun n m e h => by cases h⟩, fun v hv => ?_,
    fun v hv => ?_⟩
  · rcases List.mem_pair.1 hk with rfl | rfl <;> decide
  · rw [List.mem_singleton.1 hv]; exact ⟨true, 7, rfl⟩
  · rcases List.mem_pair.1 hv with rfl | rfl
    · exact ⟨false, 3, 0, rfl, by decide⟩
    · exact ⟨true, 1, 0, rfl, by decide⟩

/-- QuantiseMargins: 64 elements, k of 8 and of 9, each narrow format; an empty buffer pair that may be written. -/
theorem witness_QuantiseMargins :
    let s := plain 64
    let nine : State := onX { hart0 with vl := 64, s := [(6, 9)] }
    let o (q : Fmt) : HT48V := ⟨8, 4, 2, 6, false, false, false, 0, .g1, q, .fp32, .rne, false, 0⟩
    s.cur.vl.toNat ≤ fpElems s (o .fp8a) ∧ (s.cur.getS 6).toNat ≤ 8 ∧ 8 < (nine.cur.getS 6).toNat ∧ nine.cur.vl.toNat ≤ fpElems nine (o .fp8a) ∧
    (∀ q ∈ [Fmt.fp8a, .fp8b, .fp4, .i8, .i4], (o q).fd ∈ [Fmt.fp8a, .fp8b, .fp4, .i8, .i4]) ∧ Fmt.fp32 ∈ vectorFloats ∧
    (∀ c ∈ [true, false], ∃ i, i = if c then Instr.vqmargClamp (o .fp8a) else .vqmarg (o .fp8a)) ∧
    Opens s.cur [⟨4, 1, 32⟩, ⟨2, 1, 8⟩] [mixedOperand 8 .g1 .fp8a .fp32, ⟨9, 1, 32⟩] := by
  exact ⟨by decide, by decide, by decide, by decide, by decide, by decide, fun _ _ => ⟨_, rfl⟩, opens_of (by decide +kernel)⟩

/-- ReductionsAndScans: before the last element, and past it. -/
theorem witness_ReductionsAndScans : vop.fmt ∈ intFormats ++ vectorFloats ∧ Fmt.bf16 ∈ intFormats ++ vectorFloats ∧ vs.cur.vl.toNat ≤ elems vs vop ∧
    Opens vs.cur [opA vop, opB vop] [opD vop] ∧ vs.cur.vstart.toNat < vs.cur.vl.toNat ∧
    (let s := onX { hart0 with vl := 4, vstart := 4 }
     s.cur.vl.toNat ≤ elems s vop ∧ Opens s.cur [opA vop, opB vop] [opD vop] ∧ s.cur.vl.toNat ≤ s.cur.vstart.toNat) := by
  exact ⟨by decide, by decide, by decide, opens_of (by decide +kernel), by decide, by decide, opens_of (by decide +kernel), by decide⟩

/-- ElementMoves: the moves; a window tagged 0x10000 with I64 indices that lie in it and outside; a scalar index below N. -/
theorem witness_ElementMoves :
    let en : Entry := { data := 0, tag := some 0x10000, width := 32 }
    let b : Binding := { fmt := .i32, entries := [en] }
    let s : State := onX { hart0 with vl := 2, binds := [(1, some b)], v := [(2, 0x20000 * 2 ^ 64 + 0x10004)] }
    let src : Operand := ⟨1, 1, 32⟩
    let idx : Operand := ⟨2, 1, 64⟩
    let dst := mixedOperand 3 .g1 .i32 .i64
    let y := s.cur.opened s.regBits [src, idx]
    (vs.cur.vl.toNat ≤ elems vs vop ∧ Opens vs.cur [opA vop, opB vop] [opD vop] ∧ Opens vs.cur [opA vop] [opD vop]) ∧
    (s.cur.binds = [(1, some b)] ∧ b.kind = 0 ∧ b.entries = en :: [] ∧ en.tag = some 0x10000 ∧ 8 ≤ 32 ∧ 32 ≤ 64 ∧ s.cur.vl.toNat ≤ s.regBits * 1 / 64 ∧
      Opens s.cur [src, idx] [dst] ∧ s.active (Spec.mask s 0) = [0, 1] ∧
      ∀ e ∈ [0, 1], ((BitVec.ofNat 64 (y.elem s.regBits idx e)).toInt - (0x10000 : BitVec 64).toInt) % (32 / 8 : Nat) = 0) ∧
    (Opens vs.cur [opA vop] [] ∧ vop.fmt ≠ .cb2 ∧ vop.fmt ≠ .sc8 ∧ Opens vs.cur [] [opD vop] ∧ (vs.cur.getS vop.b.val).toNat < elems vs vop) := by
  refine ⟨⟨by decide, opens_of (by decide +kernel), opens_of (by decide +kernel)⟩, ⟨rfl, rfl, rfl, rfl, by decide, by decide, by decide, opens_of (by decide +kernel),
    by decide +kernel, by decide +kernel⟩, opens_of (by decide +kernel), by decide, by decide, opens_of (by decide +kernel), by decide⟩

/-- Trees: two elements, of which 1 has parent 0; a pair that is its own cycle, with TCE. -/
def treeS (t : Wide) (tce : Bool) : State := onX { hart0 with vl := 2, t := [(1, t)], tset := [(1, 3)], tce := tce }
def treeOp' : HT48T := ⟨2, 4, 1, 3, false, 0, .g1, .n16, 0, 5, 0⟩

theorem witness_ForestPaths : (forestOf (fun _ => 0) 2).path 1 = some [1, 0] ∧ (forestOf (fun e => 1 - e) 2).unrooted 0 = true ∧ 1 < 2 := by decide

theorem witness_Trees :
    let s := treeS 0 true
    s.curStream = .x ∧ (trElems s treeOp' = 128 ∧ treeOp'.d.val % 8 ≠ treeOp'.u.val % 8 ∧ (treeOp'.op.val, Op.add) ∈ treeOps) ∧
    (let z := onX { hart0 with vl := 2, vstart := 2 }
     z.cur.vl.toNat ≤ z.cur.vstart.toNat ∧ z.cur.vl.toNat ≤ trElems z treeOp' ∧ Opens z.cur [trA treeOp'] [trD treeOp']) ∧
    let f := forest s treeOp'
    s.cur.vstart.toNat < s.cur.vl.toNat ∧ s.cur.vl.toNat ≤ trElems s treeOp' ∧ ((List.range f.vl).any fun e => (f.path e).isNone) = false ∧
    Opens s.cur [trA treeOp'] [trD treeOp'] ∧ Opens s.cur [] [trD treeOp'] ∧ Opens s.cur [trA treeOp'] [] ∧ Opens s.cur [] [] ∧ treeOp'.fmt ∈ intFormats ∧
    (let c := treeS 1 true
     c.curStream = .x ∧ c.cur.tce = true ∧ Opens c.cur [] [trD treeOp'] ∧ c.cur.vstart.toNat < c.cur.vl.toNat ∧ c.cur.vl.toNat ≤ trElems c treeOp' ∧
      ∃ e, e < c.cur.vl.toNat ∧ (forest c treeOp').unrooted e = true) := by
  refine ⟨rfl, by decide, ⟨by decide, by decide, opens_of (by decide +kernel)⟩, by decide, by decide, by decide +kernel, opens_of (by decide +kernel), opens_of (by decide +kernel), opens_of (by decide +kernel), opens_of (by decide +kernel), by decide,
    rfl, rfl, opens_of (by decide +kernel), by decide, by decide, ⟨0, by decide, by decide +kernel⟩⟩

/-- An I8 tile of 128 rows and one column (Table 15.2): a header, one scale, 128 codes. -/
def tileHeader : List Byte := leBytes 64 (0x4D54 + 128 * 2 ^ 32 + 1 * 2 ^ 48)
def tileImage : List Byte := tileHeader ++ List.replicate 192 0
def tiled : State :=
  { onX { hart0 with vl := 128, s := [(2, 1)], quire := some (4, 0) } with
    cores := [(0, { scratch := writeBytes [] 0 tileHeader, tile := some ⟨tileImage, 0, 0, 1⟩ })] }

/-- MatrixRows: a row of an I8 tile with and without margins; the feature absent, VL above the group, a bound source, a bound buffer, no tile,
a tile of another address space, one that does not accept the activations. -/
theorem witness_MatrixRows :
    let o : HT48MX := ⟨127, 4, false, 0, .g1, .i8, .i8, .rne, false, 0, 2⟩
    let m : HT48MX := ⟨0, 62, false, 0, .g1, .i8, .i8, .rne, false, 1, 2⟩
    let tile : Tile := ⟨tileImage, 0, 0, 1⟩
    let src : Operand := ⟨4, 1, 8⟩
    let absent : State := { tiled with cores := [(0, { feat := 6 })] }
    let none' : State := { tiled with cores := [] }
    let other : State := { tiled with cores := [(0, { tile := some { tile with asid := 2 } })] }
    let long : State := { tiled with harts := [(0, { hart0 with vl := 257 })] }
    let bound : State := { tiled with harts := [(0, { hart0 with vl := 128, binds := [(4, some { kind := 3 }), (63, some {})] })] }
    (swapped tiled).curCore.tile = some tile ∧ tile.asid = tiled.cur.asid ∧ (tile.opened.f = .i8 ∧ accepted .i8 .i8 ∧ ¬ accepted .i8 .fp16) ∧
    tile.opened.h.b32 = false ∧ tiled.cur.vl.toNat ≤ tiled.regBits * o.group.size / o.fa.width ∧ Opens tiled.cur [src] [] ∧ tiled.cur.tileHeld = false ∧
    badSource tiled.cur src = false ∧ m.count.val % 2 = 1 ∧ o.count.val % 2 = 0 ∧ tiled.curCore.feat.getLsbD 0 = true ∧ tiled.cur.bindings = [] ∧
    tile.opened.h.n ≤ 64 ∧ tile.opened.h.k = 128 ∧
    absent.curCore.feat.getLsbD 0 = false ∧ long.regBits * o.group.size / o.fa.width + 1 = long.cur.vl.toNat ∧ long.cur.tileHeld = false ∧
    (badSource bound.cur src = true ∧ bound.cur.vl.toNat ≤ bound.regBits * o.group.size / o.fa.width ∧ ∃ b ∈ bound.cur.bindings, overlaps ⟨62 + 1, 1, 32⟩ b.1 b.2 = true) ∧
    (swapped none').curCore.tile = none ∧ (∃ t, (swapped other).curCore.tile = some t ∧ t.asid ≠ other.cur.asid) := by
  refine ⟨by decide +kernel, by decide, ⟨by decide +kernel, by simp [accepted], by simp [accepted]⟩, by decide +kernel, by decide +kernel, opens_of (by decide +kernel),
    by decide, by decide, by decide, by decide, by decide, by decide, by decide +kernel, by decide +kernel, by decide, by decide +kernel, by decide,
    ⟨by decide, by decide +kernel, ⟨((63 : Nat), ({} : Binding)), by decide, by decide⟩⟩, by decide, ⟨{ image := tileImage, book := 0, cf := 0, asid := 2 }, by decide +kernel, by decide⟩⟩

theorem witness_MatrixClearAndStatus : tiled.curStream = .x ∧ (∃ o : HT48MX, o.s ≠ 0 ∧ o.count.val = 0) ∧ (∃ o : HT48MX, o.s ≠ 0 ∧ o.count.val = 1) ∧
    ∃ o : HT48MX, o.s ≠ 0 ∧ o.count.val = 2 := by
  refine ⟨rfl, ⟨⟨0, 0, false, 0, .g1, .i8, .i8, .rne, false, 0, 1⟩, by decide, rfl⟩, ⟨⟨0, 0, false, 0, .g1, .i8, .i8, .rne, false, 1, 1⟩, by decide, rfl⟩,
    ⟨⟨0, 0, false, 0, .g1, .i8, .i8, .rne, false, 2, 1⟩, by decide, rfl⟩⟩

theorem witness_TileLoads :
    let o : HT48VM := ⟨0, 0, 0, 0, .i8, 0, .g1, .plain, .ln, false⟩
    let s1 := swapped tiled
    let h := headerOf (leNat tileHeader)
    let t0 := openImage tileImage 0
    ((0 : Int) % 64 = 0 ∧ Steady (padBlock 0 64) s1 tileHeader ∧ tileGood tiled o.fmt h ∧ Steady (padBlock 0 (h.size o.fmt)) s1 tileImage ∧
      ∀ i, i < h.mcnt → (t0.entry i).testBit 15 = false ∧ t0.entry i % 2 ^ 15 < h.n * h.k) ∧ tiled.cur.quire = some (4, 0) ∧
    (tiled.curCore.feat.getLsbD 1 = true ∧ Steady (padBlock 64 2048) tiled (List.replicate 2048 0) ∧
      ∀ p, p < 256 → bits (leNat (List.replicate 2048 0)) (64 * p + 33) 31 = 0) ∧ t0.h.n ≤ 64 := by
  have z : leNat (List.replicate 2048 0) = 0 := by decide +kernel
  refine ⟨⟨by decide, steady_of_gives (by decide +kernel), ⟨⟨by decide +kernel, by decide +kernel, by decide +kernel, fun _ => by decide +kernel, by decide +kernel, by decide +kernel,
      by decide +kernel, ⟨256, 64, by simp, by decide +kernel, by decide +kernel⟩⟩, by decide +kernel, by decide +kernel, by decide +kernel, by decide +kernel⟩,
    steady_of_gives (by decide +kernel), fun i hi => absurd hi (by rw [show (headerOf (leNat tileHeader)).mcnt = 0 by decide +kernel]; omega)⟩, by decide +kernel,
    ⟨by decide +kernel, steady_of_gives (by decide +kernel), fun p _ => by rw [z]; simp [bits]⟩, by decide +kernel⟩

/-- A header of 128 rows and one column in format f with m margins, in the scratchpad with more bytes from 256 on. -/
def marginHeader (f : Fmt) (m : Nat) : List Byte := leBytes 64 (0x4D54 + f.code * 2 ^ 16 + 128 * 2 ^ 32 + 1 * 2 ^ 48 + m * 2 ^ 64)
def tileAt (f : Fmt) (m : Nat) (feat : BitVec 3) (more : List Byte) : State :=
  { onX { hart0 with quire := some (4, 0) } with cores := [(0, { scratch := writeBytes (writeBytes [] 0 (marginHeader f m)) 256 more, feat := feat })] }

/-- The margin entry of a column that names a row with its reserved bit set. -/
def badImage : List Byte := marginHeader .i8 1 ++ List.replicate 192 0 ++ leBytes 4 0x8000
/-- A codebook whose first entry has a reserved bit. -/
def badBook : List Byte := List.replicate 4 0 ++ 2 :: List.replicate 2043 0

theorem good_header (f : Fmt) (m : Nat) (h : (f, m) ∈ [(Fmt.i8, 129), (.i8, 1), (.fp16, 1), (.cb2, 0)]) : headerGood (headerOf (leNat (marginHeader f m))) f := by
  simp only [List.mem_cons, Prod.mk.injEq, List.not_mem_nil, or_false] at h
  rcases h with ⟨rfl, rfl⟩ | ⟨rfl, rfl⟩ | ⟨rfl, rfl⟩ | ⟨rfl, rfl⟩
  · exact ⟨by decide +kernel, by decide +kernel, by decide +kernel, fun _ => by decide +kernel, by decide +kernel, by decide +kernel, by decide +kernel, ⟨256, 64, by simp, by decide +kernel, by decide +kernel⟩⟩
  · exact ⟨by decide +kernel, by decide +kernel, by decide +kernel, fun _ => by decide +kernel, by decide +kernel, by decide +kernel, by decide +kernel, ⟨256, 64, by simp, by decide +kernel, by decide +kernel⟩⟩
  · exact ⟨by decide +kernel, by decide +kernel, by decide +kernel, fun _ => by decide +kernel, by decide +kernel, by decide +kernel, by decide +kernel, ⟨128, 32, by simp, by decide +kernel, by decide +kernel⟩⟩
  · exact ⟨by decide +kernel, by decide +kernel, by decide +kernel, fun _ => by decide +kernel, by decide +kernel, by decide +kernel, by decide +kernel, ⟨512, 64, by simp, by decide +kernel, by decide +kernel⟩⟩

/-- TileLoads, what traps: no magic word; 129 margins; margins of an FP16 tile; a feature absent; an entry and a codebook with reserved bits. -/
theorem witness_TileRefusals :
    let mcnt (f : Fmt) (m : Nat) : Nat := (headerOf (leNat (marginHeader f m))).mcnt
    let bad := tileAt .i8 1 7 (leBytes 4 0x8000)
    let book : State := { tiled with cores := [(0, { scratch := [(68, 2)] })] }
    (Steady (padBlock 0 64) (swapped (onX hart0)) (List.replicate 64 0) ∧ ¬ headerGood (headerOf (leNat (List.replicate 64 0))) .i8) ∧
    (∀ x ∈ [(Fmt.i8, 129), (.i8, 1), (.fp16, 1), (.cb2, 0)], Steady (padBlock 0 64) (swapped (tileAt x.1 x.2 4 [])) (marginHeader x.1 x.2)) ∧
    (128 < mcnt .i8 129 ∧ mcnt .fp16 1 = 1 ∧ mcnt .i8 1 = 1 ∧ mcnt .cb2 0 = 0 ∧ (tileAt .cb2 0 4 []).curCore.feat.getLsbD 1 = false ∧
      (tileAt .i8 1 4 []).curCore.feat.getLsbD 0 = false ∧ (tileAt .i8 1 4 []).cur.quire.isSome = true) ∧
    (Steady (padBlock 0 64) (swapped bad) (marginHeader .i8 1) ∧ Steady (padBlock 0 ((headerOf (leNat (marginHeader .i8 1))).size .i8)) (swapped bad) badImage ∧
      tileGood bad .i8 (headerOf (leNat (marginHeader .i8 1))) ∧ headerOf (leNat badImage % 2 ^ 512) = headerOf (leNat (marginHeader .i8 1)) ∧
      (bits (leNat badImage) (8 * (headerOf (leNat (marginHeader .i8 1))).marginAt .i8 + 32 * 0) 32).testBit 15 = true) ∧
    (({ tiled with cores := [(0, { feat := 5 })] } : State).curCore.feat.getLsbD 1 = false) ∧
    (book.curCore.feat.getLsbD 1 = true ∧ Steady (padBlock 64 2048) book badBook ∧ bits (leNat badBook) (64 * 0 + 33) 31 ≠ 0) := by
  refine ⟨⟨steady_of_gives (by decide +kernel), fun h => absurd h.1 (by decide +kernel)⟩, fun x hx => ?_, by decide +kernel,
    ⟨steady_of_gives (by decide +kernel), steady_of_gives (by decide +kernel), ⟨good_header _ _ (by simp), by decide +kernel, by decide +kernel, by decide +kernel, by decide +kernel⟩,
      by decide +kernel, by decide +kernel⟩, by decide, by decide, steady_of_gives (by decide +kernel), by rw [show leNat badBook = 2 ^ 33 by decide +kernel]; decide⟩
  simp only [List.mem_cons, List.not_mem_nil, or_false] at hx
  rcases hx with rfl | rfl | rfl | rfl <;> exact steady_of_gives (by decide +kernel)


/-! ### Streams, scratchpad, stores -/

/-- A kind-1 record of 5 FP8-free I32 elements and a kind-2 record with its descriptor (Tables 10.1 to 10.3, 7.1, 7.2). -/
def seqRecord : Nat := 1 + 2 * 2 ^ 8 + 5 * 2 ^ 32 + 0x10000 * 2 ^ 64 + 4 * 2 ^ 128 + 1 * 2 ^ 160
def kvRecord : Nat := 2 + 2 * 2 ^ 8 + 3 * 2 ^ 32 + 0x10100 * 2 ^ 64 + 8 * 2 ^ 176
def kvImage : Nat := 4 + 1 * 2 ^ 32 + 2 ^ 63 + 64 * 2 ^ 64 + 64 * 2 ^ 96 + 0x11000 * 2 ^ 512 + 4 * 2 ^ 576 + 64 * 2 ^ 608
def seqBinding : Binding := { kind := 1, fmt := .i32, count := 5, base := 0x10000, estr := 4, total := 5 }
def kvBinding : Binding := { kind := 2, fmt := .i32, count := 3, base := 0x10100, slice := 8 }
def seqS : State := withMem (onA { hart0 with a := [(1, 0x10000)] }) 0x10000 64 seqRecord
def kvS : State := withMem (withMem (onA { hart0 with a := [(1, 0x10000)] }) 0x10000 64 kvRecord) 0x10100 320 kvImage

theorem witness_StreamBindings :
    (bindFits base.cur 3 {} = true) ∧
    ((1 : Fin 32) ≠ 0 ∧ (seqS.getR 1).toNat % 64 = 0 ∧ isCanonical (seqS.getR 1) ∧ Steady (readBlockCur (seqS.getR 1) 64) seqS (leBytes 64 seqRecord) ∧
      recordOf (leNat (leBytes 64 seqRecord)) = some seqBinding ∧ bindFits seqS.cur 3 seqBinding = true ∧ seqBinding.kind ≠ 2) ∧
    (Steady (readBlockCur (kvS.getR 1) 64) kvS (leBytes 64 kvRecord) ∧ recordOf (leNat (leBytes 64 kvRecord)) = some kvBinding ∧ bindFits kvS.cur 3 kvBinding = true ∧
      kvBinding.kind = 2 ∧ kvBinding.base.toNat % 64 = 0 ∧ isCanonical kvBinding.base ∧ kvBinding.slice = 8 * 2 ^ 0 ∧ kvBinding.slice ≤ kvS.regBits * kvBinding.grp.size / 8 ∧
      Steady (readBlockCur kvBinding.base 320) kvS (leBytes 320 kvImage) ∧ (descOf (leNat (leBytes 320 kvImage))).live = true ∧ descCode (leNat (leBytes 320 kvImage)) = 0 ∧
      kvBinding.roff + kvBinding.slice ≤ (descOf (leNat (leBytes 320 kvImage))).rowb) ∧
    base.cur.bind 3 = none ∧
    ∀ b ∈ [seqBinding, kvBinding, {}, { kind := 3 }], (onA { hart0 with binds := [(3, some b)] }).cur.bind 3 = some b ∧ b.kind < 4 := by
  refine ⟨by decide, ⟨by decide, by decide, canonical_of (by decide), steady_of_gives (by decide +kernel), by decide +kernel, by decide, by decide⟩,
    ⟨steady_of_gives (by decide +kernel), by decide +kernel, by decide, rfl, by decide, canonical_of (by decide), rfl, by decide, steady_of_gives (by decide +kernel),
      by decide +kernel, by decide +kernel, by decide +kernel⟩, by decide, by decide +kernel⟩

/-- Two I64 elements from 0x1FFF0: the second is the last of the page, a third would be on the page that is not there. -/
def loadS (word : BitVec 64) : State :=
  { onA { hart0 with a := [(1, 0x1FFF0), (2, word)], binds := [(3, some { fmt := .i64 })] } with
    dies := [(0, { tlb := [⟨1, 1, 0, leaf1⟩] })], mem := [(32, 1), (48, 1), (0x1FFF0, 5), (0x1FFF8, 6)] }
def loadOp : HT48VM := ⟨3, 1, 2, 0, .i64, 0, .g1, .plain, .ln, false⟩

def fillable (s : State) (v : Fin 64) (g : Group) (b : Binding) : Bool :=
  decide (s.cur.bind v.val = some b ∧ b.kind = 0 ∧ b.grp = g ∧ b.filling = none ∧ b.rows = [] ∧ b.entries.length < b.depth)

theorem fillable_of {s : State} {v : Fin 64} {g : Group} {b : Binding} (h : fillable s v g b = true) : Fillable s v g b := by unfold Fillable; simpa [fillable] using h

def plainLoad : State := onA { hart0 with a := [(1, 0x10000)], binds := [(3, some { fmt := .i64 })] }

theorem witness_ExplicitLoads :
    let b : Binding := { fmt := .i64 }
    let s2 := loadS (2 * 2 ^ 32)
    let s3 := loadS (3 * 2 ^ 32)
    let sv := loadS (2 * 2 ^ 32 + 8)
    let full := plainLoad
    let unit (s : State) (e : Nat) : Source := elementAt 64 e ((s.getR loadOp.base).toInt + loadOp.disp.toInt + (e * 64 / 8 : Nat))
    Fillable s2 loadOp.v loadOp.group b ∧ Reads s2 64 2 (unit s2) (fun e => if e = 0 then 5 else 6) ∧
    (sv.getR 2 = 2 * 2 ^ 32 + 8 ∧ Fillable sv loadOp.v loadOp.group b ∧
      Reads sv 64 2 (fun e => elementAt 64 e ((sv.getR 1).toInt + loadOp.disp.toInt + e * ((sv.getR 2).extractLsb' 0 32).toInt)) (fun e => if e = 0 then 5 else 6)) ∧
    (Fillable s3 loadOp.v loadOp.group b ∧ Reads s3 64 2 (unit s3) (fun e => if e = 0 then 5 else 6) ∧
      s3.getR 2 = 3 * 2 ^ 32 ∧ ∃ l i, Steady (sortSources (unit s3) [] (List.range 3)) s3 l ∧ l[2]? = some (2, .fault i) ∧ i.cause = Cause.notPresent) ∧
    (Fillable full loadOp.v loadOp.group b ∧ Reads full 64 32 (unit full) (fun _ => 0)) := by
  refine ⟨fillable_of (by decide +kernel), reads_of leaf1 (by decide +kernel), ⟨by decide, fillable_of (by decide +kernel), reads_of leaf1 (by decide +kernel)⟩,
    ⟨fillable_of (by decide +kernel), reads_of leaf1 (by decide +kernel), by decide, ?_⟩, ⟨fillable_of (by decide +kernel), reads_of leaf1 (by decide +kernel)⟩⟩
  let unit (e : Nat) : Source := elementAt 64 e (((loadS (3 * 2 ^ 32)).getR 1).toInt + loadOp.disp.toInt + (e * 64 / 8 : Nat))
  obtain ⟨l, hl, hp⟩ := steady_of_answers (m := sortSources unit [] (List.range 3)) (s := loadS (3 * 2 ^ 32)) (p := faultsAt 2 Cause.notPresent) (by decide +kernel)
  obtain ⟨i, hi⟩ := fault_of_faultsAt hp
  exact ⟨l, i, hl, hi⟩

/-- A kind-3 binding at V8 with an entry of offsets 0, 8, 16, …, and with a shape of rank 1, 4 elements of 8 bytes (Table 10.4). -/
def offsets : Nat := (List.range 32).foldl (fun v e => v + 8 * e * 2 ^ (64 * e)) 0
def shape : Nat := 0x10000 + (1 + 3 * 2 ^ 8) * 2 ^ 64 + 4 * 2 ^ 128 + 8 * 2 ^ (64 * 8) + 4 * 2 ^ (64 * 15)
def indexBinding (data : Nat) : Binding := { kind := 3, fmt := .i64, entries := [{ data := BitVec.ofNat 16384 data }] }
def indexed (data base : Nat) : State :=
  onA { hart0 with a := [(1, BitVec.ofNat 64 base)], binds := [(3, some { fmt := .i64 }), (8, some (indexBinding data))] }
def indexOp : HT48VX := ⟨3, 1, 8, false, 0, .i64, 0, .g1, .plain, .ln, false⟩

/-- A chunk object of two chunks of I16 elements at 0x10000: the first bitmap is 5, the second 0 (Table 10.5). -/
def chunked : State :=
  let s := onA { hart0 with a := [(1, 0x10000)], binds := [(3, some { fmt := .i16 })] }
  withMem (withMem (withMem (withMem s 0x10000 32 (0x3148434B + 1 * 2 ^ 32 + 1 * 2 ^ 64 + 32 * 2 ^ 128 + 48 * 2 ^ 192)) 0x10020 4 0) 0x10030 16 5) 0x10040 4 (7 + 9 * 2 ^ 16)
def chunkOp : HT48VM := ⟨3, 1, 0, 0, .i16, 0, .g1, .plain, .ln, false⟩

theorem witness_IndexedLoads :
    (let s := indexed offsets 0x10000
     let n := min 32 (s.regBits * (indexBinding offsets).grp.size / 64)
     Fillable s indexOp.v indexOp.group { fmt := .i64 } ∧ s.cur.bind indexOp.x.val = some (indexBinding offsets) ∧ (indexBinding offsets).kind = 3 ∧
      (indexBinding offsets).entries = { data := BitVec.ofNat 16384 offsets } :: [] ∧
      Reads s 64 n (fun e => elementAt 64 e ((0x10000 : Int) + (BitVec.ofNat 64 (elemAt 64 (BitVec.ofNat 16384 offsets).toNat e)).toInt)) (fun _ => 0)) ∧
    (let s := indexed shape 0
     1024 ≤ s.regBits * (indexBinding shape).grp.size ∧ ∃ sh, shapeOf .i64 32 (BitVec.ofNat 16384 shape).toNat = some sh ∧ Reads s 64 sh.count (sh.source 64 0) (fun _ => 0)) ∧
    (let s := chunked
     let map (k : Nat) : Nat := if k = 0 then 5 else 0
     let at' (_ : Nat) : Int := 0x10040
     let there (e : Nat) : Bool := decide (0 + e / 128 < 1) && (map (e / 128)).testBit (e % 128)
     let below (e : Nat) : Nat := ((List.range (e % 128)).countP fun k => (map (e / 128)).testBit k) * 16
     Fillable s chunkOp.v chunkOp.group { fmt := .i16 } ∧ s.regBits * chunkOp.group.size / 16 % 128 = 0 ∧ Steady (chunkHeader 0x10000 .i16) s (1, 32, 48) ∧
      (∀ k, k < s.regBits * chunkOp.group.size / 16 / 128 → 0 + k < 1 → Steady (chunkAt 0x10000 16 1 32 48 (0 + k)) s (map k, at' k)) ∧
      Reads s 16 (s.regBits * chunkOp.group.size / 16) (fun e => if there e then .at' (at' (e / 128) + (below e / 8 : Nat)) (max 1 (16 / 8)) (below e % 8) else .zero)
        fun e => if e = 0 then 7 else if e = 2 then 9 else 0) ∧
    base.cur.bind 3 = none ∧
    (let s := onA { hart0 with a := [(1, 0x1FF00)], binds := [(3, some { fmt := .i8 })] }
     let one : State := { s with dies := [(0, { tlb := [⟨1, 1, 0, leaf1⟩] })] }
     isCanonical (s.getR 1) ∧ (s.getR 1).toNat % 64 = 0 ∧ s.regBits / 8 = 256 ∧ isCanonical (one.getR 1) ∧ (one.getR 1).toNat % 64 = 0 ∧
      (∀ (k : Nat) (x : Nat × Nat × BitVec 64), (rowLines (s.getR 1) 256 8 1)[k]? = some x → isCanonical x.2.2 ∧ Steady (translateCur x.2.2 .read) s (sameAt leaf1 x.2.2)) ∧
      OnePage (List.range (rowLines (s.getR 1) 256 8 1).length) (fun k => ((rowLines (s.getR 1) 256 8 1)[k]?.map fun x => x.2.2).getD 0)
        (fun k => sameAt leaf1 (((rowLines (s.getR 1) 256 8 1)[k]?.map fun x => x.2.2).getD 0)) ∧
      one.upto = none ∧ ∃ i, Steady (sortRows [] (rowLines (one.getR 1) 256 8 2) none) one (some (1, i)) ∧ i.cause = Cause.notPresent) := by
  refine ⟨⟨fillable_of (by decide +kernel), by decide +kernel, rfl, rfl, reads_of leaf1 (by decide +kernel)⟩,
    ⟨by decide, ⟨(shapeOf .i64 32 (BitVec.ofNat 16384 shape).toNat).get (by decide +kernel), (Option.some_get _).symm, reads_of leaf1 (by decide +kernel)⟩⟩,
    ⟨fillable_of (by decide +kernel), by decide, steady_of_gives (by decide +kernel), fun k hk h1 => ?_, reads_of leaf1 (by decide +kernel)⟩, by decide,
    ⟨canonical_of (by decide), by decide, by decide, canonical_of (by decide), by decide, fun k x hx => ?_, onePage_of fun _ => ⟨rfl, rfl, rfl⟩, rfl,
      ⟨{ cause := Cause.notPresent, addr := 0x20000, elem := some 0 }, steady_of_gives (by decide +kernel), rfl⟩⟩⟩
  · obtain rfl : k = 0 := by omega
    exact steady_of_gives (by decide +kernel)
  · have h : x ∈ rowLines 0x1FF00 256 8 1 := List.mem_of_getElem? hx
    have all : ∀ x ∈ rowLines 0x1FF00 256 8 1, (List.range 64).all (fun k => !decide (56 ≤ k) || x.2.2.getLsbD k == x.2.2.getLsbD 56) = true ∧
        gives (translateCur x.2.2 .read) (onA { hart0 with a := [(1, 0x1FF00)], binds := [(3, some { fmt := .i8 })] }) (sameAt leaf1 x.2.2)
          (onA { hart0 with a := [(1, 0x1FF00)], binds := [(3, some { fmt := .i8 })] }) = true := by decide +kernel
    refine ⟨canonical_of fun k hk h56 => ?_, steady_of_gives (all x h).2⟩
    simpa [h56] using List.all_eq_true.1 (all x h).1 k (List.mem_range.2 hk)

/-- Two I32 elements at scratchpad offset 0x40; at the end of the scratchpad only the first of two is there. -/
def padS (base' : Nat) (vl : Nat) : State := onX { hart0 with vl := BitVec.ofNat 13 vl, s := [(1, BitVec.ofNat 64 base')] }
def padOp : HT48VM := ⟨3, 1, 0, 0, .i32, 0, .g1, .plain, .ln, false⟩

theorem witness_ScratchpadVectors :
    let addr (s : State) (e : Nat) : Int := (s.getR 1).toInt + (e * 32 / 8 : Nat)
    (let s := padS 0x40 2
     (s.cur.vl.toNat ≤ s.regBits * padOp.group.size / 32 ∧ s.cur.popBad = [] ∧ s.cur.bindings = []) ∧ s.active (Spec.mask s padOp.mask) = [0, 1] ∧
      ∀ e ∈ [0, 1], s.padRef (addr s e) = some ⟨s.curCoreId, 0x40 + 4 * e⟩ ∧ addr s e % 4 = 0 ∧ (s.core s.curCoreId).stash = [] ∧
        (∀ k ∈ sectorsOf (0x40 + 4 * e) 4, k ∉ (s.core s.curCoreId).badSp) ∧ ¬ 0x200000 ≤ addr s e) ∧
    (∃ last, let s := padS last 2
      s.active (Spec.mask s padOp.mask) = [0, 1] ∧ (s.padRef (addr s 0)).isSome = true ∧ s.padRef (addr s 1) = none) ∧
    let s := padS 0x200000000 1
    s.active (Spec.mask s padOp.mask) = 0 :: [] ∧ s.padRef (addr s 0) = none := by
  refine ⟨⟨by decide +kernel, by decide +kernel, by decide +kernel⟩, ⟨0x7FFFC, by decide +kernel⟩, by decide +kernel⟩

/-- Two I32 elements stored at 0x10004 and at indices of a vector register. -/
def storeS : State := onX { hart0 with vl := 2, s := [(1, 0x10004), (2, 8)], v := [(3, 5 + 6 * 2 ^ 32), (4, 0x10 + 0x20 * 2 ^ 64)] }

def at4 (pa : Nat) : Mapped := { pa := pa, leaf := leaf1, key := 0 }

theorem witness_GlobalStores :
    let src : Operand := ⟨3, 1, 32⟩
    let idx : Operand := ⟨4, 2, 64⟩
    (storeS.cur.vl.toNat ≤ storeS.regBits * 1 / 32 ∧ Opens storeS.cur [src] [] ∧ Opens storeS.cur [src, idx] [] ∧ Quiet storeS ∧ storeS.upto = none ∧ storeS.active (Spec.mask storeS 0) = [0, 1]) ∧
    (∀ e ∈ [0, 1], Accessible (storeS.setCur (storeS.cur.opened storeS.regBits [src])) ((storeS.getR 1).toInt + (e * 32 / 8 : Nat)) 4 .write (at4 (0x10004 + 4 * e)) ∧
      Accessible (storeS.setCur (storeS.cur.opened storeS.regBits [src])) ((storeS.getR 1).toInt + e * (storeS.getR 2).toInt) 4 .write (at4 (0x10004 + 8 * e))) ∧
    (∀ d, OnePage [0, 1] (fun e => BitVec.ofInt 64 ((storeS.getR 1).toInt + d * (e : Nat))) fun e => at4 (0x10004 + d.toNat * e)) ∧ (at4 0).key = 0 ∧
    ∀ e ∈ [0, 1], let y := storeS.cur.opened storeS.regBits [src, idx]
      Accessible (storeS.setCur y) ((storeS.getR 1).toInt + (BitVec.ofNat 64 (y.elem storeS.regBits idx e)).toInt) 4 .write (at4 (0x10014 + 16 * e)) := by
  refine ⟨⟨by decide, opens_of (by decide +kernel), opens_of (by decide +kernel), quiet_of (by decide), rfl, by decide +kernel⟩, fun e he => ?_,
    fun _ => onePage_of fun _ => ⟨rfl, rfl, rfl⟩, rfl, fun e he => ?_⟩
  · rcases List.mem_pair.1 he with rfl | rfl
    · exact ⟨accessible_of (by decide +kernel), accessible_of (by decide +kernel)⟩
    · exact ⟨accessible_of (by decide +kernel), accessible_of (by decide +kernel)⟩
  · rcases List.mem_pair.1 he with rfl | rfl
    · exact accessible_of (by decide +kernel)
    · exact accessible_of (by decide +kernel)

/-- Windows: none open; one of four I32 words at 0x10000 with copies of words 0 and 1 in lanes 0 and 1. -/
def windowS : State :=
  onX { hart0 with vl := 2, s := [(1, 0x10000), (2, 4), (5, 0x10002), (6, 257)], v := [(3, 5 + 6 * 2 ^ 32), (4, 3 * 2 ^ 64)]
                   window := some ⟨0, .i32, 0x10000, 4, [(0, 5), (257, 6)]⟩ }
def windowOp : HT48VM := ⟨0, 1, 2, 0, .i32, 0, .g1, .plain, .ln, false⟩

theorem witness_AccumulationWindows :
    (let s := onX { hart0 with s := [(1, 0x10000), (2, 4), (5, 0x10002), (6, 257)] }
     (s.cur.window = none ∧ 1 ≤ (s.getR 2).toNat ∧ (s.getR 2).toNat * 4 ≤ 1024 ∧ (s.getR 1).toInt % 4 = 0) ∧ windowS.cur.window.isSome = true ∧
      (s.getR 0).toNat = 0 ∧ 1024 < (s.getR 6).toNat * 4 ∧ (s.getR 5).toInt % 4 ≠ 0) ∧
    (let w : Window := ⟨0, .i32, 0x10000, 4, [(0, 5), (257, 6)]⟩
     let src : Operand := ⟨3, 1, 32⟩
     let idx : Operand := ⟨4, 2, 64⟩
     windowS.cur.window = some w ∧ w.fmt ∈ Spec.windowFormats ∧ w.wn ≤ 256 ∧ windowS.cur.vl.toNat ≤ windowS.regBits * 1 / 32 ∧ Opens windowS.cur [src, idx] [] ∧
      windowS.active (Spec.mask windowS 0) = [0, 1] ∧ (∀ e ∈ [0, 1], (windowS.cur.opened windowS.regBits [src, idx]).elem windowS.regBits idx e < w.wn) ∧
      (List.range w.wn).filter (fun i => decide (windowS.cur.vstart.toNat ≤ i) && (List.range windowS.lanes).any fun l => (Spec.copyAt w l i).isSome) = [0, 1] ∧
      Quiet windowS ∧ windowS.upto = none ∧
      windowS.curStream = .x ∧ OnePage [0, 1] (fun i => BitVec.ofInt 64 (w.base.toInt + (i * 4 : Nat))) (fun i => at4 (0x10000 + 4 * i)) ∧ ∀ i ∈ [0, 1], Accessible windowS (w.base.toInt + (i * 4 : Nat)) 4 .write (at4 (0x10000 + 4 * i)) ∧ entTier leaf1 = 0 ∧
        (at4 (0x10000 + 4 * i)).key = 0 ∧ (at4 (0x10000 + 4 * i)).pa = 0x10000 + i * 4) := by
  refine ⟨by decide +kernel, ⟨rfl, by simp [Spec.windowFormats], by decide, by decide, opens_of (by decide +kernel), by decide +kernel, by decide +kernel, by decide +kernel, quiet_of (by decide), rfl, rfl,
    onePage_of fun _ => ⟨rfl, rfl, rfl⟩, fun i hi => ?_⟩⟩
  rcases List.mem_pair.1 hi with rfl | rfl
  · exact ⟨accessible_of (by decide +kernel), by decide, rfl, rfl⟩
  · exact ⟨accessible_of (by decide +kernel), by decide, rfl, rfl⟩

theorem witness_KeyScratchpad :
    let o : HT32V := ⟨8, 2, 4, false, false, 1, .g1, .i32, 0⟩
    let s := onX { hart0 with vl := 2, v := [(2, 7 + 9 * 2 ^ 64), (4, 3)], m := [(1, 3)], keys := [(7, 1)] }
    let absent : State := { s with cores := [(0, { feat := 3 })] }
    (absent.curCore.feat.getLsbD 2 = false) ∧ s.curCore.feat.getLsbD 2 = true ∧ s.cur.vl.toNat ≤ s.regBits * 1 / 64 ∧
    Opens s.cur [⟨2, 1, 64⟩, mixedOperand 4 .g1 .i32 .i64] [] ∧ Opens s.cur [⟨2, 1, 64⟩] [mixedOperand 8 .g1 .i32 .i64] ∧ o.fmt ∈ Spec.windowFormats ∧ s.cur.bindings = [] ∧ s.cur.popBad = [] ∧
    o.d ≠ 0 ∧ o.mask ≠ 0 ∧ o.b.val ≠ 0 ∧ s.active (Spec.mask s o.mask) = [0, 1] := by
  refine ⟨by decide, by decide, by decide, opens_of (by decide +kernel), opens_of (by decide +kernel), by simp [Spec.windowFormats], by decide, by decide, by decide, by decide, by decide, by decide +kernel⟩

/-! ### Wells, quires, barriers, stash, folios, queues, blotter, stencil, flash -/

/-- Well 2 of the hart's core. -/
def wellS (w : Well) : State := { onC { hart0 with c := [(0, 2), (1, 2)] } with cores := [(0, { wells := [(2, w)] })] }
/-- Sixteen wells with a copy, and well 2. -/
def fullS (w : Well) : State :=
  { onC hart0 with cores := [(0, { wells := (2, w) :: (List.range 16).map fun k => (10 + k, ⟨.filling, some 9, some { ctl := 0, ruling := {} }⟩) })] }
def mine (st : WellState) (c : Option Copy) : Well := ⟨st, some 1, c⟩

theorem witness_WellInstructions :
    let copies (s : State) : Nat := (s.curCore.wells.filter fun x => x.2.copy.isSome).length
    let some' : Copy := { ctl := 0, ruling := {} }
    let c0ok (s : State) : Prop := (s.cur.getC 0).extractLsb' 20 44 = 0 ∧ (s.cur.getC 0).extractLsb' 12 4 = 0 ∧ ((s.cur.getC 0).extractLsb' 0 4).toNat ≤ 9
    ((wellS {}).curCore.well 2).state = .free ∧
    (∀ st ∈ [WellState.filling, .full, .draining, .faulted], let s := wellS (mine st none)
      (s.curCore.well 2).state = st ∧ (s.curCore.well 2).owner = some s.cur.taskNo ∧ s.cur.waitlim ≠ 0 ∧ (s.curCore.well 2).state ≠ .free) ∧
    ((wellS ⟨.full, some 9, none⟩).curCore.well 2).owner ≠ some (wellS ⟨.full, some 9, none⟩).cur.taskNo ∧
    (let s := wellS (mine .draining none); (s.curCore.well 2).state = .draining ∧ (s.curCore.well 2).copy = none) ∧
    (let s := wellS (mine .filling none); c0ok s ∧ copies s < 16 ∧ (s.curCore.well 2).copy = none) ∧
    (let s := fullS (mine .filling none); c0ok s ∧ 16 ≤ copies s ∧ (s.curCore.well 2).copy = none ∧ (s.curCore.well 2).owner = some s.cur.taskNo) ∧
    ¬ c0ok (onC { hart0 with c := [(0, 10)] }) ∧
    (let s := wellS (mine .full none)
     let t : State := { s with harts := (1, { hart0 with sx := { stat := .running, wait := some ⟨5⟩, on := some (.well 2) } }) :: s.harts }
     (∀ p ∈ s.harts, p.1 / 8 = coreKey s.curCoreId → ∀ st ∈ [Stream.a, .x, .c], (p.2.st st).on ≠ some (.well 2)) ∧
     (⟨0, 0, 1⟩ : HartId) ≠ t.curHart ∧ coreOf ⟨0, 0, 1⟩ = t.curCoreId ∧ ((t.hart ⟨0, 0, 1⟩).task.isSome = true ∧ (t.hart ⟨0, 0, 1⟩).halted = false ∧
       ((t.hart ⟨0, 0, 1⟩).st .x).wait.isSome = true ∧ ((t.hart ⟨0, 0, 1⟩).st .x).on = some (.well 2))) ∧
    (let done : Copy := { some' with iter := 1 }
     iterations done.ruling = 1 ∧ resumed (mine .faulted (some done)) = mine .full none ∧ (resumed (mine .faulted (some some'))).state = .filling) ∧
    (let s := wellS (mine .faulted (some { some' with frozen := true })); (s.curCore.well 2).state = .faulted ∧ ((s.curCore.well 2).copy.map Copy.frozen).getD false ≠ false) ∧
    (let s : State := { wellS (mine .filling none) with harts := [(0, { hart0 with c := [(0, 2), (1, 2)], binds := [(3, some {})], ruling := { levels := [(0, ⟨8, 32, 32⟩)] } })] }
     c0ok s ∧ (s.getR 1).toNat = 2 ∧ 8 * 2 ^ ((s.cur.getC 0).extractLsb' 0 4).toNat * (List.range 6).foldl (fun n l => n * (tget {} s.cur.ruling.levels l : Level).n) 1 % (s.regBits / 8) = 0 ∧
      (∃ b ∈ s.cur.bindings, b.1 ≤ 3 ∧ 3 < b.1 + b.2.grp.size) ∧ (s.curCore.well 2).owner = some s.cur.taskNo) := by
  refine ⟨by decide, by decide, by decide, by decide, by decide +kernel, by decide +kernel, by decide, by decide +kernel, by decide +kernel, by decide, by decide +kernel⟩

/-- WellInstructions, who may not: a WWAIT by a stranger and one that waits already; a COPY on a well of another task, one not filling and one
with a copy; a COPYQ with 16 copies, with each operand at fault, and on such wells. -/
theorem witness_WellRefusals :
    let good (s : State) : Prop := (s.cur.getC 0).extractLsb' 20 44 = 0 ∧ (s.cur.getC 0).extractLsb' 12 4 = 0 ∧ ((s.cur.getC 0).extractLsb' 0 4).toNat ≤ 9 ∧
      (s.getR 1).toNat < 64 ∧ unitBytes (s.cur.getC 0) * iterations s.cur.ruling % (s.regBits / 8) = 0 ∧
      (s.cur.quire.isSome = true ∨ ∃ b ∈ s.cur.bindings, b.1 ≤ 3 ∧ 3 < b.1 + b.2.grp.size)
    let mine (s : State) : Prop := (s.curCore.well 2).owner = some s.cur.taskNo ∧ (s.curCore.well 2).state = .filling ∧ (s.curCore.well 2).copy = none
    let ruled : Hart := { hart0 with c := [(0, 2), (1, 2)], binds := [(3, some {})], ruling := { levels := [(0, ⟨8, 32, 32⟩)] } }
    let waits (st : WellState) : State := { wellS ⟨st, none, none⟩ with harts := [(0, { hart0 with sc := { stat := .running, wait := some ⟨5⟩ } })] }
    (∃ o : HT16H, o.handle.val = 2 ∧ o.state = .full ∧ (wellS ⟨.full, some 9, none⟩).curSt.wait = none ∧ ¬ ((wellS ⟨.full, some 9, none⟩).curCore.well 2).state = .free) ∧
    (∀ st ∈ [WellState.free, .filling], ((waits st).curCore.well 2).owner ≠ some (waits st).cur.taskNo ∧ (waits st).curSt.wait.isSome = true ∧
      ((waits st).curCore.well 2).state = st ∧ (waits st).cur.waitlim ≠ 0) ∧
    (∀ w ∈ [⟨.filling, some 9, none⟩, ⟨.full, some 1, none⟩, ⟨.filling, some 1, some { ctl := 0, ruling := {} }⟩], ¬ mine (wellS w) ∧
      ¬ mine { wellS w with harts := [(0, ruled)] } ∧ good { wellS w with harts := [(0, ruled)] }) ∧
    (let s : State := { fullS ⟨.filling, some 1, none⟩ with harts := [(0, ruled)] }
     good s ∧ mine s ∧ 16 ≤ (s.curCore.wells.filter fun x => x.2.copy.isSome).length ∧ s.cur.waitlim ≠ 0) ∧
    ∀ x ∈ [{ ruled with c := [(0, 10), (1, 2)] }, { ruled with c := [(0, 2), (1, 64)] }, { ruled with ruling := {} }, { ruled with binds := [] }],
      ¬ good { wellS ⟨.filling, some 1, none⟩ with harts := [(0, x)] } := by
  refine ⟨⟨⟨2, .full, 0⟩, rfl, rfl, by decide, by decide⟩, by decide, by decide +kernel, by decide +kernel, by decide +kernel⟩

theorem witness_QuireMembership :
    let member := onA { hart0 with quire := some (4, 0) }
    let decided := onA { hart0 with quire := some (4, 0), joining := some ⟨4, 2, 128, some 0⟩ }
    let due : State := { member with cores := [(0, { wells := [(2, ⟨.filling, some 1, some { ctl := 0, ruling := {}, dest := some 3, width := 8, members := [1] }⟩)] })] }
    (member.cur.joining = none ∧ member.cur.quire.isSome = true) ∧ decided.cur.joining = some ⟨4, 2, 128, some 0⟩ ∧ base.cur.quire = none ∧
    (due.cur.quire = some (4, 0) ∧ due.deliveryDue due.curHart.die due.cur.taskNo = true ∧ due.cur.waitlim ≠ 0) ∧
    member.deliveryDue member.curHart.die member.cur.taskNo = false := by
  refine ⟨by decide, by decide, by decide, by decide +kernel, by decide⟩

/-- A hart of core 0 whose A1 and A2 name quire 4 and a word, and a hart of core 1. -/
def joinS (word : BitVec 64) (y : Hart) : State := { base with harts := [(0, { hart0 with a := [(1, 4), (2, word)] }), (8, y)] }
/-- The hart of core 1 as a joiner of quire 4, of another task. -/
def joiner (asid : BitVec 16) (n : Nat) (vl : BitVec 13) : Hart := { hart0 with task := some ⟨2, asid, 0, 0, 0, false⟩, joining := some ⟨4, n, vl, none⟩ }

theorem joiners (word : BitVec 64) (y : Hart) (m j : Joining) (ht : y.task.isSome = true) (hh : y.halted = false) (hj : y.joining = some j) (hr : j.result = none) (h : HartId) (i : Joining) :
    (h, i) ∈ [((joinS word y).curHart, m), (⟨0, 1, 0⟩, j)] ↔
      (h = (joinS word y).curHart ∧ i = m) ∨ (h ≠ (joinS word y).curHart ∧ Joins (joinS word y) 0 j.quire h i) := by
  have other : (joinS word y).hart ⟨0, 1, 0⟩ = y := rfl
  constructor
  · intro hm
    simp only [List.mem_cons, Prod.mk.injEq, List.not_mem_nil, or_false] at hm
    rcases hm with ⟨rfl, rfl⟩ | ⟨rfl, rfl⟩
    · exact .inl ⟨rfl, rfl⟩
    · exact .inr ⟨by show (⟨0, 1, 0⟩ : HartId) ≠ ⟨0, 0, 0⟩; decide, rfl, by rw [other]; exact ht, by rw [other]; exact hh, by rw [other]; exact hj, rfl, hr⟩
  · rintro (⟨rfl, rfl⟩ | ⟨hne, _, task, _, joins, _, _⟩)
    · simp
    · have at1 : h = ⟨0, 1, 0⟩ := by
        by_contra hc
        have k0 : hartKey h ≠ 0 := fun e => hne (hartKey_inj h ⟨0, 0, 0⟩ (e.trans rfl))
        have k8 : hartKey h ≠ 8 := fun e => hc (hartKey_inj h ⟨0, 1, 0⟩ (e.trans rfl))
        have none' : (joinS word y).hart h = {} := by
          show tget {} [(0, _), (8, y)] (hartKey h) = {}
          simp [tget, Ne.symm k0, Ne.symm k8]
        rw [none'] at task
        cases task
      subst at1
      rw [other, hj] at joins
      simp [Option.some.inj joins.symm]

theorem joined_listed (word : BitVec 64) (y : Hart) : HartsListed (joinS word y) := ⟨by simp [joinS], by simp [joinS]⟩
theorem joined_waitlim (word : BitVec 64) (y : Hart) : (joinS word y).cur.waitlim ≠ 0 := by show hart0.waitlim ≠ 0; decide

/-- QuireMembership, the joining: two harts that agree, two that do not, one too few, a quire that still has members, another address space, reserved operands. -/
theorem witness_QuireForming :
    let agreed : BitVec 64 := 0x800002
    let mine (n : Nat) : Joining := ⟨4, n, 128, none⟩
    let ok (s : State) (b : BitVec 64) : Prop := (s.getR 1).toNat = 4 ∧ s.getR 2 = b ∧ b.extractLsb' 5 11 = 0 ∧ b.extractLsb' 32 32 = 0 ∧ 2 ≤ (b.extractLsb' 0 5).toNat ∧
      (b.extractLsb' 0 5).toNat ≤ 16 ∧ BitVec.ofNat 13 (min (b.extractLsb' 16 16).toNat 4096) = 128 ∧ s.cur.task.isSome = true ∧ s.cur.halted = false ∧ s.cur.quire = none ∧
      s.cur.joining = none ∧ HartsListed s ∧ s.cur.waitlim ≠ 0
    (∀ vl ∈ [(128 : BitVec 13), 64], let s := joinS agreed (joiner 1 2 vl)
      let js : List (HartId × Joining) := [(s.curHart, mine 2), (⟨0, 1, 0⟩, ⟨4, 2, vl, none⟩)]
      ok s agreed ∧ js.Pairwise (fun x y => x.1.core < y.1.core) ∧ (∀ h j, (h, j) ∈ js ↔ (h = s.curHart ∧ j = mine 2) ∨ (h ≠ s.curHart ∧ Joins s s.curHart.die 4 h j)) ∧
        (∀ p ∈ js, (s.hart p.1).asid = s.cur.asid) ∧ (tget {} (s.die s.curHart.die).quires 4 : Quire).members = [] ∧ (∀ p ∈ js, js.length ≤ p.2.n) ∧
        (∀ p ∈ js, (s.core (coreOf p.1)).harts = s.curCore.harts)) ∧
    (let s := joinS 0x800003 (joiner 1 3 128)
     let js : List (HartId × Joining) := [(s.curHart, mine 3), (⟨0, 1, 0⟩, ⟨4, 3, 128, none⟩)]
     ok s 0x800003 ∧ ∀ p ∈ js, js.length < p.2.n) ∧
    (let s : State := { joinS agreed (joiner 1 2 128) with dies := [(0, { quires := [(4, ⟨[7]⟩)] })] }
     ok s agreed ∧ (tget {} (s.die s.curHart.die).quires 4 : Quire).members ≠ []) ∧
    (let s := joinS agreed (joiner 2 2 128)
     ok s agreed ∧ ∃ h j, h ≠ s.curHart ∧ Joins s s.curHart.die 4 h j ∧ (s.hart h).asid ≠ s.cur.asid) ∧
    ∀ b ∈ [(1 : BitVec 64), 17, 34, 0x100000002], b.extractLsb' 5 11 ≠ 0 ∨ b.extractLsb' 32 32 ≠ 0 ∨ (b.extractLsb' 0 5).toNat < 2 ∨ 16 < (b.extractLsb' 0 5).toNat := by
  have word (b : BitVec 64) (y : Hart) (h : b.extractLsb' 5 11 = 0 ∧ b.extractLsb' 32 32 = 0 ∧ 2 ≤ (b.extractLsb' 0 5).toNat ∧ (b.extractLsb' 0 5).toNat ≤ 16 ∧
      BitVec.ofNat 13 (min (b.extractLsb' 16 16).toNat 4096) = 128) : ((joinS b y).getR 1).toNat = 4 ∧ (joinS b y).getR 2 = b ∧ b.extractLsb' 5 11 = 0 ∧ b.extractLsb' 32 32 = 0 ∧
        2 ≤ (b.extractLsb' 0 5).toNat ∧ (b.extractLsb' 0 5).toNat ≤ 16 ∧ BitVec.ofNat 13 (min (b.extractLsb' 16 16).toNat 4096) = 128 ∧ (joinS b y).cur.task.isSome = true ∧
        (joinS b y).cur.halted = false ∧ (joinS b y).cur.quire = none ∧ (joinS b y).cur.joining = none ∧ HartsListed (joinS b y) ∧ (joinS b y).cur.waitlim ≠ 0 :=
    ⟨rfl, rfl, h.1, h.2.1, h.2.2.1, h.2.2.2.1, h.2.2.2.2, rfl, rfl, rfl, rfl, joined_listed _ _, joined_waitlim _ _⟩
  refine ⟨fun vl hv => ⟨word _ _ (by decide), ?_, fun h j => joiners _ _ _ _ rfl rfl rfl rfl h j, ?_, rfl, ?_, ?_⟩, ⟨word _ _ (by decide), ?_⟩, ⟨word _ _ (by decide), ?_⟩,
    ⟨word _ _ (by decide), ⟨0, 1, 0⟩, ⟨4, 2, 128, none⟩, ?_, ?_, ?_⟩, ?_⟩
  · exact .cons (fun p hp => by rw [List.mem_singleton.1 hp]; show (0 : Fin 96) < 1; decide) (.cons (fun _ h => nomatch h) .nil)
  · intro p hp
    simp only [List.mem_cons, List.not_mem_nil, or_false] at hp
    rcases hp with rfl | rfl <;> rfl
  · intro p hp
    simp only [List.mem_cons, List.not_mem_nil, or_false] at hp
    rcases hp with rfl | rfl <;> exact Nat.le_refl 2
  · intro p hp
    simp only [List.mem_cons, List.not_mem_nil, or_false] at hp
    rcases hp with rfl | rfl <;> rfl
  · intro p hp
    simp only [List.mem_cons, List.not_mem_nil, or_false] at hp
    rcases hp with rfl | rfl <;> exact Nat.lt_succ_self 2
  · show [7] ≠ []; simp
  · show (⟨0, 1, 0⟩ : HartId) ≠ ⟨0, 0, 0⟩; decide
  · exact ⟨rfl, rfl, rfl, rfl, rfl, rfl⟩
  · show (2 : BitVec 16) ≠ 1; decide
  · intro b hb
    simp only [List.mem_cons, List.not_mem_nil, or_false] at hb
    rcases hb with rfl | rfl | rfl | rfl <;> simp

/-- Barrier 5 of core 0 for address space 1, with the words that its operations use. -/
def barS (b : Barrier) (x : Hart) : State := { onA x with hub := { base.hub with barriers := [(5, b)] } }
def barOp (r : Fin 32) : HT16S := ⟨.co, 5, r⟩
def barrier1 : Barrier := { asid := 1, en := true, phase := 7, memb := 2 }
def barX : Hart := { hart0 with a := [(1, 3), (2, 0x8000000000000003), (3, 0xC000000000000000), (4, 0x100000000), (5, 6), (6, 7)] }

theorem witness_BarrierInstructions :
    let s := barS barrier1 barX
    let w (r : Fin 32) : BitVec 64 := s.getR r
    let passed (x p : BitVec 32) : Prop := 1 ≤ (x - p).toNat ∧ (x - p).toNat ≤ 2 ^ 31
    let one := barS { barrier1 with memb := 1 } barX
    let waiting := barS { barrier1 with phase := 8 } { barX with sa := { stat := .running, wait := some ⟨5⟩, bar := some ⟨0, 5, 7, true⟩ } }
    networkOf s.curHart .co = some 0 ∧ (barS {} hart0).barrier 0 5 = {} ∧ ((barS { en := true, asid := 2 } hart0).barrier 0 5).asid ≠ (barS {} hart0).cur.asid ∧
    (s.barrier 0 5).en = true ∧ (s.barrier 0 5).asid = s.cur.asid ∧
    ((w 1).extractLsb' 48 14 = 0 ∧ (w 1).extractLsb' 62 2 = 0 ∧ (w 2).extractLsb' 62 2 = 2 ∧ (w 2).extractLsb' 16 32 = 0) ∧ (w 3).extractLsb' 62 2 = 3 ∧
    (w 4).extractLsb' 32 32 ≠ 0 ∧ ((w 5).extractLsb' 32 32 = 0 ∧ passed (s.barrier 0 5).phase ((w 5).truncate 32)) ∧
    ((w 6).extractLsb' 32 32 = 0 ∧ ¬ passed (s.barrier 0 5).phase ((w 6).truncate 32) ∧ s.cur.waitlim ≠ 0 ∧ s.curSt.wait = none) ∧ s.curSt.bar = none ∧
    (checked { s.barrier 0 5 with arr := (s.barrier 0 5).arr + 1 }).phase = (s.barrier 0 5).phase ∧
    (checked { one.barrier 0 5 with arr := (one.barrier 0 5).arr + 1 }).phase ≠ (one.barrier 0 5).phase ∧
    (waiting.curSt.bar = some ⟨0, 5, 7, true⟩ ∧ passed (waiting.barrier 0 5).phase 7) ∧
    (let late := { waiting with hub := { waiting.hub with barriers := [(5, { barrier1 with phase := 7 })] } }
     late.curSt.bar = some ⟨0, 5, 7, true⟩ ∧ ¬ passed (late.barrier 0 5).phase 7) ∧ ((barS { barrier1 with en := false } hart0).barrier 0 5).en = false ∧
    (s.oneCycle = false ∧ ({ s with oneCycle := true } : State).oneCycle = true) ∧
    (let pod : State := { s with hub := { s.hub with barriers := [(32 * 485 + 5, { barrier1 with root := 3 })] } }
     networkOf pod.curHart .pd = some 485 ∧ (pod.barrier 485 5).root ≠ pod.podIndex ∧ ((pod.barrier 485 5).en = true ∧ (pod.barrier 485 5).asid = pod.cur.asid)) := by
  decide +kernel

/-- A region at offset 0x1000 with one dirty and one clean line. -/
def region1 : StashRegion := ⟨0x1000, 0x21000, 1, 1, [(0, some { pa := 0x21000, dirty := (true, false), level := 0 }), (1, some { pa := 0x21040, dirty := (false, false), level := 0 })]⟩
def stashS (l : List StashRegion) (off va : BitVec 64) : State := { onA { hart0 with a := [(1, off), (2, va)] } with cores := [(0, { stash := l })] }

theorem witness_StashInstructions :
    let good (s : State) : Prop := (s.getR 1).toNat % 4096 = 0 ∧ (s.getR 1).toNat < 0x80000
    let fresh := stashS [] 0x1000 0x20000
    let plain := stashS [] 0x1000 0x10000
    let there := stashS [region1] 0x1000 0x20000
    let full := stashS ((List.range 64).map fun k => ⟨4096 * (k + 2), BitVec.ofNat 64 (0x100000 + 4096 * k), 1, 1, []⟩) 0x1000 0x20000
    ¬ good (stashS [] 0x1008 0) ∧ good fresh ∧ isCanonical (fresh.getR 2) ∧ (fresh.getR 2).toNat % 4096 = 0 ∧ (∃ r ∈ there.curCore.stash, r.offset = 0x1000) ∧
    fresh.curCore.stash = [] ∧ full.curCore.stash.length = 64 ∧ (∀ r ∈ full.curCore.stash, r.offset ≠ 0x1000 ∧ r.va ≠ 0x20000) ∧
    (Steady (translateCur (fresh.getR 2) .read) fresh ⟨0x20000, leaf2, 0, 0⟩ ∧ leaf2.getLsbD 54 = true ∧ entTier leaf2 = 0) ∧
    (Steady (translateCur (plain.getR 2) .read) plain ⟨0x10000, leaf1, 0, 0⟩ ∧ leaf1.getLsbD 54 = false) ∧
    (region1 ∈ there.curCore.stash ∧ ∀ q ∈ there.curCore.stash, q.offset = 0x1000 → q = region1) := by
  refine ⟨by decide, by decide, canonical_of (by decide), by decide, ⟨region1, by decide, rfl⟩, rfl, by decide, by decide +kernel,
    ⟨steady_of_gives (by decide +kernel), by decide, by decide⟩, ⟨steady_of_gives (by decide +kernel), by decide⟩, by decide, by decide⟩

/-- An arena of 2 GiB at 0 for address space 1 with one free folio of order 1 at offset 0x20000 in the list of order 1. -/
def folioS (a b : BitVec 64) : State :=
  { onA { hart0 with a := [(1, a), (2, b)] } with
    dies := [(0, { tlb := [⟨1, 1, 0, leaf1⟩, ⟨1, 2, 0, leaf2⟩], fpEn := true, fpAsid := 1, fpSize := 1, free := [(1, [0x20000])] })] }
def liveS (b : BitVec 64) : State := withMem (folioS 0x10100 b) 0x10100 320 kvImage
def liveDesc1 : Desc := descOf kvImage

theorem witness_FolioInstructions :
    let own (s : State) : Die := s.die s.curHart.die
    (15 < ((folioS 16 0).getR 1).toNat ∧ 17 < ((folioS 18 0).getR 1).toNat ∧ ((folioS 16 0).getR 1).toNat ≤ 17 ∧ 15 < ((folioS 0 16).getR 2).toNat) ∧
    (own base).fpEn = false ∧ (own { folioS 0 0 with dies := [(0, { fpEn := true, fpAsid := 2 })] }).fpAsid ≠ base.cur.asid ∧
    (let s := folioS 0 0; (own s).fpEn = true ∧ (own s).fpAsid = s.cur.asid ∧ 2 ^ (s.getR 1).toNat + (own s).fpReserve.toNat ≤ (own s).freeUnits ∧
      ∃ f d, (own s).popFolio (s.getR 1).toNat = some (f, d)) ∧
    (let s := folioS 2 0; (own s).freeUnits < 2 ^ (s.getR 1).toNat + (own s).fpReserve.toNat) ∧
    (folioS 0x80000000 0).arenaOf 1 0x80000000 = none ∧
    (let s := folioS 0x10000 0; s.arenaOf s.cur.asid (s.getR 1) = some 0 ∧ (s.die 0).fpAsid = s.cur.asid ∧ (s.die 0).folioOk (s.getR 1) (s.getR 2).toNat = true) ∧
    (let s := folioS 0x20000 0; s.arenaOf s.cur.asid (s.getR 1) = some 0 ∧ (s.die 0).folioOk (s.getR 1) (s.getR 2).toNat = false) ∧
    (let s : State := { folioS 0x20000 0 with dies := [(0, { fpEn := true, fpAsid := 2, fpSize := 1 })] }
     s.arenaOf s.cur.asid (s.getR 1) = some 0 ∧ (s.die 0).fpAsid ≠ s.cur.asid) ∧
    (let s := liveS 0
     isCanonical (s.getR 1) ∧ (s.getR 1).toNat % 64 = 0 ∧ Steady (readBlockCur (s.getR 1) 320) s (leBytes 320 kvImage) ∧ descCode (leNat (leBytes 320 kvImage)) = 0 ∧
      ∃ s1, Runs (writeBlockCur (s.getR 1) (leBytes 320 (leNat (leBytes 320 kvImage) ||| 2 ^ 63))) s () s1) ∧
    (let s := folioS 0x10100 0x10200
     Steady (readBlockCur (s.getR 2) 320) s (List.replicate 320 0) ∧ descCode (leNat (List.replicate 320 0)) ≠ 0) ∧
    (let s : State := { folioS 1 0 with dies := [(0, { fpEn := true, fpAsid := 1, fpSize := 1, free := [(0, [0, 0x20000])] })] }
     (own s).fpEn = true ∧ (own s).fpAsid = s.cur.asid ∧ 2 ^ (s.getR 1).toNat + (own s).fpReserve.toNat ≤ (own s).freeUnits ∧ (own s).popFolio (s.getR 1).toNat = none ∧
      Ascending (own s) ∧ ∃ d, FreeAt (own s) 0 d) := by
  refine ⟨by decide, by decide, by decide, ⟨by decide, by decide, by decide, ⟨0x20000, _, rfl⟩⟩, by decide, by decide, by decide, by decide, by decide,
    ⟨canonical_of (by decide), by decide, steady_of_gives (by decide +kernel), by decide +kernel,
      ⟨(writeBlockCur 0x10100 (leBytes 320 (leNat (leBytes 320 kvImage) ||| 2 ^ 63)) (liveS 0)).2, ?_⟩⟩, ⟨steady_of_gives (by decide +kernel), by decide +kernel⟩,
    ⟨rfl, rfl, by decide, by decide, fun k => ?_, ⟨0, by show 0 ∈ [0, 0x20000]; simp⟩⟩⟩
  · exact runs_of_gives (by decide +kernel)
  · show (tget [] [(0, [0, 0x20000])] k : List Nat).Pairwise (· ≤ ·)
    by_cases e : 0 = k
    · subst e; simp [tget]
    · simp [tget, e]

/-- The descriptor with an extent from the pool, and one with sixteen extents that are full. -/
def poolImage : Nat := kvImage - 0x11000 * 2 ^ 512 + 0x10010 * 2 ^ 512
def fullImage : Nat :=
  16 + 16 * 2 ^ 32 + 2 ^ 63 + 64 * 2 ^ 64 + 64 * 2 ^ 96 + (List.range 16).foldl (fun v i => v + (0x11000 + 2 ^ 64 + 64 * 2 ^ 96) * 2 ^ (512 + 128 * i)) 0

/-- The descriptor with three of its four rows: KVXL, KVAPP, KVTRUNC to three, and to none, where the extent is not the pool's, and where
it is; the full one. -/
theorem witness_KvDescriptors :
    let img := kvImage - 1
    let d := descOf img
    let s (b : BitVec 64) : State := withMem (folioS 0x10100 b) 0x10100 320 img
    let out := (rowOut 0 64 0x110C0 (s 0)).2
    Steady (liveDesc 0x10100) (s 0) d ∧ d.len < 2 ^ 32 - 1 ∧ d.len ≠ capOf d.exts ∧ rowAddr d.exts d.len = some 0x110C0 ∧ d.rowb ≤ 0x80000 ∧
    Runs (rowOut 0 64 0x110C0) (s 0) () out ∧
    Runs (writeBlockCur 0x10100 (leBytes 8 { d with len := d.len + 1 }.dword0)) out () (writeBlockCur 0x10100 (leBytes 8 { d with len := d.len + 1 }.dword0) out).2 ∧
    d.len ≤ ((s 3).getR 2).toNat ∧ ((s 0).getR 2).toNat < d.len ∧
    (extentsFrom 0 0 d.exts).filter Extent.pool = [] ∧
    Runs (writeBlockCur 0x10100 (leBytes 8 { d with len := 0, cnt := d.cnt - (extentsFrom 0 0 d.exts).length }.dword0)) (s 0) ()
      (writeBlockCur 0x10100 (leBytes 8 { d with len := 0, cnt := d.cnt - (extentsFrom 0 0 d.exts).length }.dword0) (s 0)).2 ∧
    (let p := descOf poolImage
     let s : State := withMem (folioS 0x10100 0) 0x10100 320 poolImage
     Steady (liveDesc 0x10100) s p ∧ 0 < p.len ∧ ((extentsFrom 0 0 p.exts).filter Extent.pool).map (fun e => (e.base, e.ord)) = [(0x10000, 0)] ∧
      ∀ e ∈ (extentsFrom 0 0 p.exts).filter Extent.pool, s.arenaOf s.cur.asid e.base = some 0 ∧ (s.die 0).fpAsid = s.cur.asid ∧
        (s.die 0).folioOk e.base e.ord.toNat = true) ∧
    (let p := descOf fullImage
     Steady (liveDesc 0x10100) (withMem (folioS 0x10100 0) 0x10100 320 fullImage) p ∧ p.len < 2 ^ 32 - 1 ∧ p.len = capOf p.exts ∧ p.cnt = 16) := by
  refine ⟨steady_of_gives (by decide +kernel), by decide +kernel, by decide +kernel, by decide +kernel, by decide +kernel, runs_of_gives (by decide +kernel),
    runs_of_gives (by decide +kernel), by decide +kernel, by decide +kernel, by decide +kernel, runs_of_gives (by decide +kernel),
    ⟨steady_of_gives (by decide +kernel), by decide +kernel, by decide +kernel, by decide +kernel⟩, steady_of_gives (by decide +kernel), by decide +kernel,
    by decide +kernel, by decide +kernel⟩

/-- Stage queue 3 of pipeline 0 between stages 0 and 1; the hart runs stage `st`. -/
def queueS (st : Nat) (prod cons depth : Nat) (l : List (BitVec 128)) (a b : BitVec 64) : State :=
  { onA { hart0 with task := some ⟨1, 1, 0, st, 0, false⟩, a := [(1, a), (2, 5), (3, b)] } with
    hub := { base.hub with pipes := [(0, { qbase := 0x20000, queues := [⟨4, 0, 0, [], 0⟩, ⟨4, 0, 0, [], 0⟩, ⟨4, 0, 0, [], 0⟩, ⟨depth, cons, prod, l, 9⟩] })] } }

/-- A vocabulary header of one token, all of whose tables are the zero bytes after it (Table 5.5), with a grant to install it. -/
def vocabHeader : Nat := 0x56434F42 + 1 * 2 ^ 32 + 1 * 2 ^ 112 + (List.range 5).foldl (fun v i => v + 64 * 2 ^ (128 + 32 * i)) 0
def vocS (id va header voc : Nat) : State :=
  withMem { onA { hart0 with a := [(1, BitVec.ofNat 64 id), (2, BitVec.ofNat 64 va)] } with mem := [(32, 1), (48, BitVec.ofNat 8 voc)] } 0x10000 64 header

def zeroVocab : Vocab := vocabOf vocabHeader (List.replicate 256 0) (List.replicate 32 0) (List.replicate 1024 0) [] (List.replicate 32 0)
def badVocab : Vocab :=
  vocabOf vocabHeader (16 :: List.replicate 255 0) (16 :: List.replicate 31 0) (16 :: List.replicate 1023 0) [] (16 :: List.replicate 31 0)

theorem witness_StageQueuesAndVocabularies :
    (let s := queueS 1 0 1 4 [7] 3 0
     (s.getR 1).toNat = 3 ∧ (s.hub.pipe 0).queues[3]? = some ⟨4, 1, 0, [7], 9⟩ ∧ s.cur.task = some ⟨1, 1, 0, 1, 0, false⟩ ∧ s.cur.waitlim ≠ 0 ∧ Quiet (queueS 1 1 2 4 [] 3 0)) ∧
    (∃ s : State, s.cur.task = none) ∧ 32 ≤ ((queueS 0 0 1 4 [] 32 0).getR 1).toNat ∧
    ((queueS 0 0 1 4 [] 3 0).hub.pipe 0).queues[3]? = some ⟨4, 1, 0, [], 9⟩ ∧
    (∀ st, st ∈ [0, 1] → (queueS st 0 1 4 [] 3 0).cur.task = some ⟨1, 1, 0, st, 0, false⟩) ∧
    (let s := queueS 0 0 1 1 [7] 3 0; (s.hub.pipe 0).queues[3]? = some ⟨1, 1, 0, [7], 9⟩ ∧ (s.getR 3).extractLsb' 50 2 = 0) ∧
    ((queueS 0 0 1 4 [] 3 0xFFFFFFFFFFFFFFFF).getR 3).extractLsb' 50 2 = 3 ∧
    (let e : AstEntry := ⟨0, true, 1⟩
     let s := vocS 3 0x10000 vocabHeader 3
     Steady (astEntry 0 0) State.reset none ∧ Steady (astEntry 1 0x10000) (vocS 3 0x10000 vocabHeader 1) (some ⟨0, false, 1⟩) ∧
      Steady (astEntry s.cur.asid 0x10000) s (some e) ∧ (vocS 3 0x50000 vocabHeader 3).getR 2 ≠ 0 ∧
      hubRead 1 0x50000 64 (vocS 3 0x50000 vocabHeader 3) = (.error (.trap { cause := Cause.notPresent, addr := 0x50000 }), vocS 3 0x50000 vocabHeader 3) ∧
      63 < ((vocS 64 0 0 3).getR 1).toNat ∧ (vocS 3 0 0 3).getR 2 = 0 ∧ ((vocS 3 8 0 3).getR 2).toNat % 64 ≠ 0 ∧ (s.getR 1).toNat ≤ 63 ∧
      Steady (hubRead s.cur.asid 0x10000 64) s (leBytes 64 vocabHeader) ∧ vocabHeaderOk (leNat (leBytes 64 vocabHeader)) = true ∧
      Steady (hubRead s.cur.asid 0x10000 64) (vocS 3 0x10000 0 3) (leBytes 64 0) ∧ vocabHeaderOk (leNat (leBytes 64 0)) = false ∧
      ∃ v, Steady (readTables s.cur.asid 0x10000 (leNat (leBytes 64 vocabHeader))) s (v, true)) := by
  have h : ∃ v, Steady (readTables 1 0x10000 (leNat (leBytes 64 vocabHeader))) (vocS 3 0x10000 vocabHeader 3) (v, true) :=
    ⟨zeroVocab, steady_of_gives (by decide +kernel)⟩
  exact ⟨⟨by decide, by decide, by decide, by decide, quiet_of (by decide)⟩, ⟨State.reset, by decide⟩, by decide, by decide, by decide, ⟨by decide, by decide⟩, by decide,
    ⟨steady_of_gives (by decide +kernel), steady_of_gives (by decide +kernel), steady_of_gives (by decide +kernel), by decide, error_of_stopsWith (by decide +kernel),
      by decide, by decide, by decide, by decide, steady_of_gives (by decide +kernel), by decide +kernel,
      steady_of_gives (by decide +kernel), by decide +kernel, h⟩⟩

/-- StageQueues, the storage: the entry and the room of a queue of four are at 0x200C0 and 0x200D0, good or in a sector that fails its check. -/
theorem witness_QueueStorage :
    let bad (s : State) : State := { s with badSectors := [0x200C0 / 32] }
    let at' (s : State) (n : Nat) : Nat := (s.hub.pipe 0).qbase.toNat + 16 * (((s.hub.pipe 0).queues.take 3).map StageQueue.depth).sum + 16 * (n % 4)
    (∀ st ∈ [0, 1], let s := queueS st 0 1 4 [7] 3 0
      at' s (9 - 1) = 0x200C0 ∧ at' s 9 = 0x200D0 ∧ Quiet s ∧ Passes s none 0x200C0 16 ∧ Passes s none 0x200D0 16 ∧ Quiet (bad s) ∧
      0x200C0 / 32 ∈ (bad s).badSectors ∧ 0x200D0 / 32 ∈ (bad s).badSectors ∧ at' (bad s) (9 - 1) % 32 ≤ 16 ∧ at' (bad s) 9 % 32 ≤ 16) := by
  intro bad at' st hs
  simp only [List.mem_cons, List.not_mem_nil, or_false] at hs
  rcases hs with rfl | rfl <;>
    exact ⟨by decide, by decide, quiet_of (by decide), passes_of (by decide), passes_of (by decide), quiet_of (by decide), by decide, by decide, by decide, by decide⟩

/-- A vocabulary whose byte map names a token that it does not have fails the limits of its tables. -/
theorem witness_VocabularyLimits :
    let s := withMem (vocS 3 0x10000 vocabHeader 3) 0x10040 1 16
    ∃ v, Steady (readTables s.cur.asid 0x10000 (leNat (leBytes 64 vocabHeader))) s (v, false) := by
  exact ⟨badVocab, steady_of_gives (by decide +kernel)⟩

/-- Ring 6 of the blotter: entries 4 to 8 appended, 4 released, and word b. -/
def ringS (r : Ring) (a b : BitVec 64) : State := { onA { hart0 with a := [(1, a), (2, b)] } with hub := { base.hub with rings := [(6, r)] } }
def ring6 : Ring := { en := true, asid := 1, rel := 4, app := 9, emit := 3 }

theorem witness_BlotterInstructions :
    let s (b : BitVec 64) := ringS ring6 6 b
    let word (b : BitVec 64) : BitVec 64 := (s b).getR 2
    let veto : Ring := { ring6 with veto := true, vp := 7 }
    let good (w : BitVec 64) : Prop := w.extractLsb' 35 29 = 0 ∧ w.extractLsb' 18 14 = 0 ∧ (w.getLsbD 34 = true → w.getLsbD 32 = true) ∧ (w.getLsbD 32 = true → w.extractLsb' 0 18 = 0)
    8192 ≤ ((ringS {} 8192 0).getR 1).toNat ∧ ((ringS {} 6 0).ring 6).en = false ∧ ((ringS { en := true, asid := 2 } 6 0).ring 6).asid ≠ (s 0).cur.asid ∧
    (((s 0).getR 1).toNat < 8192 ∧ ((s 0).ring 6) = ring6 ∧ ring6.asid = (s 0).cur.asid ∧ (s 0).cur.waitlim ≠ 0) ∧
    (good (word 5) ∧ good (word 0x200000005) ∧ ¬ good (word 0x800000000) ∧ { ring6 with closed := true }.closed = true ∧ veto.veto = true ∧ (word 5).getLsbD 33 = false ∧
      (word 0x200000005).getLsbD 33 = true ∧ 256 ≤ (({ ring6 with app := 259 } : Ring).app - ring6.emit).toNat ∧ (ring6.app - ring6.emit).toNat < 256) ∧
    ((word 0x8000000000000003).getLsbD 63 = true ∧ (word 0x8000000000000003).extractLsb' 2 61 = 0 ∧ (word 0x8000000000000004).extractLsb' 2 61 ≠ 0 ∧
      (word 0x100000000).getLsbD 63 = false ∧ (word 0x100000000).extractLsb' 32 31 ≠ 0) ∧
    (∀ n ∈ [0, 4, 5, 7, 9, 10], (word (BitVec.ofNat 64 n)).extractLsb' 32 32 = 0) ∧ (3 : Nat) < ring6.rel.toNat ∧ ring6.rel.toNat ≤ 4 ∧ 4 < ring6.app.toNat ∧ ring6.app.toNat ≤ 9 ∧
    ring6.app.toNat < 10 ∧ veto.vp.toNat < 8 ∧ veto.vp.toNat ≤ 7 ∧ 6 < veto.vp.toNat ∧ ring6.notice = false ∧ (word 0x100000000).extractLsb' 32 32 ≠ 0 := by
  decide +kernel

/-- An automaton object of one class and eight tokens at 0x10000: its one transition steps to state 0, pushes, pops or is not there. -/
def obj0 : StencilObj := ⟨1, 0x10000, 1, 1, 8, 0, 4, 64, 128, 192, [some 5]⟩
def stencilS (a b : BitVec 64) (c : StencilCtx) (e mk : Nat) : State :=
  withMem (withMem { onA { hart0 with a := [(1, a), (2, b)] } with hub := { base.hub with ctxs := [(3, c)] } } (0x10000 + 128) 8 e) (0x10000 + 192) 1 mk
def ctx3 : StencilCtx := { owner := 1, limit := 1, obj := some obj0 }

theorem witness_StencilInstructions :
    let s (b : BitVec 64) (e mk : Nat) := stencilS 3 b ctx3 e mk
    let reads (s : State) (e mk : Nat) : Prop := Steady (obj0.read (obj0.classOff + 2) 1) s 0 ∧ Steady (obj0.read (obj0.transOff + 8 * (0 * obj0.classes + 0)) 8) s e ∧
      Steady (obj0.read (obj0.maskOff + 64 * ((obj0.tokens + 511) / 512) * 0 + 2 / 8) 1) s mk
    4096 ≤ ((stencilS 4096 0 {} 0 0).getR 1).toNat ∧ ((stencilS 3 0 {} 0 0).ctx 3).owner ≠ (s 2 0 0).cur.asid ∧ ((stencilS 3 0 { owner := 1 } 0 0).ctx 3).obj = none ∧
    ((s 2 0 0).ctx 3 = ctx3 ∧ ctx3.owner = (s 2 0 0).cur.asid ∧ ctx3.obj = some obj0 ∧ (s 0 0 0).getR 2 = 0 ∧ ((s 2 0 0).getR 2).toNat = 2 ∧ (s 2 0 0).frozenOp 3 0 = none ∧
      obj0.tokens ≤ ((s 8 0 0).getR 2).toNat) ∧
    reads (s 2 0 0) 0 0 ∧ reads (s 2 (2 ^ 63) 4) (2 ^ 63) 4 ∧ reads (s 2 (2 ^ 63 + 2 ^ 24) 4) (2 ^ 63 + 2 ^ 24) 4 ∧
    reads (stencilS 3 2 { ctx3 with stack := [9] } (2 ^ 63 + 2 ^ 24) 4) (2 ^ 63 + 2 ^ 24) 4 ∧ reads (s 2 (2 ^ 63 + 2 * 2 ^ 24) 4) (2 ^ 63 + 2 * 2 ^ 24) 4 ∧
    (2 ^ 63 : Nat).testBit 63 = true ∧ (4 : Nat).testBit (2 % 8) = true ∧ min ctx3.limit.toNat 64 ≤ [9].length ∧ moved ctx3 (2 ^ 63) 1 = some ctx3 ∧
    moved ctx3 (2 ^ 63 + 2 * 2 ^ 24) 1 = none := by
  refine ⟨by decide, by decide, by decide, by decide +kernel, ?_, ?_, ?_, ?_, ?_, by decide, by decide, by decide, by decide +kernel, by decide +kernel⟩ <;>
    exact ⟨steady_of_gives (by decide +kernel), steady_of_gives (by decide +kernel), steady_of_gives (by decide +kernel)⟩

theorem witness_StencilMasks :
    let o : HT32V := ⟨4, 1, 2, false, false, 0, .g1, .n8, 0⟩
    let word (fmt : Nat) : Nat := 4 * 2 ^ 26 + 1 * 2 ^ 20 + 2 * 2 ^ 14 + fmt * 2 ^ 2
    let s (w : BitVec 64) : State := { stencilS 3 0 ctx3 0 7 with curStream := .x, harts := [(0, { hart0 with s := [(1, 3), (2, w)] })] }
    ((s 0).getR (Fin.ofNat 32 o.a.val)).toNat = 3 ∧ (s 0).ctx 3 = ctx3 ∧ ((s 0x100000000).getR (Fin.ofNat 32 o.b.val)).extractLsb' 32 32 ≠ 0 ∧
    ((s 0).getR (Fin.ofNat 32 o.b.val)).extractLsb' 32 32 = 0 ∧ decodeHead .x 0 (head 2 0x1B 8) (word 4) = some (.gmmask o) ∧
    (decodeHead .x 0 (head 2 0x1B 8) (word 0) = none ∧ decodeHead .x 3 (head 2 0x1B 8) (word 4) = none) ∧ Opens (s 0).cur [] [⟨4, 1, 8⟩] ∧ (s 0).frozenOp 3 (3 / 1024) = none ∧
    Steady (obj0.read (obj0.maskOff + 64 * (ctx3.state * ((obj0.tokens + 511) / 512) + 0)) 64) ((s 0).setCur (s 0).cur) 7 := by
  refine ⟨by decide, by decide, by decide, by decide, by decide, by decide, opens_of (by decide +kernel), by decide, steady_of_gives (by decide +kernel)⟩

/-- A WRITE of one block from 0x10000, and a FLUSH with a reserved bit (Table 28.2). -/
def flashEntry : Nat := 2 + 1 * 2 ^ 32 + 3 * 2 ^ 64 + 0x10000 * 2 ^ 128
def flashS (r : FlashRing) (a b : BitVec 64) (e : Nat) : State :=
  withMem { onA { hart0 with a := [(1, a), (2, b)] } with hub := { base.hub with flashRings := [(7, r)] } } 0x10000 64 e

theorem witness_FlashInstructions :
    let r : FlashRing := { asid := 1, en := true, nlb := 8, next := 9, tags := [8, 6], done := [(8, 0x55)] }
    let s (e : Nat) := flashS r 7 0x10000 e
    256 ≤ ((flashS r 256 0 0).getR 1).toNat ∧ ((flashS {} 7 0 0).flashRing 7).en = false ∧ ((flashS { r with asid := 2 } 7 0 0).flashRing 7).asid ≠ (s 0).cur.asid ∧
    (((s 0).getR 1).toNat = 7 ∧ (s 0).flashRing 7 = r ∧ r.asid = (s 0).cur.asid) ∧
    (((flashS r 7 0x100000000 0).getR 2).extractLsb' 32 32 ≠ 0 ∧ (5 : BitVec 32) ∉ r.tags ∧ ((flashS r 7 8 0).getR 2).extractLsb' 32 32 = 0 ∧ (8 : BitVec 32) ∈ r.tags ∧
      (∃ l, r.done = (8, 0x55) :: l) ∧ (6 : BitVec 32) ∈ r.tags ∧ ∀ p ∈ r.done, p.1 ≠ 6) ∧
    (isCanonical ((s 0).getR 2) ∧ ((s 0).getR 2).toNat % 64 = 0) ∧
    (Steady (readBlockCur 0x10000 64) (s 0) (leBytes 64 0) ∧ flashInvalid (BitVec.ofNat 512 (leNat (leBytes 64 0))) r.nlb.toNat = true) ∧
    (Steady (readBlockCur 0x10000 64) (s flashEntry) (leBytes 64 flashEntry) ∧ flashInvalid (BitVec.ofNat 512 (leNat (leBytes 64 flashEntry))) r.nlb.toNat = false ∧
      r.inflight.length < 64 ∧ ∃ full : FlashRing, full.en = true ∧ full.asid = 1 ∧ full.nlb = r.nlb ∧ 64 ≤ full.inflight.length) := by
  refine ⟨by decide +kernel, by decide +kernel, by decide +kernel, by decide +kernel, ⟨by decide +kernel, by decide +kernel, by decide +kernel, by decide +kernel, ⟨[], by decide +kernel⟩, by decide +kernel, by simp⟩, ⟨canonical_of (by decide), by decide⟩,
    ⟨steady_of_gives (by decide +kernel), by decide +kernel⟩, ⟨steady_of_gives (by decide +kernel), by decide +kernel, by decide,
      ⟨{ asid := 1, en := true, nlb := 8, inflight := List.replicate 64 ⟨1, 0, 0, 1, 0, 8, 0⟩ }, rfl, rfl, rfl, by decide +kernel⟩⟩⟩

/-! ### Steps of other agents -/

def evt (r : Request) : State := { base with req := r }
def hubS (r : Request) (h : Hub) : State := { base with req := r, hub := h }

theorem witness_ControlRegisterWrites :
    let b1 : Barrier := { asid := 1, en := true }
    let waiting : State := { base with harts := [(0, { hart0 with sx := { stat := .running, wait := some ⟨5⟩, bar := some ⟨0, 5, 0, false⟩ } })]
                                       hub := { base.hub with barriers := [(5, b1)] }, req := { network := 0, barrier := 5 } }
    let faulted (w : Well) : State := { evt { handle := 2 } with cores := [(0, { wells := [(2, w)] })] }
    let size (v : BitVec 64) : Nat := (v.extractLsb' 1 7).toNat
    (tget {} base.hub.keys 0 : KeySlot).loaded = true ∧ (tget {} base.hub.keys 1 : KeySlot).loaded = false ∧
    ((base.die 0).fpEn = false ∧ 1 ≤ size 3 ∧ size 3 ≤ 67 ∧ size 3 * 2 ^ 31 ≤ (base.die 0).popBytes.toNat ∧ size 1 = 0) ∧
    (({ base with dies := [(0, { fpEn := true })] } : State).die 0).fpEn = true ∧
    (((faulted (mine .faulted none)).core ⟨0, 0⟩).well 2).state = .faulted ∧
    ((((faulted (mine .filling (some { ctl := 0, ruling := {}, frozen := true }))).core ⟨0, 0⟩).well 2).copy.map Copy.frozen).getD false = true ∧
    (base.barrier 0 5).en = false ∧ (waiting.barrier 0 5).en = true ∧
    ((waiting.hart ⟨0, 0, 0⟩).halted = false ∧ ((waiting.hart ⟨0, 0, 0⟩).st .x).bar = some ⟨0, 5, 0, false⟩ ∧ ((waiting.hart ⟨0, 0, 0⟩).st .x).wait.isSome = true) ∧
    (base.ring 6).en = false ∧ ((ringS ring6 6 0).ring 6).en = true ∧ ring6.closed = false ∧ { ring6 with closed := true }.closed = true ∧
    ((base.flashRing 7).en = false ∧ (base.flashRing 7).inflight = [] ∧ ({ inflight := [⟨1, 0, 0, 1, 0, 8, 0⟩] } : FlashRing).inflight ≠ [] ∧ ({ en := true } : FlashRing).en = true) ∧
    ((tget {} base.hub.inv 0 : InvPort).done = true ∧ ({ done := false } : InvPort).done = false) ∧
    (base.hub.spreq.busy = false ∧ base.unitBusy 1 0 0 = true ∧ base.unitBusy 1 0 5 = false ∧ base.sparesLeft 1 0 ≠ 0 ∧ base.unitBusy 2 0 3 = false ∧
      ({ base with hub := { base.hub with spareLigature := 0 } } : State).sparesLeft 2 0 = 0) ∧
    ({ busy := true, kind := 1 } : SpareReq).busy = true ∧
    (let s : State := { base with hub := { base.hub with counters := [(0, { en := true, count := BitVec.allOnes 48 })] } }
     (s.counter (.hub 0)).en = true ∧ (s.counter (.hub 0)).count = BitVec.allOnes 48) ∧
    (let s : State := { ringS ring6 6 0 with harts := [(0, { hart0 with sa := { stat := .running, wait := some ⟨5⟩, on := some (.ring 6) } })] }
     (s.ring 6).en = true ∧ (s.hart ⟨0, 0, 0⟩).task.isSome = true ∧ (s.hart ⟨0, 0, 0⟩).halted = false ∧ ((s.hart ⟨0, 0, 0⟩).st .a).wait.isSome = true ∧
      ((s.hart ⟨0, 0, 0⟩).st .a).on = some (.ring 6)) ∧
    (let r : StashRegion := ⟨0x1000, 0x21000, 1, 1, [(0, some { pa := 0x21000, dirty := (true, false), level := 0 })]⟩
     dirtySectors r (named { asid := 1, pages := 0, done := false } r) = [(0x21000 / 32, 0x1000)] ∧
      (∀ l ∈ r.lines, ∀ x ∈ l.2, named { asid := 2, pages := 0, done := false } r l.1 x = false ∧ named { asid := 1, va := 2, pages := 1, done := false } r l.1 x = true ∧
        named { asid := 1, va := 3, pages := 1, done := false } r l.1 x = false)) ∧
    ((tget 0 base.hub.laneSpares 2 : Nat) < 4 ∧ 4 ≤ (tget 0 [(2, 4)] 2 : Nat)) ∧
    (BitVec.ofNat 64 (hubBase + 0x30000)).toNat = hubBase + 0x30000 ∧ hubReg (0 : BitVec 64).toNat = none := by decide +kernel

/-- A pipeline object of one stage at 0x10000, its code object at 0x10100 (Tables 23.1, 23.2, 20.2), and slot 3 that names it. -/
def pipeS (dies : Nat) : State :=
  let s : State := { base with hub := { base.hub with pipes := [(3, { addr := 0x10000 })] }, harts := [], req := { slot := 3, value := BitVec.ofNat 64 (2 ^ 48 + dies * 2 ^ 17) } }
  withMem (withMem (withMem s 0x10000 64 (0x4C50 + 1 * 2 ^ 16)) 0x10040 32 (1 * 2 ^ 16 + 0x10100 * 2 ^ 128)) 0x10100 32 (0x11000 + 0x12000 * 2 ^ 64 + 0x13000 * 2 ^ 128)
def stage1 : Stage := { hpc := 0, minh := 1, maxh := 0, desc := 0x10100, aent := 0x11000, xent := 0x12000, cent := 0x13000, featm := 0 }
/-- Slot 3 is active, with a full queue of stage 0. -/
def activeS (l : Tab (List LaunchRec)) (a : Tab Assign) (hs : Tab Hart) : State :=
  { base with hub := { base.hub with pipes := [(3, { asid := 1, en := true, state := 1, prio := 3, stages := [stage1], queues := [⟨4, 0, 31, [7], 1⟩] })] }
              harts := hs, dies := [(0, { launch := l, assign := a })], req := { slot := 3 } }

theorem witness_SchedulingEvents :
    (∀ d ∈ [0, 1], let s := pipeS d
      let p1 : Pipeline := { s.hub.pipe 3 with asid := 1, dies := BitVec.ofNat 4 d }
      let s1 : State := { s with hub := { s.hub with pipes := tput s.hub.pipes 3 p1 } }
      (s.hub.pipe 3).en = false ∧ (s.hub.pipe 3).state = 0 ∧ Steady (installReads p1.asid p1.addr) s1 (0x4C50 + 1 * 2 ^ 16, [stage1], []) ∧
      s1.installOk 3 { p1 with stages := [stage1], thr := 256 } = decide (d = 1)) ∧
    ((activeS [] [] []).hub.pipe 3).en = true ∧
    (let s := activeS [] [(0, { stage := some (3, 0) })] []
     let h : HartId := ⟨0, 0, 0⟩
     (s.assignOf h).stage = some (3, 0) ∧ (s.hub.pipe 3).stages[0]? = some stage1 ∧ (s.hart h).task = none ∧ (s.hub.pipe 3).state = 1 ∧
      s.coreMeets (coreOf h) (s.hub.pipe 3).asid stage1.featm stage1.hpc = true ∧ s.waitingTasks 0 3 0 < (s.hub.pipe 3).filled 0) ∧
    (let s := activeS [(3, [⟨.first 3 0, 0⟩])] [] []
     s.retirements 0 = ([], []) ∧ (∀ k ∈ [0, 1, 2], tget [] (s.die 0).launch k = []) ∧ tget [] (s.die 0).launch 3 = [⟨.first 3 0, 0⟩] ∧ s.pickFirst 0 3 0 = some ⟨0, 0, 0⟩) ∧
    (base.hub.pipes = [] ∧ (base.die 0).assign = []) ∧
    (let l : LaunchRec := ⟨.first 3 0, 2⟩
     let s := activeS [(3, [l])] ((List.range 768).map fun k => (k, { stage := some (2, 0) })) [(0, hart0)]
     tget [] (s.die 0).launch 3 = [l] ∧ 2 ≤ l.waited ∧ s.victim 0 3 l = some ⟨0, 0, 0⟩ ∧ (s.hart ⟨0, 0, 0⟩).task.isSome = true ∧ (s.hart ⟨0, 0, 0⟩).retiring = false ∧
      (s.hart ⟨0, 0, 0⟩).halted = false ∧ (s.hart ⟨0, 0, 0⟩).preempt = none) ∧
    ((0 : Nat) < (base.core ⟨0, 0⟩).numHarts ∧ (base.hart ⟨0, 0, 0⟩).task.isSome = true ∧ (base.hart ⟨0, 0, 0⟩).retiring = false ∧ (base.hart ⟨0, 0, 0⟩).halted = false) := by
  refine ⟨fun d hd => ?_, by decide, by decide +kernel, by decide +kernel, by decide, by decide +kernel, by decide⟩
  rcases List.mem_pair.1 hd with rfl | rfl
  · exact ⟨by decide, by decide, steady_of_gives (by decide +kernel), by decide +kernel⟩
  · exact ⟨by decide, by decide, steady_of_gives (by decide +kernel), by decide +kernel⟩

/-- A halted hart with a free frame slot; a frame of a task, frozen or not; a frozen engine; a hart that waits. -/
def frameOf (x : Hart) : Frame := { hart := x, id := ⟨0, 0, 0⟩, stash := [] }
def framed (f : Frame) : State := { base with harts := [], dies := [(0, { frEn := true, frNslot := 4, frames := [(0, some f)] })] }

theorem witness_SwapEvents :
    (let s : State := { onA { hart0 with halted := true } with dies := [(0, { frEn := true, frNslot := 4 })] }
     let h : HartId := ⟨0, 0, 0⟩
     (∀ p ∈ [none, some .supervisor, some .balancer], let x : Hart := { s.hart h with preempt := p }
      x.task.isSome = true ∧ x.retiring = false ∧ x.halted = true ∧ x.halt.xcause = 0 ∧ x.halt.acause = 0 ∧ x.halt.ccause = 0) ∧
      (s.die 0).freeSlot = some 0 ∧ (s.die 0).noticeFree = true ∧ (s.die 0).nqHeld = []) ∧
    (∀ q a : Bool, ∀ t : Bool, let f : Frame := { frameOf hart0 with queued := q, auto := a, retiring := t }
      ((framed f).die 0).frame 0 = some f ∧ f.hart.halt.frz = false ∧ ({ f with hart := { hart0 with halted := true, halt := { xcause := Cause.illegal } } } : Frame).hart.afterOk = true) ∧
    (let trapped := { hart0 with halted := true, halt := { xcause := Cause.illegal } }
     (∀ x ∈ [hart0, trapped, { hart0 with halt := { frz := true } }], ((framed (frameOf x)).die 0).frame 0 = some (frameOf x) ∧ (frameOf x).queued = false ∧ (frameOf x).retiring = false) ∧
     trapped.afterOk = true ∧ trapped.halt.frz = false ∧ hart0.afterOk = false ∧ hart0.binds = [] ∧ hart0.quire = none ∧ hart0.task = some ⟨1, 1, 0, 0, 0, false⟩) ∧
    (let s := framed (frameOf hart0)
     (s.hart ⟨0, 5, 0⟩).task = none ∧ (0 : Nat) < (s.core ⟨0, 5⟩).numHarts ∧ (s.core ⟨0, 5⟩).swapHeld = false ∧ (s.core ⟨0, 5⟩).harts = (s.core ⟨0, 0⟩).harts ∧ s.boundTo ⟨0, 5⟩ = [] ∧ s.cores = [] ∧
      (s.hub.pipe 0).state ≠ 2 ∧ (s.die 0).frame 1 = none) ∧
    (let r : Request := { ring := 6 }
     let s : State := { base with hub := { base.hub with frozen := [(2 * 32 + 3, some (.scribeEmit, r))] }, req := { value := 2 * 2 ^ 37 + 3 * 2 ^ 32 } }
     s.frozenOp (s.req.value.extractLsb' 37 3).toNat (s.req.value.extractLsb' 32 5).toNat = some (.scribeEmit, r) ∧ Instr.scribeEmit.encode = none) ∧
    (let s := onA { hart0 with sa := { stat := .running, wait := some ⟨5⟩ } }
     (s.hart s.req.hart).task.isSome = true ∧ (s.hart s.req.hart).halted = false ∧ ((s.hart s.req.hart).st s.req.stream).wait.isSome = true) := by
  refine ⟨by decide +kernel, fun _ _ _ => ⟨rfl, rfl, rfl⟩, ⟨fun x hx => ?_, by decide +kernel, by decide, by decide +kernel, rfl, rfl, rfl⟩, by decide +kernel, by decide +kernel, by decide +kernel⟩
  exact ⟨rfl, rfl, rfl⟩

/-- A request frame of two bytes for model 9 and vocabulary 4, its kinds and offsets, and a module that can take it (Tables 5.1, 5.2). -/
def textFrame (kind off len : Nat) : TextFrame :=
  ⟨true, BitVec.ofNat 256 (0x5446 + 2 ^ 16 + kind * 2 ^ 24 + 9 * 2 ^ 48 + 77 * 2 ^ 64 + 4 * 2 ^ 128 + len * 2 ^ 160 + off * 2 ^ 192), [0x41, 0x42]⟩
def openR : OpenRequest := { session := 77, engine := 0, slot := 3, queue := 0, model := 9, vocab := 4, version := 1, nospec := false, received := 2 }
def textS (f : TextFrame) (reqs : List OpenRequest) : State :=
  { base with hub := { base.hub with pipes := [(3, { state := 1, ing := true, model := 9, maps := some 9, queues := [⟨4, 0, 31, [], 0⟩] })], vocabs := [(4, [⟨1, 1, 0x10000⟩])], requests := reqs }
              req := { frame := f, value := 77, ring := 6 } }

theorem witness_TextFrames :
    let header (f : TextFrame) (lo n : Nat) : Nat := (f.header.extractLsb' lo n).toNat
    frameBad (textFrame 0 0 3) = true ∧ (∀ k ∈ [0, 1, 2], ∀ off ∈ [0, 2], frameBad (textFrame k off 2) = false ∧ header (textFrame k off 2) 24 8 = k ∧
      header (textFrame k off 2) 64 64 = 77 ∧ header (textFrame k off 2) 192 32 = off) ∧
    (let s := textS (textFrame 0 0 2) []
     s.hub.openOf 77 = none ∧ s.hub.ingress 9 = some (3, 0) ∧ base.hub.ingress 9 = none ∧ tget [] s.hub.vocabs 4 = [⟨1, 1, 0x10000⟩] ∧ s.hub.closedOf 77 = none) ∧
    (∀ r ∈ [openR, { openR with eot := true }, { openR with pending := [5] }], (textS (textFrame 1 2 2) [r]).hub.openOf 77 = some r ∧ r.ready = false ∧ r.cancelled = false ∧
      r.received = 2 ∧ r.engine = (textS (textFrame 1 2 2) [r]).req.engine) ∧
    ({ base.hub with closed := [⟨77, 3, 0, 0, 5, 1⟩] } : Hub).closedOf 77 = some ⟨77, 3, 0, 0, 5, 1⟩ ∧
    (let s := textS (textFrame 1 2 2) [openR]
     s.frozenOp 1 s.req.engine.val = none ∧ s.hub.cancels = [] ∧ (s.hub.pipe 3).queues[0]? = some ⟨4, 0, 31, [], 0⟩ ∧ Quiet s ∧ Passes s none ((s.hub.pipe 3).ringAddr 0 (0 % 4)) 16) ∧
    (let r : Ring := { ring6 with rel := 4, emit := 3, entries := [(3, ⟨5, false, false⟩)] }
     let s : State := { base with hub := { base.hub with rings := [(6, r)] }, req := { ring := 6 } }
     s.frozenOp 2 r.scribe.toNat = none ∧ (s.ring 6).en = true ∧ (s.ring 6).ended = false ∧ ({ r with emit := 4 } : Ring).rel.toNat ≤ 4 ∧
      Runs (emitAll 6 256 []) s ([0xEF, 0xBF, 0xBD], none) (emitAll 6 256 [] s).2) := by
  refine ⟨by decide, by decide +kernel, by decide +kernel, by decide +kernel, by decide, ⟨by decide, by decide, by decide, quiet_of (by decide), passes_of (by decide +kernel)⟩,
    by decide, by decide, by decide, by decide, runs_of_gives (by decide +kernel)⟩

/-- A render table at 0x20000 of one token whose bytes are A and the lead of a sequence of three, whose entry is w; ring 6 names it, one token released. -/
def tableRing (e : BlEntry) : Ring := { ring6 with rtab := 0x800, rel := 4, emit := 3, entries := [(3, e)] }
def tableS (e : BlEntry) (w : Nat) : State :=
  withMem (withMem { base with hub := { base.hub with rings := [(6, tableRing e)] }, req := { ring := 6 } } 0x20000 16 (0x52444E52 + 1 * 2 ^ 32 + 128 * 2 ^ 64)) 0x20040 66 (w + 0xE241 * 2 ^ 512)

/-- TextFrames, the laws of tokens, of the scribe's table and of its answer: a known token, one with a reserved bit, one past the table; the end entry;
a table that fails its check; held bytes. -/
theorem witness_TextLaws :
    let tok : BlEntry := ⟨0, false, false⟩
    let known (s : State) : Prop := valueAt s.mem 0x20000 4 = 0x52444E52 ∧ valueAt s.mem 0x20008 8 % 64 = 0 ∧ 0 < valueAt s.mem 0x20004 4
    let s := tableS tok (2 * 2 ^ 32)
    let odd := tableS tok (2 ^ 40)
    let bad : State := { s with badSectors := [0x20000 / 32] }
    (∃ v : Vocab, (∀ x ∈ v.specials, x.1 ≠ []) ∧ (v.specials.map Prod.fst).Nodup ∧ v.specials ≠ []) ∧
    (Quiet s ∧ Passes s none 0x20000 16 ∧ known s ∧ Passes s none 0x20040 8 ∧ valueAt s.mem 0x20040 8 / 2 ^ 40 = 0 ∧ valueAt s.mem 0x20040 8 / 2 ^ 32 % 256 = 2 ∧
      Passes s none (0x20000 + valueAt s.mem 0x20008 8) 2) ∧
    (Quiet odd ∧ Passes odd none 0x20000 16 ∧ known odd ∧ Passes odd none 0x20040 8 ∧ valueAt odd.mem 0x20040 8 / 2 ^ 40 ≠ 0) ∧ ¬ 1 < valueAt s.mem 0x20004 4 ∧
    ((s.ring 6).emit.toNat < (s.ring 6).rel.toNat ∧ ((s.ring 6).entry (s.ring 6).emit.toNat).fin = false ∧ (s.ring 6).held = [] ∧
      Runs (renderToken (s.ring 6) 0) s (some [0x41, 0xE2]) s ∧ [] ++ [0x41, 0xE2] = [0x41] ++ [0xE2] ∧ HeldBack [0x41, 0xE2] [0xE2] ∧
      Runs (emitAll 6 256 []) s ([0x41], none) (emitAll 6 256 [] s).2) ∧
    (∃ s1, Runs (renderToken (bad.ring 6) 0) bad none s1) ∧
    ((tableS ⟨0, true, true⟩ 0).ring 6).emit.toNat < ((tableS ⟨0, true, true⟩ 0).ring 6).rel.toNat ∧
    (((tableS ⟨0, true, true⟩ 0).ring 6).entry 3).fin = true ∧ (∃ s1, Runs (emitAll 6 256 []) (tableS ⟨0, true, true⟩ 0) ([], some 4) s1) := by
  refine ⟨⟨{ zeroVocab with specials := [([0x41], 7)] }, by simp, by simp, by simp⟩, ⟨quiet_of (by decide), passes_of (by decide +kernel), by decide +kernel, passes_of (by decide +kernel),
    by decide +kernel, by decide +kernel, passes_of (by decide +kernel)⟩, ⟨quiet_of (by decide), passes_of (by decide +kernel), by decide +kernel, passes_of (by decide +kernel), by decide +kernel⟩,
    by decide +kernel, ⟨by decide, by decide, by decide, runs_of_gives (by decide +kernel), rfl, ⟨⟨[0x41], rfl⟩, fun _ => ⟨0xE2, [], rfl, by decide, by decide, by decide, by simp, by simp⟩, ?_⟩,
      runs_of_gives (by decide +kernel)⟩, ⟨(renderToken (tableRing ⟨0, false, false⟩) 0 { tableS ⟨0, false, false⟩ (2 * 2 ^ 32) with badSectors := [0x20000 / 32] }).2, runs_of_gives (by decide +kernel)⟩,
    by decide, by decide, ⟨(emitAll 6 256 [] (tableS ⟨0, true, true⟩ 0)).2, runs_of_gives (by decide +kernel)⟩⟩
  rintro k hk ⟨lead, cont, rfl, hl, -⟩
  rcases List.suffix_cons_iff.1 hk with h | h
  · obtain ⟨rfl, -⟩ := List.cons.inj h
    exact absurd hl (by decide)
  · exact h.length_le

/-- A copy of 8 bytes from 0x10000 to the scratchpad, one that names no page, and a COPYQ with all its bytes read. -/
def copyS (src : BitVec 64) (c : Copy) : State :=
  { base with harts := [(0, { hart0 with binds := [(3, some {})] })], cores := [(0, { wells := [(2, ⟨.filling, some 1, some { c with ruling := { sb := src, db := 0 } }⟩)] })]
              req := { handle := 2 } }

theorem witness_CopyEngine :
    let id : CoreId := ⟨0, 0⟩
    let s := copyS 0x10000 { ctl := 0, ruling := {} }
    let c : Copy := { ctl := 0, ruling := { sb := 0x10000, db := 0 } }
    let bad := copyS 0x30000 { ctl := 0, ruling := {} }
    let q : Copy := { ctl := 0, ruling := { sb := 0x10000, db := 0 }, dest := some 3, width := 8, bytes := List.replicate 8 0, iter := 1, members := [1] }
    let due := copyS 0x10000 q
    (s.activeCopy id 2 = some (⟨0, 0, 0⟩, s.hart ⟨0, 0, 0⟩, ⟨.filling, some 1, some c⟩, c) ∧ c.iter < c.total ∧ c.dest = none ∧
      ∃ b s1 s2, Runs (asTask ⟨0, 0, 0⟩ (s.hart ⟨0, 0, 0⟩) (copyRead (c.ctl.getLsbD 16) (c.source c.iter) c.unit)) s b s1 ∧
        Runs (asTask ⟨0, 0, 0⟩ (s.hart ⟨0, 0, 0⟩) (copyWrite (!c.ctl.getLsbD 17) (c.target c.iter) b)) s1 () s2) ∧
    (∃ i s1, asTask ⟨0, 0, 0⟩ (bad.hart ⟨0, 0, 0⟩) (copyRead false 0x30000 8) bad = (.error (.trap i), s1) ∧ (s1.die 0).cfqHeld = [] ∧ (s1.die 0).cfqEn = false) ∧
    (let torn : State := { copyS 0x30000 { ctl := 0, ruling := {} } with badSectors := [1] }
     (torn.activeCopy id 2).isSome = true ∧ ∃ i s1, asTask ⟨0, 0, 0⟩ (torn.hart ⟨0, 0, 0⟩) (copyRead false 0x30000 8) torn = (.error (.trap i), s1) ∧ i.cause = Cause.integrity ∧
      (s1.die 0).cfqHeld = [] ∧ (s1.die 0).cfqEn = false) ∧
    (due.activeCopy id 2 = some (⟨0, 0, 0⟩, due.hart ⟨0, 0, 0⟩, ⟨.filling, some 1, some q⟩, q) ∧ (due.hart ⟨0, 0, 0⟩).taskNo ∈ q.members ∧
      tget 0 q.landed 1 < q.entries ∧ (0 + 1) * q.width ≤ q.bytes.length ∧ (due.hart ⟨0, 0, 0⟩).covering 3 = some (3, {}) ∧
      ∀ p ∈ (due.core id).wells, ∀ z ∈ p.2.copy, ¬ z.seq < q.seq) ∧
    (let late : Copy := { q with seq := 1 }
     let s : State := { copyS 0x10000 late with cores := [(0, { wells := [(2, ⟨.filling, some 1, some late⟩), (3, ⟨.filling, some 1, some q⟩)] })] }
     s.activeCopy id 2 = some (⟨0, 0, 0⟩, s.hart ⟨0, 0, 0⟩, ⟨.filling, some 1, some late⟩, late) ∧ (3, ⟨.filling, some 1, some q⟩) ∈ (s.core id).wells ∧
      q.dest = late.dest ∧ q.seq < late.seq ∧ (s.hart ⟨0, 0, 0⟩).taskNo ∈ q.members ∧ tget 0 q.landed 1 < q.entries) ∧
    (let d : Die := { cfqHeld := [5], cfqEn := true }
     d.cfqEn = true ∧ (d.cfqHead - d.cfqTail).toNat ≠ 1023 ∧ Quiet { base with dies := [(0, d)] }) := by
  refine ⟨⟨by decide +kernel, by decide, rfl, ?_⟩, ?_, ⟨by decide, ?_⟩, by decide +kernel, by decide +kernel, by decide, by decide, quiet_of (by decide)⟩
  · let s := copyS 0x10000 { ctl := 0, ruling := {} }
    let m := asTask ⟨0, 0, 0⟩ (s.hart ⟨0, 0, 0⟩) (copyRead false 0x10000 8)
    let b : Moved := List.replicate 8 (0, false)
    have h1 : Runs m s b (m s).2 := runs_of_gives (by decide +kernel)
    have h2 : Runs (asTask ⟨0, 0, 0⟩ (s.hart ⟨0, 0, 0⟩) (copyWrite true 0 b)) (m s).2 () (asTask ⟨0, 0, 0⟩ (s.hart ⟨0, 0, 0⟩) (copyWrite true 0 b) (m s).2).2 :=
      runs_of_gives (by decide +kernel)
    exact ⟨b, _, _, h1, h2⟩
  · let s := copyS 0x30000 { ctl := 0, ruling := {} }
    let m := asTask ⟨0, 0, 0⟩ (s.hart ⟨0, 0, 0⟩) (copyRead false 0x30000 8)
    have h : (match m s with | (.error (.trap i), t) => decide (i = { cause := Cause.notPresent, addr := 0x30000 }) && (t.die 0).cfqHeld.isEmpty && !(t.die 0).cfqEn | _ => false) = true := by
      decide +kernel
    split at h
    · rename_i i t e
      simp only [Bool.and_eq_true, List.isEmpty_iff, Bool.not_eq_true'] at h
      exact ⟨i, t, e, h.1.2, h.2⟩
    · cases h
  · let s : State := { copyS 0x30000 { ctl := 0, ruling := {} } with badSectors := [1] }
    let m := asTask ⟨0, 0, 0⟩ (s.hart ⟨0, 0, 0⟩) (copyRead false 0x30000 8)
    have h : (match m s with | (.error (.trap i), t) => i.cause == Cause.integrity && (t.die 0).cfqHeld.isEmpty && !(t.die 0).cfqEn | _ => false) = true := by decide +kernel
    split at h
    · rename_i i t e
      simp only [Bool.and_eq_true, List.isEmpty_iff, Bool.not_eq_true', beq_iff_eq] at h
      exact ⟨i, t, e, h.1.1, h.1.2, h.2⟩
    · cases h

/-- A sequence of 64-byte rows at 0x10000 and one requested row; a walk to the leaf of page 3; a mailbox request; a promotion. -/
def walkS : State :=
  let s : State := { mem := [], hub := { astEn := true, keys := [(0, { loaded := true })] }, cores := [(0, { shadow := some ⟨[], 0, 0, 1⟩, wells := [(2, {})] })] }
  withMem (withMem (withMem (withMem (withMem s 32 32 (1 + 2 ^ 128 + 0xC00 * 2 ^ 198)) 0x30000 8 0x40001) 0x40000 8 0x50001) 0x50000 8 0x60001) 0x60018 8 0x3007F
def promotion1 : Promotion := ⟨1, 0x30000, 0x3007F, 0x70000, 2, ⟨0, 0⟩, 2, 0x80000, 5, 0x90000⟩

/-- A kind-2 binding of three slices whose positions lie in one extent of four rows. -/
def slices : Binding :=
  { kind := 2, fmt := .i32, count := 3, base := 0x10100, slice := 8, len := 4, extents := [⟨0x11000, 4, 64, false, 0⟩], total := 1 }

theorem witness_FillEngines :
    (let b : Binding := { kind := 1, fmt := .i32, count := 5, base := 0x10000, estr := 4, total := 5 }
     let s : State := { base with harts := [(0, { hart0 with binds := [(3, some b)] })], req := { reg := 3 } }
     (s.hart ⟨0, 0, 0⟩).bind 3 = some b ∧ s.fillable ⟨0, 0, 0⟩ = true ∧ b.filling = none ∧ b.entries.length < b.depth ∧ b.cursor < b.total ∧
      Reads { s with curHart := ⟨0, 0, 0⟩, curStream := .a } 32 64 (fun k => elementAt 32 k ((0x10000 : BitVec 64).toInt + (0 : Nat) + k * (4 : BitVec 32).toInt)) (fun _ => 0)) ∧
    (let b : Binding := { fmt := .i32, rows := [0x10000] }
     let s : State := { base with harts := [(0, { hart0 with binds := [(3, some b)] })], req := { reg := 3 } }
     (s.hart ⟨0, 0, 0⟩).bind 3 = some b ∧ b.rows = 0x10000 :: [] ∧
      Reads { s with curHart := ⟨0, 0, 0⟩, curStream := .a } 32 64 (fun e => .at' ((0x10000 : BitVec 64).toInt + (e * 32 / 8 : Nat)) 4 (e * 32 % 8)) (fun _ => 0)) ∧
    (let s : State := { base with harts := [(0, { hart0 with binds := [(3, some slices)] })], req := { reg := 3 }, curStream := .a }
     s.fillable ⟨0, 0, 0⟩ = true ∧ slices.cursor < slices.total ∧ s.curCore.lanes * 64 * slices.grp.size / (8 * slices.slice) = 32 ∧
      Reads s 64 32 (fun k =>
        let p := slices.start + slices.cursor * 32 + k / (slices.slice / 8)
        if slices.start + slices.count ≤ p ∨ slices.len ≤ p then .zero else match rowAddr slices.extents p with
          | some a => .at' (a.toInt + slices.roff + 8 * (k % (slices.slice / 8))) 8 0
          | none => .zero) (fun _ => 0)) ∧
    (∃ s1 a s2, Runs (translateLeaf 0 1 0x30000 .read) { walkS with fresh := true } (0x3007F, 0) s1 ∧ Runs (readAst 1 0x30000) s1 a s2) ∧
    (∃ i s1, (translateLeaf 0 1 0x40000 .read) { walkS with fresh := true } = (.error (.trap i), s1)) ∧
    (walkS.inHbm 0x1000 = true ∧ Quiet walkS ∧ Passes walkS none 0x1000 16) ∧
    (let s : State := { walkS with hub := { walkS.hub with promotions := [promotion1] } }
     let l : Leaf := ⟨0x3007F, 0, 0x60018⟩
     let s0 : State := { s with fresh := true }
     promotion1 ∈ s.hub.promotions ∧ Quiet s ∧ Steady (walk 1 0x30000) s0 l ∧ l.ent = promotion1.expected ∧ ∀ k ∈ sectorsOf promotion1.deadline.toNat 8, k ∉ s.badSectors) ∧
    (walkS.core ⟨0, 0⟩).shadow = some ⟨[], 0, 0, 1⟩ := by
  refine ⟨⟨by decide, by decide, rfl, by decide, by decide, reads_of leaf1 (by decide +kernel)⟩, ⟨by decide, rfl, reads_of leaf1 (by decide +kernel)⟩,
    ⟨by decide, by decide, by decide, reads_of leaf1 (by decide +kernel)⟩, ?_, ?_, ⟨by decide, quiet_of (by decide +kernel), passes_of (by decide +kernel)⟩,
    ⟨by decide, quiet_of (by decide +kernel), steady_of_gives (by decide +kernel), rfl, by decide⟩, by decide +kernel⟩
  · let m := translateLeaf 0 1 0x30000 .read
    let s0 : State := { walkS with fresh := true }
    exact ⟨(m s0).2, leNat (walkS.peek 32 32), _, runs_of_gives (by decide +kernel), runs_of_gives (t := (readAst 1 0x30000 (m s0).2).2) (by decide +kernel)⟩
  · have h : (match (translateLeaf 0 1 0x40000 .read) { walkS with fresh := true } with | (.error (.trap _), _) => true | _ => false) = true := by decide +kernel
    split at h
    · rename_i i t e; exact ⟨i, t, e⟩
    · cases h

/-- A promotion whose bytes come from the flash; the leaf is as the record has it, before them and after. -/
theorem witness_Promotion :
    let s0 : State := { walkS with hub := { walkS.hub with promotions := [promotion1], keys := [] }, fresh := true }
    let l : Leaf := ⟨0x3007F, 0, 0x60018⟩
    Steady (walk 1 0x30000) s0 l ∧ Steady (walk 1 0x30000) (s0.fromFlash none 0x70000 (4096 * 2) (2 ^ 16)) l := by
  refine ⟨steady_of_gives (by decide +kernel), ?_⟩
  have tags : ∀ l : List Nat, l.foldl (fun t k => tdel k t) ([] : Tab (Option (BitVec 512))) = [] := fun l => by
    induction l with
    | nil => rfl
    | cons _ _ ih => exact ih
  rw [State.fromFlash, recallAll_quiet _ _ _ _ _ (quiet_of (by decide +kernel))]
  simp only
  rw [show walkS.keyTags = [] by rfl, tags]
  exact steady_of_gives (by decide +kernel)

/-- Pod barrier 5, a posted buffer of 16 bytes, a flash request that reads one block, an HDM window, and supervisor accesses. -/
def podS (root : BitVec 9) (r : Request) : State := { base with hub := { base.hub with barriers := [(32 * 485 + 5, { asid := 1, en := true, root := root })] }, req := r }
def netS (n : Nat) : State :=
  { base with hub := { base.hub with netBufs := [(2, some ⟨0x20000, 16, 0x20040, none⟩)] }, req := { message := ⟨n, 7, 9, [1, 2, 3], false, 5⟩ } }
def reqS (e : Nat) : State :=
  { base with hub := { base.hub with flashRings := [(7, { asid := 1, en := true, nlb := 8, tags := [9], inflight := [⟨9, BitVec.ofNat 512 e, 0, 1, 0, 8, 0⟩] })] }
              req := { fring := 7, tag := 9 } }
def hostS : State :=
  { base with hub := { base.hub with hdm := [(0, { en := true, host := 0x1000, size := 0x1000, pa := 0x20000 })] }, req := { addr := 0x1010, bytes := [1, 2], len := 4 } }

theorem witness_ModuleEngines :
    ((podS 0 { barrier := 5 }).barrier 485 5).root = (podS 0 { barrier := 5 }).podIndex ∧ ((podS 0 { barrier := 5 }).barrier 485 5).en = true ∧
    (podS 0 { barrier := 5 }).req.arrival.expect = none ∧
    ((podS 3 { barrier := 5, phase := .phase 2 }).barrier 485 5).root ≠ (podS 3 { barrier := 5, phase := .phase 2 }).podIndex ∧
    (let m := (netS 2).req.message
     let buf : NetBuffer := ⟨0x20000, 16, 0x20040, none⟩
     tget none (netS 2).hub.netBufs m.buffer = some buf ∧ buf.barrier = none ∧ m.payload.length ≤ buf.size ∧ m.integrity = false ∧
      buf.pa + m.payload.length ≤ buf.record ∧ Quiet (netS 2)) ∧ tget none (netS 3).hub.netBufs (netS 3).req.message.buffer = none ∧
    (let s := reqS (1 + 1 * 2 ^ 32 + 3 * 2 ^ 64 + 0x20000 * 2 ^ 128)
     ∃ q, ((s.flashRing 7).inflight.find? fun q => q.tag == s.req.tag) = some q ∧ (flashOp q.entry).bcr = false ∧ s.req.tag ∈ (s.flashRing 7).tags ∧ (flashOp q.entry).op ≠ 3 ∧
      ∃ s1, Runs (moveBlocks q (flashOp q.entry).nlb 0) s (1, none) s1 ∧ s1.hub.flashRings = s.hub.flashRings) ∧
    (let s := reqS 3; ∃ q, ((s.flashRing 7).inflight.find? fun q => q.tag == s.req.tag) = some q ∧ (flashOp q.entry).bcr = false ∧ (flashOp q.entry).op = 3 ∧
      ∀ p ∈ s.hub.flashPending, ∀ x ∈ p.2, x.2.length = 4096) ∧
    (hostS.hostPa hostS.req.link hostS.req.addr.toNat hostS.req.bytes.length = some 0x20010 ∧ Quiet hostS ∧ Passes hostS none 0x20010 2 ∧
      hostS.hostPa hostS.req.link hostS.req.addr.toNat hostS.req.len.val = some 0x20010 ∧ Passes hostS none 0x20010 4) ∧
    (let s := evt { op := .load 8 0x20000 }
     let t := evt { op := .store 8 0x20000 5 }
     s.req.op = .load 8 0x20000 ∧ t.req.op = .store 8 0x20000 5 ∧ inHub (0x20000 : BitVec 64).toNat = false ∧ s.inHbm (0x20000 : BitVec 64).toNat = true ∧
      (0x20000 : BitVec 64).toNat % (8 : Fin 9).val = 0 ∧ Quiet s ∧ Quiet t ∧ Passes s none 0x20000 8 ∧ Passes t none 0x20000 8) := by
  refine ⟨by decide, by decide, by decide, by decide, ⟨by decide, rfl, by decide, by decide, by decide, quiet_of (by decide)⟩, by decide, ?_, ⟨⟨9, 3, 0, 1, 0, 8, 0⟩, by decide +kernel, by decide +kernel,
    by decide +kernel, by simp [reqS, base]⟩, ⟨by decide +kernel, quiet_of (by decide), passes_of (by decide +kernel), by decide +kernel, passes_of (by decide +kernel)⟩,
    ⟨rfl, rfl, by decide, by decide, by decide, quiet_of (by decide), quiet_of (by decide), passes_of (by decide +kernel), passes_of (by decide +kernel)⟩⟩
  let s := reqS (1 + 1 * 2 ^ 32 + 3 * 2 ^ 64 + 0x20000 * 2 ^ 128)
  let q : FlashReq := ⟨9, BitVec.ofNat 512 (1 + 1 * 2 ^ 32 + 3 * 2 ^ 64 + 0x20000 * 2 ^ 128), 0, 1, 0, 8, 0⟩
  exact ⟨q, by decide +kernel, by decide +kernel, by decide +kernel, by decide +kernel, ⟨(moveBlocks q 1 0 s).2, runs_of_gives (by decide +kernel), by decide +kernel⟩⟩

/-- A request that meets a bad block; a pod expectation; a message whose flow waits; a host that caches a line; an engine that is frozen. -/
theorem witness_ModuleEngineCorners :
    (let s := reqS (1 + 1 * 2 ^ 32 + 3 * 2 ^ 64 + 0x20000 * 2 ^ 128)
     let s0 : State := { s with hub := { s.hub with flashBad := [3] } }
     let q : FlashReq := ⟨9, BitVec.ofNat 512 (1 + 1 * 2 ^ 32 + 3 * 2 ^ 64 + 0x20000 * 2 ^ 128), 0, 1, 0, 8, 0⟩
     Runs (moveBlocks q 1 0) s0 (0, some (2, 0)) s0) ∧
    (let w : BitVec 64 := 0x4000000000000010
     w.extractLsb' 48 14 = 0 ∧ w.extractLsb' 62 2 ≠ 2 ∧ w.extractLsb' 62 2 ≠ 3 ∧ base.oneCycle = false) ∧
    (let m : PodMessage := ⟨9, 7, 9, [1], false, 5⟩
     let s : State := { netS 3 with hub := { (netS 3).hub with netIn := [m] } }
     s.frozenOp 4 0 = none ∧ tget none s.hub.netBufs m.buffer = none ∧ m.flow = s.req.message.flow) ∧
    (Passes (netS 2) none 0x20000 3 ∧ Passes (netS 2) none 0x20040 16 ∧ (netS 2).hub.netIn = []) ∧
    (({ base with hub := { base.hub with frozen := [(4 * 32, some (.networkReceive, {}))] } } : State).frozenOp 4 0 ≠ none) ∧
    (let s : State := { hostS with req := { hostS.req with caches := true } }
     s.req.atHost = false ∧ s.frozenOp 5 s.req.link.val = none ∧ s.hostPa s.req.link s.req.addr.toNat s.req.bytes.length = some 0x20010 ∧
      0x20010 % 64 + s.req.bytes.length ≤ 64 ∧ Passes s none (64 * (0x20010 / 64)) 64) ∧
    (let s : State := { hostS with badSectors := [0x20010 / 32] }
     s.hostPa s.req.link s.req.addr.toNat s.req.len.val = some 0x20010 ∧ ∃ k ∈ sectorsOf 0x20010 s.req.len.val, k ∈ s.badSectors) ∧
    (inHost 0x0004000000000000 = true ∧ inHost (0x0004000000000000 + 8 - 1) = true ∧ ∃ e, inHost e = true ∧ inHost (e + 8 - 1) = true ∧ inHost (e + 8) = false) := by
  refine ⟨runs_of_gives (by decide +kernel), by decide, by decide, ⟨passes_of (by decide +kernel), passes_of (by decide +kernel), rfl⟩, by decide,
    ⟨rfl, by decide, by decide +kernel, by decide, passes_of (by decide +kernel)⟩, by decide +kernel, ⟨by decide +kernel, by decide +kernel, ⟨0x0007FFFFFFFFFFFF - 7, by decide +kernel⟩⟩⟩

theorem witness_PowerAndReset :
    (∃ s : State, ∃ pa, s.req.site = .memory pa ∧ s.req.corrected = false ∧ pa.toNat / 32 ∉ s.badSectors) ∧ (∃ s : State, s.req.corrected = true) ∧
    (∃ s : State, ∃ c off, s.req.site = .scratchpad c off ∧ s.req.corrected = false) ∧ ({ base with req := { core := ⟨0, 5⟩ } } : State).vacant ⟨0, 5⟩ = true ∧
    base.hub.flashPending = [] ∧ (∃ s : State, s.hub.flashPending ≠ [] ∧ ∀ p ∈ s.hub.flashPending, ∀ x ∈ p.2, x.2.length = 4096) ∧
    (∀ st ch, Repair.channel st ch ∈ (evt { repairs := [.channel 4 9] }).req.repairs → st.val / 3 ≠ 0) :=
  ⟨⟨evt { corrected := false }, 0, by decide, by decide, by decide⟩, ⟨evt { corrected := true }, rfl⟩, ⟨evt { site := .scratchpad ⟨0, 5⟩ 9, corrected := false }, ⟨0, 5⟩, 9, rfl, by decide⟩, by decide, rfl,
    ⟨{ hub := { flashPending := [(7, [(0, List.replicate 4096 1)])] } }, by decide, fun p hp x hx => by
      obtain rfl := List.mem_singleton.1 hp; obtain rfl := List.mem_singleton.1 hx; exact List.length_replicate⟩,
    fun st ch h => by
      have h : Repair.channel st ch = Repair.channel 4 9 := List.mem_singleton.1 h
      cases h; decide⟩

/-- A line of one ADD at 0x10000, held or in memory; a line end; a line of the wrong shape; a line whose page is not there. -/
def lineS (pc : BitVec 64) (held : Option HeldLine) (fresh : Bool) (slots : List Nat) : State :=
  { base with mem := writeBytes base.mem 0x10000 (slotBytes slots), agenda := [.run ⟨0, 0, 0⟩ .a fresh]
              harts := [(0, { hart0 with sa := { stat := .running, pc := pc, line := held } })] }
def turned (s : State) (pc : BitVec 64) (fresh : Bool) : State :=
  { ({ s with agenda := [] } : State).tick 0 with curHart := ⟨0, 0, 0⟩, curStream := .a, fresh := fresh, fallPc := nextPc pc }

def fetches (s : State) (f : Fetched) : Bool := match fetch s with | (.ok g, _) => decide (g = f) | _ => false

theorem runs_of_fetches {s : State} {f : Fetched} (h : fetches s f = true) : ∃ t, Runs fetch s f t := by
  unfold fetches at h
  split at h
  · rename_i g t e
    exact ⟨t, by rw [Runs, e, of_decide_eq_true h]⟩
  · cases h

theorem witness_StepRunsTheDecodedInstruction :
    let add := lineSlots [(0x4400, 2083)]
    let s := lineS 0x10000 none false add
    let held : HeldLine := ⟨0x10000, slotBytes add⟩
    let h := lineS 0x10000 (some held) false add
    s.powered = true ∧ s.agenda = .run ⟨0, 0, 0⟩ .a false :: [] ∧ s.canRun ⟨0, 0, 0⟩ .a = true ∧
    (∃ hd tail next t, Runs fetch (turned s 0x10000 false) (.head hd tail next) t ∧ decodeHead .a 0 hd tail = some (.add ⟨2, 1, 3⟩)) ∧
    decodeHead .a 0 0x4419 0 = none ∧ (∃ next t, Runs fetch (turned (lineS 0x10002 none false add) 0x10002 false) (.skip next) t) ∧
    (∃ t, Runs fetch (turned (lineS 0x10010 none false (List.replicate 32 0xFFFF)) 0x10010 false) .badLine t) ∧
    (∃ i t, fetch (turned (lineS 0x50000 none false add) 0x50000 false) = (.error (.trap i), t)) ∧
    ((turned h 0x10000 false).curSt.line = some held ∧ held.addr = lineOf 0x10000) ∧
    ((turned s 0x10000 false).curSt.line = none ∧ isCanonical (lineOf 0x10000) ∧ Steady (translate 0 1 (lineOf 0x10000) .fetch) (turned s 0x10000 false) ⟨0x10000, leaf1, 0, 0⟩ ∧
      Passes (turned s 0x10000 false) (some 0) 0x10000 64 ∧ Quiet (turned s 0x10000 false)) ∧
    (∃ t : State, t.powered = true ∧ t.agenda = .event .launchDispatch {} :: [] ∧ Instr.launchDispatch.encode = none) ∧
    (∀ b, ∃ t : State, t.powered = true ∧ t.agenda = .barrierCycle b :: [] ∧ t.expects = []) := by
  refine ⟨by decide, by decide, by decide, ?_, by decide, ⟨_, runs_of_fetches (f := .skip 0x10040) (by decide +kernel)⟩, runs_of_fetches (by decide +kernel), ?_,
    ⟨by decide +kernel, by decide⟩, ⟨by decide +kernel, canonical_of (by decide), steady_of_gives (by decide +kernel), passes_of (by decide +kernel), quiet_of (by decide +kernel)⟩,
    ⟨{ agenda := [.event .launchDispatch {}] }, rfl, rfl, rfl⟩, fun b => ⟨{ agenda := [.barrierCycle b] }, rfl, rfl, rfl⟩⟩
  · obtain ⟨t, ht⟩ := runs_of_fetches (s := turned (lineS 0x10000 none false (lineSlots [(0x4400, 2083)])) 0x10000 false) (f := .head 0x4400 2083 0x10040) (by decide +kernel)
    exact ⟨_, _, _, t, ht, by decide⟩
  · have h : (match fetch (turned (lineS 0x50000 none false (lineSlots [(0x4400, 2083)])) 0x50000 false) with | (.error (.trap _), _) => true | _ => false) = true := by decide +kernel
    split at h
    · rename_i i t e; exact ⟨i, t, e⟩
    · cases h

/-- StepRunsTheDecodedInstruction, the other turns: one in which an invalidation comes, a line of which a sector was fetched before, a sector
fetched ahead with the line held and not held, expectations of one cycle here and at a member. -/
theorem witness_StepRunsOtherTurns :
    let add := lineSlots [(0x4400, 2083)]
    let half (n : Nat) : List Byte := ((slotBytes add).drop n).take 32
    let s := lineS 0x10000 none false add
    let kept (upper : Bool) : State := { s with harts := [(0, { hart0 with sa := { stat := .running, pc := 0x10000, sector := some ⟨0x10000, upper, half (if upper then 32 else 0)⟩ } })] }
    let ahead (l : Option HeldLine) (upper : Bool) : State := { lineS 0x10000 l false add with agenda := [.ahead ⟨0, 0, 0⟩ .a upper] }
    let going (x : State) : State := { ({ x with agenda := [] } : State).tick 0 with curHart := ⟨0, 0, 0⟩, curStream := .a, fresh := false }
    (∃ t : State, t.agenda = .part ⟨0, 0, 0⟩ .a 3 :: [] ∧ t.powered = true ∧ t.canRun ⟨0, 0, 0⟩ .a = true) ∧
    (∃ t, Runs fetch { turned s 0x10000 false with upto := some 3 } (.head 0x4400 2083 0x10040) t) ∧
    (∀ upper, (turned (kept upper) 0x10000 false).curSt.sector.map (fun x => (x.addr, x.upper)) = some (lineOf 0x10000, upper) ∧
      Steady (translate 0 1 (lineOf 0x10000) .fetch) (turned (kept upper) 0x10000 false) ⟨0x10000, leaf1, 0, 0⟩ ∧
      Passes (turned (kept upper) 0x10000 false) (some 0) 0x10000 32 ∧ Passes (turned (kept upper) 0x10000 false) (some 0) (0x10000 + 32) 32 ∧ Quiet (turned (kept upper) 0x10000 false)) ∧
    (∀ upper, (ahead none upper).agenda = .ahead ⟨0, 0, 0⟩ .a upper :: [] ∧ (ahead none upper).canRun ⟨0, 0, 0⟩ .a = true ∧
      Steady (translate 0 (going (ahead none upper)).cur.asid (lineOf 0x10000) .fetch) (going (ahead none upper)) ⟨0x10000, leaf1, 0, 0⟩ ∧ Quiet (going (ahead none upper)) ∧
      Passes (going (ahead none upper)) (some 0) (0x10000 + if upper then 32 else 0) 32) ∧
    ((ahead (some ⟨0x10000, slotBytes add⟩) true).curSt.line.any (fun l => l.addr == lineOf 0x10000)) = true ∧
    (∃ t : State, t.powered = true ∧ t.agenda = .barrierCycle false :: [] ∧ t.expects = [(0, 5, 3), (485, 5, 2)] ∧
      (∀ e ∈ t.expects, e.2.1 < 32 ∧ 32 * e.1 + e.2.1 ∈ t.hub.barriers.map Prod.fst) ∧ (t.barrier 485 5).root ≠ t.podIndex ∧ (t.barrier 485 5).arr ≠ 0) := by
  refine ⟨⟨{ lineS 0x10000 none false [] with agenda := [.part ⟨0, 0, 0⟩ .a 3] }, by decide, by decide, by decide⟩, runs_of_fetches (by decide +kernel), fun upper => ?_, fun upper => ?_, by decide +kernel,
    ⟨{ agenda := [.barrierCycle false], expects := [(0, 5, 3), (485, 5, 2)], hub := { barriers := [(5, {}), (32 * 485 + 5, { root := 3, arr := 1 })] } }, rfl, rfl, rfl, by decide, by decide, by decide⟩⟩
  · cases upper
    · exact ⟨by decide +kernel, steady_of_gives (by decide +kernel), passes_of (by decide +kernel), passes_of (by decide +kernel), quiet_of (by decide +kernel)⟩
    · exact ⟨by decide +kernel, steady_of_gives (by decide +kernel), passes_of (by decide +kernel), passes_of (by decide +kernel), quiet_of (by decide +kernel)⟩
  · cases upper
    · exact ⟨by decide +kernel, by decide +kernel, steady_of_gives (by decide +kernel), quiet_of (by decide +kernel), passes_of (by decide +kernel)⟩
    · exact ⟨by decide +kernel, by decide +kernel, steady_of_gives (by decide +kernel), quiet_of (by decide +kernel), passes_of (by decide +kernel)⟩

theorem witness_EncodingAndDecodingAgree :
    let i : Instr := .add ⟨2, 1, 3⟩
    i.wellFormed .a 0 = true ∧ i.encode = some (0x4400, 2083) ∧ 2083 < 2 ^ (16 * (0x4400 / 2 ^ 14)) ∧ decodeHead .a 0 0x4400 2083 = some i := by decide

theorem witness_LinePlacement :
    let hs : List (Nat × Nat) := [(0x4400, 2083), (2, 0)]
    (∀ p ∈ hs, p.1 ≠ 0 ∧ p.1 < 2 ^ 16 ∧ p.2 < 2 ^ (16 * (p.1 / 2 ^ 14))) ∧ hs.length + (hs.map fun p => p.1 / 2 ^ 14).sum ≤ 32 ∧ hs[1]? = some (2, 0) := by decide

theorem witness_StepKeepsMemories : MemoriesWf State.reset ∧ ∃ t, step (placed State.reset 32 0x44000823) = .next t := by
  refine ⟨by unfold MemoriesWf; decide, ?_⟩
  have h : (match step (placed State.reset 32 0x44000823) with | .next _ => true | _ => false) = true := by decide +kernel
  split at h
  · rename_i t e; exact ⟨t, e⟩
  · cases h

/-! ### Single steps, with values worked out by hand from the rules -/

/-- A3 after a register–register instruction on A1 = x and A2 = y. -/
def alu (i : HT16R → Instr) (x y : BitVec 64) : BitVec 64 := (after (i ⟨2, 1, 3⟩) (onA { hart0 with a := [(1, x), (2, y)] })).cur.getR .a 3

-- R286, Table 20.3.
theorem test_add_wraps : alu .add 0xFFFFFFFFFFFFFFFF 2 = 1 := by decide +kernel
theorem test_sub : alu .sub 3 5 = 0xFFFFFFFFFFFFFFFE := by decide +kernel
theorem test_sll_six_bits : alu .sll 1 67 = 8 := by decide +kernel
theorem test_sra_negative : alu .sra 0xFFFFFFFFFFFFFFF0 2 = 0xFFFFFFFFFFFFFFFC := by decide +kernel
theorem test_mulh_signs : alu .mulh 0xFFFFFFFFFFFFFFFF 5 = 0xFFFFFFFFFFFFFFFF ∧ alu .mulhn 0xFFFFFFFFFFFFFFFF 5 = 4 := by decide +kernel
theorem test_div_by_zero : alu .div 7 0 = 0xFFFFFFFFFFFFFFFF ∧ alu .rem 7 0 = 7 := by decide +kernel
theorem test_div_overflow : alu .div 0x8000000000000000 0xFFFFFFFFFFFFFFFF = 0x8000000000000000 ∧ alu .rem 0x8000000000000000 0xFFFFFFFFFFFFFFFF = 0 := by decide +kernel
theorem test_div_truncates : alu .div 0xFFFFFFFFFFFFFFF9 2 = 0xFFFFFFFFFFFFFFFD ∧ alu .rem 0xFFFFFFFFFFFFFFF9 2 = 0xFFFFFFFFFFFFFFFF := by decide +kernel
theorem test_min_signed_unsigned : alu .min 1 0xFFFFFFFFFFFFFFFF = 0xFFFFFFFFFFFFFFFF ∧ alu .minn 1 0xFFFFFFFFFFFFFFFF = 1 := by decide +kernel
theorem test_slt : alu .slt 0xFFFFFFFFFFFFFFFF 1 = 1 ∧ alu .sltn 0xFFFFFFFFFFFFFFFF 1 = 0 := by decide +kernel
theorem test_clz_popc : alu .clz 0 0 = 64 ∧ alu .clz 0x100 0 = 55 ∧ alu .popc 0xF1 0 = 5 := by decide +kernel

/-- R287: the immediate is sign-extended. -/
theorem test_addi_negative : (after (.addi ⟨0xFFFE, 1, 3⟩) (onA { hart0 with a := [(1, 1)] })).cur.getR .a 3 = 0xFFFFFFFFFFFFFFFF := by decide +kernel
/-- R162: A0 discards the write, C0 takes it. -/
theorem test_register_zero : (after (.addi ⟨5, 0, 0⟩) base).cur.getR .a 0 = 0 ∧ (after (.addi ⟨5, 0, 0⟩) (onC hart0)).cur.getR .c 0 = 5 := by decide +kernel
/-- R289: JAL writes the fall-through PC and goes to a head of a line that is `off` lines on. -/
theorem test_jal : (after (.jal ⟨2, 3, 4⟩) { base with harts := [(0, { hart0 with sa := { stat := .running, pc := 0x10042 } })], fallPc := 0x10044 }).curSt.pc = 0x100C6 ∧
    (after (.jal ⟨2, 3, 4⟩) { base with fallPc := 0x10044 }).cur.getR .a 4 = 0x10044 := by decide +kernel
/-- R288: a taken and an untaken branch. -/
theorem test_blt : (after (.blt ⟨1, 0, 2, 1⟩) (onA { hart0 with a := [(1, 0xFFFFFFFFFFFFFFFF), (2, 0)] })).curSt.pc = 64 ∧
    (after (.bltn ⟨1, 0, 2, 1⟩) (onA { hart0 with a := [(1, 0xFFFFFFFFFFFFFFFF), (2, 0)] })).curSt.pc = 2 := by decide +kernel
/-- R291: loads extend, stores write the low bytes. -/
theorem test_ldb_signs : (after (.ldb ⟨4, .ln, .plain, 1, 3⟩) (withMem (onA { hart0 with a := [(1, 0x10000)] }) 0x10004 1 0x80)).cur.getR .a 3 = 0xFFFFFFFFFFFFFF80 ∧
    (after (.ldbn ⟨4, .ln, .plain, 1, 3⟩) (withMem (onA { hart0 with a := [(1, 0x10000)] }) 0x10004 1 0x80)).cur.getR .a 3 = 0x80 := by decide +kernel
theorem test_sth_low_bytes : ([0, 1, 2].map fun k => (after (.sth ⟨0, .ln, .plain, 1, 3⟩) (onA { hart0 with a := [(1, 0x10000), (3, 0x12345)] })).mem.read (0x10000 + k)) =
    [0x45, 0x23, 0] := by decide +kernel
/-- R291: a misaligned load is the misalignment trap. -/
theorem test_misaligned : (after (.ldd ⟨4, .ln, .plain, 1, 3⟩) (onA { hart0 with a := [(1, 0x10000)] })).curSt.cause = Cause.misalignment := by decide +kernel
/-- R256: AMOADD returns the old word and writes the sum. -/
def added : State := after (.amoadd ⟨3, 1, 2, 0, .i32, 0, .g1, .plain, .ln, false⟩) (withMem (onA { hart0 with a := [(1, 0x10000), (2, 3)] }) 0x10000 4 0xFFFFFFFE)
theorem test_amoadd : added.cur.getR .a 3 = 0xFFFFFFFFFFFFFFFE ∧ added.mem.read 0x10000 = 1 := by decide +kernel
/-- R281: QPUT queues a value, QGET takes the oldest. -/
theorem test_queue : (after (.qput ⟨0, 3, 1⟩) (onA { hart0 with a := [(1, 9)], q := [(3, [7])] })).cur.queue 3 = [7, 9] ∧
    (after (.qget ⟨0, 3, 1⟩) (onX { hart0 with q := [(3, [7, 9])] })).cur.getR .x 1 = 7 := by decide +kernel

/-- Vectors of two elements: Vd after an instruction on V2 and V4 of a format. -/
def vec (i : HT32V → Instr) (f : Fmt) (x y : Nat) : Nat :=
  (after (i ⟨8, 2, 4, false, false, 0, .g1, f, 0⟩) (onX { hart0 with vl := 2, v := [(2, BitVec.ofNat _ x), (4, BitVec.ofNat _ y)] })).cur.elem 2048 ⟨8, 1, f.width⟩ 1

-- R192, Table 13.1; element 1 is checked.
theorem test_vadd_lanes : vec .vadd .i8 0x7F00 0x0100 = 0x80 := by decide +kernel
theorem test_vadds_saturates : vec .vadds .i8 0x7F00 0x0100 = 0x7F ∧ vec .vadds .n8 0xFF00 0x0100 = 0xFF ∧ vec .vsubs .n8 0x0100 0x0200 = 0 := by decide +kernel
theorem test_vmulh_signs : vec .vmulh .i8 0xFF00 0x0200 = 0xFF ∧ vec .vmulh .n8 0xFF00 0x0200 = 1 := by decide +kernel
theorem test_vavg_rounds_up : vec .vavg .i8 0x0200 0x0300 = 3 := by decide +kernel
theorem test_vsra_vrot : vec .vsra .n8 0x8000 0x0100 = 0xC0 ∧ vec .vrot .n8 0x8100 0x0100 = 0x03 := by decide +kernel
theorem test_vclmul : vec .vclmul .n8 0x0300 0x0300 = 5 := by decide +kernel
/-- R194, R195: FP32 sum and product. -/
theorem test_vfadd : (after (.vfadd ⟨8, 2, 4, 0, false, false, false, 0, .g1, .fp32, .fp32, .rne, false, 0⟩)
    (onX { hart0 with vl := 1, v := [(2, 0x3F800000), (4, 0x40000000)] })).cur.elem 2048 ⟨8, 1, 32⟩ 0 = 0x40400000 := by decide +kernel
def product : State := after (.vfmul ⟨8, 2, 4, 0, false, false, false, 0, .g1, .fp16, .fp16, .rne, false, 0⟩) (onX { hart0 with vl := 1, v := [(2, 0x3C01), (4, 0x3C01)] })
theorem test_vfmul_inexact : product.cur.elem 2048 ⟨8, 1, 16⟩ 0 = 0x3C02 ∧ product.cur.vstat.getLsbD 0 = true := by decide +kernel
/-- R203: the sum of a reduction goes to element 0. -/
theorem test_vred_add : (after (.vredAdd ⟨8, 2, 0, false, false, 0, .g1, .i32, 0⟩) (onX { hart0 with vl := 3, v := [(2, 1 + 2 * 2 ^ 32 + 4 * 2 ^ 64)] })).cur.elem 2048 ⟨8, 1, 32⟩ 0 = 7 := by
  decide +kernel
/-- R26: an inactive element keeps its value. -/
theorem test_mask_keeps : (after (.vadd ⟨8, 2, 4, false, false, 1, .g1, .i8, 0⟩)
    (onX { hart0 with vl := 2, m := [(1, 2)], v := [(2, 0x0101), (4, 0x0101), (8, 0x0909)] })).cur.elem 2048 ⟨8, 1, 16⟩ 0 = 0x0209 := by decide +kernel
/-- R165: a VL above the elements of the group is the vector-length trap. -/
theorem test_vector_length : (after (.vadd ⟨8, 2, 4, false, false, 0, .g1, .i64, 0⟩) (onX { hart0 with vl := 33 })).curSt.cause = Cause.vectorLength := by decide +kernel

end Sys2Proof.Tests
end

section
/-! PROOFS. The template of R26 as the statement `Elementwise` has it, and the instructions of R192, R193, R203 and R208 that are
instances of it. -/

namespace Sys2Proof.Machine
open Sys2Proof.Spec

/-! ### The frame of a written result -/

/-- The kind-3 bindings of a hart do not depend on its vector registers. -/
theorem toPush_setGroup (x : Hart) (wb r n v : Nat) (dsts : List Operand) : (x.setGroup wb r n v).toPush dsts = x.toPush dsts := by
  obtain ⟨u, h⟩ := setGroup_v x wb r n v
  rw [h]; rfl

theorem wrote_getV (x : Hart) (wb : Nat) (o : Operand) (v r : Nat) (h : r < o.reg ∨ o.reg + o.n ≤ r) :
    (x.wrote wb o v).getV r = x.getV r := by
  obtain ⟨bs, e⟩ := wrote_fields x wb o v
  have hg : (x.wrote wb o v).getV r = (x.setGroup wb o.reg o.n v).getV r := by rw [e]; rfl
  rw [hg, setGroup_getV, if_neg (by omega)]

theorem wrote_binds (x : Hart) (wb : Nat) (o : Operand) (v : Nat) (h : x.toPush [o] = []) : (x.wrote wb o v).binds = x.binds := by
  obtain ⟨u, e⟩ := setGroup_v x wb o.reg o.n v
  have hw : x.wrote wb o v = x.setGroup wb o.reg o.n v := by simp only [Hart.wrote, toPush_setGroup, h, List.foldl_nil]
  rw [hw, e]

theorem resulted_getV (x : Hart) (wb : Nat) (o : Operand) (v r : Nat) (h : r < o.reg ∨ o.reg + o.n ≤ r) :
    (x.resulted wb o v).getV r = x.getV r := by
  unfold Hart.resulted
  split
  · rfl
  · exact wrote_getV x wb o v r h

theorem resulted_binds (x : Hart) (wb : Nat) (o : Operand) (v : Nat) (h : x.toPush [o] = []) : (x.resulted wb o v).binds = x.binds := by
  unfold Hart.resulted
  split
  · rfl
  · exact wrote_binds x wb o v h

/-- A result changes vector registers and queues alone. -/
theorem resulted_fields (x : Hart) (wb : Nat) (o : Operand) (v : Nat) :
    ∃ vs bs, x.resulted wb o v = { x with v := vs, binds := bs } := by
  unfold Hart.resulted
  split
  · exact ⟨x.v, x.binds, rfl⟩
  · obtain ⟨u, h⟩ := setGroup_v x wb o.reg o.n v
    obtain ⟨bs, e⟩ := wrote_fields x wb o v
    exact ⟨u, bs, by rw [e, h]⟩

/-- The elements folded into what the destination held: new where listed, as before elsewhere; with VSTART at or above VL nothing is
listed and nothing is written (log 56). -/
theorem resulted_foldElems (x : Hart) (wb : Nat) (o : Operand) (g : Nat → Res) (es : List Nat) (e : Nat) (hw : wb ≤ 2048)
    (he : o.w * (e + 1) ≤ wb * o.n) (hs : x.spent = true → es = []) :
    (x.resulted wb o (foldElems o.w g es (x.before wb o) 0).1).elem wb o e =
      if e ∈ es then (g e).1 % 2 ^ o.w else elemAt o.w (x.before wb o) e := by
  rw [resulted_elem x wb o _ e hw he]
  split
  · next h => simp [hs h, Hart.before, h, Hart.elem]
  · exact foldElems_elem o.w g es (x.before wb o) 0 e

/-! ### A hart past its instruction -/

@[simp] theorem Hart.past_v (x : Hart) (st : Stream) (pc : BitVec 64) : (x.past st pc).v = x.v := by cases st <;> rfl
@[simp] theorem Hart.past_binds (x : Hart) (st : Stream) (pc : BitVec 64) : (x.past st pc).binds = x.binds := by cases st <;> rfl

/-- Harts that agree but for counters have the same vector registers and queues. -/
theorem v_binds_of_uncounted {x y : Hart} (h : x.uncounted = y.uncounted) : x.v = y.v ∧ x.binds = y.binds := by
  rw [uncounted_eq h]; exact ⟨rfl, rfl⟩

theorem getV_of_v {x y : Hart} (h : x.v = y.v) (r : Nat) : x.getV r = y.getV r := by simp only [Hart.getV, h]

theorem elem_of_v {x y : Hart} (h : x.v = y.v) (wb : Nat) (o : Operand) (e : Nat) : x.elem wb o e = y.elem wb o e := by
  simp only [Hart.elem, Hart.bits, Hart.group, getV_of_v h]

/-! ### The template of R26 -/

theorem opened_halted {x : Hart} {srcs dsts : List Operand} (wb : Nat) (h : Opens x srcs dsts) : (x.opened wb srcs).halted = x.halted := by
  obtain ⟨vs, bs, ps, e⟩ := opened_fields x wb srcs dsts h
  rw [e]

/-- An effect that opens the sources, writes a result, raises flags and clears VSTART is all that `Writes` asks of an instruction. -/
theorem writes_of_resulted {i : Instr} {m : Act Unit} {s t : State} {srcs : List Operand} {dst : Operand} {n v : Nat} {new : Nat → Nat} {fl : Flags}
    {y z : Hart} (hy : y = s.cur.opened s.regBits srcs) (hz : z = y.resulted s.regBits dst v) (ho : Opens s.cur srcs [dst])
    (hi : exec i s = finish m s) (hm : m s = (.ok (), t)) (hb : Becomes s t t.cur) (hpc : t.fallPc = s.fallPc)
    (ht : t.cur = { z with vstat := z.vstat ||| fl, vstart := 0 }) (hnew : ∀ e, e < n → z.elem s.regBits dst e = new e) :
    Writes i s srcs dst n new fl := by
  obtain ⟨u, hu, hbu, hupc⟩ := finish_becomes hm hb
  rw [hpc] at hbu hupc
  have ⟨honly, hun, hothers⟩ := hbu
  obtain ⟨htv, htb⟩ : t.cur.v = z.v ∧ t.cur.binds = z.binds := by rw [ht]; exact ⟨rfl, rfl⟩
  obtain ⟨huv, hub⟩ := v_binds_of_uncounted hun
  rw [Hart.past_v, htv] at huv
  rw [Hart.past_binds, htb] at hub
  have hcur : t.cur = { y with v := u.cur.v, binds := u.cur.binds, vstat := y.vstat ||| fl, vstart := 0 } := by
    obtain ⟨vs, bs, hr⟩ := resulted_fields y s.regBits dst v
    rw [huv, hub, ht, hz, hr]
  have hdone : Completes s u := completes_of hbu hupc (by rw [hcur, hy]; exact opened_halted s.regBits ho)
  have ⟨_, _, hat, _, _⟩ := hdone
  subst hy
  refine ⟨u, hi.trans hu, honly, hothers, hdone, hat.trans hupc, fun e he => ?elems, fun r hr => ?regs, fun h => ?binds, ?frame⟩
  case elems => rw [elem_of_v huv, hnew e he]
  case regs => rw [getV_of_v huv, hz, resulted_getV _ s.regBits dst v r hr]
  case binds => rw [hub, hz, resulted_binds _ s.regBits dst v h]
  case frame => rw [hun]; exact congrArg (fun x : Hart => (x.past s.curStream s.fallPc).uncounted) hcur

/-- Two results that write the same element of width w and raise the same flags. -/
def SameResult (w : Nat) (r q : Res) : Prop := r.1 % 2 ^ w = q.1 % 2 ^ w ∧ r.2 = q.2

theorem SameResult.of_eq {w : Nat} {r q : Res} (h : r = q) : SameResult w r q := by rw [h]; exact ⟨rfl, rfl⟩

/-- An instruction whose meaning is the template with the element function g has the results of f, where g on whole sources gives what
f gives on their elements. -/
theorem elementwise_of_exec {i : Instr} {s : State} {n mask : Nat} {srcs : List Operand} {dst : Operand} {g : List Nat → Nat → Nat → Res}
    {f : Nat → List Nat → Res} (hi : exec i s = finish (elementwise n mask srcs dst g) s)
    (hn : ∀ e, e < n → dst.w * (e + 1) ≤ s.regBits * dst.n)
    (hg : ∀ (b : Operand → Nat) old e, SameResult dst.w (g (srcs.map b) old e) (f e (srcs.map fun o => elemAt o.w (b o) e))) :
    Elementwise i s n mask srcs dst f := by
  unfold Elementwise
  intro y r hl ho
  have hres (old e : Nat) : SameResult dst.w (g (srcs.map (y.bits s.regBits)) old e) (r e) := hg _ _ _
  have hspent (h : y.spent = true) : s.active mask = [] :=
    active_spent s mask (by rw [← spent_opened s.cur s.regBits srcs [dst] ho]; exact h)
  have hflags (old : Nat) (es : List Nat) : flagsOf (fun e => (r e).2) es = (foldElems dst.w (g (srcs.map (y.bits s.regBits)) old) es old 0).2 := by
    simp only [foldElems_flags, (hres _ _).2, flagsOf]
  obtain ⟨t, hrun, hb, hpc, hcur⟩ := elementwise_ok s n mask srcs dst g hl ho
  rw [hflags (y.before s.regBits dst)]
  refine writes_of_resulted rfl rfl ho hi hrun hb hpc hcur fun e he => ?_
  rw [resulted_foldElems y s.regBits dst _ _ e (lanes_le s) (hn e he) hspent, (hres _ e).1]

/-! ### The instructions of HT32.V -/

/-- The effects that read N and the governing mask read those of the state. -/
theorem finish_countOf_govMask (o : HT32V) (s : State) (k : Nat → Nat → Act Unit) :
    finish (do let n ← countOf o.group o.fmt; let m ← govMask o.mask; k n m) s = finish (k (elems s o) (Spec.mask s o.mask)) s := by
  have hm : s.maskBits o.mask.val = Spec.mask s o.mask := by
    unfold State.maskBits Spec.mask State.regBits
    rw [show s.lanes * 128 = 2 * (s.lanes * 64) by omega]
  rw [← hm]; rfl

/-- Every element below N lies in the group (R163). -/
theorem elem_within_group (o : HT32V) (s : State) (e : Nat) (h : e < elems s o) : (opD o).w * (e + 1) ≤ s.regBits * (opD o).n := by
  rw [Nat.mul_comm]
  exact Nat.mul_le_of_le_div _ _ _ h

/-- An instruction that reads N and its mask, and then is the template over N elements. -/
theorem elementwise_of_governed {i : Instr} {o : HT32V} {s : State} {k : Nat → Nat} {srcs : List Operand} {g : Nat → List Nat → Nat → Nat → Res}
    {f : Nat → List Nat → Res}
    (hi : exec i s = finish (do let n ← countOf o.group o.fmt; let m ← govMask o.mask; elementwise n (k m) srcs (opD o) (g m)) s)
    (hg : ∀ (b : Operand → Nat) old e,
      SameResult o.fmt.width (g (Spec.mask s o.mask) (srcs.map b) old e) (f e (srcs.map fun p => elemAt p.w (b p) e))) :
    Elementwise i s (elems s o) (k (Spec.mask s o.mask)) srcs (opD o) f :=
  elementwise_of_exec (hi.trans (finish_countOf_govMask o s fun n m => elementwise n (k m) srcs (opD o) (g m))) (elem_within_group o s) hg

/-- A one-source row p, whose meaning applies h to an element. -/
theorem elementwise_vecUn (p : (HT32V → Instr) × (Fmt → Nat → Nat)) (h : Fmt → Nat → Nat) {o : HT32V} {s : State}
    (hi : exec (p.1 o) s = vecUn (fun f a => (h f a, 0)) o s) (hh : ∀ f a, h f a = p.2 f a) :
    Elementwise (p.1 o) s (elems s o) (Spec.mask s o.mask) [opA o] (opD o) fun _ a => (p.2 o.fmt (a.getD 0 0), 0) :=
  elementwise_of_governed hi fun _ _ _ => .of_eq (Prod.ext (hh _ _) rfl)

/-- A row with no vector source. -/
theorem elementwise_vecGen {i : Instr} {o : HT32V} {s : State} {f : Nat → Nat} (hi : exec i s = vecGen f o s) :
    Elementwise i s (elems s o) (Spec.mask s o.mask) [] (opD o) fun e _ => (f e, 0) :=
  elementwise_of_governed hi fun _ _ _ => ⟨Nat.mod_mod _ _, rfl⟩

/-! ### Integers of a format, counted bits and Mix -/

theorem wrapI_eq_wrap (f : Fmt) (x : Int) : wrapI f x = Spec.wrap f x := by
  simp [wrapI, Spec.wrap, BitVec.toNat_ofInt]

theorem decodeI_eq_int (f : Fmt) (a : Nat) : decodeI f a = Spec.int f a := by
  cases f <;> rfl

theorem popBits_eq_countP (v n : Nat) : popBits v n = (List.range n).countP fun k => v.testBit k := by
  induction n with
  | zero => rfl
  | succ n ih => rw [popBits, ih, List.range_succ, List.countP_append, List.countP_singleton, Nat.add_comm]

/-- R208, Table 13.6: the four rounds written out are the fold over the table's constants. -/
theorem mix_eq_mixed (key ctr : BitVec 64) : mix key ctr = mixed key ctr := rfl

/-! ### The rows -/

/-- R192, R203: VABS, VNEG, VNOT, VPOPC and VFIRST, in every format. -/
theorem vectorUnaryRows_elementwise (p : (HT32V → Instr) × (Fmt → Nat → Nat)) (hp : p ∈ vectorUnaryRows) (o : HT32V) (s : State) :
    Elementwise (p.1 o) s (elems s o) (Spec.mask s o.mask) [opA o] (opD o) fun _ a => (p.2 o.fmt (a.getD 0 0), 0) := by
  simp only [vectorUnaryRows, List.mem_cons, List.not_mem_nil, or_false] at hp
  rcases hp with rfl | rfl | rfl | rfl | rfl
  · exact elementwise_vecUn _ (fun f a => wrapI f (decodeI f a).natAbs) rfl fun f a => by rw [wrapI_eq_wrap, decodeI_eq_int]
  · exact elementwise_vecUn _ (fun f a => wrapI f (-decodeI f a)) rfl fun f a => by rw [wrapI_eq_wrap, decodeI_eq_int]
  · exact elementwise_vecUn _ (fun f a => 2 ^ f.width - 1 - a) rfl fun _ _ => rfl
  · exact elementwise_vecUn _ (fun f a => popBits a f.width) rfl fun f a => popBits_eq_countP a f.width
  · exact elementwise_vecUn _ (fun f a => (lowestBit a f.width).getD f.width) rfl fun _ _ => rfl

/-- R192: VMACC reads Vd as its third source. -/
theorem vmacc_elementwise (o : HT32V) (s : State) :
    Elementwise (.vmacc o) s (elems s o) (Spec.mask s o.mask) [opA o, opB o, opD o] (opD o) fun _ a =>
      (Spec.wrap o.fmt (Spec.int o.fmt (a.getD 2 0) + Spec.int o.fmt (a.getD 0 0) * Spec.int o.fmt (a.getD 1 0)), 0) :=
  elementwise_of_governed (show exec (.vmacc o) s = execVmacc o s from rfl) fun _ _ _ =>
    .of_eq (by simp only [wrapI_eq_wrap, decodeI_eq_int]; rfl)

/-- R193: the mask of VSEL selects between its sources and leaves no element out. -/
theorem vsel_elementwise (o : HT32V) (s : State) :
    Elementwise (.vsel o) s (elems s o) (2 ^ 4096 - 1) [opA o, opB o] (opD o)
      (fun e a => (if (Spec.mask s o.mask).testBit e then a.getD 0 0 else a.getD 1 0, 0)) :=
  elementwise_of_governed (k := fun _ => 2 ^ 4096 - 1) (show exec (.vsel o) s = execVsel o s from rfl) fun _ _ _ => .of_eq rfl

/-- Settles O15: every instruction is an instance of the template of R26, whose element function is the operation of its row. -/
theorem vectorMoveResults : Obligations.VectorMoveResults := by
  unfold Obligations.VectorMoveResults
  refine ⟨⟨fun p hp o s _ => vectorUnaryRows_elementwise p hp o s, fun o s => ⟨fun _ => vmacc_elementwise o s, ?vmv, vsel_elementwise o s⟩⟩,
    fun o s => ⟨?vid, ?vsplat, ?vrand⟩⟩
  case vmv => exact elementwise_vecUn (.vmv, fun _ a => a) (fun _ a => a) rfl fun _ _ => rfl
  case vid => exact elementwise_vecGen rfl
  case vsplat => exact elementwise_vecGen rfl
  case vrand =>
    simp only [← mix_eq_mixed]
    exact elementwise_vecGen rfl

end Sys2Proof.Machine
end

section
/-! PROOFS. The outcomes of an instruction of a hart whose effect is on the hub: it traps before any change, waits, or completes with a
register written and the hub changed. -/

namespace Sys2Proof.Machine
open Sys2Proof.Spec

/-! ### Running an effect -/

theorem bind_run {α β : Type} (m : Act α) (f : α → Act β) (s : State) :
    (m >>= f) s = match m s with
      | (.ok a, t) => f a t
      | (.error e, t) => (.error e, t) := by
  split
  · next h => exact bind_ok h
  · next h => exact bind_err h

theorem trapIf_trap (c : Bool) (k : BitVec 16) (s : State) (h : c = true) : trapIf c k s = (.error (.trap { cause := k }), s) := by
  subst h; rfl

theorem waitFor_wait (c : Bool) (s : State) (h : c = false) : waitFor c s = (.error .wait, s) := by subst h; rfl

/-- The state in which the stream in execution has noted what it may wait for. -/
def State.awaiting (s : State) (on : Awaited) : State := s.setCurSt { s.curSt with on := some on }

@[simp] theorem awaits_run (on : Awaited) (s : State) : awaits on s = (.ok (), s.awaiting on) := rfl

/-! ### Outcomes of an effect on the hub -/

/-- A hart with what a stream of it awaits. -/
def Hart.awaiting (x : Hart) (st : Stream) (on : Option Awaited) : Hart := x.setSt st { x.st st with on := on }

theorem Hart.awaiting_self (x : Hart) (st : Stream) : x.awaiting st (x.st st).on = x := by cases st <;> rfl

/-- Past the instruction nothing is awaited, so what was awaited before it does not count. -/
theorem Hart.past_setR_awaiting (x : Hart) (st : Stream) (on : Option Awaited) (r : Nat) (w pc : BitVec 64) :
    ((x.awaiting st on).setR st r w).past st pc = (x.setR st r w).past st pc := by
  cases st <;> by_cases h : r = 0 <;>
    simp [Hart.awaiting, Hart.setR, Hart.setA, Hart.setS, Hart.setC, Hart.past, Hart.setSt, Hart.st, h]

@[simp] theorem Hart.setR_halted (x : Hart) (st : Stream) (r : Nat) (w : BitVec 64) : (x.setR st r w).halted = x.halted := by
  cases st <;> by_cases h : r = 0 <;> simp [Hart.setR, Hart.setA, Hart.setS, Hart.setC, h]

@[simp] theorem Hart.setSt_waitlim (x : Hart) (st : Stream) (q : StreamRec) : (x.setSt st q).waitlim = x.waitlim := by cases st <;> rfl

theorem Hart.setSt_setSt (x : Hart) (st : Stream) (p q : StreamRec) : (x.setSt st p).setSt st q = x.setSt st q := by cases st <;> rfl

/-- State t is s with the hub h, but for what the stream in execution awaits. -/
structure HubStep (s : State) (h : Hub) (t : State) : Prop where
  becomes : Becomes { s with hub := h } t t.cur
  cur : ∃ on, t.cur = s.cur.awaiting s.curStream on
  fallPc : t.fallPc = s.fallPc

theorem HubStep.ofHub (s : State) (h : Hub) : HubStep s h { s with hub := h } :=
  ⟨Becomes.refl _, ⟨_, (s.cur.awaiting_self s.curStream).symm⟩, rfl⟩

theorem HubStep.ofAwaiting (s : State) (h : Hub) (on : Awaited) : HubStep s h { s.awaiting on with hub := h } := by
  have hcur : ({ s.awaiting on with hub := h } : State).cur = s.cur.awaiting s.curStream (some on) := cur_setCur s _
  refine ⟨?_, ⟨_, hcur⟩, rfl⟩
  rw [hcur]
  exact (Becomes.refl { s with hub := h }).setCur _

section
variable {i : Instr} {m : Act Unit} {s t : State} {h : Hub} {r : Fin 32} {w : BitVec 64}

/-- An instruction that leaves the hub h, and last writes a register, completes with that register written. -/
theorem HubStep.completes (hs : HubStep s h t) (hi : exec i s = finish m s) (hm : m s = (.ok (), t.setR r w)) :
    ∃ u, exec i s = .next u ∧ Becomes { s with hub := h } u ((given s r w).past s.curStream s.fallPc) ∧ Completes s u ∧
      u.fallPc = s.fallPc := by
  obtain ⟨hb, ⟨on, hcur⟩, hpc⟩ := hs
  have hst : t.curStream = s.curStream := hb.curStream
  have hx : (t.setR r w).cur = (s.cur.awaiting s.curStream on).setR s.curStream r.val w := by
    rw [State.setR, cur_setCur, hcur, hst]
  have hbr : Becomes { s with hub := h } (t.setR r w) (t.setR r w).cur := by
    rw [State.setR, cur_setCur]
    exact hb.setCur _
  have hpast : (t.setR r w).cur.past (t.setR r w).curStream (t.setR r w).fallPc = (given s r w).past s.curStream s.fallPc := by
    rw [hx, show (t.setR r w).curStream = s.curStream from hst, show (t.setR r w).fallPc = s.fallPc from hpc]
    exact Hart.past_setR_awaiting ..
  have hbu := complete_becomes hbr
  rw [hpast] at hbu
  have hfall : (t.setR r w).complete.fallPc = s.fallPc := (countHart_fallPc ..).trans hpc
  exact ⟨_, hi.trans (finish_ok hm), hbu, completes_of (s := { s with hub := h }) hbu hfall (Hart.setR_halted ..), hfall⟩

theorem HubStep.doneWith (hs : HubStep s h t) (hi : exec i s = finish m s) (hm : m s = (.ok (), t.setR r w)) :
    DoneWith i s { s with hub := h } (given s r w) := by
  obtain ⟨u, hu, ⟨⟨⟨harts, dies, pc, he⟩, hdies⟩, hcur, hothers⟩, hc, hpc⟩ := hs.completes hi hm
  have ⟨_, _, hat, _, _⟩ := hc
  exact ⟨u, hu, hc, hat.trans hpc, hcur, hothers, fun c => by rw [he]; rfl, hdies, harts, s.cores, dies, pc, he⟩

theorem HubStep.done (hs : HubStep s s.hub t) (hi : exec i s = finish m s) (hm : m s = (.ok (), t.setR r w)) :
    Done i s (given s r w) s.fallPc := by
  obtain ⟨u, hu, hb, hc, _⟩ := hs.completes hi hm
  exact ⟨u, hu, hb, hc⟩

/-- A hart that takes a trap halts with its stream at the instruction and the cause recorded (R329). -/
theorem Hart.takeTrap_fields (x : Hart) (st : Stream) (q : StreamRec) (k : TrapInfo) :
    ((x.setSt st q).takeTrap st k).halted = true ∧ (((x.setSt st q).takeTrap st k).st st).pc = q.pc ∧
      (((x.setSt st q).takeTrap st k).st st).cause = k.cause ∧ (((x.setSt st q).takeTrap st k).st st).taddr = k.addr := by
  cases st <;> exact ⟨rfl, rfl, rfl, rfl⟩

/-- An instruction that traps before it has changed anything. -/
theorem traps_of_run {k : TrapInfo} (hi : exec i s = finish m s) (hm : m s = (.error (.trap k), s)) : Traps i s k := by
  obtain ⟨honly, _, hothers⟩ := takeTrap_becomes k s
  have hcur : (takeTrap k s).cur = (s.cur.setSt s.curStream { s.curSt with after := s.fallPc }).takeTrap s.curStream k := cur_setCur s _
  have hst : (takeTrap k s).curSt = (takeTrap k s).cur.st s.curStream := rfl
  refine ⟨_, hi.trans (finish_trap hm), honly, hothers, ?_⟩
  rw [hst, hcur]
  exact Hart.takeTrap_fields ..

/-- The first check of a wait starts it, and a later one finds it begun (R25). -/
theorem beginWait_of_waitlim {q : StreamRec} (hb : Becomes s t t.cur) (hcur : t.cur = s.cur.setSt s.curStream q) (hl : s.cur.waitlim ≠ 0) :
    ∃ l pc, Becomes s (beginWait t) (s.cur.setSt s.curStream { q with wait := some l, after := pc }) ∧
      (beginWait t).curSt = { q with wait := some l, after := pc } := by
  have hst : t.curSt = q := by rw [State.curSt, hb.curStream, hcur, st_setSt]
  have hlim : t.cur.waitlim ≠ 0 := by rwa [hcur, Hart.setSt_waitlim]
  cases hw : q.wait with
  | some l =>
    have hbegin : beginWait t = t := by
      simp only [beginWait]
      rw [show t.cur.st t.curStream = q from hst, hw]
    have hq : { q with wait := some l, after := q.after } = q := by rw [← hw]
    refine ⟨l, q.after, ?_⟩
    rw [hbegin, hq, ← hcur]
    exact ⟨hb, hst⟩
  | none =>
    have hbegin : beginWait t = t.setCurSt { q with wait := some ⟨t.cur.waitlim⟩, after := t.fallPc } := by
      simp only [beginWait]
      rw [show t.cur.st t.curStream = q from hst, hw]
      exact if_neg hlim
    refine ⟨⟨t.cur.waitlim⟩, t.fallPc, ?_⟩
    rw [hbegin, State.setCurSt, hb.curStream, hcur, Hart.setSt_setSt]
    refine ⟨hb.setCur _, ?_⟩
    rw [State.curSt, cur_setCur, setCur_curStream, hb.curStream, st_setSt]

/-- An instruction that has only noted what it waits for waits, unless the limit is 0. -/
theorem waits_of_run {on : Awaited} (hi : exec i s = finish m s) (hm : m s = (.error .wait, s.awaiting on)) (hl : s.cur.waitlim ≠ 0) :
    Waits i s := by
  have hcur : (s.awaiting on).cur = s.cur.setSt s.curStream { s.curSt with on := some on } := cur_setCur s _
  have hb : Becomes s (s.awaiting on) (s.awaiting on).cur := by rw [hcur]; exact (Becomes.refl s).setCur _
  obtain ⟨l, pc, hw, hst⟩ := beginWait_of_waitlim hb hcur hl
  refine ⟨_, hi.trans (finish_wait hm), ?_⟩
  rw [hst]
  exact ⟨hw, rfl, rfl⟩
end

end Sys2Proof.Machine
end

section
/-! PROOFS. The blotter instructions (R262 to R267): the checks of R263, then each instruction case by case. -/

namespace Sys2Proof.Machine
open Sys2Proof.Spec

/-! ### Fields of a word -/

theorem bits_toNat (w : BitVec 64) (lo n : Nat) : bits w.toNat lo n = (w.extractLsb' lo n).toNat := by
  rw [BitVec.extractLsb'_toNat, Nat.shiftRight_eq_div_pow]; rfl

theorem bits_eq_zero (w : BitVec 64) (lo n : Nat) : bits w.toNat lo n = 0 ↔ w.extractLsb' lo n = 0 := by
  rw [bits_toNat, ← BitVec.toNat_inj]
  rfl

/-- An operand without high half passes the check of BLREL and BLVETO (R266, R267). -/
theorem operand_of_high (w : BitVec 64) (h : w.extractLsb' 32 32 = 0) : (bits w.toNat 32 32 != 0) = false :=
  bne_eq_false_iff_eq.mpr ((bits_eq_zero w 32 32).mpr h)

/-- An operand without high half has the entry form of BLREAD. -/
theorem entryForm_of_high (w : BitVec 64) (h : w.extractLsb' 32 32 = 0) : w.getLsbD 63 = false := by
  have hbit : (w.extractLsb' 32 32).getLsbD 31 = false := by rw [h]; rfl
  simpa [BitVec.getLsbD_extractLsb'] using hbit

/-- An operand without high half passes the check of the entry form of BLREAD (R265). -/
theorem entryOperand_of_high (w : BitVec 64) (h : w.extractLsb' 32 32 = 0) : (bits w.toNat 32 31 != 0) = false := by
  have hhigh : bits w.toNat 32 32 = 0 := (bits_eq_zero w 32 32).mpr h
  have hlow : bits w.toNat 32 31 = bits w.toNat 32 32 % 2 ^ 31 := by simp only [bits]; omega
  rw [hlow, hhigh]; rfl

/-- Table 19.3, R263: an operand of BLAPP that sets no reserved bit, cancels only with an end, and ends without a token. -/
def GoodEntry (w : BitVec 64) : Prop :=
  w.extractLsb' 35 29 = 0 ∧ w.extractLsb' 18 14 = 0 ∧ (w.getLsbD 34 = true → w.getLsbD 32 = true) ∧
    (w.getLsbD 32 = true → w.extractLsb' 0 18 = 0)

theorem entryBad_eq_false (w : BitVec 64) : entryBad w = false ↔ GoodEntry w := by
  unfold entryBad GoodEntry
  cases w.getLsbD 32 <;> cases w.getLsbD 34 <;> simp [bits_eq_zero, and_assoc]

theorem toNat_append_add {m n : Nat} (x : BitVec m) (y : BitVec n) : (x ++ y).toNat = x.toNat * 2 ^ n + y.toNat := by
  rw [BitVec.toNat_append, ← Nat.shiftLeft_add_eq_or_of_lt y.isLt, Nat.shiftLeft_eq]

/-- The entry word has its fields where Table 19.3 places them. -/
theorem BlEntry.word_eq (e : BlEntry) :
    e.word = 0#29 ++ BitVec.ofBool e.cancel ++ 0#1 ++ BitVec.ofBool e.fin ++ 0#14 ++ e.token := by
  apply BitVec.eq_of_toNat_eq
  have htoken := e.token.isLt
  have hcancel := e.cancel.toNat_le
  have hfin := e.fin.toNat_le
  simp only [BlEntry.word, toNat_append_add, BitVec.toNat_ofNat, BitVec.toNat_ofBool]
  omega

theorem ofNat_flag_add (b : Bool) (x : BitVec 32) : BitVec.ofNat 64 (b.toNat * 2 ^ 63 + x.toNat) = BitVec.ofBool b ++ 0#31 ++ x := by
  have hx := x.isLt
  have hb := b.toNat_le
  apply BitVec.eq_of_toNat_eq
  simp only [toNat_append_add, BitVec.toNat_ofNat, BitVec.toNat_ofBool]
  omega

/-- R265: the status word by its selector. -/
theorem Ring.status_eq (r : Ring) (n : Nat) :
    r.status n = if n = 0 then BitVec.ofBool r.veto ++ 0#31 ++ r.app else if n = 1 then r.rel.zeroExtend 64
      else if n = 2 then r.vp.zeroExtend 64 else r.emit.zeroExtend 64 := by
  match n with
  | 0 => simp only [Ring.status, ofNat_flag_add, if_true]
  | 1 => simp [Ring.status]
  | 2 => simp [Ring.status]
  | _ + 3 => simp [Ring.status]

/-! ### Rings -/

@[simp] theorem State.awaiting_ring (s : State) (on : Awaited) (k : Nat) : (s.awaiting on).ring k = s.ring k := rfl

@[simp] theorem modRing_run (k : Nat) (f : Ring → Ring) (s : State) : modRing k f s = (.ok (), s.setRing k (f (s.ring k))) := rfl

/-! ### The meanings of the four instructions -/

theorem exec_blapp (o : HT16R) (s : State) : exec (.blapp o) s = execBlapp o s := rfl
theorem exec_blread (o : HT16R) (s : State) : exec (.blread o) s = execBlread o s := rfl
theorem exec_blrel (o : HT16R) (s : State) : exec (.blrel o) s = execBlrel o s := rfl
theorem exec_blveto (o : HT16R) (s : State) : exec (.blveto o) s = execBlveto o s := rfl

/-! ### The context checks (R263) -/

theorem ownRing_disabled {o : HT16R} {s : State} (h : 8192 ≤ (s.getR o.a).toNat ∨ (s.ring (s.getR o.a).toNat).en = false) :
    ownRing o s = (.error (.trap { cause := Cause.blotter }), s) := by
  have hc : (decide (8191 < (s.getR o.a).toNat) || !(s.ring (s.getR o.a).toNat).en) = true := by
    rcases h with hk | he
    · simp [Nat.lt_of_succ_le hk]
    · simp [he]
  simp only [ownRing, bind_run, reg_run, get_run, trapIf_trap _ _ _ hc]

/-- The first check passes where the ring is enabled. -/
theorem ring_enabled {s : State} {k : Nat} (hk : k < 8192) (he : (s.ring k).en = true) : (decide (8191 < k) || !(s.ring k).en) = false := by
  simp [Nat.le_of_lt_succ hk, he]

theorem ownRing_foreign {o : HT16R} {s : State} (hk : (s.getR o.a).toNat < 8192) (he : (s.ring (s.getR o.a).toNat).en = true)
    (ha : (s.ring (s.getR o.a).toNat).asid ≠ s.cur.asid) : ownRing o s = (.error (.trap { cause := Cause.violation }), s) := by
  simp only [ownRing, bind_run, reg_run, get_run, trapIf_run _ _ _ (ring_enabled hk he), trapIf_trap _ _ _ (bne_iff_ne.mpr ha)]

/-- Every blotter instruction checks its ring first. -/
theorem exec_ownRing (o : HT16R) (s : State) {i : Instr} (hi : i ∈ [Instr.blapp o, .blread o, .blrel o, .blveto o]) :
    ∃ f, exec i s = finish (ownRing o >>= f) s := by
  simp only [List.mem_cons, List.not_mem_nil, or_false] at hi
  rcases hi with rfl | rfl | rfl | rfl
  · exact ⟨_, exec_blapp o s⟩
  · exact ⟨_, exec_blread o s⟩
  · exact ⟨_, exec_blrel o s⟩
  · exact ⟨_, exec_blveto o s⟩

/-- A failing check of the ring is the instruction's trap. -/
theorem traps_of_ownRing {o : HT16R} {s : State} {c : TrapInfo} (h : ownRing o s = (.error (.trap c), s)) :
    ∀ i ∈ [Instr.blapp o, .blread o, .blrel o, .blveto o], Traps i s c := by
  intro i hi
  obtain ⟨f, hf⟩ := exec_ownRing o s hi
  exact traps_of_run hf (bind_err h)

/-- The instruction's operands are the ring number k and the word w, and ring k is r, enabled and of the hart's address space. -/
structure OwnsRing (o : HT16R) (s : State) (k : Nat) (w : BitVec 64) (r : Ring) : Prop where
  names : (s.getR o.a).toNat = k
  word : s.getR o.b = w
  ring : s.ring k = r
  number : k < 8192
  enabled : r.en = true
  space : r.asid = s.cur.asid

theorem OwnsRing.runs {o : HT16R} {s : State} {k : Nat} {w : BitVec 64} {r : Ring} (own : OwnsRing o s k w r) : ownRing o s = (.ok k, s) := by
  obtain ⟨rfl, -, rfl, hk, he, ha⟩ := own
  have hspace : ((s.ring (s.getR o.a).toNat).asid != s.cur.asid) = false := bne_eq_false_iff_eq.mpr ha
  simp only [ownRing, bind_run, reg_run, get_run, trapIf_run _ _ _ (ring_enabled hk he), trapIf_run _ _ _ hspace, pure_run]

/-- An open ring accepts an entry (R263). -/
theorem entry_accepted {r : Ring} {w : BitVec 64} (hopen : r.closed = false) (hgood : GoodEntry w) : (r.closed || entryBad w) = false := by
  rw [hopen, Bool.false_or]
  exact (entryBad_eq_false w).mpr hgood

/-! ### Ignored releases and vetoes -/

/-- A release or veto that is ignored (R266, R267): the instruction completes with the hart x, ring k, which was r, counts it in IGN and is
otherwise as it was, and so is memory. -/
def IgnoredAt (i : Instr) (s : State) (k : Nat) (r : Ring) (x : Hart) : Prop :=
  ∃ t, exec i s = .next t ∧ Completes s t ∧ t.cur.uncounted = (x.past s.curStream s.fallPc).uncounted ∧
    t.ring k = { r with ign := r.ign + 1 } ∧ t.mem = s.mem

theorem ignoreAt_run (o : HT16R) {s : State} {k : Nat} {r : Ring} (hr : s.ring k = r) (code : BitVec 64) :
    ignoreAt o k code s = (.ok (), ((s.setRing k { r with ign := r.ign + 1 }).countHub 0x32 1).setR o.d code) := by
  simp only [ignoreAt, bind_run, modRing_run, modify_run, setReg_run, hr]

theorem ignoredAt_of_run {i : Instr} {m : Act Unit} {s : State} {k : Nat} {r : Ring} {d : Fin 32} {code : BitVec 64} (hi : exec i s = finish m s)
    (hm : m s = (.ok (), ((s.setRing k { r with ign := r.ign + 1 }).countHub 0x32 1).setR d code)) : IgnoredAt i s k r (given s d code) := by
  have hstep := HubStep.ofHub s ((s.setRing k { r with ign := r.ign + 1 }).countHub 0x32 1).hub
  obtain ⟨u, hu, ⟨⟨⟨_, _, _, he⟩, _⟩, hcur, _⟩, hc, _⟩ := hstep.completes hi hm
  refine ⟨u, hu, hc, hcur, ?_, by rw [he]⟩
  rw [he]
  exact tget_tput_same ..

/-! ### The four instructions on an enabled ring of the hart's address space -/

section
variable {o : HT16R} {s : State} {k : Nat} {w : BitVec 64} {r : Ring} (own : OwnsRing o s k w r)
include own

/-- R264, R263: a closed ring, and an operand that is no entry. -/
theorem blapp_traps (h : r.closed = true ∨ ¬ GoodEntry w) : Traps (.blapp o) s { cause := Cause.blotter } := by
  have hc : (r.closed || entryBad w) = true := by
    rcases h with hclosed | hbad
    · simp only [hclosed, Bool.true_or]
    · rw [← entryBad_eq_false, Bool.not_eq_false] at hbad
      simp only [hbad, Bool.or_true]
  refine traps_of_run (exec_blapp o s) ?_
  simp only [bind_run, own.runs, reg_run, own.word, get_run, own.ring, trapIf_trap _ _ _ hc]

section
variable (hopen : r.closed = false) (hgood : GoodEntry w)
include hopen hgood

/-- R264: a veto that the operand does not acknowledge is answered with its position, and nothing is appended. -/
theorem blapp_vetoed (hv : r.veto = true) (hack : w.getLsbD 33 = false) :
    Done (.blapp o) s (given s o.d (BitVec.ofNat 64 (2 ^ 63 + r.vp.toNat))) s.fallPc := by
  have hreply : (r.veto && !w.getLsbD 33) = true := by rw [hv, hack]; rfl
  have hgo : (decide ((r.app - r.emit).toNat < 256) || r.veto) = true := by rw [hv, Bool.or_true]
  refine (HubStep.ofAwaiting s s.hub (.ring k)).done (exec_blapp o s) ?_
  simp only [bind_run, own.runs, reg_run, own.word, get_run, own.ring, trapIf_run _ _ _ (entry_accepted hopen hgood),
    awaits_run, waitFor_run _ _ hgo, hreply, if_true, setReg_run]
  rfl

theorem blapp_waits (hv : r.veto = false) (hfull : 256 ≤ (r.app - r.emit).toNat) (hl : s.cur.waitlim ≠ 0) : Waits (.blapp o) s := by
  have hstop : (decide ((r.app - r.emit).toNat < 256) || r.veto) = false := by
    rw [hv, Bool.or_false]; exact decide_eq_false (Nat.not_lt.mpr hfull)
  refine waits_of_run (on := .ring k) (exec_blapp o s) ?_ hl
  simp only [bind_run, own.runs, reg_run, own.word, get_run, own.ring, trapIf_run _ _ _ (entry_accepted hopen hgood),
    awaits_run, waitFor_wait _ _ hstop]

/-- R264: an acknowledged veto, or room in a ring without one. -/
theorem blapp_appends (h : (r.veto = true ∧ w.getLsbD 33 = true) ∨ (r.veto = false ∧ (r.app - r.emit).toNat < 256)) :
    DoneWith (.blapp o) s { s with hub := { s.hub with rings := tput s.hub.rings k { r with
      veto := false, app := r.app + 1, entries := tput r.entries (r.app.toNat % 256) ⟨w.truncate 18, w.getLsbD 32, w.getLsbD 34⟩ } } }
      (given s o.d (r.app.zeroExtend 64)) := by
  have hreply : (r.veto && !w.getLsbD 33) = false := by
    rcases h with ⟨_, hack⟩ | ⟨hv, _⟩
    · rw [hack, Bool.not_true, Bool.and_false]
    · rw [hv, Bool.false_and]
  have hgo : (decide ((r.app - r.emit).toNat < 256) || r.veto) = true := by
    rcases h with ⟨hv, _⟩ | ⟨_, hroom⟩
    · rw [hv, Bool.or_true]
    · rw [decide_eq_true hroom, Bool.true_or]
  refine (HubStep.ofAwaiting s _ (.ring k)).doneWith (exec_blapp o s) ?_
  simp only [bind_run, own.runs, reg_run, own.word, get_run, own.ring, trapIf_run _ _ _ (entry_accepted hopen hgood),
    awaits_run, waitFor_run _ _ hgo, hreply, Bool.false_eq_true, if_false, modRing_run, State.awaiting_ring, setReg_run]
  rfl

end

/-- R265: the status form, with bits [61:2] zero. -/
theorem blread_status (hform : w.getLsbD 63 = true) (hres : w.extractLsb' 2 61 = 0) :
    Done (.blread o) s (given s o.d (r.status (w.extractLsb' 0 2).toNat)) s.fallPc := by
  have hword : (bits w.toNat 2 61 != 0) = false := bne_eq_false_iff_eq.mpr ((bits_eq_zero w 2 61).mpr hres)
  rw [← bits_toNat]
  refine (HubStep.ofHub s s.hub).done (exec_blread o s) ?_
  simp only [bind_run, own.runs, reg_run, own.word, get_run, own.ring, hform, if_true, trapIf_run _ _ _ hword, setReg_run]

theorem blread_status_traps (hform : w.getLsbD 63 = true) (hres : w.extractLsb' 2 61 ≠ 0) :
    Traps (.blread o) s { cause := Cause.blotter } := by
  have hword : (bits w.toNat 2 61 != 0) = true := bne_iff_ne.mpr (mt (bits_eq_zero w 2 61).mp hres)
  refine traps_of_run (exec_blread o s) ?_
  simp only [bind_run, own.runs, reg_run, own.word, get_run, own.ring, hform, if_true, trapIf_trap _ _ _ hword]

theorem blread_entry_traps (hform : w.getLsbD 63 = false) (hres : w.extractLsb' 32 31 ≠ 0) :
    Traps (.blread o) s { cause := Cause.blotter } := by
  have hword : (bits w.toNat 32 31 != 0) = true := bne_iff_ne.mpr (mt (bits_eq_zero w 32 31).mp hres)
  refine traps_of_run (exec_blread o s) ?_
  simp only [bind_run, own.runs, reg_run, own.word, get_run, own.ring, hform, Bool.false_eq_true, if_false, trapIf_trap _ _ _ hword]

theorem blrel_traps (hhigh : w.extractLsb' 32 32 ≠ 0) : Traps (.blrel o) s { cause := Cause.blotter } := by
  have hword : (bits w.toNat 32 32 != 0) = true := bne_iff_ne.mpr (mt (bits_eq_zero w 32 32).mp hhigh)
  refine traps_of_run (exec_blrel o s) ?_
  simp only [bind_run, own.runs, reg_run, own.word, trapIf_trap _ _ _ hword]

theorem blveto_traps (hhigh : w.extractLsb' 32 32 ≠ 0) : Traps (.blveto o) s { cause := Cause.blotter } := by
  have hword : (bits w.toNat 32 32 != 0) = true := bne_iff_ne.mpr (mt (bits_eq_zero w 32 32).mp hhigh)
  refine traps_of_run (exec_blveto o s) ?_
  simp only [bind_run, own.runs, reg_run, own.word, trapIf_trap _ _ _ hword]

section
variable (hhigh : w.extractLsb' 32 32 = 0)
include hhigh

/-- R265: the entry form, at a position that has been appended or released. -/
theorem blread_answers (hgo : w.toNat < r.app.toNat ∨ w.toNat < r.rel.toNat) :
    Done (.blread o) s (given s o.d (if w.toNat < r.rel.toNat then -1 else (r.entry w.toNat).word)) s.fallPc := by
  have hready : (decide (w.toNat < r.app.toNat) || decide (w.toNat < r.rel.toNat)) = true := by simpa using hgo
  refine (HubStep.ofAwaiting s s.hub (.ring k)).done (exec_blread o s) ?_
  simp only [bind_run, own.runs, reg_run, own.word, get_run, own.ring, entryForm_of_high w hhigh, Bool.false_eq_true, if_false,
    trapIf_run _ _ _ (entryOperand_of_high w hhigh), awaits_run, waitFor_run _ _ hready, setReg_run]
  rfl

theorem blread_waits (hrel : r.rel.toNat ≤ w.toNat) (happ : r.app.toNat ≤ w.toNat) (hl : s.cur.waitlim ≠ 0) : Waits (.blread o) s := by
  have hstop : (decide (w.toNat < r.app.toNat) || decide (w.toNat < r.rel.toNat)) = false := by simp [happ, hrel]
  refine waits_of_run (on := .ring k) (exec_blread o s) ?_ hl
  simp only [bind_run, own.runs, reg_run, own.word, get_run, own.ring, entryForm_of_high w hhigh, Bool.false_eq_true, if_false,
    trapIf_run _ _ _ (entryOperand_of_high w hhigh), awaits_run, waitFor_wait _ _ hstop]

theorem blrel_ignored (h : w.toNat ≤ r.rel.toNat ∨ r.app.toNat < w.toNat ∨ (r.veto = true ∧ r.vp.toNat < w.toNat)) :
    IgnoredAt (.blrel o) s k r (given s o.d 0) := by
  have hign : (decide (w.toNat ≤ r.rel.toNat) || decide (r.app.toNat < w.toNat) || (r.veto && decide (r.vp.toNat < w.toNat))) = true := by
    simpa [or_assoc] using h
  refine ignoredAt_of_run (exec_blrel o s) ?_
  simp only [bind_run, own.runs, reg_run, own.word, get_run, own.ring, trapIf_run _ _ _ (operand_of_high w hhigh), hign, if_true]
  exact ignoreAt_run o own.ring 0

/-- R266: a release within the appended entries and before a veto; one over an end closes the ring. -/
theorem blrel_releases (hrel : r.rel.toNat < w.toNat) (happ : w.toNat ≤ r.app.toNat) (hvp : r.veto = true → w.toNat ≤ r.vp.toNat) :
    DoneWith (.blrel o) s { s with hub := { s.hub with rings := tput s.hub.rings k { r with
      rel := w.truncate 32, closed := r.closed || r.endIn r.rel.toNat w.toNat } } } (given s o.d 1) := by
  have hok : (decide (w.toNat ≤ r.rel.toNat) || decide (r.app.toNat < w.toNat) || (r.veto && decide (r.vp.toNat < w.toNat))) = false := by
    simpa [hrel, happ] using hvp
  refine (HubStep.ofHub s _).doneWith (exec_blrel o s) ?_
  simp only [bind_run, own.runs, reg_run, own.word, get_run, own.ring, trapIf_run _ _ _ (operand_of_high w hhigh), hok, Bool.false_eq_true, if_false,
    modRing_run, setReg_run]
  rfl

theorem blveto_ignored (h : w.toNat < r.rel.toNat ∨ r.app.toNat < w.toNat ∨ (r.veto = true ∧ r.vp.toNat ≤ w.toNat)) :
    IgnoredAt (.blveto o) s k r (given s o.d (-1)) := by
  have hign : (decide (w.toNat < r.rel.toNat) || decide (r.app.toNat < w.toNat) || (r.veto && decide (r.vp.toNat ≤ w.toNat))) = true := by
    simpa [or_assoc] using h
  refine ignoredAt_of_run (exec_blveto o s) ?_
  simp only [bind_run, own.runs, reg_run, own.word, get_run, own.ring, trapIf_run _ _ _ (operand_of_high w hhigh), hign, if_true]
  exact ignoreAt_run o own.ring (-1)

/-- R267: a veto of entries not yet released, before one that is pending, drops every entry from its position on. -/
theorem blveto_vetoes (hrel : r.rel.toNat ≤ w.toNat) (happ : w.toNat ≤ r.app.toNat) (hvp : r.veto = true → w.toNat < r.vp.toNat)
    (hnotice : r.notice = false) :
    DoneWith (.blveto o) s { s with hub := { s.hub with rings := tput s.hub.rings k { r with
      app := w.truncate 32, vp := w.truncate 32, veto := true
      entries := (List.range (r.app.toNat - w.toNat)).foldl (fun t i => tdel ((w.toNat + i) % 256) t) r.entries } } }
      (given s o.d (BitVec.ofNat 64 (r.app.toNat - w.toNat))) := by
  have hok : (decide (w.toNat < r.rel.toNat) || decide (r.app.toNat < w.toNat) || (r.veto && decide (r.vp.toNat ≤ w.toNat))) = false := by
    simpa [hrel, happ] using hvp
  refine (HubStep.ofHub s _).doneWith (exec_blveto o s) ?_
  simp only [bind_run, own.runs, reg_run, own.word, get_run, own.ring, trapIf_run _ _ _ (operand_of_high w hhigh), hok, Bool.false_eq_true, if_false,
    modRing_run, setReg_run, hnotice, pure_run]
  rfl

end
end

/-- Settles O45: the checks of R263 come first, and on a ring that passes them each instruction is one of its cases. -/
theorem blotterInstructions : Obligations.BlotterInstructions := by
  unfold Obligations.BlotterInstructions
  intro o s k w n r ops gives ignores
  refine ⟨fun h => traps_of_ownRing (ownRing_disabled h), fun hk he ha => traps_of_ownRing (ownRing_foreign hk he ha), fun hk he ha => ?_⟩
  have own : OwnsRing o s k w r := ⟨rfl, rfl, rfl, hk, he, ha⟩
  refine ⟨⟨blapp_traps own, fun hopen hgood => ⟨blapp_vetoed own hopen hgood, blapp_waits own hopen hgood, blapp_appends own hopen hgood⟩⟩,
    fun hform hres => ?status, blread_status_traps own, blread_entry_traps own, fun hhigh => ⟨?below, ?entry, blread_waits own hhigh,
      blrel_ignored own hhigh, blrel_releases own hhigh, blveto_ignored own hhigh, blveto_vetoes own hhigh⟩,
    fun hhigh => ⟨blrel_traps own hhigh, blveto_traps own hhigh⟩⟩
  case status =>
    have hdone := blread_status own hform hres
    generalize (w.extractLsb' 0 2).toNat = sel at hdone ⊢
    rw [Ring.status_eq] at hdone
    split
    · exact hdone
    · exact hdone
    · exact hdone
    · next h0 h1 h2 => rwa [if_neg h0, if_neg h1, if_neg h2] at hdone
  case below =>
    intro hbelow
    have hdone := blread_answers own hhigh (.inr hbelow)
    rwa [if_pos hbelow] at hdone
  case entry =>
    intro hrel happ
    have hdone := blread_answers own hhigh (.inl happ)
    rwa [if_neg (Nat.not_lt.mpr hrel), BlEntry.word_eq] at hdone

end Sys2Proof.Machine
end

section
/-! PROOFS. The scalar register–register and immediate instructions (R286, R287): each is one register write, and the word that the
model computes for it is the result that its row of Table 20.3 or 20.4 gives. -/

namespace Sys2Proof.Machine
open Sys2Proof.Spec

/-! ### Shifts: the amount is the low six bits of the second word -/

theorem and_63_toNat (b : BitVec 64) : (b &&& 63).toNat = b.toNat % 64 := by
  rw [BitVec.toNat_and]
  exact Nat.and_two_pow_sub_one_eq_mod b.toNat 6

theorem sllW_eq (a b : BitVec 64) : sllW a b = a <<< (b &&& 63) := by
  rw [BitVec.shiftLeft_eq', and_63_toNat, sllW]

theorem srlW_eq (a b : BitVec 64) : srlW a b = a >>> (b &&& 63) := by
  rw [BitVec.ushiftRight_eq', and_63_toNat, srlW]

theorem sraW_eq (a b : BitVec 64) : sraW a b = a.sshiftRight' (b &&& 63) := by
  rw [BitVec.sshiftRight_eq', and_63_toNat, sraW]

/-! ### High halves of products -/

/-- The quotient of an integer by 2^64, rounded down, is the upper half of its 128-bit form. -/
theorem upperHalf_ofInt (p : Int) : (BitVec.ofInt 128 p >>> 64).truncate 64 = BitVec.ofInt 64 (p / 2 ^ 64) := by
  apply BitVec.eq_of_toNat_eq
  simp only [BitVec.toNat_setWidth, BitVec.toNat_ushiftRight, BitVec.toNat_ofInt, Nat.shiftRight_eq_div_pow]
  omega

theorem mulhW_eq (a b : BitVec 64) : mulhW a b = ((a.signExtend 128 * b.signExtend 128) >>> 64).truncate 64 := by
  rw [BitVec.signExtend, BitVec.signExtend, ← BitVec.ofInt_mul, upperHalf_ofInt, mulhW]

theorem mulhnW_eq (a b : BitVec 64) : mulhnW a b = ((a.zeroExtend 128 * b.zeroExtend 128) >>> 64).truncate 64 := by
  have hprod : a.zeroExtend 128 * b.zeroExtend 128 = BitVec.ofInt 128 (a.toNat * b.toNat : Nat) := by
    rw [BitVec.ofInt_natCast, BitVec.ofNat_mul, BitVec.ofNat_toNat, BitVec.ofNat_toNat]
  rw [hprod, upperHalf_ofInt, mulhnW, ← BitVec.ofInt_natCast]
  rfl

/-! ### Division -/

theorem divW_eq (a b : BitVec 64) : divW a b = if b = 0 then BitVec.allOnes 64 else a.sdiv b := by
  have hquot : BitVec.ofInt 64 (a.toInt.tdiv b.toInt) = a.sdiv b := by
    apply BitVec.eq_of_toInt_eq
    rw [BitVec.toInt_ofInt, BitVec.toInt_sdiv]
  rw [divW, hquot]
  rfl

theorem divnW_eq (a b : BitVec 64) : divnW a b = if b = 0 then BitVec.allOnes 64 else a / b := by
  rw [divnW, BitVec.udiv_def]

theorem remW_eq (a b : BitVec 64) : remW a b = if b = 0 then a else a.srem b := by
  rw [remW, ← Int.tmod_def, ← BitVec.toInt_srem, BitVec.ofInt_toInt]

theorem remnW_eq (a b : BitVec 64) : remnW a b = if b = 0 then a else a % b := by
  rw [remnW, BitVec.umod_def]

/-! ### Orders -/

theorem minW_eq (a b : BitVec 64) : minW a b = if b.slt a then b else a := by
  simp only [minW, BitVec.slt_iff_toInt_lt, ← not_lt, ite_not]

theorem maxW_eq (a b : BitVec 64) : maxW a b = if b.slt a then a else b := by
  simp only [maxW, BitVec.slt_iff_toInt_lt, ← not_lt, ite_not]

theorem minnW_eq (a b : BitVec 64) : minnW a b = if b.ult a then b else a := by
  simp only [minnW, BitVec.ult_iff_toNat_lt, ← not_lt, ite_not]

theorem maxnW_eq (a b : BitVec 64) : maxnW a b = if b.ult a then a else b := by
  simp only [maxnW, BitVec.ult_iff_toNat_lt, ← not_lt, ite_not]

theorem sltW_eq (a b : BitVec 64) : sltW a b = if a.slt b then 1 else 0 := by
  simp only [sltW, BitVec.slt_iff_toInt_lt]

theorem sltnW_eq (a b : BitVec 64) : sltnW a b = if a.ult b then 1 else 0 := by
  simp only [sltnW, BitVec.ult_iff_toNat_lt]

/-! ### Counted bits -/

/-- The leading zeros of the low n bits are the bits above the highest one. -/
theorem clzBits_eq_find (v n : Nat) : clzBits v n = ((List.range n).find? fun k => v.testBit (n - 1 - k)).getD n := by
  induction n with
  | zero => rfl
  | succ n ih =>
    have hrest : ((fun k => v.testBit (n + 1 - 1 - k)) ∘ Nat.succ) = fun k => v.testBit (n - 1 - k) := by
      funext k
      exact congrArg v.testBit (by omega)
    rw [clzBits, ih, List.range_succ_eq_map, List.find?_cons, List.find?_map, hrest, Nat.add_sub_cancel, Nat.sub_zero]
    cases v.testBit n with
    | true => rfl
    | false => cases (List.range n).find? fun k => v.testBit (n - 1 - k) <;> exact Nat.add_comm ..

theorem clzW_eq (a : BitVec 64) : clzW a = BitVec.ofNat 64 (((List.range 64).find? fun k => a.getMsbD k).getD 64) := by
  have hbit : ∀ k ∈ List.range 64, a.toNat.testBit (64 - 1 - k) = a.getMsbD k := by
    intro k hk
    rw [BitVec.getMsbD_eq_getLsbD, decide_eq_true (List.mem_range.mp hk), Bool.true_and]
    rfl
  rw [clzW, clzBits_eq_find, List.find?_congr hbit]

theorem popcW_eq (a : BitVec 64) : popcW a = BitVec.ofNat 64 ((List.range 64).countP fun k => a.getLsbD k) := by
  rw [popcW, popBits_eq_countP]
  rfl

/-! ### One register write -/

section
variable {i : Instr} {s : State}

/-- An instruction that writes one register and completes. -/
theorem done_of_setR {r : Fin 32} {w : BitVec 64} (hi : exec i s = .next (s.setR r w).complete) : Done i s (given s r w) s.fallPc :=
  (HubStep.ofHub s s.hub).done (hi.trans (finish_ok (setReg_run r w s)).symm) rfl

theorem done_of_scalarRR {o : HT16R} {w : BitVec 64} (f : BitVec 64 → BitVec 64 → BitVec 64) (hi : exec i s = scalarRR f o s)
    (hf : f (s.getR o.a) (s.getR o.b) = w) : Done i s (given s o.d w) s.fallPc := by
  subst hf
  exact done_of_setR hi

theorem done_of_scalarR {o : HT16R} {w : BitVec 64} (f : BitVec 64 → BitVec 64) (hi : exec i s = scalarR f o s)
    (hf : f (s.getR o.a) = w) : Done i s (given s o.d w) s.fallPc := by
  subst hf
  exact done_of_setR hi

theorem done_of_scalarRI {o : HT32I} {w : BitVec 64} (f : BitVec 64 → BitVec 64 → BitVec 64) (hi : exec i s = scalarRI f o s)
    (hf : f (s.getR o.a) (o.imm.signExtend 64) = w) : Done i s (given s o.d w) s.fallPc := by
  subst hf
  exact done_of_setR hi
end

/-! ### The rows -/

/-- Table 20.3. -/
theorem scalarRows_done (p : (HT16R → Instr) × (BitVec 64 → BitVec 64 → BitVec 64)) (hp : p ∈ scalarRows) (o : HT16R) (s : State) :
    Done (p.1 o) s (given s o.d (p.2 (s.getR o.a) (s.getR o.b))) s.fallPc := by
  simp only [scalarRows, List.mem_cons, List.not_mem_nil, or_false] at hp
  rcases hp with rfl | rfl | rfl | rfl | rfl | rfl | rfl | rfl | rfl | rfl | rfl | rfl | rfl | rfl | rfl | rfl | rfl | rfl | rfl | rfl |
    rfl | rfl | rfl | rfl
  · exact done_of_scalarRR (· + ·) rfl rfl
  · exact done_of_scalarRR (· - ·) rfl rfl
  · exact done_of_scalarRR (· &&& ·) rfl rfl
  · exact done_of_scalarRR (· ||| ·) rfl rfl
  · exact done_of_scalarRR (· ^^^ ·) rfl rfl
  · exact done_of_scalarRR sllW rfl (sllW_eq ..)
  · exact done_of_scalarRR srlW rfl (srlW_eq ..)
  · exact done_of_scalarRR sraW rfl (sraW_eq ..)
  · exact done_of_scalarRR (· * ·) rfl rfl
  · exact done_of_scalarRR mulhW rfl (mulhW_eq ..)
  · exact done_of_scalarRR mulhnW rfl (mulhnW_eq ..)
  · exact done_of_scalarRR divW rfl (divW_eq ..)
  · exact done_of_scalarRR divnW rfl (divnW_eq ..)
  · exact done_of_scalarRR remW rfl (remW_eq ..)
  · exact done_of_scalarRR remnW rfl (remnW_eq ..)
  · exact done_of_scalarRR minW rfl (minW_eq ..)
  · exact done_of_scalarRR maxW rfl (maxW_eq ..)
  · exact done_of_scalarRR minnW rfl (minnW_eq ..)
  · exact done_of_scalarRR maxnW rfl (maxnW_eq ..)
  · exact done_of_scalarRR sltW rfl (sltW_eq ..)
  · exact done_of_scalarRR sltnW rfl (sltnW_eq ..)
  · exact done_of_scalarR id rfl rfl
  · exact done_of_scalarR clzW rfl (clzW_eq _)
  · exact done_of_scalarR popcW rfl (popcW_eq _)

/-- Table 20.4. -/
theorem immediateRows_done (p : (HT32I → Instr) × (BitVec 64 → BitVec 64 → BitVec 64)) (hp : p ∈ immediateRows) (o : HT32I) (s : State) :
    Done (p.1 o) s (given s o.d (p.2 (s.getR o.a) (o.imm.signExtend 64))) s.fallPc := by
  simp only [immediateRows, List.mem_cons, List.not_mem_nil, or_false] at hp
  rcases hp with rfl | rfl | rfl | rfl | rfl | rfl | rfl
  · exact done_of_scalarRI (· + ·) rfl rfl
  · exact done_of_scalarRI (· &&& ·) rfl rfl
  · exact done_of_scalarRI (· ||| ·) rfl rfl
  · exact done_of_scalarRI (· ^^^ ·) rfl rfl
  · exact done_of_scalarRI sllW rfl (sllW_eq ..)
  · exact done_of_scalarRI srlW rfl (srlW_eq ..)
  · exact done_of_scalarRI sraW rfl (sraW_eq ..)

/-- Settles O1: every instruction is one register write of the word that its row gives, and a register write completes with nothing
else changed. -/
theorem scalarResults : Obligations.ScalarResults := by
  unfold Obligations.ScalarResults
  exact ⟨scalarRows_done, immediateRows_done, fun o s => done_of_setR (show exec (.limm o) s = execLimm o s from rfl)⟩

end Sys2Proof.Machine
end
